-- ==== Sys2Proof/Word.lean ====
section
/-!
DEFINITION. The words of the machine (00_scope.md R11): bytes, nibbles, DDRAM addresses and line levels.
All values are unsigned (R11, R15); nothing else is defined here.
-/
namespace Sys2Proof

/-- A byte: 8 bits (R11). -/
abbrev Byte := BitVec 8

/-- A nibble: 4 bits, "unit of transfer in 4-bit bus mode" (R11, R18). -/
abbrev Nibble := BitVec 4

/-- A 7-bit DDRAM address (R53). -/
abbrev Addr7 := BitVec 7

/-- A level of one control line: `true` is 1 and `false` is 0 (R24 to R26). -/
abbrev Level := Bool

end Sys2Proof
end

