-- ==== Sys2Proof/Config.lean ====
section
/-!
DEFINITION. The configuration of the engine (00_scope.md R7 to R9), the common panels (43_address_translator.md R165)
and the one free value of the model.
-/
namespace Sys2Proof

/-- Data-bus width (R7 `BUSMODE`). -/
inductive BusMode where
  | bus4
  | bus8
  deriving DecidableEq, Repr

/-- `FEATURES` (R7): `full` has glyph, read-character, scroll and raw-read support; `reduced` has none of the four. -/
inductive Features where
  | full
  | reduced
  deriving DecidableEq, Repr

/-- `DISPLAY_TYPE` (R7). -/
inductive DisplayType where
  | lcd
  | vfd
  deriving DecidableEq, Repr

/-- No address stands twice in the table (R8 (b): the cell map is injective). -/
def allDistinct : List Addr7 → Bool
  | [] => true
  | a :: rest => !rest.contains a && allDistinct rest

/-- The constraints R8 puts on a geometry: bounds of R7, (a) the table's length, (b) injectivity.
(c), every entry below 0x80, is the entries' type. -/
def geometryOk (xmax ymax : Nat) (table : List Addr7) : Bool :=
  decide (xmax ≤ 127) && decide (ymax ≤ 127) && decide (table.length = (xmax + 1) * (ymax + 1)) && allDistinct table

/-- The configuration `cfg` (R7). A configuration that breaks R8 "is not a configuration" (R255), so none can be built:
`fits` is the check of R8. -/
structure Cfg where
  busMode : BusMode
  /-- `XMAX`, highest column. -/
  xmax : Nat
  /-- `YMAX`, highest row. -/
  ymax : Nat
  /-- `TABLE`, the DDRAM address of each cell, row-major (R52). -/
  table : List Addr7
  features : Features
  displayType : DisplayType
  /-- `NL_IMPLIES_CR`. -/
  nlImpliesCr : Bool
  /-- `TWO_LINE`, the line-count bit of function set (D29). -/
  twoLine : Bool
  /-- `VFD_INIT_INTENSITY`, used on a VFD only (D19). -/
  vfdInitIntensity : BitVec 2
  fits : geometryOk xmax ymax table = true
  deriving DecidableEq, Repr

/-- `HAS_GLYPH` (R9). -/
def Cfg.hasGlyph (c : Cfg) : Bool := decide (c.features = .full)

/-- `HAS_READCHAR` (R9). -/
def Cfg.hasReadChar (c : Cfg) : Bool := decide (c.features = .full)

/-- `HAS_SCROLL` (R9). -/
def Cfg.hasScroll (c : Cfg) : Bool := decide (c.features = .full)

/-- `HAS_RAWREAD` (R9). -/
def Cfg.hasRawRead (c : Cfg) : Bool := decide (c.features = .full)

/-- `HAS_INTENSITY` (R9). -/
def Cfg.hasIntensity (c : Cfg) : Bool := decide (c.displayType = .vfd)

namespace Config

/-- A display row of `width` cells whose addresses rise by one from `base` (R165). -/
def row (width base : Nat) : List Addr7 := (List.range width).map fun i => BitVec.ofNat 7 (base + i)

/-- A table from the DDRAM address of column 0 of each row (R165). -/
def rows (width : Nat) (bases : List Nat) : List Addr7 := bases.flatMap (row width)

/-- 8 by 1 (R165; PRESUMED there, general knowledge, as are the tables below). -/
def table8x1 : List Addr7 := rows 8 [0x00]

/-- 16 by 1, single range (R165). -/
def table16x1 : List Addr7 := rows 16 [0x00]

/-- 16 by 1, split: columns 8 to 15 at 0x40 to 0x47 (R165). -/
def table16x1split : List Addr7 := row 8 0x00 ++ row 8 0x40

/-- 8 by 2 (R165). -/
def table8x2 : List Addr7 := rows 8 [0x00, 0x40]

/-- 16 by 2 (R165). -/
def table16x2 : List Addr7 := rows 16 [0x00, 0x40]

/-- 20 by 2 (R165). -/
def table20x2 : List Addr7 := rows 20 [0x00, 0x40]

/-- 40 by 2 (R165). -/
def table40x2 : List Addr7 := rows 40 [0x00, 0x40]

/-- 16 by 4 (R165). -/
def table16x4 : List Addr7 := rows 16 [0x00, 0x40, 0x10, 0x50]

/-- 20 by 4 (R164, R165): row 2 at 0x14 is the source's own datum. -/
def table20x4 : List Addr7 := rows 20 [0x00, 0x40, 0x14, 0x54]

/-- A row of R165: a panel's geometry, its table, and the `TWO_LINE` value it needs; R8 holds of it. -/
structure Panel where
  xmax : Nat
  ymax : Nat
  twoLine : Bool
  table : List Addr7
  fits : geometryOk xmax ymax table = true
  deriving DecidableEq, Repr

/-- 8 by 1 (R165; PRESUMED there, general knowledge, as are the panels below). -/
def panel8x1 : Panel := ⟨7, 0, false, table8x1, by decide⟩

/-- 16 by 1, single range (R165). -/
def panel16x1 : Panel := ⟨15, 0, false, table16x1, by decide⟩

/-- 16 by 1, split (R165): one row, but two lines. -/
def panel16x1split : Panel := ⟨15, 0, true, table16x1split, by decide⟩

/-- 8 by 2 (R165). -/
def panel8x2 : Panel := ⟨7, 1, true, table8x2, by decide⟩

/-- 16 by 2 (R165). -/
def panel16x2 : Panel := ⟨15, 1, true, table16x2, by decide⟩

/-- 20 by 2 (R165). -/
def panel20x2 : Panel := ⟨19, 1, true, table20x2, by decide⟩

/-- 40 by 2 (R165). -/
def panel40x2 : Panel := ⟨39, 1, true, table40x2, by decide⟩

/-- 16 by 4 (R165). -/
def panel16x4 : Panel := ⟨15, 3, true, table16x4, by decide⟩

/-- 20 by 4 (R164, R165). -/
def panel20x4 : Panel := ⟨19, 3, true, table20x4, by decide⟩

/-- The common panels, in the order of R165. -/
def panels : List Panel :=
  [panel8x1, panel16x1, panel16x1split, panel8x2, panel16x2, panel20x2, panel40x2, panel16x4, panel20x4]

/-- The configuration of a panel, with the other fields of R7. -/
def Panel.cfg (p : Panel) (busMode : BusMode) (features : Features) (displayType : DisplayType) (nlImpliesCr : Bool)
    (vfdInitIntensity : BitVec 2) : Cfg where
  busMode := busMode
  xmax := p.xmax
  ymax := p.ymax
  table := p.table
  features := features
  displayType := displayType
  nlImpliesCr := nlImpliesCr
  twoLine := p.twoLine
  vfdInitIntensity := vfdInitIntensity
  fits := p.fits

/-- The configuration `State.reset` carries (DESIGN CHOICE, log 3): the one panel the source gives a datum of, on an
8-bit bus, with every operation of the opcode table present. No statement rests on it. -/
def resetCfg : Cfg := panel20x4.cfg .bus8 .full .vfd false 0

/-- A draw of the environment under no law (R14 `draw`, R17, R134): the level of eight data lines at the `n`-th draw for
which the environment's tape fixes nothing. A free value: no body, nothing constrains it (log 5). -/
opaque freeByte : Nat → Byte

end Config

end Sys2Proof
end

