-- ==== Sys2Proof/Syntax.lean ====
section
/-!
DEFINITION. The syntax: one constructor per row of spec/opcode_table.json (11 host operations, 7 controller commands,
4 bus transactions), the three spaces of the table, and the pseudo-instructions of 30_encoding.md R106.
-/
namespace Sys2Proof

/-- The `space` key of a row of the opcode table (30_encoding.md, opening). -/
inductive Space where
  | hostPacket
  | controllerCommand
  | busTransaction
  deriving DecidableEq, Repr

/-- The instructions. Operand widths are those of R93, R101 and R102. -/
inductive Instr where
  /-- INIT, opcode 0x01 (R230). -/
  | init
  /-- CLEAR, opcode 0x02 (R237). -/
  | clear
  /-- LOCATE x, y, opcode 0x03 (R185). -/
  | locate (x y : Byte)
  /-- CURSOR cursor, blink, opcode 0x04: mode bits 1 and 0 (R238). -/
  | cursor (cursor blink : Bool)
  /-- PUTC ch, opcode 0x05 (R187). -/
  | putc (ch : Byte)
  /-- PUTS text, opcode 0x06: the text without its terminator (R198). -/
  | puts (text : List Byte)
  /-- DEFGLYPH code, b0 .. b7, opcode 0x07 (R220). -/
  | defglyph (code : BitVec 3) (b0 b1 b2 b3 b4 b5 b6 b7 : Byte)
  /-- READCHAR x, y, opcode 0x08 (R181). -/
  | readchar (x y : Byte)
  /-- READRAM addr, opcode 0x09 (R180). -/
  | readram (addr : Addr7)
  /-- SCROLL, opcode 0x0A (R215). -/
  | scroll
  /-- INTENSITY level, opcode 0x0B (R239). -/
  | intensity (level : BitVec 2)
  /-- CMD_CLEAR, command byte 0x01 (R101). -/
  | cmdClear
  /-- CMD_ENTRY_INC, command byte 0x06 (R101). -/
  | cmdEntryInc
  /-- CMD_DISPLAY_BASE|mode, command byte 000011cb (R101). -/
  | cmdDisplay (cursor blink : Bool)
  /-- CMD_FS8, command byte 0x30 (R101). -/
  | cmdFs8
  /-- FS_REAL, command byte 001LN0bb (R101). -/
  | fsReal (l n : Bool) (bb : BitVec 2)
  /-- CMD_SET_CGRAM|code*8, command byte 01kkk000 (R101). -/
  | cmdSetCgram (code : BitVec 3)
  /-- CMD_SET_DDRAM|a, command byte 1aaaaaaa (R101). -/
  | cmdSetDdram (a : Addr7)
  /-- COMMAND_WRITE of the byte `v`: RS = 0, RW = 0 (R100, R141). -/
  | commandWrite (v : Byte)
  /-- DATA_WRITE of the byte `v`: RS = 1, RW = 0 (R100, R141). -/
  | dataWrite (v : Byte)
  /-- STATUS_READ: RS = 0, RW = 1 (R100, R154). -/
  | statusRead
  /-- DATA_READ: RS = 1, RW = 1 (R100, R142). -/
  | dataRead
  deriving DecidableEq, Repr

/-- The space of the opcode table an instruction belongs to. -/
def Instr.space : Instr → Space
  | .init | .clear | .locate _ _ | .cursor _ _ | .putc _ | .puts _ | .defglyph _ _ _ _ _ _ _ _ _ | .readchar _ _
  | .readram _ | .scroll | .intensity _ => .hostPacket
  | .cmdClear | .cmdEntryInc | .cmdDisplay _ _ | .cmdFs8 | .fsReal _ _ _ | .cmdSetCgram _ | .cmdSetDdram _ =>
    .controllerCommand
  | .commandWrite _ | .dataWrite _ | .statusRead | .dataRead => .busTransaction

/-- The pseudo-instructions (R106). -/
inductive Pseudo where
  | home
  | cls
  | newline
  | ret
  | print (text : List Byte)
  deriving DecidableEq, Repr

end Sys2Proof
end

