-- ==== Sys2Proof/Machine/State.lean ====
section
/-!
DEFINITION. The state, as plain data (10_state.md; 20_memory.md R61), the reasons a step can stop, and the machine right
after reset (R39, R280). INVENTORY.md, '## State', lists every field with its rule and reset value.
-/
namespace Sys2Proof.Machine

/-- The control lines (R130). -/
inductive Line where
  | rs
  | rw
  | e
  deriving DecidableEq, Repr

/-- The direction of all data lines together (R28). -/
inductive Dir where
  | input
  | output
  deriving DecidableEq, Repr

/-- A value on the data lines: four lines D7..D4 in BUS4, eight lines D7..D0 in BUS8 (R27, R130). -/
inductive Lines where
  | w4 (v : Nibble)
  | w8 (v : Byte)
  deriving DecidableEq, Repr

/-- The pin events (R130). -/
inductive Event where
  /-- A control line commanded to a level, followed by one settle delay. -/
  | ctl (line : Line) (level : Level)
  /-- All data lines switched to a direction. -/
  | dir (d : Dir)
  /-- A value presented on the data lines. -/
  | drive (v : Lines)
  /-- The data lines read; the environment supplied the value. -/
  | sample (v : Lines)
  /-- A blocking delay of `ms` milliseconds requested and completed. -/
  | delayMs (ms : Nat)
  deriving DecidableEq, Repr

/-- The pin latches (R24 to R28). -/
structure Pins where
  rs : Level
  rw : Level
  e : Level
  dout : Lines
  dir : Dir
  deriving DecidableEq, Repr

/-- Which nibble a strobe carries: the next one, as the controller in its 4-bit interface mode counts them (R61, R63); and
this one, as the engine counts the strobes of a `ReadByte` (R138, R139). -/
inductive Phase where
  | hi
  | lo
  deriving DecidableEq, Repr

/-- Which RAM the controller's address counter addresses (R61). -/
inductive Ram where
  | dd
  | cg
  deriving DecidableEq, Repr

/-- The reference controller's state (R61). -/
structure Ctl where
  /-- `ctl.if8`: its own interface is 8 bits wide. -/
  if8 : Bool
  /-- `ctl.phase`. -/
  phase : Phase
  /-- `ctl.nib`: the high nibble held between the two strobes of a 4-bit write. -/
  nib : Nibble
  /-- `ctl.AC`. -/
  ac : Addr7
  /-- `ctl.sel`. -/
  sel : Ram
  /-- `ctl.DDRAM`, in the canonical form of `Mem.wf`. -/
  ddram : List Host.Cell
  /-- `ctl.CGRAM`, in the canonical form of `Mem.wf`. -/
  cgram : List Host.Cell
  /-- `ctl.ID`: the address counter increments. -/
  incr : Bool
  /-- `ctl.S`: display shift on write. -/
  shift : Bool
  /-- `ctl.D`: display on. -/
  display : Bool
  /-- `ctl.C`: cursor mark on. -/
  cursor : Bool
  /-- `ctl.B`: blink on. -/
  blink : Bool
  /-- `ctl.N`: two lines. -/
  twoLine : Bool
  /-- `ctl.F`: font. -/
  font : Bool
  /-- `ctl.BR`: VFD intensity. -/
  bright : BitVec 2
  /-- `ctl.busy` (R70). -/
  busy : Bool
  /-- Model's own, for R66: no command and no data access came since the last address-set command (log 17). -/
  addrSet : Bool
  deriving DecidableEq, Repr

/-- Who answers on the bus: the reference controller (premise `REFCTL`, R73) or a controller of which nothing is assumed
(R60; log 6). -/
inductive Peer where
  | reference
  | unconstrained
  deriving DecidableEq, Repr

/-- The coming settle delays of the short delay source (R262 (b); log 23). -/
inductive Settles where
  /-- All of them return. -/
  | all
  /-- This many return; the one after them does not. -/
  | left (n : Nat)
  /-- One has been requested that never returns. -/
  | stuck
  deriving DecidableEq, Repr

/-- The external delay source (R262): its two services, as data. -/
structure Delays where
  /-- How many more millisecond delays return; none: all of them. -/
  ms : Option Nat
  settle : Settles
  deriving DecidableEq, Repr

/-- Premise `DELAY_RETURNS` (R262): every delay request of both services returns. -/
def Delays.all : Delays where
  ms := none
  settle := .all

/-- The environment (R6, R38, R60). All of it but `ctl` is the model's own: the environment's future answers as data. -/
structure Env where
  peer : Peer
  ctl : Ctl
  /-- Status reads have a meaning: step 2 of an INIT has completed since reset (R70, last sentence; log 20). -/
  settled : Bool
  /-- The busy flag of the coming status reads, in order: one draw each (R70 way (a); log 4). Of a 4-bit read it is D7 of
  the first strobe (R153), or of each strobe where the reference controller drives a busy flag on each: it is in 8-bit mode
  on a 4-bit bus (R253). -/
  busyBits : List Bool
  /-- The busy flag of every status read after those. -/
  busyAfter : Bool
  /-- The coming draws of line levels; past its end a draw is `Config.freeByte` (log 5). -/
  tape : List Byte
  /-- How many draws were made. -/
  drawn : Nat
  /-- Which delay requests return (R262; log 23). -/
  delays : Delays
  deriving DecidableEq, Repr

/-- Where an operation that never completes has stopped (R252, R262): in the poll loop of R150, in a millisecond delay, or
in a settle delay. -/
inductive Hang where
  | poll
  | delay
  | settle
  deriving DecidableEq, Repr

/-- The state of the machine: the engine of 10_state.md, the host's command list (R32) and the environment (R60). The
configuration is no part of it (R31 (a)). -/
structure Mutable where
  /-- `CX` (R20). -/
  cx : Byte
  /-- `CY` (R20). -/
  cy : Byte
  /-- `RS`, `RW`, `E`, `DOUT`, `DIR` (R24 to R28). -/
  pins : Pins
  /-- `INITED`, the ghost of R29. -/
  inited : Bool
  /-- `BUSY_OP` (R30). -/
  busyOp : Bool
  /-- Model's own: the wait in which an operation hangs for ever (R252; log 2). -/
  hang : Option Hang
  /-- `H`, the event history, oldest first (R130). -/
  hist : List Event
  /-- The response bytes handed to the host, oldest first (R90, R99). -/
  rsp : List Byte
  /-- The host's command list (R32). -/
  packets : List Byte
  /-- `CP`, the host's command pointer into it (R32). -/
  cp : Nat
  /-- Model's own: a word of the opcode table's other two spaces, run ahead of the host's packets (log 11). -/
  direct : Option (Space × List Byte)
  /-- The environment. -/
  env : Env
  deriving DecidableEq, Repr

/-- What `exec` and `step` are given: the state, and beside it the configuration, the machine's one argument (R7), which no
step writes. `execAt` and `stepAt` are the same machine with the two apart (log 3). -/
structure State extends Mutable where
  cfg : Cfg
  deriving DecidableEq, Repr

/-- The engine raises no exception (R250): there is no fault. -/
inductive Fault where
  deriving DecidableEq, Repr

/-- Why a request has no meaning (R17 `refuse`, R251, R257). All are safe: the model stops where the spec defines nothing. -/
inductive Refusal where
  /-- Raised by an arm of `exec` that has no meaning yet; safe. -/
  | notModelled (mnemonic : String)
  /-- Raised by every host operation and bus transaction requested while `BUSY_OP` is true (U3); safe. -/
  | busy
  /-- Raised by the fetch of a packet whose opcode is unassigned (R95); safe. -/
  | unassignedOpcode
  /-- Raised by an operation absent from the configuration (R95, U5); safe. -/
  | absentOperation
  /-- Raised by every host operation but INIT before the first INIT has completed (R286, U7); safe. -/
  | notInitialised
  /-- Raised by the fetch of a packet with a reserved operand bit set (R95); safe. -/
  | reservedBits
  /-- Raised by the fetch of a packet that ends too early (R98); safe. -/
  | truncatedPacket
  /-- Raised by LOCATE and READCHAR with a cell outside the panel (R162), and by PUTC, PUTS and SCROLL where they would
  resolve one, which no state of the resting invariant does (log 26); safe. -/
  | outOfRange
  /-- Raised by PUTS on a text that no packet carries (R96; log 27); safe. -/
  | illFormed
  /-- Raised by the fetch of a direct word that is no command byte of R101; safe. -/
  | unsentCommand
  /-- Raised by the fetch of a direct word that is no bus transaction of R100; safe. -/
  | notATransaction
  deriving DecidableEq, Repr

/-- What a meaning answers. -/
abbrev Answer := Host.Outcome State Fault Refusal

/-- The reference controller as `State.reset` has it: the HD44780's own power-on reset (PRESUMED, log 7). The spec makes
every field a draw (R72); no statement rests on these values. -/
def Ctl.powerOn : Ctl where
  if8 := true
  phase := .hi
  nib := 0
  ac := 0
  sel := .dd
  ddram := []
  cgram := []
  incr := true
  shift := false
  display := false
  cursor := false
  blink := false
  twoLine := false
  font := false
  bright := 0
  busy := false
  addrSet := false

/-- The environment as `State.reset` has it (DESIGN CHOICE, log 4 to log 7, log 23); no statement rests on it. -/
def Env.powerOn : Env where
  peer := .reference
  ctl := Ctl.powerOn
  settled := false
  busyBits := []
  busyAfter := false
  tape := []
  drawn := 0
  delays := .all

/-- The data lines at reset: unspecified (R39, U12); zero of the bus's width (DESIGN CHOICE, log 8). -/
def resetLines (m : BusMode) : Lines :=
  match m with
  | .bus4 => .w4 0
  | .bus8 => .w8 0

/-- The pin latches after reset (R39). -/
def Pins.reset (m : BusMode) : Pins where
  rs := false
  rw := true
  e := false
  dout := resetLines m
  dir := .input

/-- The machine right after reset with a configuration and an environment: R39 and R280 for the engine; reset reaches
neither of the two (R280 last row, R281). -/
def State.resetWith (cfg : Cfg) (env : Env) : State where
  cfg := cfg
  cx := 0
  cy := 0
  pins := Pins.reset cfg.busMode
  inited := false
  busyOp := false
  hang := none
  hist := []
  rsp := []
  packets := []
  cp := 0
  direct := none
  env := env

/-- The machine right after reset (R39, R280). -/
def State.reset : State := State.resetWith Config.resetCfg Env.powerOn

end Sys2Proof.Machine
end

