-- ==== Sys2Proof/Machine/Operands.lean ====
section
/-!
DEFINITION. Operand assembly: nibbles (20_memory.md R74, 30_encoding.md R103), the command-code constants (00_scope.md
R10), the command bytes the engine writes (R101, R102, R234), the status byte (R104), and the value of the data lines
(R27, R133).
-/
namespace Sys2Proof.Machine

/-- `v[7:4]` (R103). -/
def hiNibble (v : Byte) : Nibble := v.extractLsb' 4 4

/-- `v[3:0]` (R103). -/
def loNibble (v : Byte) : Nibble := v.extractLsb' 0 4

/-- `h ++ l` (R103, R139). -/
def joinNibbles (h l : Nibble) : Byte := h ++ l

/-- `CMD_CLEAR` (R10; PRESUMED there, general knowledge, as are the codes below; log 25). -/
def codeClear : Byte := 0x01

/-- `CMD_ENTRY_INC` (R10). -/
def codeEntryInc : Byte := 0x06

/-- `CMD_DISPLAY_BASE` (R10). -/
def codeDisplayBase : Byte := 0x0C

/-- `CMD_DISPLAY_ON_CURSOR_BLINK` (R10). -/
def codeDisplayOn : Byte := 0x0F

/-- `CMD_FS8` (R10). -/
def codeFs8 : Byte := 0x30

/-- `CMD_FS_BASE` (R10). -/
def codeFsBase : Byte := 0x20

/-- `CMD_SET_CGRAM` (R10). -/
def codeSetCgram : Byte := 0x40

/-- `CMD_SET_DDRAM` (R10). -/
def codeSetDdram : Byte := 0x80

/-- `CH_SPACE`, the fill character of ScrollUp (R10, R213). -/
def chSpace : Byte := 0x20

/-- `CH_LF` (R10). -/
def chLf : Byte := 0x0A

/-- `CH_CR` (R10). -/
def chCr : Byte := 0x0D

/-- A bit as a byte, 0 or 1. -/
def flagByte (b : Bool) : Byte := (BitVec.ofBool b).setWidth 8

/-- `CMD_SET_DDRAM | a` (R102 (a)). -/
def setDdramByte (a : Addr7) : Byte := codeSetDdram ||| a.setWidth 8

/-- `CMD_SET_CGRAM | (code * 8)` (R102 (b)). -/
def setCgramByte (code : BitVec 3) : Byte := codeSetCgram ||| (code.setWidth 8 * 8)

/-- `CMD_FS_BASE | (L << 4) | (N << 3) | bb` with the configured bus width and line count (R102 (c), R234, R239). -/
def functionSetByte (c : Cfg) (bb : BitVec 2) : Byte :=
  codeFsBase ||| (flagByte (decide (c.busMode = .bus8)) <<< 4) ||| (flagByte c.twoLine <<< 3) ||| bb.setWidth 8

/-- The intensity field of `FS_REAL`: `VFD_INIT_INTENSITY` on a VFD, 00 on an LCD (R234). -/
def initIntensity (c : Cfg) : BitVec 2 := if c.displayType = .vfd then c.vfdInitIntensity else 0

/-- `FS_REAL` (R234). -/
def fsRealByte (c : Cfg) : Byte := functionSetByte c (initIntensity c)

/-- `CMD_DISPLAY_BASE | (mode & 0x03)`, mode bit 1 = cursor mark, bit 0 = blink (R102 (d), R238). -/
def displayByte (cursor blink : Bool) : Byte := codeDisplayBase ||| (flagByte cursor <<< 1) ||| flagByte blink

/-- Bits 6:0 of a status byte (R104, R177). -/
def statusAddr (s : Byte) : Addr7 := s.extractLsb' 0 7

/-- The value of the data lines for eight levels D7..D0: all of them in BUS8, D7..D4 in BUS4 (R27, R74). -/
def linesOf (m : BusMode) (v : Byte) : Lines :=
  match m with
  | .bus4 => .w4 (hiNibble v)
  | .bus8 => .w8 v

end Sys2Proof.Machine
end

