-- ==== Sys2Proof/Machine/Ops.lean ====
section
/-!
DEFINITION. The named operations: the controller's two RAMs as canonical lists, the environment's draws, the engine's
registers, sequencing of micro-operations (00_scope.md R14), and the two ends of a host operation (acceptance and
completion, 10_state.md R30, 60_exceptions.md R257).

TAKING AN EXCEPTION: there is none. The engine raises no exception, saves nothing and has no handler address (R250,
R258), and there is no return from one (R259). What stands in its place is `accept`, the one place where a request is
refused, in the order of R257.
-/
namespace Sys2Proof.Machine

/-! ## The controller's RAMs -/

/-- What an address that is not listed reads as: the space character (log 9). -/
def Mem.unlisted : Byte := 0x20

/-- The byte at an address. -/
def Mem.read (m : List Host.Cell) (k : Nat) : Byte :=
  match m with
  | [] => Mem.unlisted
  | (a, b) :: rest => if a = k then b else Mem.read rest k

/-- The list without an entry for an address. -/
def Mem.erase (m : List Host.Cell) (k : Nat) : List Host.Cell :=
  match m with
  | [] => []
  | (a, b) :: rest => if a = k then rest else (a, b) :: Mem.erase rest k

/-- The list with an entry put at its place in rising order. -/
def Mem.insert (m : List Host.Cell) (k : Nat) (v : Byte) : List Host.Cell :=
  match m with
  | [] => [(k, v)]
  | (a, b) :: rest =>
    if k < a then (k, v) :: (a, b) :: rest
    else if a = k then (k, v) :: rest
    else (a, b) :: Mem.insert rest k v

/-- Store a byte, keeping the canonical form. -/
def Mem.write (m : List Host.Cell) (k : Nat) (v : Byte) : List Host.Cell :=
  if v = Mem.unlisted then Mem.erase m k else Mem.insert m k v

/-- Every address of the list is above `lo`. -/
def Mem.above (lo : Nat) (m : List Host.Cell) : Bool := m.all fun cell => decide (lo < cell.1)

/-- The canonical form: addresses strictly rising, no entry equal to what an unlisted address reads as. -/
def Mem.wf : List Host.Cell → Bool
  | [] => true
  | (a, b) :: rest => decide (b ≠ Mem.unlisted) && Mem.above a rest && Mem.wf rest

/-- Every address of the list is below `n`. -/
def Mem.below (n : Nat) (m : List Host.Cell) : Bool := m.all fun cell => decide (cell.1 < n)

/-! ## Draws of the environment -/

/-- `draw v : bits(8)` (R14): the next level of the tape, or past its end a free value (log 5). -/
def Env.draw (v : Env) : Byte × Env :=
  match v.tape with
  | b :: rest => (b, { v with tape := rest, drawn := v.drawn + 1 })
  | [] => (Config.freeByte v.drawn, { v with drawn := v.drawn + 1 })

/-- The draw of the busy flag at a status read (R70 way (a); log 4). -/
def Env.drawBusy (v : Env) : Bool × Env :=
  match v.busyBits with
  | b :: rest => (b, { v with busyBits := rest })
  | [] => (v.busyAfter, v)

/-- A millisecond delay request: the environment after it has returned, or none where it never returns (R262 (a); log 23). -/
def Env.delay (v : Env) : Option Env :=
  match v.delays.ms with
  | none => some v
  | some 0 => none
  | some (n + 1) => some { v with delays := { v.delays with ms := some n } }

/-- A settle delay request: what is left of the coming settle delays (R262 (b); log 23). -/
def Settles.take : Settles → Settles
  | .all => .all
  | .left 0 => .stuck
  | .left (n + 1) => .left n
  | .stuck => .stuck

/-- The environment after a settle delay was requested of it. -/
def Env.settle (v : Env) : Env := { v with delays := { v.delays with settle := v.delays.settle.take } }

/-- Premise `CTL_EVENTUALLY_READY` (R152) as far as the draws go: every endless row of busy-flag draws has a 0 in it. -/
def Env.eventuallyReady (v : Env) : Bool := !v.busyAfter

/-- The engine waits in a settle delay that never returns: no later line of the operation's pseudocode is reached. -/
def State.stuck (s : State) : Bool := decide (s.env.delays.settle = .stuck)

/-! ## The engine's registers -/

/-- `emit ev` (R14, R130). -/
def State.emit (s : State) (ev : Event) : State := { s with hist := s.hist ++ [ev] }

/-- Write the cursor registers (R20, R22). -/
def State.setCursor (s : State) (x y : Byte) : State := { s with cx := x, cy := y }

/-- `cmd_ready` of the host port (R90): the engine can take a packet. -/
def State.cmdReady (s : State) : Bool := !s.busyOp

/-- The reset input `rst` (R280): the engine's registers as after reset, the configuration unchanged, the host's list not
reached. What the controller is at a reset is a draw (R72, R281): `k`, of which nothing is assumed; a reset that does not
disturb it has `k` as it was. Status reads have no meaning again until an INIT (R70; log 20), and a delay in progress is over:
`d` says what the delay source does from then on (log 35). It may come while an operation runs: `resetDuring`. -/
def applyReset (k : Ctl) (d : Delays) (s : State) : State :=
  { State.resetWith s.cfg { s.env with ctl := k, settled := false, delays := d } with
    packets := s.packets
    cp := s.cp
    direct := s.direct }

/-! ## Sequencing -/

/-- How a micro-operation ends (R17): it completes with a result; it hangs, with the state at which it hangs (R252); or
the operation that called it is refused. -/
inductive Ran (α : Type) where
  | done (a : α) (s : State)
  | hung (s : State)
  | stop (r : Refusal)
  deriving Repr

/-- `a; b` (R14): the second runs only when the first has completed. -/
def Ran.bind {α β : Type} (r : Ran α) (f : α → State → Ran β) : Ran β :=
  match r with
  | .done a s => f a s
  | .hung s => .hung s
  | .stop q => .stop q

/-- The micro-operation so far has come to its end; or it is still in a settle delay that never returns, and so is the
operation that called it (R262). -/
def unlessStuck {α : Type} (a : α) (s : State) : Ran α :=
  if s.stuck then .hung { s with hang := some .settle } else .done a s

/-- A `for` loop over a list of values, in order (R14). -/
def forEach {α : Type} (items : List α) (body : α → State → Ran Unit) (s : State) : Ran Unit :=
  match items with
  | [] => .done () s
  | i :: rest => (body i s).bind fun _ t => forEach rest body t

/-! ## Acceptance and completion of a host operation -/

/-- The checks of R257 that a decoded request meets, in order: the handshake (U3), presence in the configuration (R95), a
completed INIT (R286). -/
def accept (s : State) (present initFirst : Bool) (go : Answer) : Answer :=
  if s.busyOp then .refused .busy
  else if !present then .refused .absentOperation
  else if initFirst && !s.inited then .refused .notInitialised
  else go

/-- Run an operation: `BUSY_OP` is true from acceptance to completion (R30); on completion the result, if there is one, is
handed to the host (R90, R99); an operation that hangs leaves `BUSY_OP` true (R252). -/
def runOp (s : State) (body : State → Ran (Option Byte)) : Answer :=
  match body { s with busyOp := true } with
  | .done r t => .next { t with busyOp := false, rsp := t.rsp ++ r.toList }
  | .hung t => .next t
  | .stop q => .refused q

/-- An operation without a result (R99). -/
def noResult (r : Ran Unit) : Ran (Option Byte) := r.bind fun _ t => .done none t

/-- An operation whose result is a byte (R99). -/
def withResult (r : Ran Byte) : Ran (Option Byte) := r.bind fun b t => .done (some b) t

end Sys2Proof.Machine
end

