-- ==== Sys2Proof/Machine/Controller.lean ====
section
/-!
DEFINITION. The reference controller `REFCTL` (20_memory.md R60 to R71): its reaction to a completed command or data byte,
the nibble pairing of its 4-bit interface, and what it drives on a read. With `Env.peer = .unconstrained` none of this
answers: every sampled level is a draw (R60, R134).
-/
namespace Sys2Proof.Machine

/-! ## The address counter -/

/-- The DDRAM addresses the controller implements (R68). -/
def Ctl.implemented (k : Ctl) (a : Addr7) : Bool :=
  if k.twoLine then decide (a.toNat ≤ 0x27) || (decide (0x40 ≤ a.toNat) && decide (a.toNat ≤ 0x67))
  else decide (a.toNat ≤ 0x4F)

/-- `step` with `ctl.ID` true (R67); an address outside the implemented set counts on modulo 128 (log 19). -/
def Ctl.stepUp (k : Ctl) : Addr7 :=
  match k.sel with
  | .cg => (k.ac + 1) &&& 0x3F
  | .dd =>
    if k.twoLine then if k.ac = 0x27 then 0x40 else if k.ac = 0x67 then 0 else k.ac + 1
    else if k.ac = 0x4F then 0 else k.ac + 1

/-- `step` with `ctl.ID` false, "the reverse" (R67; log 19). -/
def Ctl.stepDown (k : Ctl) : Addr7 :=
  match k.sel with
  | .cg => (k.ac - 1) &&& 0x3F
  | .dd =>
    if k.twoLine then if k.ac = 0x40 then 0x27 else if k.ac = 0 then 0x67 else k.ac - 1
    else if k.ac = 0 then 0x4F else k.ac - 1

/-- `step(ctl.AC)` (R67). -/
def Ctl.step (k : Ctl) : Addr7 := if k.incr then k.stepUp else k.stepDown

/-! ## Commands (R64) -/

/-- A command or a data access has completed: the busy flag rises (R70), and a data read no longer directly follows an
address set (R66). -/
def Ctl.accessed (k : Ctl) : Ctl := { k with busy := true, addrSet := false }

/-- An address-set command has completed (R64, R66, R70). -/
def Ctl.addressed (k : Ctl) (sel : Ram) (a : Addr7) : Ctl := { k with ac := a, sel := sel, busy := true, addrSet := true }

/-- Set DDRAM address. -/
def Ctl.setDdram (k : Ctl) (a : Addr7) : Ctl := k.addressed .dd a

/-- Set CGRAM address: `zext_7(a)`. -/
def Ctl.setCgram (k : Ctl) (a : BitVec 6) : Ctl := k.addressed .cg (a.setWidth 7)

/-- Function set: interface width, line count, font; the intensity on a VFD only; the nibble phase becomes `hi` where the
interface becomes 4 bits wide. -/
def Ctl.functionSet (k : Ctl) (display : DisplayType) (l n f : Bool) (bb : BitVec 2) : Ctl :=
  { k.accessed with
    if8 := l
    twoLine := n
    font := f
    bright := if display = .vfd then bb else k.bright
    phase := if l then k.phase else .hi }

/-- Display on/off control. -/
def Ctl.displayControl (k : Ctl) (d c b : Bool) : Ctl := { k.accessed with display := d, cursor := c, blink := b }

/-- Entry mode set. -/
def Ctl.entryMode (k : Ctl) (i s : Bool) : Ctl := { k.accessed with incr := i, shift := s }

/-- Return home. -/
def Ctl.home (k : Ctl) : Ctl := { k.accessed with ac := 0, sel := .dd }

/-- Clear display: every DDRAM byte becomes 0x20, which is what an unlisted address reads as. -/
def Ctl.clearDisplay (k : Ctl) : Ctl := { k.accessed with ddram := [], ac := 0, sel := .dd, incr := true }

/-- Cursor or display shift: the address counter becomes a draw (R64; log 16). -/
def Ctl.shifted (k : Ctl) (a : Addr7) : Ctl := { k.accessed with ac := a }

/-- A completed write with RS = 0: the command is decoded by its highest set bit (R64). The byte 0x00 is undefined: from it
on nothing is assumed of the controller (log 15). -/
def Env.command (c : Cfg) (b : Byte) (v : Env) : Env :=
  if b.getLsbD 7 then { v with ctl := v.ctl.setDdram (b.extractLsb' 0 7) }
  else if b.getLsbD 6 then { v with ctl := v.ctl.setCgram (b.extractLsb' 0 6) }
  else if b.getLsbD 5 then
    { v with ctl := v.ctl.functionSet c.displayType (b.getLsbD 4) (b.getLsbD 3) (b.getLsbD 2) (b.extractLsb' 0 2) }
  else if b.getLsbD 4 then { v.draw.2 with ctl := v.draw.2.ctl.shifted (v.draw.1.extractLsb' 0 7) }
  else if b.getLsbD 3 then { v with ctl := v.ctl.displayControl (b.getLsbD 2) (b.getLsbD 1) (b.getLsbD 0) }
  else if b.getLsbD 2 then { v with ctl := v.ctl.entryMode (b.getLsbD 1) (b.getLsbD 0) }
  else if b.getLsbD 1 then { v with ctl := v.ctl.home }
  else if b.getLsbD 0 then { v with ctl := v.ctl.clearDisplay }
  else { v with peer := .unconstrained }

/-! ## Data (R65, R66, R68) -/

/-- The CGRAM address in the counter. CGRAM has 64 bytes (R54) and the counter seven bits (R61); no rule says which byte a
counter of 64 or more reaches, and the model takes its low six bits (DESIGN CHOICE, log 33). -/
def Ctl.cgAddr (k : Ctl) : Nat := (k.ac.extractLsb' 0 6).toNat

/-- A completed write with RS = 1: the byte is stored at the counter, or lost at an unimplemented DDRAM address (R65, R68),
and the counter steps. -/
def Ctl.dataWrite (k : Ctl) (b : Byte) : Ctl :=
  match k.sel with
  | .cg => { k.accessed with cgram := Mem.write k.cgram k.cgAddr b, ac := k.step }
  | .dd =>
    if k.implemented k.ac then { k.accessed with ddram := Mem.write k.ddram k.ac.toNat b, ac := k.step }
    else { k.accessed with ac := k.step }

/-- What a data read returns: the byte at the counter, where the read directly follows an address set and the address is
implemented; otherwise none, a draw (R66, R68). -/
def Ctl.dataByte (k : Ctl) : Option Byte :=
  if k.addrSet then
    match k.sel with
    | .cg => some (Mem.read k.cgram k.cgAddr)
    | .dd => if k.implemented k.ac then some (Mem.read k.ddram k.ac.toNat) else none
  else none

/-- A completed data read steps the counter (R66). -/
def Ctl.dataTaken (k : Ctl) : Ctl := { k.accessed with ac := k.step }

/-! ## Strobes (R62, R63) -/

/-- The controller's next strobe carries a high nibble, or a whole byte. -/
def Env.aligned (v : Env) : Env := { v with ctl := { v.ctl with phase := .hi } }

/-- A whole byte has been written: the controller acts on it and its phase is `hi` (R63; log 18). -/
def Env.takeByte (c : Cfg) (rs : Level) (b : Byte) (v : Env) : Env :=
  if rs then { v with ctl := v.ctl.dataWrite b }.aligned else (v.command c b).aligned

/-- D7..D0 as an 8-bit controller sees them at a write strobe: lines the engine does not drive are draws (R62; log 22). -/
def Env.seenByte (lines : Option Lines) (v : Env) : Byte × Env :=
  match lines with
  | some (.w8 b) => (b, v)
  | some (.w4 n) => (joinNibbles n (loNibble v.draw.1), v.draw.2)
  | none => v.draw

/-- D7..D4 as a 4-bit controller sees them at a write strobe (R62; log 22). -/
def Env.seenNibble (lines : Option Lines) (v : Env) : Nibble × Env :=
  match lines with
  | some (.w8 b) => (hiNibble b, v)
  | some (.w4 n) => (n, v)
  | none => (hiNibble v.draw.1, v.draw.2)

/-- The falling edge of E of a write strobe (R62, R63): the controller takes the lines. -/
def Env.takeStrobe (c : Cfg) (rs : Level) (lines : Option Lines) (v : Env) : Env :=
  match v.peer with
  | .unconstrained => v
  | .reference =>
    if v.ctl.if8 then (v.seenByte lines).2.takeByte c rs (v.seenByte lines).1
    else
      match v.ctl.phase with
      | .hi =>
        { (v.seenNibble lines).2 with ctl := { (v.seenNibble lines).2.ctl with nib := (v.seenNibble lines).1, phase := .lo } }
      | .lo => (v.seenNibble lines).2.takeByte c rs (joinNibbles v.ctl.nib (v.seenNibble lines).1)

/-- The falling edge of E of a read strobe (R63, R66, R69): the nibble phase advances, and a completed data read steps the
counter. A status read changes nothing else. -/
def Env.endRead (rs : Level) (v : Env) : Env :=
  match v.peer with
  | .unconstrained => v
  | .reference =>
    if !v.ctl.if8 && decide (v.ctl.phase = .hi) then { v with ctl := { v.ctl with phase := .lo } }
    else if rs then { v with ctl := v.ctl.dataTaken }.aligned
    else v.aligned

/-- Levels of D7..D0 that only the draws fix, at the strobe `part` of the engine's read: D7 of the first strobe of a status
read is a draw of the busy flag (R70, R153); every other level is a draw under no law (R134), D7 of the second strobe of a
4-bit status read among them (bit 3 of `s`). -/
def Env.freeLines (rs : Level) (part : Phase) (v : Env) : Byte × Env :=
  if rs || decide (part = .lo) then v.draw
  else (BitVec.ofBool v.drawBusy.1 ++ v.drawBusy.2.draw.1.extractLsb' 0 7, v.drawBusy.2.draw.2)

/-- Four levels on D7..D4; D3..D0, which a 4-bit controller does not drive, are draws where the engine has such lines
(R62; log 22). -/
def Env.padLines (m : BusMode) (n : Nibble) (v : Env) : Byte × Env :=
  match m with
  | .bus4 => (joinNibbles n 0, v)
  | .bus8 => (joinNibbles n (loNibble v.draw.1), v.draw.2)

/-- The busy flag as a status read returns it: drawn, and from then on the controller's (R70 way (a); log 21). -/
def Env.refreshBusy (v : Env) : Env :=
  { v.drawBusy.2 with ctl := { v.drawBusy.2.ctl with busy := v.drawBusy.1 } }

/-- `ctl.busy ++ ctl.AC` (R69). -/
def Ctl.status (k : Ctl) : Byte := BitVec.ofBool k.busy ++ k.ac

/-- What the reference controller drives during a status-read strobe (R63, R69). -/
def Env.driveStatus (c : Cfg) (v : Env) : Byte × Env :=
  if v.ctl.if8 then (v.refreshBusy.ctl.status, v.refreshBusy)
  else
    match v.ctl.phase with
    | .hi => v.refreshBusy.padLines c.busMode (hiNibble v.refreshBusy.ctl.status)
    | .lo => v.padLines c.busMode (loNibble v.ctl.status)

/-- The byte of a data read, drawn where the controller fixes none (R66, R68). -/
def Env.dataOrDraw (v : Env) : Byte × Env :=
  match v.ctl.dataByte with
  | some b => (b, v)
  | none => v.draw

/-- What the reference controller drives during a data-read strobe (R63, R66). -/
def Env.driveData (c : Cfg) (v : Env) : Byte × Env :=
  if v.ctl.if8 then v.dataOrDraw
  else
    match v.ctl.phase with
    | .hi => v.dataOrDraw.2.padLines c.busMode (hiNibble v.dataOrDraw.1)
    | .lo => v.dataOrDraw.2.padLines c.busMode (loNibble v.dataOrDraw.1)

/-- The levels of D7..D0 the engine may sample while E is high and RW = 1, at the strobe `part` of its read (R62, R134).
Status reads before INIT's step 2 has completed have no meaning in REFCTL (R70; log 20). -/
def Env.answer (c : Cfg) (rs : Level) (part : Phase) (v : Env) : Byte × Env :=
  match v.peer with
  | .unconstrained => v.freeLines rs part
  | .reference =>
    if rs then v.driveData c
    else if v.settled then v.driveStatus c
    else v.freeLines rs part

/-! ## What the panel shows (R65, R71) -/

/-- The five pixels of a glyph row, leftmost first: bits 4 to 0; bits 7:5 are ignored (R71). -/
def glyphPixels (row : Byte) : List Bool := [row.getLsbD 4, row.getLsbD 3, row.getLsbD 2, row.getLsbD 1, row.getLsbD 0]

/-- The glyph slot a character code displays: 0x00 .. 0x07 and again 0x08 .. 0x0F (R71). -/
def glyphSlot (code : Byte) : Option (BitVec 3) := if code.toNat < 16 then some (code.extractLsb' 0 3) else none

/-- The eight rows of a slot, top row first (R54, R71). -/
def Ctl.glyphRows (k : Ctl) (slot : BitVec 3) : List Byte :=
  (List.range 8).map fun i => Mem.read k.cgram (slot.toNat * 8 + i)

end Sys2Proof.Machine
end

