-- ==== Sys2Proof/Machine/Commands.lean ====
section
/-!
DEFINITION. The opcode table's controller commands (30_encoding.md R101) as the controller executes them: the effect
20_memory.md R64 gives the completed byte (log 12). The same operations on the controller are what the bytes reach when the
engine sends them (`Env.command`).
-/
namespace Sys2Proof.Machine

/-- A change of the controller alone. -/
def onCtl (f : Ctl → Ctl) (s : State) : Answer := .next { s with env := { s.env with ctl := f s.env.ctl } }

/-- CMD_CLEAR (R64, R101). -/
def execCmdClear (s : State) : Answer := onCtl Ctl.clearDisplay s

/-- CMD_ENTRY_INC: I = 1, S = 0 (R64, R101). -/
def execCmdEntryInc (s : State) : Answer := onCtl (fun k => k.entryMode true false) s

/-- CMD_DISPLAY_BASE|mode: D = 1 (R64, R101). -/
def execCmdDisplay (cursor blink : Bool) (s : State) : Answer := onCtl (fun k => k.displayControl true cursor blink) s

/-- CMD_FS8: L = 1, N = 0, F = 0, bb = 00 (R64, R101). -/
def execCmdFs8 (s : State) : Answer := onCtl (fun k => k.functionSet s.cfg.displayType true false false 0) s

/-- FS_REAL: F = 0 (R64, R101). -/
def execFsReal (l n : Bool) (bb : BitVec 2) (s : State) : Answer :=
  onCtl (fun k => k.functionSet s.cfg.displayType l n false bb) s

/-- CMD_SET_CGRAM|code*8 (R64, R101). -/
def execCmdSetCgram (code : BitVec 3) (s : State) : Answer := onCtl (fun k => k.setCgram (code ++ 0#3)) s

/-- CMD_SET_DDRAM|a (R64, R101). -/
def execCmdSetDdram (a : Addr7) (s : State) : Answer := onCtl (fun k => k.setDdram a) s

end Sys2Proof.Machine
end

