-- ==== Sys2Proof/Machine/Bus.lean ====
section
/-!
DEFINITION. The Bus Transfer Engine (41_bus_transfer.md R130 to R142): the line primitives, the transfer of one byte on an
8-bit and on a 4-bit bus, and the framed transactions. The only micro-operations that touch pins.
-/
namespace Sys2Proof.Machine

/-- What the engine puts on the data lines: `DOUT` while `DIR = output`, nothing while `DIR = input` (R27, R28). -/
def State.driven (s : State) : Option Lines :=
  match s.pins.dir with
  | .output => some s.pins.dout
  | .input => none

/-- The controller's reaction to the falling edge of E, with the levels of RS and RW during the strobe (R62). -/
def State.strobed (s : State) : State :=
  if s.pins.rw then { s with env := s.env.endRead s.pins.rs }
  else { s with env := s.env.takeStrobe s.cfg s.pins.rs s.driven }

/-- The latch and the event of `SetControlLine(line, level)` (R131), also where the level does not change. A falling edge of
E ends a strobe (R62, R135; log 29). -/
def commandLine (line : Line) (level : Level) (s : State) : State :=
  match line with
  | .rs => { s with pins := { s.pins with rs := level } }.emit (.ctl .rs level)
  | .rw => { s with pins := { s.pins with rw := level } }.emit (.ctl .rw level)
  | .e =>
    if s.pins.e && !level then { s.strobed with pins := { s.pins with e := level } }.emit (.ctl .e level)
    else { s with pins := { s.pins with e := level } }.emit (.ctl .e level)

/-- `SetControlLine(line, level)` (R131): the line is commanded, then a settle delay is requested (R262 (b)). This and the
other line operations are reached only while no settle delay is stuck. -/
def setControlLine (line : Line) (level : Level) (s : State) : State :=
  if s.stuck then s else { commandLine line level s with env := (commandLine line level s).env.settle }

/-- `SetBusDirection(d)` (R132). -/
def setBusDirection (d : Dir) (s : State) : State :=
  if s.stuck then s else { s with pins := { s.pins with dir := d } }.emit (.dir d)

/-- `Drive(v)` (R133). -/
def drive (v : Lines) (s : State) : State :=
  if s.stuck then s else { s with pins := { s.pins with dout := v } }.emit (.drive v)

/-- `SampleLines() -> v` (R134): eight levels in BUS8; in BUS4 D7..D4, as bits 7:4 of the byte returned. Where it is not
reached no value is drawn, and the byte that stands in the answer's place is read by nothing. `part` is which strobe of
`ReadByte` this is, first or second (R138, R139): it tells the busy flag's draw from a draw under no law (R153). -/
def sampleLines (part : Phase) (s : State) : Byte × State :=
  if s.stuck then (0, s)
  else
    ((s.env.answer s.cfg s.pins.rs part).1,
      { s with env := (s.env.answer s.cfg s.pins.rs part).2 }.emit
        (.sample (linesOf s.cfg.busMode (s.env.answer s.cfg s.pins.rs part).1)))

/-- A write strobe (R135): E high, then E low. -/
def strobe (s : State) : State := setControlLine .e false (setControlLine .e true s)

/-- A read strobe (R135): the sample is taken while E is high. -/
def readStrobe (part : Phase) (s : State) : Byte × State :=
  ((sampleLines part (setControlLine .e true s)).1, setControlLine .e false (sampleLines part (setControlLine .e true s)).2)

/-- `WriteByte(v)` (R136, R137). -/
def writeByte (v : Byte) (s : State) : State :=
  match s.cfg.busMode with
  | .bus8 => strobe (drive (.w8 v) (setBusDirection .output s))
  | .bus4 => strobe (drive (.w4 (loNibble v)) (strobe (drive (.w4 (hiNibble v)) (setBusDirection .output s))))

/-- `ReadByte() -> v` (R138, R139): in BUS4 two strobes, always, high nibble first. -/
def readByte (s : State) : Byte × State :=
  match s.cfg.busMode with
  | .bus8 => readStrobe .hi s
  | .bus4 =>
    (joinNibbles (hiNibble (readStrobe .hi s).1) (hiNibble (readStrobe .lo (readStrobe .hi s).2).1),
      (readStrobe .lo (readStrobe .hi s).2).2)

/-- `RawWrite(v)` (R140): one strobe whatever the bus mode; in BUS4 it carries the high nibble. -/
def rawWrite (v : Byte) (s : State) : State := strobe (drive (linesOf s.cfg.busMode v) (setBusDirection .output s))

/-- `BusWrite(rs, v)` (R141). -/
def busWrite (rs : Level) (v : Byte) (s : State) : State :=
  writeByte v (setControlLine .rw false (setControlLine .rs rs s))

/-- `BusRead(rs) -> v` (R142). -/
def busRead (rs : Level) (s : State) : Byte × State :=
  readByte (setControlLine .rw true (setControlLine .rs rs (setBusDirection .input s)))

end Sys2Proof.Machine
end

