-- ==== Sys2Proof/Machine/Flags.lean ====
section
/-!
DEFINITION. The predicates the engine evaluates (10_state.md R34). The engine has no flag of its own: the one status bit
it consumes is the controller's busy flag, tested in the poll loop and stored nowhere.
-/
namespace Sys2Proof.Machine

/-- `BF`: bit 7 of a status byte (R34, R104). -/
def busyFlag (s : Byte) : Bool := s.getLsbD 7

/-- `CY > YMAX` (R190, R191). -/
def pastRow (s : State) : Bool := decide (s.cfg.ymax < s.cy.toNat)

/-- `CX > XMAX` (R195). -/
def pastColumn (s : State) : Bool := decide (s.cfg.xmax < s.cx.toNat)

/-- `YMAX = 0` (R211). -/
def oneRow (c : Cfg) : Bool := decide (c.ymax = 0)

/-- Is the operation of a host opcode present in the configuration (R92, column "present when"). -/
def opcodePresent (c : Cfg) (op : Byte) : Bool :=
  if op = 0x07 then c.hasGlyph
  else if op = 0x08 then c.hasReadChar
  else if op = 0x09 then c.hasRawRead
  else if op = 0x0A then c.hasScroll
  else if op = 0x0B then c.hasIntensity
  else true

end Sys2Proof.Machine
end

