-- ==== Sys2Proof/Machine/BusySync.lean ====
section
/-!
DEFINITION. The Busy-Flag Synchronizer (42_busy_sync.md R150 to R155) and the delay requests (60_exceptions.md R262).
-/
namespace Sys2Proof.Machine

/-- `StatusRead() -> s` (R154). -/
def statusRead (s : State) : Byte × State := busRead false s

/-- The polls of `WaitUntilReady`: status reads until bit 7 is 0. The budget is no bound of the engine's (R151): it is
`pollBudget`, after which no later poll can read ready, so the loop goes on for ever and the operation hangs. -/
def pollLoop (budget : Nat) (s : State) : Ran Unit :=
  match budget with
  | 0 => .hung { s with hang := some .poll }
  | n + 1 =>
    (unlessStuck (statusRead s).1 (statusRead s).2).bind fun status t =>
      if busyFlag status then pollLoop n t else .done () t

/-- Polls after which the poll loop can only go on for ever: the answers listed are used up, and in every wiring and
interface mode the answers of two polls in a row repeat from there on (log 2). -/
def pollBudget (s : State) : Nat := 2 * s.env.busyBits.length + 2

/-- `WaitUntilReady()` (R150): at least one status read, no bound, no timeout (R151). -/
def waitUntilReady (s : State) : Ran Unit := pollLoop (pollBudget s) s

/-- `DelayMs(n)` (R262): an event without duration; a delay that never returns is another way to hang. -/
def delayMs (ms : Nat) (s : State) : Ran Unit :=
  (unlessStuck () s).bind fun _ t =>
    match t.env.delay with
    | some v => .done () ({ t with env := v }.emit (.delayMs ms))
    | none => .hung { t with hang := some .delay }

/-- One more step of an operation that hangs: in the poll loop one more status read (R252), unless a settle delay of it never
returns; in a delay, nothing. -/
def hangOn (s : State) : State :=
  match s.hang with
  | some .poll => if (statusRead s).2.stuck then { (statusRead s).2 with hang := some .settle } else (statusRead s).2
  | some .delay => s
  | some .settle => s
  | none => s

end Sys2Proof.Machine
end

