-- ==== Sys2Proof/Machine/Translator.lean ====
section
/-!
DEFINITION. The Address Translator (43_address_translator.md R160 to R163).
-/
namespace Sys2Proof.Machine

/-- `Resolve(x, y) -> a` (R160): the literal table entry at `x + (XMAX+1)*y`. Out of the panel's range it has no value
(R162): the test is on `x` and on `y`, not on the index. -/
def resolve (c : Cfg) (x y : Nat) : Option Addr7 :=
  if x ≤ c.xmax ∧ y ≤ c.ymax then c.table[x + (c.xmax + 1) * y]? else none

/-- The environment premise on the panel's table (R68): every entry is an address the controller implements for the
configured line count. A premise of claims about the display, no check of the engine. -/
def tableFits (c : Cfg) : Bool := c.table.all fun a => { Ctl.powerOn with twoLine := c.twoLine }.implemented a

/-- The character code the panel shows at a cell (R65): the DDRAM byte at the cell's address. -/
def shownCode (s : State) (x y : Nat) : Option Byte :=
  (resolve s.cfg x y).map fun a => Mem.read s.env.ctl.ddram a.toNat

end Sys2Proof.Machine
end

