-- ==== Sys2Proof/Machine/Dispatcher.lean ====
section
/-!
DEFINITION. The Command/Data Dispatcher (44_dispatcher.md R170 to R179) and the host operations READRAM and READCHAR
(R180, R181).
-/
namespace Sys2Proof.Machine

/-- `SendCommand(code)` (R170): the write, the dummy read, whose value is discarded (R172), the wait. -/
def sendCommand (code : Byte) (s : State) : Ran Unit := waitUntilReady (statusRead (busWrite false code s)).2

/-- `SendData(byte)` (R171): only the write is made with RS = 1; the dummy read and the wait are status reads. -/
def sendData (b : Byte) (s : State) : Ran Unit := waitUntilReady (statusRead (busWrite true b s)).2

/-- `ReadDataRam(address) -> byte` (R176): nothing follows the data read. -/
def readDataRam (a : Addr7) (s : State) : Ran Byte :=
  (sendCommand (setDdramByte a) s).bind fun _ t =>
    (waitUntilReady t).bind fun _ u => unlessStuck (busRead true u).1 (busRead true u).2

/-- `ReadAddressCounter() -> a` (R177): one status read, bit 7 dropped, no wait before it. -/
def readAddressCounter (s : State) : Addr7 × State := (statusAddr (statusRead s).1, (statusRead s).2)

/-- Go on with `Resolve(x, y)`; where it has no value the operation that asked is refused (R162). -/
def atCell {α : Type} (x y : Nat) (s : State) (go : Addr7 → Ran α) : Ran α :=
  match resolve s.cfg x y with
  | some a => go a
  | none => .stop .outOfRange

/-- `SendCommand(CMD_SET_DDRAM | Resolve(x, y))`. -/
def addressCell (x y : Nat) (s : State) : Ran Unit := atCell x y s fun a => sendCommand (setDdramByte a) s

/-- A store at a DDRAM address (R179): `SendCommand(CMD_SET_DDRAM | a); SendData(b)`. -/
def storeAt (a : Addr7) (b : Byte) (s : State) : Ran Unit :=
  (sendCommand (setDdramByte a) s).bind fun _ t => sendData b t

/-- READRAM addr (R180). -/
def execReadram (addr : Addr7) (s : State) : Answer :=
  accept s s.cfg.hasRawRead true (runOp s fun t => withResult (readDataRam addr t))

/-- READCHAR x, y (R181). -/
def execReadchar (x y : Byte) (s : State) : Answer :=
  accept s s.cfg.hasReadChar true
    (runOp s fun t => withResult (atCell x.toNat y.toNat t fun a => readDataRam a t))

end Sys2Proof.Machine
end

