-- ==== Sys2Proof/Machine/Glyph.lean ====
section
/-!
DEFINITION. The Custom Glyph Loader (47_glyph_loader.md R220 to R225): DEFGLYPH.
-/
namespace Sys2Proof.Machine

/-- `DefineGlyph(code, b)` (R221): the controller's own address is saved and restored (R222); the bytes are sent as given,
in index order (R224). -/
def defineGlyph (code : BitVec 3) (rows : List Byte) (s : State) : Ran Unit :=
  (waitUntilReady (readAddressCounter s).2).bind fun _ t =>
    (sendCommand (setCgramByte code) t).bind fun _ u =>
      (forEach rows sendData u).bind fun _ w =>
        (waitUntilReady w).bind fun _ x => sendCommand (setDdramByte (readAddressCounter s).1) x

/-- DEFGLYPH code, b0 .. b7 (R220). -/
def execDefglyph (code : BitVec 3) (b0 b1 b2 b3 b4 b5 b6 b7 : Byte) (s : State) : Answer :=
  accept s s.cfg.hasGlyph true
    (runOp s fun t => noResult (defineGlyph code [b0, b1, b2, b3, b4, b5, b6, b7] t))

end Sys2Proof.Machine
end

