-- ==== Sys2Proof/Machine/InitDisplay.lean ====
section
/-!
DEFINITION. The Initialization Sequencer and the display-control operations (48_init_and_display_control.md R230 to R241):
INIT, CLEAR, CURSOR, INTENSITY.
-/
namespace Sys2Proof.Machine

/-- "Force bus to read mode then write mode", then RS to 0 (R230, R231, D21). -/
def forceWriteMode (s : State) : State :=
  setControlLine .rs false
    (setBusDirection .output (setControlLine .rw false (setControlLine .rw true (setBusDirection .input s))))

/-- A bootstrap transfer followed by its delay (R231, R232). -/
def thenDelay (write : State → State) (ms : Nat) (s : State) : Ran Unit := delayMs ms (write s)

/-- Step 1 (R231): three single strobes of the 8-bit function set, 15, 5 and 5 ms; no busy-flag check. -/
def initStep1 (s : State) : Ran Unit :=
  (thenDelay (rawWrite codeFs8) 15 (forceWriteMode s)).bind fun _ t =>
    (thenDelay (rawWrite codeFs8) 5 t).bind fun _ u => thenDelay (rawWrite codeFs8) 5 u

/-- The second and third delay of step 2: 10 ms on a VFD, 5 ms otherwise (R232). -/
def step2Delay (c : Cfg) : Nat := if c.displayType = .vfd then 10 else 5

/-- Step 2 (R232): the real function set, once by a single strobe and twice as whole bytes; no busy-flag check. -/
def initStep2 (s : State) : Ran Unit :=
  (thenDelay (rawWrite (fsRealByte s.cfg)) 15 s).bind fun _ t =>
    (thenDelay (writeByte (fsRealByte t.cfg)) (step2Delay t.cfg) t).bind fun _ u =>
      thenDelay (writeByte (fsRealByte u.cfg)) (step2Delay u.cfg) u

/-- From the end of step 2 on, status reads have a meaning (R70; log 20). -/
def markSettled (s : State) : State := { s with env := { s.env with settled := true } }

/-- Step 3 (R233): display on with cursor and blink, clear display, entry mode, each behind the busy wait. -/
def initStep3 (s : State) : Ran Unit :=
  (sendCommand codeDisplayOn s).bind fun _ t =>
    (sendCommand codeClear t).bind fun _ u => sendCommand codeEntryInc u

/-- `INIT()` (R230); CX and CY are not written (R240). -/
def initSequence (s : State) : Ran Unit :=
  (initStep1 s).bind fun _ t =>
    (initStep2 t).bind fun _ u =>
      (initStep3 (markSettled u)).bind fun _ w => .done () { w with inited := true }

/-- INIT (R230): the one operation legal before INITED, and again at any time (R241). -/
def execInit (s : State) : Answer := accept s true false (runOp s fun t => noResult (initSequence t))

/-- CLEAR (R237). -/
def execClear (s : State) : Answer := accept s true true (runOp s fun t => noResult (sendCommand codeClear t))

/-- CURSOR cursor, blink (R238): both set absolutely; the engine keeps no copy. -/
def execCursor (cursor blink : Bool) (s : State) : Answer :=
  accept s true true (runOp s fun t => noResult (sendCommand (displayByte cursor blink) t))

/-- INTENSITY level (R239): function set again with a new intensity field; the engine keeps no copy. -/
def execIntensity (level : BitVec 2) (s : State) : Answer :=
  accept s s.cfg.hasIntensity true (runOp s fun t => noResult (sendCommand (functionSetByte t.cfg level) t))

end Sys2Proof.Machine
end

