-- ==== Sys2Proof/Machine/Scroll.lean ====
section
/-!
DEFINITION. The Scroll Engine (46_scroll.md R210 to R217): ScrollUp by read-back, and the host operation SCROLL.
-/
namespace Sys2Proof.Machine

/-- The cells of row `r`, columns ascending (R212). -/
def rowCells (c : Cfg) (r : Nat) : List (Nat × Nat) := (List.range (c.xmax + 1)).map fun x => (x, r)

/-- The cells of rows 1 .. YMAX, in the order they are copied (R212). -/
def scrolledCells (c : Cfg) : List (Nat × Nat) := (List.range c.ymax).flatMap fun r => rowCells c (r + 1)

/-- Copy one cell one row up (R210): read it, then write what was read. -/
def copyUp (cell : Nat × Nat) (s : State) : Ran Unit :=
  atCell cell.1 cell.2 s fun a =>
    (readDataRam a s).bind fun v t => atCell cell.1 (cell.2 - 1) t fun up => storeAt up v t

/-- Blank one cell (R213): its own set-address command, then the space character. -/
def blankCell (cell : Nat × Nat) (s : State) : Ran Unit := atCell cell.1 cell.2 s fun a => storeAt a chSpace s

/-- `ScrollUp()` (R210); on a one-row panel it returns at once (R211). It reads and writes neither CX nor CY (R214). -/
def scrollUp (s : State) : Ran Unit :=
  if oneRow s.cfg then .done () s
  else
    (forEach (scrolledCells s.cfg) copyUp s).bind fun _ t => forEach (rowCells t.cfg t.cfg.ymax) blankCell t

/-- SCROLL (R215). -/
def execScroll (s : State) : Answer := accept s s.cfg.hasScroll true (runOp s fun t => noResult (scrollUp t))

end Sys2Proof.Machine
end

