-- ==== Sys2Proof/WellFormed.lean ====
section
/-!
DEFINITION. The well-formed instructions: those that a word of the table stands for. Field widths are in the types;
what is left is that a PUTS text holds no terminator (30_encoding.md R93, R96) and that the command byte 0x30 is read as
CMD_FS8 (the two rows are "the same controller command", 30_encoding.md, opening; log 14).
-/
namespace Sys2Proof

/-- A PUTS text holds no 0x00 (R93: `t_i` is 0x01 .. 0xFF). -/
def textOk (text : List Byte) : Bool := text.all fun b => decide (b ≠ 0)

/-- The fields of FS_REAL that give the byte 0x30, which is CMD_FS8's. -/
def isFs8 (l n : Bool) (bb : BitVec 2) : Bool := l && !n && decide (bb = 0)

/-- Is the instruction one that a word of the table stands for. -/
def Instr.wellFormed : Instr → Bool
  | .puts text => textOk text
  | .fsReal l n bb => !isFs8 l n bb
  | .init | .clear | .locate _ _ | .cursor _ _ | .putc _ | .defglyph _ _ _ _ _ _ _ _ _ | .readchar _ _
  | .readram _ | .scroll | .intensity _
  | .cmdClear | .cmdEntryInc | .cmdDisplay _ _ | .cmdFs8 | .cmdSetCgram _ | .cmdSetDdram _
  | .commandWrite _ | .dataWrite _ | .statusRead | .dataRead => true

end Sys2Proof
end

