-- ==== Sys2Proof/Machine/Terminal.lean ====
section
/-!
DEFINITION. The Terminal Emulation Layer (45_terminal.md R185 to R202): LOCATE, PUTC and PUTS.
-/
namespace Sys2Proof.Machine

/-- The row overflow of R190 and R191: with scroll support ScrollUp runs and CY is pinned at YMAX; without it CY becomes 0.
Where CY does not exceed YMAX nothing happens. -/
def foldRow (s : State) : Ran Unit :=
  if pastRow s then
    if s.cfg.hasScroll then
      (scrollUp s).bind fun _ t => .done () (t.setCursor t.cx (BitVec.ofNat 8 t.cfg.ymax))
    else .done () (s.setCursor s.cx 0)
  else .done () s

/-- `SendCommand(CMD_SET_DDRAM | Resolve(CX, CY))`. -/
def addressCursor (s : State) : Ran Unit := addressCell s.cx.toNat s.cy.toNat s

/-- The line-feed arm (R191). -/
def lineFeed (s : State) : Ran Unit :=
  (foldRow (s.setCursor (if s.cfg.nlImpliesCr then 0 else s.cx) (s.cy + 1))).bind fun _ t => addressCursor t

/-- The carriage-return arm (R192). -/
def carriageReturn (s : State) : Ran Unit := addressCursor (s.setCursor 0 s.cy)

/-- The arm of every other byte (R193, R194): address, data, then CX + 1. -/
def ordinary (addr : Addr7) (ch : Byte) (s : State) : Ran Unit :=
  (storeAt addr ch s).bind fun _ t => .done () (t.setCursor (t.cx + 1) t.cy)

/-- Step 3 of Putchar (R189): the dispatch on the character. -/
def putByte (addr : Addr7) (ch : Byte) (s : State) : Ran Unit :=
  if ch = chLf then lineFeed s else if ch = chCr then carriageReturn s else ordinary addr ch s

/-- Step 4 of Putchar (R195, R196): the wrap; the command re-issued carries the address of step 2, the cell just written. -/
def wrap (addr : Addr7) (s : State) : Ran Unit :=
  if pastColumn s then sendCommand (setDdramByte addr) (s.setCursor 0 (s.cy + 1)) else .done () s

/-- `Putchar(ch) -> ch` (R189 to R197). -/
def putchar (ch : Byte) (s : State) : Ran Byte :=
  (foldRow s).bind fun _ t =>
    atCell t.cx.toNat t.cy.toNat t fun addr =>
      (putByte addr ch t).bind fun _ u => (wrap addr u).bind fun _ w => .done ch w

/-- LOCATE x, y (R185). Out of range it is refused and nothing changes: the engine does not clamp (R186). -/
def execLocate (x y : Byte) (s : State) : Answer :=
  accept s true true
    (runOp s fun t =>
      noResult (atCell x.toNat y.toNat t fun a => sendCommand (setDdramByte a) (t.setCursor x y)))

/-- PUTC ch (R187). -/
def execPutc (ch : Byte) (s : State) : Answer := accept s true true (runOp s fun t => withResult (putchar ch t))

/-- PUTS text (R198): each byte through Putchar, the results dropped. A text with a 0x00 in it is in no packet (R96). -/
def execPuts (text : List Byte) (s : State) : Answer :=
  accept s true true
    (if textOk text then
      runOp s fun t => noResult (forEach text (fun ch u => (putchar ch u).bind fun _ w => .done () w) t)
    else .refused .illFormed)

end Sys2Proof.Machine
end

