-- ==== Sys2Proof/Machine/Transactions.lean ====
section
/-!
DEFINITION. The opcode table's bus transactions (30_encoding.md R100) as the engine makes them (R141, R142, R154). They are
micro-operations: not accepted by INITED, and refused only while an operation is in progress (U3). What a read returns
stands in the history as its `sample` events.
-/
namespace Sys2Proof.Machine

/-- A transaction asked for while the engine is idle; one that does not come to its end keeps the engine busy (R252, R262). -/
def transaction (s t : State) : Answer :=
  if s.busyOp then .refused .busy
  else if t.stuck then .next { t with busyOp := true, hang := some .settle }
  else .next t

/-- COMMAND_WRITE: `BusWrite(0, v)` (R141). -/
def execCommandWrite (v : Byte) (s : State) : Answer := transaction s (busWrite false v s)

/-- DATA_WRITE: `BusWrite(1, v)` (R141). -/
def execDataWrite (v : Byte) (s : State) : Answer := transaction s (busWrite true v s)

/-- STATUS_READ: `StatusRead()` (R154). -/
def execStatusRead (s : State) : Answer := transaction s (statusRead s).2

/-- DATA_READ: `BusRead(1)` (R142). -/
def execDataRead (s : State) : Answer := transaction s (busRead true s).2

end Sys2Proof.Machine
end

