-- ==== Sys2Proof/Machine/Dispatch.lean ====
section
/-!
DEFINITION. The dispatch: one arm per row of spec/opcode_table.json.
-/
namespace Sys2Proof.Machine

def exec (i : Instr) (s : State) : Host.Outcome State Fault Refusal :=
  match i with
  | .init => Sys2Proof.Machine.execInit s
  | .clear => Sys2Proof.Machine.execClear s
  | .locate x y => Sys2Proof.Machine.execLocate x y s
  | .cursor c b => Sys2Proof.Machine.execCursor c b s
  | .putc ch => Sys2Proof.Machine.execPutc ch s
  | .puts text => Sys2Proof.Machine.execPuts text s
  | .defglyph code b0 b1 b2 b3 b4 b5 b6 b7 => Sys2Proof.Machine.execDefglyph code b0 b1 b2 b3 b4 b5 b6 b7 s
  | .readchar x y => Sys2Proof.Machine.execReadchar x y s
  | .readram addr => Sys2Proof.Machine.execReadram addr s
  | .scroll => Sys2Proof.Machine.execScroll s
  | .intensity level => Sys2Proof.Machine.execIntensity level s
  | .cmdClear => Sys2Proof.Machine.execCmdClear s
  | .cmdEntryInc => Sys2Proof.Machine.execCmdEntryInc s
  | .cmdDisplay c b => Sys2Proof.Machine.execCmdDisplay c b s
  | .cmdFs8 => Sys2Proof.Machine.execCmdFs8 s
  | .fsReal l n bb => Sys2Proof.Machine.execFsReal l n bb s
  | .cmdSetCgram code => Sys2Proof.Machine.execCmdSetCgram code s
  | .cmdSetDdram a => Sys2Proof.Machine.execCmdSetDdram a s
  | .commandWrite v => Sys2Proof.Machine.execCommandWrite v s
  | .dataWrite v => Sys2Proof.Machine.execDataWrite v s
  | .statusRead => Sys2Proof.Machine.execStatusRead s
  | .dataRead => Sys2Proof.Machine.execDataRead s

end Sys2Proof.Machine
end

