-- ==== Sys2Proof/Decode.lean ====
section
/-!
DEFINITION. Decoding and encoding (30_encoding.md). Three decoders, one per space of the opcode table: host packets
(R91 to R98), controller command bytes (R101), bus transactions (R100). Each is total and rejects by name. The encoder is
written from the same tables. `decodeTableWord` reads a word numbered as the opcode table numbers it.
-/
namespace Sys2Proof

/-- Why a word decodes to no instruction (R95, R98). -/
inductive Reject where
  /-- Host opcode 0x00 or 0x0C .. 0xFF (R95). -/
  | unassignedOpcode
  /-- A reserved operand bit is set (R93, R95). -/
  | reservedBits
  /-- The packet ends before its last byte, or a PUTS has no terminator (R98, R257 item 4). -/
  | truncatedPacket
  /-- A command byte the engine never sends (R101, last paragraph). -/
  | unsentCommand
  /-- Not one of the four RS, RW combinations, or the byte to be written is missing (R100). -/
  | notATransaction
  deriving DecidableEq, Repr

/-- What a decoder answers: an instruction and how many bytes it took, or a rejection. -/
abbrev Decoded := Except Reject (Instr × Nat)

/-- The text of a PUTS: the bytes up to the first 0x00, which is not part of it; none where no 0x00 comes (R97, R98). -/
def takeText : List Byte → Option (List Byte)
  | [] => none
  | b :: rest => if b = 0 then some [] else (takeText rest).map (b :: ·)

/-- A reserved field must be zero (R93). -/
def unlessReserved (clean : Bool) (i : Instr) (n : Nat) : Decoded := if clean then .ok (i, n) else .error .reservedBits

/-- The operands of a packet with opcode `op`, `rest` being the bytes after the opcode (R92, R93, R97). -/
def decodeOperands (op : Byte) (rest : List Byte) : Decoded :=
  if op = 0x01 then .ok (.init, 1)
  else if op = 0x02 then .ok (.clear, 1)
  else if op = 0x03 then
    match rest with
    | x :: y :: _ => .ok (.locate x y, 3)
    | _ => .error .truncatedPacket
  else if op = 0x04 then
    match rest with
    | m :: _ => unlessReserved (decide (m.extractLsb' 2 6 = 0)) (.cursor (m.getLsbD 1) (m.getLsbD 0)) 2
    | _ => .error .truncatedPacket
  else if op = 0x05 then
    match rest with
    | ch :: _ => .ok (.putc ch, 2)
    | _ => .error .truncatedPacket
  else if op = 0x06 then
    match takeText rest with
    | some t => .ok (.puts t, t.length + 2)
    | none => .error .truncatedPacket
  else if op = 0x07 then
    match rest with
    | k :: b0 :: b1 :: b2 :: b3 :: b4 :: b5 :: b6 :: b7 :: _ =>
      unlessReserved (decide (k.extractLsb' 3 5 = 0)) (.defglyph (k.extractLsb' 0 3) b0 b1 b2 b3 b4 b5 b6 b7) 10
    | _ => .error .truncatedPacket
  else if op = 0x08 then
    match rest with
    | x :: y :: _ => .ok (.readchar x y, 3)
    | _ => .error .truncatedPacket
  else if op = 0x09 then
    match rest with
    | a :: _ => unlessReserved (!a.getLsbD 7) (.readram (a.extractLsb' 0 7)) 2
    | _ => .error .truncatedPacket
  else if op = 0x0A then .ok (.scroll, 1)
  else if op = 0x0B then
    match rest with
    | l :: _ => unlessReserved (decide (l.extractLsb' 2 6 = 0)) (.intensity (l.extractLsb' 0 2)) 2
    | _ => .error .truncatedPacket
  else .error .unassignedOpcode

/-- A host packet at the head of the bytes (R91 to R98). -/
def decodePacket : List Byte → Decoded
  | [] => .error .truncatedPacket
  | op :: rest => decodeOperands op rest

/-- A byte written with RS = 0, RW = 0 (R101), by its highest set bit; 0x30 is CMD_FS8 (log 14). -/
def decodeCommandByte (b : Byte) : Except Reject Instr :=
  if b.getLsbD 7 then .ok (.cmdSetDdram (b.extractLsb' 0 7))
  else if b.getLsbD 6 then
    if b.extractLsb' 0 3 = 0 then .ok (.cmdSetCgram (b.extractLsb' 3 3)) else .error .unsentCommand
  else if b.getLsbD 5 then
    if b = 0x30 then .ok .cmdFs8
    else if b.getLsbD 2 then .error .unsentCommand
    else .ok (.fsReal (b.getLsbD 4) (b.getLsbD 3) (b.extractLsb' 0 2))
  else if b.getLsbD 4 then .error .unsentCommand
  else if b.extractLsb' 2 2 = 3 then .ok (.cmdDisplay (b.getLsbD 1) (b.getLsbD 0))
  else if b = 0x06 then .ok .cmdEntryInc
  else if b = 0x01 then .ok .cmdClear
  else .error .unsentCommand

/-- A controller command word: one byte. -/
def decodeCommand : List Byte → Decoded
  | [] => .error .unsentCommand
  | b :: _ => (decodeCommandByte b).map fun i => (i, 1)

/-- A bus transaction word: the levels RS ++ RW in the first byte, then the byte to be written, which the opcode table
leaves out (R100; log 11). -/
def decodeTransaction : List Byte → Decoded
  | b :: rest =>
    if b = 0x00 then
      match rest with
      | v :: _ => .ok (.commandWrite v, 2)
      | _ => .error .notATransaction
    else if b = 0x02 then
      match rest with
      | v :: _ => .ok (.dataWrite v, 2)
      | _ => .error .notATransaction
    else if b = 0x01 then .ok (.statusRead, 1)
    else if b = 0x03 then .ok (.dataRead, 1)
    else .error .notATransaction
  | [] => .error .notATransaction

/-- The decoder of each space. -/
def decode : Space → List Byte → Decoded
  | .hostPacket, bytes => decodePacket bytes
  | .controllerCommand, bytes => decodeCommand bytes
  | .busTransaction, bytes => decodeTransaction bytes

/-- One bit as a one-bit word. -/
def bit (b : Bool) : BitVec 1 := BitVec.ofBool b

/-- The words of an instruction, from R92, R93, R97 (host packets), R101 (commands) and R100 (transactions). -/
def encode : Instr → List Byte
  | .init => [0x01]
  | .clear => [0x02]
  | .locate x y => [0x03, x, y]
  | .cursor c b => [0x04, 0#6 ++ bit c ++ bit b]
  | .putc ch => [0x05, ch]
  | .puts t => 0x06 :: t ++ [0x00]
  | .defglyph k b0 b1 b2 b3 b4 b5 b6 b7 => [0x07, 0#5 ++ k, b0, b1, b2, b3, b4, b5, b6, b7]
  | .readchar x y => [0x08, x, y]
  | .readram a => [0x09, 0#1 ++ a]
  | .scroll => [0x0A]
  | .intensity l => [0x0B, 0#6 ++ l]
  | .cmdClear => [0x01]
  | .cmdEntryInc => [0x06]
  | .cmdDisplay c b => [0x03#6 ++ bit c ++ bit b]
  | .cmdFs8 => [0x30]
  | .fsReal l n bb => [0x1#3 ++ bit l ++ bit n ++ 0#1 ++ bb]
  | .cmdSetCgram k => [0x1#2 ++ k ++ 0#3]
  | .cmdSetDdram a => [0x1#1 ++ a]
  | .commandWrite v => [0x00, v]
  | .dataWrite v => [0x02, v]
  | .statusRead => [0x01]
  | .dataRead => [0x03]

/-- Byte `k` of a word numbered from the least significant bit of its first byte. -/
def wordByte (w k : Nat) : Byte := BitVec.ofNat 8 (w / 2 ^ (8 * k))

/-- The bytes of a word of `nbits` bits as the host channel takes them, first byte first, then zeros past the longest
fixed packet (ten bytes, R97). -/
def wordBytes (nbits w : Nat) : List Byte := ((List.range ((nbits + 7) / 8)).map (wordByte w)) ++ List.replicate 12 0

/-- The space a word is read in: a host packet where its opcode is assigned, else a controller command, else a bus
transaction (log 13; the table's words for the three spaces overlap). -/
def spaceOf (bytes : List Byte) : Space :=
  if decodePacket bytes ≠ .error .unassignedOpcode then .hostPacket
  else if decodeCommand bytes ≠ .error .unsentCommand then .controllerCommand
  else .busTransaction

/-- The instruction the decoder reads from a word of the opcode table; operand bytes the table gives no bits are zeros. -/
def decodeTableWord (nbits w : Nat) : Option Instr :=
  match decode (spaceOf (wordBytes nbits w)) (wordBytes nbits w) with
  | .ok (i, _) => some i
  | .error _ => none

/-- The expansion of a pseudo-instruction (R106). -/
def Pseudo.expand : Pseudo → List Instr
  | .home => [.locate 0 0]
  | .cls => [.clear, .locate 0 0]
  | .newline => [.putc 0x0A]
  | .ret => [.putc 0x0D]
  | .print text => text.map .putc

/-- 0 or 1 as R105 writes a flag. -/
def flagText (b : Bool) : String := if b then "1" else "0"

/-- A byte as R105 writes a number. -/
def byteText (b : Byte) : String := toString b.toNat

/-- A byte of a PUTS text as R105 writes it between double quotes, `\n` for 0x0A and `\r` for 0x0D.
DESIGN CHOICE (log 36): how a double quote, a backslash and a byte outside printable ASCII are written R105 leaves open; every
byte but the two is written raw, as the character of its value and with no escape. -/
def charText (b : Byte) : String :=
  if b = 0x0A then "\\n" else if b = 0x0D then "\\r" else String.singleton (Char.ofNat b.toNat)

/-- A host operation in the notation of command lists (R105); other rows of the table have no notation. -/
def notationOf : Instr → Option String
  | .init => some "INIT"
  | .clear => some "CLEAR"
  | .locate x y => some ("LOCATE " ++ byteText x ++ ", " ++ byteText y)
  | .cursor c b => some ("CURSOR " ++ flagText c ++ ", " ++ flagText b)
  | .putc ch => some ("PUTC " ++ byteText ch)
  | .puts t => some ("PUTS \"" ++ String.join (t.map charText) ++ "\"")
  | .defglyph k b0 b1 b2 b3 b4 b5 b6 b7 =>
    some ("DEFGLYPH " ++ toString k.toNat ++ String.join ([b0, b1, b2, b3, b4, b5, b6, b7].map fun b => ", " ++ byteText b))
  | .readchar x y => some ("READCHAR " ++ byteText x ++ ", " ++ byteText y)
  | .readram a => some ("READRAM " ++ toString a.toNat)
  | .scroll => some "SCROLL"
  | .intensity l => some ("INTENSITY " ++ toString l.toNat)
  | .cmdClear | .cmdEntryInc | .cmdDisplay _ _ | .cmdFs8 | .fsReal _ _ _ | .cmdSetCgram _ | .cmdSetDdram _
  | .commandWrite _ | .dataWrite _ | .statusRead | .dataRead => none

end Sys2Proof
end

