-- ==== Sys2Proof/Machine/Fetch.lean ====
section
/-!
DEFINITION. Fetching (10_state.md R32, 30_encoding.md R90 to R98, 60_exceptions.md R257): what the machine does next, and
placing a word of the opcode table where the next step fetches.
-/
namespace Sys2Proof.Machine

/-- What the machine does next. -/
inductive Fetched where
  /-- No request is taken: an operation hangs on, or the host presents nothing. -/
  | idle (s : State)
  /-- A request is taken; the state is that after taking it, and the request is `n` bytes of the host's list. -/
  | run (i : Instr) (n : Nat) (s : State)
  /-- A request is refused (R257). -/
  | reject (r : Refusal)
  deriving DecidableEq, Repr

/-- A rejection of a decoder as a refusal. -/
def rejectRefusal : Reject → Refusal
  | .unassignedOpcode => .unassignedOpcode
  | .reservedBits => .reservedBits
  | .truncatedPacket => .truncatedPacket
  | .unsentCommand => .unsentCommand
  | .notATransaction => .notATransaction

/-- Why a packet that does not decode is refused, first failing check first (R257 items 2 to 4). -/
def packetRefusal (s : State) (op : Byte) (r : Reject) : Refusal :=
  if r = .unassignedOpcode then .unassignedOpcode
  else if !opcodePresent s.cfg op then .absentOperation
  else if decide (op ≠ 0x01) && !s.inited then .notInitialised
  else rejectRefusal r

/-- The packet at the command pointer (R32): taken whole, its operands read once (R84). -/
def fetchPacket (s : State) : Fetched :=
  match s.packets.drop s.cp with
  | [] => .idle s
  | op :: rest =>
    match decodePacket (op :: rest) with
    | .ok (i, n) => .run i n s
    | .error r => .reject (packetRefusal s op r)

/-- A word of the other two spaces of the opcode table, taken from `direct` (log 11). -/
def fetchDirect (space : Space) (bytes : List Byte) (s : State) : Fetched :=
  match decode space bytes with
  | .ok (i, _) => .run i 0 { s with direct := none }
  | .error r => .reject (rejectRefusal r)

/-- What the machine does next: while `BUSY_OP` is true it accepts nothing (R257 item 1) and an operation that hangs goes
on hanging (R252); otherwise a direct word, else the host's next packet. -/
def fetch (s : State) : Fetched :=
  if s.busyOp then .idle (hangOn s)
  else
    match s.direct with
    | some (space, bytes) => fetchDirect space bytes s
    | none => fetchPacket s

/-- CP moves past a packet of `n` bytes when the operation has completed, and not before: one that hangs leaves it at the
packet (R32). -/
def advanceCp (n : Nat) (r : Answer) : Answer :=
  match r with
  | .next t => .next (if t.busyOp then t else { t with cp := t.cp + n })
  | .fault f => .fault f
  | .refused q => .refused q

/-- The state with a word of the opcode table where the next step fetches: a host packet as the whole command list with CP
at its start and no direct word before it; a word of the other spaces as the direct word. The engine takes a word only
while idle, so `BUSY_OP` is false (log 10, log 11, log 13). -/
def placeWord (s : State) (nbits w : Nat) : State :=
  match spaceOf (wordBytes nbits w) with
  | .hostPacket => { s with packets := wordBytes nbits w, cp := 0, direct := none, busyOp := false, hang := none }
  | .controllerCommand => { s with direct := some (.controllerCommand, wordBytes nbits w), busyOp := false, hang := none }
  | .busTransaction => { s with direct := some (.busTransaction, wordBytes nbits w), busyOp := false, hang := none }

end Sys2Proof.Machine
end

