-- ==== Sys2Proof/Machine/Step.lean ====
section
/-!
DEFINITION. The step: fetch, then exec, then the host's pointer. Waiting for the host and hanging are next states too.
-/
namespace Sys2Proof.Machine

/-- One step of the machine. -/
def step (s : State) : Host.Outcome State Fault Refusal :=
  match fetch s with
  | .idle t => .next t
  | .run i n t => advanceCp n (exec i t)
  | .reject r => .refused r

/-- The state with a word of the opcode table stored where `step` fetches its next instruction. -/
def State.withFetchWord (s : State) (nbits w : Nat) : State := placeWord s nbits w

end Sys2Proof.Machine
end

