-- ==== Sys2Proof/Machine/Configured.lean ====
section
/-!
DEFINITION. The machine as 00_scope.md R7 has it: the configuration is its one argument, and no part of the state
(10_state.md R31 (a)). `Sys2Proof.Machine.exec` and `step` carry the two together, because the host gives them one argument.
-/
namespace Sys2Proof.Machine

/-- The answer without the configuration. -/
def dropCfg (r : Answer) : Host.Outcome Mutable Fault Refusal :=
  match r with
  | .next t => .next t.toMutable
  | .fault f => .fault f
  | .refused q => .refused q

/-- The answer with the configuration put beside the state again. -/
def withCfg (c : Cfg) (r : Host.Outcome Mutable Fault Refusal) : Answer :=
  match r with
  | .next m => .next ⟨m, c⟩
  | .fault f => .fault f
  | .refused q => .refused q

/-- An instruction on the machine of a configuration. -/
def execAt (c : Cfg) (i : Instr) (m : Mutable) : Host.Outcome Mutable Fault Refusal := dropCfg (exec i ⟨m, c⟩)

/-- A step of the machine of a configuration. -/
def stepAt (c : Cfg) (m : Mutable) : Host.Outcome Mutable Fault Refusal := dropCfg (step ⟨m, c⟩)

end Sys2Proof.Machine
end

