-- ==== Sys2Proof/Machine/Reset.lean ====
section
/-!
DEFINITION. A reset that cuts a running operation (70_reset_and_hazards.md R281). The controller reacts to edges of E only,
so what it is at any moment of an operation is what it is in one of the settle delays of the operation, and there the cut is
made.
-/
namespace Sys2Proof.Machine

/-- The state in the settle delay that follows the first `n` of an operation's settle delays; where the operation has no more
than `n`, the state it leaves. -/
def cutAfter (n : Nat) (i : Instr) (s : State) : Answer :=
  exec i { s with env := { s.env with delays := { s.env.delays with settle := .left n } } }

/-- The engine's reset at that moment, of which the controller sees nothing; an operation that is refused has no such
moment. -/
def resetDuring (n : Nat) (i : Instr) (d : Delays) (s : State) : Option State :=
  match cutAfter n i s with
  | .next t => some (applyReset t.env.ctl d t)
  | .fault _ => none
  | .refused _ => none

end Sys2Proof.Machine
end

