-- ==== Sys2Proof/Machine/Trace.lean ====
section
/-!
DEFINITION. A whole transfer as it is seen from outside: the pin events of a transaction (41_bus_transfer.md R136 to R142),
and the controller's side of a whole byte (20_memory.md R62, R63). Statements and laws name these; the engine itself goes
strobe by strobe (Bus.lean).
-/
namespace Sys2Proof.Machine

/-- The events of a strobe without a sample (R135). -/
def strobeEvents : List Event := [.ctl .e true, .ctl .e false]

/-- The events of `WriteByte(v)` (R136, R137). -/
def writeByteEvents (m : BusMode) (v : Byte) : List Event :=
  match m with
  | .bus8 => [.dir .output, .drive (.w8 v)] ++ strobeEvents
  | .bus4 => [.dir .output, .drive (.w4 (hiNibble v))] ++ strobeEvents ++ [.drive (.w4 (loNibble v))] ++ strobeEvents

/-- The events of `RawWrite(v)` (R140). -/
def rawWriteEvents (m : BusMode) (v : Byte) : List Event := [.dir .output, .drive (linesOf m v)] ++ strobeEvents

/-- The events of `ReadByte()` returning `v` (R138, R139). -/
def readByteEvents (m : BusMode) (v : Byte) : List Event :=
  match m with
  | .bus8 => [.ctl .e true, .sample (.w8 v), .ctl .e false]
  | .bus4 =>
    [.ctl .e true, .sample (.w4 (hiNibble v)), .ctl .e false, .ctl .e true, .sample (.w4 (loNibble v)), .ctl .e false]

/-- The events of `BusWrite(rs, v)` (R141). -/
def writeEvents (m : BusMode) (rs : Level) (v : Byte) : List Event :=
  [.ctl .rs rs, .ctl .rw false] ++ writeByteEvents m v

/-- The events of `BusRead(rs)` returning `v` (R142). -/
def readEvents (m : BusMode) (rs : Level) (v : Byte) : List Event :=
  [.dir .input, .ctl .rs rs, .ctl .rw true] ++ readByteEvents m v

/-- The value `WriteByte(v)` leaves in `DOUT`: "the last value driven" (R141). -/
def lastDriven (m : BusMode) (v : Byte) : Lines :=
  match m with
  | .bus8 => .w8 v
  | .bus4 => .w4 (loNibble v)

/-- The controller after a whole byte was written to it: one strobe in BUS8, two in BUS4. -/
def Env.written (c : Cfg) (rs : Level) (b : Byte) (v : Env) : Env :=
  match c.busMode with
  | .bus8 => v.takeStrobe c rs (some (.w8 b))
  | .bus4 => (v.takeStrobe c rs (some (.w4 (hiNibble b)))).takeStrobe c rs (some (.w4 (loNibble b)))

/-- One read strobe, the first or the second of a read, as the controller answers it. -/
def Env.readStrobe (c : Cfg) (rs : Level) (part : Phase) (v : Env) : Byte × Env :=
  ((v.answer c rs part).1, (v.answer c rs part).2.endRead rs)

/-- What the engine reads as a whole byte, and the controller after it: one strobe in BUS8, two in BUS4. -/
def Env.readOut (c : Cfg) (rs : Level) (v : Env) : Byte × Env :=
  match c.busMode with
  | .bus8 => v.readStrobe c rs .hi
  | .bus4 =>
    (joinNibbles (hiNibble (v.readStrobe c rs .hi).1) (hiNibble ((v.readStrobe c rs .hi).2.readStrobe c rs .lo).1),
      ((v.readStrobe c rs .hi).2.readStrobe c rs .lo).2)

end Sys2Proof.Machine
end

