-- ==== Sys2Proof/Safety.lean ====
section
/-!
DEFINITION. The terms claims use: the named premises (20_memory.md R73, 42_busy_sync.md R152, 60_exceptions.md R262), the
events of the longer micro-operations, the frame invariants of the bus (41_bus_transfer.md R144), the resting invariant of
the cursor (10_state.md R21), and the invariant of the machine.
-/
namespace Sys2Proof.Machine

/-! ## Premises -/

/-- The controller and the engine agree on the interface width, and the controller expects the start of a byte (R63, R76):
no silent desync (R253). An unconstrained controller is bound by nothing. -/
def Env.inStep (c : Cfg) (v : Env) : Bool :=
  match v.peer with
  | .unconstrained => true
  | .reference => decide (v.ctl.if8 = decide (c.busMode = .bus8)) && decide (v.ctl.phase = .hi)

/-- Premise `CTL_EVENTUALLY_READY` (R152): in every endless row of status reads the engine reads bit 7 = 0 at least once.
R152 speaks of the controller's answers and is silent on an engine that is out of step with them; that the premise asks for
the two to be in step, so that the bit 7 the engine reads is the controller's, is the model's choice (DESIGN CHOICE, log 34). -/
def State.eventuallyReady (s : State) : Bool := s.env.eventuallyReady && s.env.inStep s.cfg

/-- The opposite of `CTL_EVENTUALLY_READY` (R152), as a premise of claims that an operation hangs (R252): every draw of the
busy flag to come is 1. -/
def State.neverReady (s : State) : Bool := s.env.busyBits.all id && s.env.busyAfter

/-- Premise `REFCTL` (R73) after an INIT: the reference controller is on the bus, in step, and its status reads mean what
R69 says. -/
def State.refctl (s : State) : Bool := decide (s.env.peer = .reference) && s.env.settled && s.env.inStep s.cfg

/-- Premise `DELAY_RETURNS` (R262): every delay request of both services returns. -/
def State.delaysReturn (s : State) : Bool := decide (s.env.delays = .all)

/-- Premise `DELAY_RETURNS` (R262) of the settle delays, the only ones an operation other than INIT requests. -/
def State.settlesReturn (s : State) : Bool := decide (s.env.delays.settle = .all)

/-- The premises under which every `WaitUntilReady` completes: `CTL_EVENTUALLY_READY` and `DELAY_RETURNS` (R152, R262). -/
def State.responsive (s : State) : Bool := s.eventuallyReady && s.settlesReturn

/-- The engine takes a host operation: it is idle and INIT has completed (R30, R286). -/
def State.ready (s : State) : Bool := !s.busyOp && s.inited

/-! ## Events of the longer micro-operations -/

/-- The events of status reads with these answers, in order (R150, R154). -/
def pollEvents (m : BusMode) (answers : List Byte) : List Event := answers.flatMap (readEvents m false)

/-- The answers of one `WaitUntilReady`: any number with bit 7 = 1, then one with bit 7 = 0 (R150). -/
def waitAnswers (answers : List Byte) : Prop :=
  ∃ before ready, answers = before ++ [ready] ∧ (∀ b ∈ before, busyFlag b = true) ∧ busyFlag ready = false

/-- The events of `WaitUntilReady` (R150). -/
def WaitEvents (m : BusMode) (evs : List Event) : Prop := ∃ answers, waitAnswers answers ∧ evs = pollEvents m answers

/-- The events of `SendCommand` (`rs` = false) or `SendData` (`rs` = true) of the byte `v`: the write, the dummy status
read, the wait (R170, R171, R172). -/
def SentEvents (m : BusMode) (rs : Level) (v : Byte) (evs : List Event) : Prop :=
  ∃ dummy waited, WaitEvents m waited ∧ evs = writeEvents m rs v ++ readEvents m false dummy ++ waited

/-- The events of a `SendCommand` followed by a `SendData`: a store at a DDRAM address (R179). -/
def StoreEvents (m : BusMode) (a : Addr7) (b : Byte) (evs : List Event) : Prop :=
  ∃ e1 e2, SentEvents m false (setDdramByte a) e1 ∧ SentEvents m true b e2 ∧ evs = e1 ++ e2

/-- The events of `ReadDataRam(a)` returning `b` (R176). -/
def LoadEvents (m : BusMode) (a : Addr7) (b : Byte) (evs : List Event) : Prop :=
  ∃ e1 e2, SentEvents m false (setDdramByte a) e1 ∧ WaitEvents m e2 ∧ evs = e1 ++ e2 ++ readEvents m true b

/-- The events of the same steps made for each item of a list, in order (R14 `for`). -/
def EventsOf {α : Type} (step : α → List Event → Prop) : List α → List Event → Prop
  | [], evs => evs = []
  | i :: rest, evs => ∃ e f, step i e ∧ EventsOf step rest f ∧ evs = e ++ f

/-- The events of copying the cell (x, y) one row up (R210): what is written is what was read. -/
def CopyEvents (c : Cfg) (cell : Nat × Nat) (evs : List Event) : Prop :=
  ∃ a up b e1 e2, resolve c cell.1 cell.2 = some a ∧ resolve c cell.1 (cell.2 - 1) = some up ∧
    LoadEvents c.busMode a b e1 ∧ StoreEvents c.busMode up b e2 ∧ evs = e1 ++ e2

/-- The events of blanking the cell (x, y) (R213). -/
def BlankEvents (c : Cfg) (cell : Nat × Nat) (evs : List Event) : Prop :=
  ∃ a, resolve c cell.1 cell.2 = some a ∧ StoreEvents c.busMode a 0x20 evs

/-- The events of `ScrollUp` (R210 to R213): none on a one-row panel; else rows 1 .. YMAX copied up, columns ascending within
a row, then the last row blanked, columns ascending. -/
def ScrollEvents (c : Cfg) (evs : List Event) : Prop :=
  if c.ymax = 0 then evs = []
  else ∃ copied blanked, EventsOf (CopyEvents c) (scrolledCells c) copied ∧
    EventsOf (BlankEvents c) (rowCells c c.ymax) blanked ∧ evs = copied ++ blanked

/-- The events of `DefineGlyph(code, rows)` (R221). -/
def GlyphEvents (m : BusMode) (code : BitVec 3) (rows : List Byte) (evs : List Event) : Prop :=
  ∃ status w1 e1 e2 w2 e3, WaitEvents m w1 ∧ SentEvents m false (setCgramByte code) e1 ∧
    EventsOf (SentEvents m true) rows e2 ∧ WaitEvents m w2 ∧ SentEvents m false (setDdramByte (statusAddr status)) e3 ∧
      evs = readEvents m false status ++ w1 ++ e1 ++ e2 ++ w2 ++ e3

/-- The events of INIT's bootstrap phase, steps 1 and 2 (R230 to R232). -/
def bootEvents (c : Cfg) : List Event :=
  [.dir .input, .ctl .rw true, .ctl .rw false, .dir .output, .ctl .rs false] ++
    rawWriteEvents c.busMode 0x30 ++ [.delayMs 15] ++ rawWriteEvents c.busMode 0x30 ++ [.delayMs 5] ++
    rawWriteEvents c.busMode 0x30 ++ [.delayMs 5] ++
    rawWriteEvents c.busMode (fsRealByte c) ++ [.delayMs 15] ++
    writeByteEvents c.busMode (fsRealByte c) ++ [.delayMs (step2Delay c)] ++
    writeByteEvents c.busMode (fsRealByte c) ++ [.delayMs (step2Delay c)]

/-- The events of INIT (R230): the bootstrap phase, then three commands behind the busy wait (R233). -/
def InitEvents (c : Cfg) (evs : List Event) : Prop :=
  ∃ e1 e2 e3, SentEvents c.busMode false 0x0F e1 ∧ SentEvents c.busMode false 0x01 e2 ∧ SentEvents c.busMode false 0x06 e3 ∧
    evs = bootEvents c ++ e1 ++ e2 ++ e3

/-! ## Requests -/

/-- Is the operation present in the configuration (R92, column "present when"). -/
def presentIn (c : Cfg) : Instr → Bool
  | .defglyph _ _ _ _ _ _ _ _ _ => c.hasGlyph
  | .readchar _ _ => c.hasReadChar
  | .readram _ => c.hasRawRead
  | .scroll => c.hasScroll
  | .intensity _ => c.hasIntensity
  | .init | .clear | .locate _ _ | .cursor _ _ | .putc _ | .puts _
  | .cmdClear | .cmdEntryInc | .cmdDisplay _ _ | .cmdFs8 | .fsReal _ _ _ | .cmdSetCgram _ | .cmdSetDdram _
  | .commandWrite _ | .dataWrite _ | .statusRead | .dataRead => true

/-- The operands name a cell of the panel (R94, R257 item 5); only LOCATE and READCHAR name one. -/
def inRange (c : Cfg) : Instr → Bool
  | .locate x y | .readchar x y => decide (x.toNat ≤ c.xmax) && decide (y.toNat ≤ c.ymax)
  | .init | .clear | .cursor _ _ | .putc _ | .puts _ | .defglyph _ _ _ _ _ _ _ _ _ | .readram _ | .scroll | .intensity _
  | .cmdClear | .cmdEntryInc | .cmdDisplay _ _ | .cmdFs8 | .fsReal _ _ _ | .cmdSetCgram _ | .cmdSetDdram _
  | .commandWrite _ | .dataWrite _ | .statusRead | .dataRead => true

/-- A request that is taken: every check of R257 passes. A bus transaction is no host operation, and asks only that the
engine is idle. -/
def accepted (s : State) (i : Instr) : Bool :=
  !s.busyOp && presentIn s.cfg i && (decide (i.space = .busTransaction) || decide (i = .init) || s.inited) && i.wellFormed &&
    inRange s.cfg i

/-- The row from which a line feed and an ordinary byte go on after the entry normalization (R190) where that does not scroll. -/
def entryRow (s : State) : Byte := if pastRow s then 0 else s.cy

/-- The cursor at the first wait of PUTC (R190 to R193): what a scroll waits for comes before CY is pinned, what an address
command waits for comes after the cursor is written, what a stored byte waits for before it is. -/
def cursorAtPut (ch : Byte) (s : State) : Byte × Byte :=
  if pastRow s && s.cfg.hasScroll && !oneRow s.cfg then (s.cx, s.cy)
  else if ch = chLf then
    (if s.cfg.nlImpliesCr then 0 else s.cx,
      if (entryRow s).toNat < s.cfg.ymax || (s.cfg.hasScroll && !oneRow s.cfg) then entryRow s + 1 else 0)
  else if ch = chCr then (0, entryRow s)
  else (s.cx, entryRow s)

/-- The cursor at an operation's first wait, as the operation has written it by then (R252, V60-2). -/
def cursorAtWait (s : State) : Instr → Byte × Byte
  | .locate x y => (x, y)
  | .putc ch => cursorAtPut ch s
  | .puts (ch :: _) => cursorAtPut ch s
  | .puts [] | .init | .clear | .cursor _ _ | .defglyph _ _ _ _ _ _ _ _ _ | .readchar _ _ | .readram _ | .scroll
  | .intensity _ | .cmdClear | .cmdEntryInc | .cmdDisplay _ _ | .cmdFs8 | .fsReal _ _ _ | .cmdSetCgram _ | .cmdSetDdram _
  | .commandWrite _ | .dataWrite _ | .statusRead | .dataRead => (s.cx, s.cy)

/-- The operation makes at least one bus transaction: all but PUTS of no text (R198) and SCROLL on one row (R211). -/
def transfers (c : Cfg) : Instr → Bool
  | .puts [] => false
  | .scroll => !oneRow c
  | .puts (_ :: _) | .init | .clear | .locate _ _ | .cursor _ _ | .putc _ | .defglyph _ _ _ _ _ _ _ _ _ | .readchar _ _
  | .readram _ | .intensity _ | .commandWrite _ | .dataWrite _ | .statusRead | .dataRead => true
  | .cmdClear | .cmdEntryInc | .cmdDisplay _ _ | .cmdFs8 | .fsReal _ _ _ | .cmdSetCgram _ | .cmdSetDdram _ => false

/-! ## What a completed operation leaves unchanged -/

/-- The pins at the end of every micro-operation that ends in a status read (R170, R282): `dout` is the last value driven. -/
def idlePins (dout : Lines) : Pins := ⟨false, true, false, dout, .input⟩

/-- The pins at the end of a data read (R176, R282). -/
def readPins (dout : Lines) : Pins := ⟨true, true, false, dout, .input⟩

/-- What no transfer changes in the environment; and an unconstrained controller's `ctl` fields, which say nothing of it,
stay as they are (R60, R73). -/
def EnvKept (v w : Env) : Prop :=
  w.peer = v.peer ∧ w.settled = v.settled ∧ w.busyAfter = v.busyAfter ∧ w.delays = v.delays ∧
    (v.peer = .unconstrained → w.ctl = v.ctl)

/-- `t` is `s` but for the cursor registers, the pins, events added to the history, responses added, and the environment,
of which `EnvKept` holds. -/
def Completed (s t : State) (x y : Byte) (pins : Pins) (evs : List Event) (rsp : List Byte) : Prop :=
  t = { s with cx := x, cy := y, pins := pins, hist := s.hist ++ evs, rsp := s.rsp ++ rsp, env := t.env } ∧
    EnvKept s.env t.env

/-- The reference controller `k` up to what the bus leaves open: the nibble latch, and a clear busy flag (R61, R70). -/
def Ctl.after (k k' : Ctl) : Prop := k' = { k with nib := k'.nib, busy := false }

/-- A command byte that leaves the controller's interface as wide as the bus (R64): no function set, or one with the
configured width. Every byte of R101 is one. -/
def keepsWidth (c : Cfg) (b : Byte) : Bool :=
  b.getLsbD 7 || b.getLsbD 6 || !b.getLsbD 5 || decide (b.getLsbD 4 = decide (c.busMode = .bus8))

/-! ## Counts (R143, R301) -/

/-- The number of `Ctl` events, which is the toggle count of R143. -/
def ctlCount (evs : List Event) : Nat :=
  evs.countP fun ev =>
    match ev with
    | .ctl _ _ => true
    | .dir _ | .drive _ | .sample _ | .delayMs _ => false

/-- The number of millisecond delays that have returned (R262 (a)). -/
def delayCount (evs : List Event) : Nat :=
  evs.countP fun ev =>
    match ev with
    | .delayMs _ => true
    | .ctl _ _ | .dir _ | .drive _ | .sample _ => false

/-- The number of strobes: events `Ctl(E, 1)` (R135). -/
def strobeCount (evs : List Event) : Nat := evs.countP fun ev => decide (ev = .ctl .e true)

/-! ## The frame invariants of the bus (R144) -/

/-- What a reader of the event history knows after a part of it. -/
structure Bench where
  rs : Level
  rw : Level
  e : Level
  dir : Dir
  /-- A `Drive` came since the last change of direction to output. -/
  fresh : Bool
  /-- A `Sample` came since E went high. -/
  sampled : Bool
  deriving DecidableEq, Repr

/-- The lines after reset (R39). -/
def Bench.reset : Bench where
  rs := false
  rw := true
  e := false
  dir := .input
  fresh := false
  sampled := false

/-- Has the value the width of the bus (R27, R130). -/
def widthOk (m : BusMode) (v : Lines) : Bool :=
  match m, v with
  | .bus4, .w4 _ => true
  | .bus8, .w8 _ => true
  | .bus4, .w8 _ => false
  | .bus8, .w4 _ => false

/-- One event of a well-framed history (R144): RS, RW and DIR change only while E = 0 (b); DIR = output only while RW = 0
(c); Ctl(E, 1) alternates with Ctl(E, 0), with at most one Sample between (d); a write strobe follows a Drive since the last
change to output (e); a value is driven only under DIR = output and RW = 0 (R133) and sampled only under DIR = input, RW = 1
and E = 1 (R134), each of the bus's width. -/
def Bench.see (m : BusMode) (p : Bench) (ev : Event) : Option Bench :=
  match ev with
  | .ctl .rs l => if p.e then none else some { p with rs := l }
  | .ctl .rw l => if p.e || (l && decide (p.dir = .output)) then none else some { p with rw := l }
  | .ctl .e l =>
    if l then
      if p.e || (!p.rw && (!p.fresh || decide (p.dir = .input))) then none
      else some { p with e := true, sampled := false }
    else if p.e then some { p with e := false } else none
  | .dir d => if p.e || (p.rw && decide (d = .output)) then none else some { p with dir := d, fresh := false }
  | .drive v => if !p.rw && decide (p.dir = .output) && widthOk m v then some { p with fresh := true } else none
  | .sample v =>
    if p.e && p.rw && decide (p.dir = .input) && !p.sampled && widthOk m v then some { p with sampled := true } else none
  | .delayMs _ => if p.e then none else some p

/-- Reading a history from a given point; none where an event breaks the frame. -/
def Bench.replay (m : BusMode) : Bench → List Event → Option Bench
  | p, [] => some p
  | p, ev :: rest => (p.see m ev).bind fun q => q.replay m rest

/-- The history is well framed from reset on, and replaying it gives the pin latches; between micro-operations E = 0
(R144 (a)), but not in the middle of one, where a settle delay that never returns holds the engine. -/
def State.framed (s : State) : Bool :=
  match Bench.reset.replay s.cfg.busMode s.hist with
  | some p =>
    decide (p.rs = s.pins.rs) && decide (p.rw = s.pins.rw) && decide (p.e = s.pins.e) && decide (p.dir = s.pins.dir) &&
      (s.stuck || !p.e)
  | none => false

/-! ## The invariant -/

/-- The resting invariant of the cursor (R21): `CX <= XMAX` and `CY <= YMAX + 1`. -/
def State.cursorOk (s : State) : Bool := decide (s.cx.toNat ≤ s.cfg.xmax) && decide (s.cy.toNat ≤ s.cfg.ymax + 1)

/-- The controller's RAMs are in canonical form and inside their address spaces (R53, R54). -/
def Ctl.memOk (k : Ctl) : Bool := Mem.wf k.ddram && Mem.below 128 k.ddram && Mem.wf k.cgram && Mem.below 64 k.cgram

/-- The invariant every step keeps. -/
def State.inv (s : State) : Bool :=
  s.cursorOk && s.framed && s.env.ctl.memOk && decide (s.busyOp = s.hang.isSome) && (!s.inited || s.env.settled) &&
    decide (s.stuck = decide (s.hang = some .settle))

/-- A run has ended (R19): every packet of the host's list is taken and no operation is in progress. -/
def State.ended (s : State) : Bool := decide (s.packets.length ≤ s.cp) && !s.busyOp

end Sys2Proof.Machine
end

