-- ==== Sys2Proof/Certificates/Slice0/Obligations.lean ====
section
/-!
DEFINITION. The statements for the provers, from the numbered rules of spec/. Each is a Prop; none is proved here.

Premises used throughout: `s.ready` (idle, INIT completed: R30, R286); `s.responsive` (`CTL_EVENTUALLY_READY`, R152, derived;
in step with the controller, log 34; and every settle delay returns); `s.refctl` (`REFCTL`, R73); `s.settlesReturn` and
`s.delaysReturn` (`DELAY_RETURNS`, R262, of the settle delays and of both services). They are on the state alone.
Wherever a statement gives the controller's `addrSet`, that is the model's own bit (R66, log 17).
-/

open Sys2Proof Sys2Proof.Machine

/-! ## Reset, invariant, decoding -/

/-- R280: what reset leaves, from every state, mid-operation or hung; and after reset the engine waits for the host. The
controller is whatever the draw `k` says it is (R281), status reads mean nothing again until an INIT (R70, log 20), and a delay
in progress is over (log 35); the rest of the environment and the host's list are as before.
The values are the spec's own choice (D22). -/
def Obligations.ResetState : Prop :=
  (∀ (s : State) (k : Ctl) (d : Delays), ∃ r, r = applyReset k d s ∧
    r.cx = 0 ∧ r.cy = 0 ∧ r.pins.rs = false ∧ r.pins.rw = true ∧ r.pins.e = false ∧ r.pins.dir = .input ∧
      r.inited = false ∧ r.busyOp = false ∧ r.hang = none ∧ r.hist = [] ∧ r.cfg = s.cfg ∧
        r.packets = s.packets ∧ r.cp = s.cp ∧ r.env = { s.env with ctl := k, settled := false, delays := d }) ∧
    (∀ (cfg : Cfg) (env : Env), step (State.resetWith cfg env) = .next (State.resetWith cfg env))

/-- R281: the reset that cuts a 4-bit data write between its two strobes (in the settle delay after the first has ended)
leaves the engine as after every reset and the controller at phase `lo`, with the high nibble held; of the controller nothing
else changed.
Where in an operation a reset can come, the model says (log 35). -/
def Obligations.ResetBetweenStrobes : Prop :=
  ∀ (s : State) (b : Byte) (d : Delays), s.busyOp = false → s.cfg.busMode = .bus4 → s.env.peer = .reference →
    s.env.inStep s.cfg = true →
    ∃ k, k = { s.env.ctl with phase := .lo, nib := b.extractLsb' 4 4 } ∧
      resetDuring 3 (.dataWrite b) d s = some (applyReset k d s)

/-- The invariant holds after reset, whatever the configuration, and whatever the controller holds in well-formed RAMs; and
after a reset of every state.
An inference from those rules, no rule of its own. -/
def Obligations.ResetInvariant : Prop :=
  State.reset.inv = true ∧
    (∀ (cfg : Cfg) (env : Env), env.ctl.memOk = true → env.delays.settle ≠ .stuck → (State.resetWith cfg env).inv = true) ∧
    ∀ (s : State) (k : Ctl) (d : Delays), k.memOk = true → d.settle ≠ .stuck → (applyReset k d s).inv = true

/-- The invariant of the machine (R21 the cursor's range, R144 the frame of every history, R53 and R54 the controller's
address spaces) is kept by every step, whatever the controller answers. -/
def Obligations.StepKeepsInvariant : Prop :=
  ∀ s t : State, s.inv = true → step s = .next t → t.inv = true

/-- Every well-formed instruction of every space decodes from its own words, whatever follows them (R91 to R93, R97, R100,
R101).
The numbers and the framing are the spec's own (D1 to D3, D5); the code of the two other spaces' words is the model's (log
11, log 13). -/
def Obligations.DecodeEncode : Prop :=
  ∀ (i : Instr) (rest : List Byte), i.wellFormed = true →
    decode i.space (encode i ++ rest) = .ok (i, (encode i).length)

/-- What a decoder answers is well formed, of its space, and the bytes it took are that instruction's words: every word has
one meaning.
The model's own claim about its decoder (D1 to D3; log 11, log 13, log 14). -/
def Obligations.DecodeSound : Prop :=
  ∀ (space : Space) (bytes : List Byte) (i : Instr) (n : Nat), decode space bytes = .ok (i, n) →
    i.space = space ∧ i.wellFormed = true ∧ n ≤ bytes.length ∧ bytes.take n = encode i

/-- Words written out from the encoding tables decode to what they stand for (R92, R93, R100, R101), read through the
opcode table's numbering.
The numbers are the spec's own (D1 to D3). How a word of the table is laid out and which of the table's three spaces it belongs
to, and the bytes that stand for a bus transaction, are the model's choice (log 11, log 13). -/
def Obligations.DecodedWords : Prop :=
  decodeTableWord 24 0x010303 = some (.locate 3 1) ∧ decodeTableWord 16 0x4105 = some (.putc 0x41) ∧
    decodeTableWord 16 0x0204 = some (.cursor true false) ∧ decodeTableWord 16 0x4009 = some (.readram 0x40) ∧
      decodePacket [0x06, 0x48, 0x69, 0x00] = .ok (.puts [0x48, 0x69], 4) ∧
        decodeCommand [0xC3] = .ok (.cmdSetDdram 0x43, 1) ∧ decodeCommand [0x48] = .ok (.cmdSetCgram 1, 1) ∧
          decodeTransaction [0x02, 0x41] = .ok (.dataWrite 0x41, 2) ∧ decodeTransaction [0x03] = .ok (.dataRead, 1)

/-- A step runs the decoded instruction: the host's packet at CP, with CP moved past it once the operation has completed, and
not while it hangs (R32); a word of the other two spaces, taken from where the model holds it (log 11); and with neither, the
machine waits.
The host's list and CP are the spec's choice D35. -/
def Obligations.StepRunsDecoded : Prop :=
  (∀ (s : State) (i : Instr) (n : Nat), s.busyOp = false → s.direct = none →
    decodePacket (s.packets.drop s.cp) = .ok (i, n) →
    (∀ t, exec i s = .next t → t.cp = s.cp ∧ (t.busyOp = false → step s = .next { t with cp := s.cp + n }) ∧
      (t.busyOp = true → step s = .next t)) ∧
    (∀ r, exec i s = .refused r → step s = .refused r)) ∧
  (∀ (s : State) (space : Space) (bytes : List Byte) (i : Instr) (n : Nat), s.busyOp = false →
    s.direct = some (space, bytes) → decode space bytes = .ok (i, n) → step s = exec i { s with direct := none }) ∧
  (∀ s : State, s.busyOp = false → s.direct = none → s.packets.drop s.cp = [] → step s = .next s)

/-! ## Refusals -/

/-- R257: the order in which a command is examined. While BUSY_OP is true nothing is taken; then the opcode, INITED, the
packet's form, the cell named; after that the operation runs, and no answer but a next state is left.
The order is the spec's derivation, the refusals its decisions D4 and D23. -/
def Obligations.RefusalOrder : Prop :=
  ∀ s : State, s.direct = none →
    (s.busyOp = true → ∃ t, step s = .next t ∧ t.packets = s.packets ∧ t.cp = s.cp) ∧
    (s.busyOp = false → ∀ (op : Byte) (rest : List Byte), s.packets.drop s.cp = op :: rest →
      if op = 0 ∨ 0x0C ≤ op.toNat then step s = .refused .unassignedOpcode
      else if opcodePresent s.cfg op = false then step s = .refused .absentOperation
      else if s.inited = false ∧ op ≠ 0x01 then step s = .refused .notInitialised
      else
        match decodePacket (op :: rest) with
        | .error r => step s = .refused (rejectRefusal r) ∧ (r = .reservedBits ∨ r = .truncatedPacket)
        | .ok (i, _) =>
          if inRange s.cfg i = false then step s = .refused .outOfRange
          else s.cursorOk = true → ∃ t, step s = .next t)

/-- R95: unassigned opcodes, reserved operand bits, and operations absent from the configuration are refused.
Refusing is the spec's decision D4. -/
def Obligations.MalformedRefused : Prop :=
  ∀ (s : State) (op : Byte) (rest : List Byte), s.busyOp = false → s.direct = none → s.packets.drop s.cp = op :: rest →
    (op = 0 ∨ 0x0C ≤ op.toNat → step s = .refused .unassignedOpcode) ∧
    (s.cfg.features = .reduced → op = 0x07 ∨ op = 0x08 ∨ op = 0x09 ∨ op = 0x0A → step s = .refused .absentOperation) ∧
    (s.cfg.displayType = .lcd → op = 0x0B → step s = .refused .absentOperation) ∧
    (∀ (m : Byte) (more : List Byte), rest = m :: more →
      (op = 0x04 ∧ m.extractLsb' 2 6 ≠ 0) ∨ (op = 0x07 ∧ m.extractLsb' 3 5 ≠ 0) ∨ (op = 0x09 ∧ m.getLsbD 7 = true) ∨
        (op = 0x0B ∧ m.extractLsb' 2 6 ≠ 0) → ∃ r, step s = .refused r)

/-- R286: before the first INIT has completed every host operation other than INIT is refused; an operation that exists in
the configuration, for that reason.
Refusing is the spec's decision D23. -/
def Obligations.BeforeInitRefused : Prop :=
  ∀ (i : Instr) (s : State), i.space = .hostPacket → i ≠ .init → s.inited = false →
    (∃ r, exec i s = .refused r) ∧
      (s.busyOp = false → presentIn s.cfg i = true → exec i s = .refused .notInitialised)

/-- R162 and R186: out of the panel's range Resolve has no value, tested on x and on y; LOCATE and READCHAR naming such a cell
are refused; and in a state of the resting cursor invariant no other operation is refused for that reason.
Refusing is the spec's decision D38. -/
def Obligations.OutOfRangeRefused : Prop :=
  (∀ (c : Cfg) (x y : Nat), resolve c x y = none ↔ c.xmax < x ∨ c.ymax < y) ∧
  (∀ (s : State) (x y : Byte), s.ready = true → s.cfg.xmax < x.toNat ∨ s.cfg.ymax < y.toNat →
    exec (.locate x y) s = .refused .outOfRange ∧
      (s.cfg.features = .full → exec (.readchar x y) s = .refused .outOfRange)) ∧
  (∀ (s : State) (i : Instr), s.cursorOk = true → exec i s = .refused .outOfRange →
    ∃ x y, i = .locate x y ∨ i = .readchar x y)

/-- While an operation is in progress no request is taken (U3, R257 item 1), and the machine does not stop either.
That a hung machine steps on for ever is the model's step grain (log 1, log 2). -/
def Obligations.BusyTakesNothing : Prop :=
  (∀ (i : Instr) (s : State), i.space ≠ .controllerCommand → s.busyOp = true → exec i s = .refused .busy) ∧
    (∀ s : State, s.busyOp = true → ∃ t, step s = .next t ∧ t.busyOp = true ∧ t.direct = s.direct ∧ t.packets = s.packets ∧
      t.cp = s.cp)

/-! ## Hangs -/

/-- R252, R151 and R262: an operation that hangs hangs for ever, in whichever wait. After any number of steps BUSY_OP is still
true, nothing was taken or answered, and CX and CY are as they were. In a delay that never returns nothing at all happens; in
the poll loop there is one status read a step in the history.
One status read a step is the model's grain (log 1, log 2); the two waits on the delay source are log 23. -/
def Obligations.HungForEver : Prop :=
  ∀ (s : State) (n : Nat), s.busyOp = true →
    (s.hang.isSome = true → ∃ t, Sys2Proof.core.run n s = .next t ∧ t.busyOp = true ∧ t.hang.isSome = true ∧ t.cx = s.cx ∧
      t.cy = s.cy ∧ t.packets = s.packets ∧ t.cp = s.cp ∧ t.rsp = s.rsp) ∧
    (s.hang = some .delay ∨ s.hang = some .settle → Sys2Proof.core.run n s = .next s) ∧
    (s.hang = some .poll → s.settlesReturn = true →
      ∃ t answers, Sys2Proof.core.run n s = .next t ∧ t.busyOp = true ∧ t.hang = some .poll ∧ t.cx = s.cx ∧ t.cy = s.cy ∧
        t.cp = s.cp ∧ t.rsp = s.rsp ∧ answers.length = n ∧ t.hist = s.hist ++ pollEvents s.cfg.busMode answers)

/-- R151 and R252: when an operation hangs in the poll loop. In step with a controller that is busy for ever, every host
operation that is taken and makes a transfer (R198, R211 name the two that make none) gives a next state with BUSY_OP true,
hung in the poll loop, nothing answered, and CX and CY as the operation had written them before its first wait; INIT, from
whatever the controller is, when delays return.
That the engine is in step is the model's reading of the premise (log 34). -/
def Obligations.HangsInPoll : Prop :=
  ∀ (i : Instr) (s : State), i.space = .hostPacket → accepted s i = true → transfers s.cfg i = true → s.cursorOk = true →
    s.neverReady = true → s.settlesReturn = true → (if i = .init then s.delaysReturn else s.env.inStep s.cfg) = true →
    ∃ t evs, exec i s = .next t ∧
      t = { s with
        cx := (cursorAtWait s i).1
        cy := (cursorAtWait s i).2
        pins := t.pins
        hist := s.hist ++ evs
        env := t.env
        busyOp := true
        hang := some .poll }

/-- R262: when an operation hangs in a delay. INIT, one of whose six millisecond delays never returns, stays in it, after the
ones before it; every host operation and every bus transaction that is taken and makes a transfer, one of whose first four
settle delays never returns, stays in that one: its control line has been commanded and no other. CX and CY are as the operation
had written them.
Which delays return the model holds as data (log 23). -/
def Obligations.HangsInDelay : Prop :=
  (∀ (s : State) (n : Nat), s.busyOp = false → s.settlesReturn = true → s.env.delays.ms = some n → n < 6 →
    ∃ t evs, exec .init s = .next t ∧ delayCount evs = n ∧
      t = { s with pins := t.pins, hist := s.hist ++ evs, env := t.env, busyOp := true, hang := some .delay }) ∧
  (∀ (i : Instr) (s : State) (n : Nat), accepted s i = true → transfers s.cfg i = true → s.cursorOk = true →
    s.env.delays.settle = .left n → n < 4 →
    ∃ t evs, exec i s = .next t ∧ ctlCount evs = n + 1 ∧
      t = { s with
        cx := (cursorAtWait s i).1
        cy := (cursorAtWait s i).2
        pins := t.pins
        hist := s.hist ++ evs
        env := t.env
        busyOp := true
        hang := some .settle })

/-- R151: the poll loop has no bound. The model's poll budget (log 2) is none: where `WaitUntilReady` completes it does so with
any larger budget and to the same state, and where it hangs no budget at all would let it complete. -/
def Obligations.PollBudgetIsNoBound : Prop :=
  ∀ s : State,
    (∀ t, waitUntilReady s = .done () t → ∀ n, pollBudget s ≤ n → pollLoop n s = .done () t) ∧
    (∀ t, waitUntilReady s = .hung t → ∀ n u, pollLoop n s ≠ .done () u)

/-! ## Bus transactions and the controller's reaction -/

/-- R131, R132 and R262 (b): a line primitive sets its latch and appends its event, also where the level does not change; it
touches no other latch and nothing else but the controller, which the falling edge of E lets act, and the delay source, of which
a control line, and no other line, requests a settle delay; where all settle delays return that request changes nothing. While
one never returns, no line is touched.
The event where the level stays is the spec's decision D7; where the controller reacts, log 29; the delay source, log 23. -/
def Obligations.LinePrimitives : Prop :=
  ∀ (s : State) (n : Line) (l : Level) (d : Dir),
    (s.stuck = false →
      setControlLine .rs l s =
        { s with pins := { s.pins with rs := l }, hist := s.hist ++ [.ctl .rs l], env := s.env.settle } ∧
      setControlLine .rw l s =
        { s with pins := { s.pins with rw := l }, hist := s.hist ++ [.ctl .rw l], env := s.env.settle } ∧
      setControlLine .e l s = { s with
        pins := { s.pins with e := l }
        hist := s.hist ++ [.ctl .e l]
        env := (setControlLine .e l s).env } ∧
      (s.pins.e = false ∨ l = true → (setControlLine .e l s).env = s.env.settle) ∧
      setBusDirection d s = { s with pins := { s.pins with dir := d }, hist := s.hist ++ [.dir d] }) ∧
    (s.settlesReturn = true → s.env.settle = s.env) ∧
    (s.stuck = true → setControlLine n l s = s ∧ setBusDirection d s = s)

/-- R141, for command and data writes, settle delays returning: the pin events, the pins after it, and that nothing else of the
engine changes.
The order of the lines is the spec's decisions D6 and D8. -/
def Obligations.BusWriteTransaction : Prop :=
  ∀ (s : State) (v : Byte) (rs : Level), s.busyOp = false → s.settlesReturn = true →
    ∃ t, exec (if rs then .dataWrite v else .commandWrite v) s = .next t ∧
      t = { s with
        pins := ⟨rs, false, false, t.pins.dout, .output⟩
        hist := t.hist
        env := t.env } ∧
      (s.cfg.busMode = .bus8 → t.pins.dout = .w8 v ∧ t.hist = s.hist ++
        [.ctl .rs rs, .ctl .rw false, .dir .output, .drive (.w8 v), .ctl .e true, .ctl .e false]) ∧
      (s.cfg.busMode = .bus4 → t.pins.dout = .w4 (v.extractLsb' 0 4) ∧ t.hist = s.hist ++
        [.ctl .rs rs, .ctl .rw false, .dir .output, .drive (.w4 (v.extractLsb' 4 4)), .ctl .e true, .ctl .e false,
          .drive (.w4 (v.extractLsb' 0 4)), .ctl .e true, .ctl .e false])

/-- R142, for status and data reads, settle delays returning: the pin events with the value the environment supplied, the pins
after it, and that nothing else of the engine changes. -/
def Obligations.BusReadTransaction : Prop :=
  ∀ (s : State) (rs : Level), s.busyOp = false → s.settlesReturn = true →
    ∃ t, exec (if rs then .dataRead else .statusRead) s = .next t ∧
      t = { s with pins := ⟨rs, true, false, s.pins.dout, .input⟩, hist := t.hist, env := t.env } ∧
      (s.cfg.busMode = .bus8 → ∃ v : Byte, t.hist = s.hist ++
        [.dir .input, .ctl .rs rs, .ctl .rw true, .ctl .e true, .sample (.w8 v), .ctl .e false]) ∧
      (s.cfg.busMode = .bus4 → ∃ h l : Nibble, t.hist = s.hist ++
        [.dir .input, .ctl .rs rs, .ctl .rw true, .ctl .e true, .sample (.w4 h), .ctl .e false,
          .ctl .e true, .sample (.w4 l), .ctl .e false])

/-- R64: a completed write with RS = 0 is a command, decoded by its highest set bit (the byte 0x00 is undefined and is not
spoken of). For every bus width, of a reference controller in step. A data read then directly follows an address set exactly
where the command set one (R66; the model's bit `addrSet`, log 17).
The encodings are "[from general knowledge, not in source]" (R64); the shift's counter is drawn (log 16). -/
def Obligations.CommandReaction : Prop :=
  ∀ (s : State) (v : Byte), s.busyOp = false → s.settlesReturn = true → s.env.peer = .reference →
    s.env.inStep s.cfg = true → v ≠ 0 →
    ∃ (t : State) (k : Ctl), exec (.commandWrite v) s = .next t ∧ t.env.peer = .reference ∧
      k = { s.env.ctl with nib := k.nib, busy := true, addrSet := v.getLsbD 7 || v.getLsbD 6 } ∧
      t.env.ctl =
        (if v.getLsbD 7 then { k with ac := v.extractLsb' 0 7, sel := .dd }
        else if v.getLsbD 6 then { k with ac := (v.extractLsb' 0 6).setWidth 7, sel := .cg }
        else if v.getLsbD 5 then
          { k with
            if8 := v.getLsbD 4
            twoLine := v.getLsbD 3
            font := v.getLsbD 2
            bright := if s.cfg.displayType = .vfd then v.extractLsb' 0 2 else k.bright
            phase := .hi }
        else if v.getLsbD 4 then { k with ac := t.env.ctl.ac }
        else if v.getLsbD 3 then { k with display := v.getLsbD 2, cursor := v.getLsbD 1, blink := v.getLsbD 0 }
        else if v.getLsbD 2 then { k with incr := v.getLsbD 1, shift := v.getLsbD 0 }
        else if v.getLsbD 1 then { k with ac := 0, sel := .dd }
        else { k with ddram := t.env.ctl.ddram, ac := 0, sel := .dd, incr := true }) ∧
      (v = 0x01 → ∀ a, Mem.read t.env.ctl.ddram a = 0x20)

/-- R65 and R68: a completed write with RS = 1 stores the byte at the address counter in the RAM last selected, every other
byte staying as it was, and steps the counter; at a DDRAM address the controller does not implement the byte is lost.
A data read that comes next does not directly follow an address set (R66; the model's bit `addrSet`, log 17).
The implemented addresses are "[from general knowledge, not in source]" (R68); which byte of CGRAM a counter of 64 or more
reaches is the model's choice (log 33). -/
def Obligations.DataReaction : Prop :=
  ∀ (s : State) (b : Byte), s.busyOp = false → s.settlesReturn = true → s.env.peer = .reference →
    s.env.inStep s.cfg = true → s.env.ctl.memOk = true →
    ∃ (t : State) (k : Ctl), exec (.dataWrite b) s = .next t ∧ t.env.peer = .reference ∧
      k = { s.env.ctl with nib := k.nib, busy := true, addrSet := false, ac := s.env.ctl.step } ∧
      t.env.ctl = { k with ddram := t.env.ctl.ddram, cgram := t.env.ctl.cgram } ∧
      (s.env.ctl.sel = .cg → t.env.ctl.ddram = s.env.ctl.ddram ∧
        Mem.read t.env.ctl.cgram (s.env.ctl.ac.extractLsb' 0 6).toNat = b ∧
        ∀ a, a ≠ (s.env.ctl.ac.extractLsb' 0 6).toNat → Mem.read t.env.ctl.cgram a = Mem.read s.env.ctl.cgram a) ∧
      (s.env.ctl.sel = .dd → t.env.ctl.cgram = s.env.ctl.cgram ∧
        (∀ a, a ≠ s.env.ctl.ac.toNat → Mem.read t.env.ctl.ddram a = Mem.read s.env.ctl.ddram a) ∧
        Mem.read t.env.ctl.ddram s.env.ctl.ac.toNat =
          if s.env.ctl.implemented s.env.ctl.ac then b else Mem.read s.env.ctl.ddram s.env.ctl.ac.toNat)

/-- R67: how the address counter steps; with ID false, the reverse, on the addresses the controller implements (R68).
The rule is "[from general knowledge, not in source]" (R67). -/
def Obligations.CounterSteps : Prop :=
  ∀ k : Ctl,
    (k.incr = true → k.sel = .dd → k.twoLine = false → k.ac.toNat ≤ 0x4F →
      k.step.toNat = if k.ac = 0x4F then 0 else k.ac.toNat + 1) ∧
    (k.incr = true → k.sel = .dd → k.twoLine = true → k.implemented k.ac = true →
      k.step.toNat = if k.ac = 0x27 then 0x40 else if k.ac = 0x67 then 0 else k.ac.toNat + 1) ∧
    (k.incr = true → k.sel = .cg → k.ac.toNat ≤ 63 → k.step.toNat = (k.ac.toNat + 1) % 64) ∧
    (k.incr = false → k.sel = .dd → k.implemented k.ac = true →
      ({ k with incr := true, ac := k.step } : Ctl).step = k.ac) ∧
    (k.incr = false → k.sel = .cg → k.ac.toNat ≤ 63 → ({ k with incr := true, ac := k.step } : Ctl).step = k.ac)

/-- R69: a status read of the reference controller returns its busy flag (drawn, R70 way (a), log 21) and its address counter,
high nibble first on four lines, and changes nothing else in it.
The place of the address is "[from general knowledge, not in source]" (R69). -/
def Obligations.StatusReadReaction : Prop :=
  ∀ s : State, s.busyOp = false → s.settlesReturn = true → s.refctl = true →
    ∃ (t : State) (bf : Bool), exec .statusRead s = .next t ∧ t.refctl = true ∧ t.env.ctl = { s.env.ctl with busy := bf } ∧
      t.hist = s.hist ++ [.dir .input, .ctl .rs false, .ctl .rw true] ++
        match s.cfg.busMode with
        | .bus8 => [.ctl .e true, .sample (.w8 (BitVec.ofBool bf ++ s.env.ctl.ac)), .ctl .e false]
        | .bus4 =>
          [.ctl .e true, .sample (.w4 (BitVec.ofBool bf ++ s.env.ctl.ac.extractLsb' 4 3)), .ctl .e false,
            .ctl .e true, .sample (.w4 (s.env.ctl.ac.extractLsb' 0 4)), .ctl .e false]

/-- R66: a data read that directly follows an address set returns the byte at the address counter (of DDRAM, where the
controller implements the address, R68), and steps the counter; nothing else in the controller changes but that it is busy.
That the read steps the counter is "[from general knowledge, not in source]" (R66); which byte of CGRAM a counter of 64 or
more reaches is the model's choice (log 33). -/
def Obligations.DataReadReaction : Prop :=
  ∀ s : State, s.busyOp = false → s.settlesReturn = true → s.refctl = true → s.env.ctl.addrSet = true →
    ∃ (t : State) (b : Byte), exec .dataRead s = .next t ∧ t.refctl = true ∧
      t.hist = s.hist ++ readEvents s.cfg.busMode true b ∧
      t.env.ctl = { s.env.ctl with ac := s.env.ctl.step, busy := true, addrSet := false } ∧
      (s.env.ctl.sel = .cg → b = Mem.read s.env.ctl.cgram (s.env.ctl.ac.extractLsb' 0 6).toNat) ∧
      (s.env.ctl.sel = .dd → s.env.ctl.implemented s.env.ctl.ac = true → b = Mem.read s.env.ctl.ddram s.env.ctl.ac.toNat)

/-- The controller-command rows of the opcode table (log 12): each has on the controller the effect R64 gives its byte, and
changes nothing else of the machine.
That a row acts on the controller alone is the model's choice. -/
def Obligations.ControllerCommandRows : Prop :=
  ∀ (s : State) (c b l n : Bool) (bb : BitVec 2) (code : BitVec 3) (a : Addr7),
    exec .cmdClear s = .next { s with env := { s.env with ctl := { s.env.ctl with
      ddram := [], ac := 0, sel := .dd, incr := true, busy := true, addrSet := false } } } ∧
    exec .cmdEntryInc s = .next { s with env := { s.env with ctl := { s.env.ctl with
      incr := true, shift := false, busy := true, addrSet := false } } } ∧
    exec (.cmdDisplay c b) s = .next { s with env := { s.env with ctl := { s.env.ctl with
      display := true, cursor := c, blink := b, busy := true, addrSet := false } } } ∧
    exec .cmdFs8 s = .next { s with env := { s.env with ctl := { s.env.ctl with
      if8 := true, twoLine := false, font := false, bright := if s.cfg.displayType = .vfd then 0 else s.env.ctl.bright,
      busy := true, addrSet := false } } } ∧
    exec (.fsReal l n bb) s = .next { s with env := { s.env with ctl := { s.env.ctl with
      if8 := l, twoLine := n, font := false, bright := if s.cfg.displayType = .vfd then bb else s.env.ctl.bright,
      phase := if l then s.env.ctl.phase else .hi, busy := true, addrSet := false } } } ∧
    exec (.cmdSetCgram code) s = .next { s with env := { s.env with ctl := { s.env.ctl with
      ac := BitVec.ofNat 7 (8 * code.toNat), sel := .cg, busy := true, addrSet := true } } } ∧
    exec (.cmdSetDdram a) s = .next { s with env := { s.env with ctl := { s.env.ctl with
      ac := a, sel := .dd, busy := true, addrSet := true } } }

/-- A controller-command row does to the controller what writing its byte over the bus does, whatever the bus width, but for
the nibble latch (R62 to R64, R101).
What a row means is the model's choice (log 12). -/
def Obligations.CommandRowsAgree : Prop :=
  ∀ (s : State) (i : Instr) (b : Byte), i.space = .controllerCommand → encode i = [b] → s.busyOp = false →
    s.settlesReturn = true → s.env.peer = .reference → s.env.inStep s.cfg = true →
    ∃ t u, exec i s = .next t ∧ exec (.commandWrite b) s = .next u ∧
      u.env.ctl = { t.env.ctl with nib := u.env.ctl.nib }

/-! ## The display-control operations -/

/-- R237: CLEAR is `SendCommand(0x01)`; CX and CY stay; under REFCTL every DDRAM byte becomes 0x20 and the address counter 0.
The body is the spec's reading (D17). -/
def Obligations.Clear : Prop :=
  ∀ s : State, s.ready = true → s.responsive = true →
    ∃ t evs, exec .clear s = .next t ∧ SentEvents s.cfg.busMode false 0x01 evs ∧
      Completed s t s.cx s.cy (idlePins t.pins.dout) evs [] ∧
      (s.refctl = true → t.refctl = true ∧ s.env.ctl.clearDisplay.after t.env.ctl ∧ t.env.ctl.ac = 0 ∧
        ∀ a, Mem.read t.env.ctl.ddram a = 0x20)

/-- R238: CURSOR is `SendCommand(0x0C | mode)`; both bits are set absolutely, the display stays on, CX and CY stay.
The body is the spec's reading (D18). -/
def Obligations.Cursor : Prop :=
  ∀ (s : State) (cursor blink : Bool), s.ready = true → s.responsive = true →
    ∃ t evs, exec (.cursor cursor blink) s = .next t ∧
      SentEvents s.cfg.busMode false (0x03#6 ++ BitVec.ofBool cursor ++ BitVec.ofBool blink) evs ∧
      Completed s t s.cx s.cy (idlePins t.pins.dout) evs [] ∧
      (s.refctl = true → t.refctl = true ∧
        Ctl.after { s.env.ctl with display := true, cursor := cursor, blink := blink, addrSet := false } t.env.ctl)

/-- R239: INTENSITY re-issues function set with the configured width and line count and the new intensity field; where the
display is no VFD it is refused. CX and CY stay.
The body is the spec's reading (D19). -/
def Obligations.Intensity : Prop :=
  ∀ (s : State) (level : BitVec 2), s.ready = true →
    (s.cfg.displayType = .lcd → exec (.intensity level) s = .refused .absentOperation) ∧
    (s.cfg.displayType = .vfd → s.responsive = true →
      ∃ t evs, exec (.intensity level) s = .next t ∧
        SentEvents s.cfg.busMode false
          (0x1#3 ++ BitVec.ofBool (decide (s.cfg.busMode = .bus8)) ++ BitVec.ofBool s.cfg.twoLine ++ 0#1 ++ level) evs ∧
        Completed s t s.cx s.cy (idlePins t.pins.dout) evs [] ∧
        (s.refctl = true → t.refctl = true ∧
          Ctl.after { s.env.ctl with twoLine := s.cfg.twoLine, font := false, bright := level, addrSet := false } t.env.ctl))

/-- R230 to R236: INIT, from every state of the engine at rest and of the controller. It completes when delays return and the
busy flag is eventually clear; its events are those of R230; CX and CY stay (R240); and it leaves the reference controller
in the terminal state of R236, whatever it was before. CGRAM is not touched.
The framing of the bootstrap writes is the spec's decisions D20 and D21, the terminal state its derivation. -/
def Obligations.Init : Prop :=
  ∀ s : State, s.busyOp = false → s.env.eventuallyReady = true → s.delaysReturn = true →
    ∃ t evs, exec .init s = .next t ∧ InitEvents s.cfg evs ∧
      t = { s with
        pins := idlePins t.pins.dout
        hist := s.hist ++ evs
        inited := true
        env := t.env } ∧
      t.env.settled = true ∧ t.env.peer = s.env.peer ∧ t.responsive = true ∧ t.delaysReturn = true ∧
      (s.env.peer = .unconstrained → t.env.ctl = s.env.ctl) ∧
      (s.env.peer = .reference → t.refctl = true ∧
        t.env.ctl.if8 = decide (s.cfg.busMode = .bus8) ∧ t.env.ctl.phase = .hi ∧ t.env.ctl.twoLine = s.cfg.twoLine ∧
        t.env.ctl.font = false ∧ (s.cfg.displayType = .vfd → t.env.ctl.bright = s.cfg.vfdInitIntensity) ∧
        t.env.ctl.display = true ∧ t.env.ctl.cursor = true ∧ t.env.ctl.blink = true ∧
        (∀ a, Mem.read t.env.ctl.ddram a = 0x20) ∧ t.env.ctl.ac = 0 ∧ t.env.ctl.sel = .dd ∧ t.env.ctl.incr = true ∧
        t.env.ctl.shift = false ∧ t.env.ctl.busy = false ∧ t.env.ctl.cgram = s.env.ctl.cgram)

/-! ## Cells: translation, LOCATE, READCHAR, READRAM -/

/-- R165: the nine common panels, each with its geometry and the `TWO_LINE` value it needs: R8 holds of them, every address is
one the controller implements, cell (0, 0) is at 0x00, and every cell is where the table has it.
The tables are "[from general knowledge, not in source]" (R165) but for row 2 of the 20 by 4 panel (R164). -/
def Obligations.CommonPanels : Prop :=
  ∀ (m : BusMode) (f : Features) (d : DisplayType) (nl : Bool) (bb : BitVec 2),
    (Config.panels.map fun p => (p.xmax, p.ymax, p.twoLine)) =
      [(7, 0, false), (15, 0, false), (15, 0, true), (7, 1, true), (15, 1, true), (19, 1, true), (39, 1, true),
        (15, 3, true), (19, 3, true)] ∧
    (∀ p ∈ Config.panels, tableFits (p.cfg m f d nl bb) = true ∧ resolve (p.cfg m f d nl bb) 0 0 = some 0) ∧
    (∀ x < 8, resolve (Config.panel8x1.cfg m f d nl bb) x 0 = some (BitVec.ofNat 7 x) ∧
      resolve (Config.panel16x1split.cfg m f d nl bb) x 0 = some (BitVec.ofNat 7 x) ∧
      resolve (Config.panel16x1split.cfg m f d nl bb) (x + 8) 0 = some (BitVec.ofNat 7 (0x40 + x))) ∧
    (∀ x < 16, resolve (Config.panel16x1.cfg m f d nl bb) x 0 = some (BitVec.ofNat 7 x)) ∧
    (∀ p ∈ [Config.panel8x2, Config.panel16x2, Config.panel20x2, Config.panel40x2], ∀ x ≤ p.xmax,
      resolve (p.cfg m f d nl bb) x 0 = some (BitVec.ofNat 7 x) ∧
      resolve (p.cfg m f d nl bb) x 1 = some (BitVec.ofNat 7 (0x40 + x))) ∧
    (∀ p ∈ [Config.panel16x4, Config.panel20x4], ∀ x ≤ p.xmax,
      resolve (p.cfg m f d nl bb) x 0 = some (BitVec.ofNat 7 x) ∧
      resolve (p.cfg m f d nl bb) x 1 = some (BitVec.ofNat 7 (0x40 + x)) ∧
      resolve (p.cfg m f d nl bb) x 2 = some (BitVec.ofNat 7 (p.xmax + 1 + x)) ∧
      resolve (p.cfg m f d nl bb) x 3 = some (BitVec.ofNat 7 (0x40 + (p.xmax + 1) + x)))

/-- R160 and R161: for a cell of the panel Resolve is the literal table entry at x + (XMAX+1)*y, and two different cells never
resolve to the same address. -/
def Obligations.ResolveTable : Prop :=
  ∀ c : Cfg,
    (∀ x y, x ≤ c.xmax → y ≤ c.ymax → ∃ a, resolve c x y = some a ∧ c.table[x + (c.xmax + 1) * y]? = some a) ∧
    (∀ x y x' y' a, resolve c x y = some a → resolve c x' y' = some a → x = x' ∧ y = y')

/-- R164: on the 20 by 4 panel row 2 starts at offset 0x14. -/
def Obligations.ResolveTwentyByFour : Prop :=
  ∀ c : Cfg, c.xmax = 19 → c.ymax = 3 → c.table = Config.table20x4 → resolve c 0 2 = some 0x14

/-- R185: LOCATE sets CX and CY and sends the address of the cell; under REFCTL the address counter becomes that address.
That it completes rests on R152, a derived premise, which the model reads as asking for the engine to be in step too (log 34);
`addrSet` is the model's own bit (log 17). -/
def Obligations.Locate : Prop :=
  ∀ (s : State) (x y : Byte), s.ready = true → s.responsive = true → x.toNat ≤ s.cfg.xmax → y.toNat ≤ s.cfg.ymax →
    ∃ t evs a, exec (.locate x y) s = .next t ∧ resolve s.cfg x.toNat y.toNat = some a ∧
      SentEvents s.cfg.busMode false (0x80 ||| a.setWidth 8) evs ∧
      Completed s t x y (idlePins t.pins.dout) evs [] ∧
      (s.refctl = true → t.refctl = true ∧
        Ctl.after { s.env.ctl with ac := a, sel := .dd, addrSet := true } t.env.ctl)

/-- R180: READRAM is `ReadDataRam(addr)`: its events, the byte read as result, CX and CY unchanged; under REFCTL the byte is
DDRAM's at an implemented address, no RAM changes, and the address counter is left at step(addr). Without raw reads in the
configuration it is refused.
Refusing is the spec's decision D4 (R95); that a data read steps the counter is general knowledge there (R66); that it completes
rests on R152, a derived premise. -/
def Obligations.Readram : Prop :=
  ∀ (s : State) (addr : Addr7), s.ready = true →
    (s.cfg.features = .reduced → exec (.readram addr) s = .refused .absentOperation) ∧
    (s.cfg.features = .full → s.responsive = true →
      ∃ t evs b, exec (.readram addr) s = .next t ∧ LoadEvents s.cfg.busMode addr b evs ∧
        Completed s t s.cx s.cy (readPins t.pins.dout) evs [b] ∧
        (s.refctl = true → t.refctl = true ∧
          (s.env.ctl.implemented addr = true → b = Mem.read s.env.ctl.ddram addr.toNat) ∧
          t.env.ctl = { s.env.ctl with
            ac := ({ s.env.ctl with ac := addr, sel := .dd } : Ctl).step
            sel := .dd
            busy := true
            addrSet := false
            nib := t.env.ctl.nib }))

/-- R181: READCHAR is `ReadDataRam(Resolve(x, y))`; CX and CY unchanged.
That the operation is this is the spec's inference (R181: "follows from"). -/
def Obligations.Readchar : Prop :=
  ∀ (s : State) (x y : Byte), s.ready = true → s.responsive = true → s.cfg.features = .full →
    x.toNat ≤ s.cfg.xmax → y.toNat ≤ s.cfg.ymax →
    ∃ t evs a b, exec (.readchar x y) s = .next t ∧ resolve s.cfg x.toNat y.toNat = some a ∧
      LoadEvents s.cfg.busMode a b evs ∧ Completed s t s.cx s.cy (readPins t.pins.dout) evs [b] ∧
      (s.refctl = true → t.refctl = true ∧ (s.env.ctl.implemented a = true → b = Mem.read s.env.ctl.ddram a.toNat) ∧
        t.env.ctl = { s.env.ctl with
          ac := ({ s.env.ctl with ac := a, sel := .dd } : Ctl).step
          sel := .dd
          busy := true
          addrSet := false
          nib := t.env.ctl.nib })

/-! ## PUTC and PUTS -/

/-- R193 to R197: an ordinary byte, the row being on the panel: the address command of the cell, the byte, CX one further; past
the last column CX 0, CY one further without a test, and the address command of the cell just written sent again.
Setting the address before each byte and the byte re-sent after a wrap are the spec's decisions D12 and D13. -/
def Obligations.PutcOrdinary : Prop :=
  ∀ (s : State) (ch : Byte), s.ready = true → s.responsive = true → ch ≠ 0x0A → ch ≠ 0x0D →
    s.cx.toNat ≤ s.cfg.xmax → s.cy.toNat ≤ s.cfg.ymax →
    ∃ t a stored, exec (.putc ch) s = .next t ∧ resolve s.cfg s.cx.toNat s.cy.toNat = some a ∧
      StoreEvents s.cfg.busMode a ch stored ∧
      (s.cx.toNat < s.cfg.xmax → Completed s t (s.cx + 1) s.cy (idlePins t.pins.dout) stored [ch]) ∧
      (s.cx.toNat = s.cfg.xmax → ∃ again, SentEvents s.cfg.busMode false (0x80 ||| a.setWidth 8) again ∧
        Completed s t 0 (s.cy + 1) (idlePins t.pins.dout) (stored ++ again) [ch]) ∧
      (s.refctl = true → s.env.ctl.memOk = true → s.env.ctl.implemented a = true → t.refctl = true ∧
        Mem.read t.env.ctl.ddram a.toNat = ch ∧
        (∀ k, k ≠ a.toNat → Mem.read t.env.ctl.ddram k = Mem.read s.env.ctl.ddram k) ∧
        (s.cx.toNat < s.cfg.xmax → t.env.ctl.ac = ({ s.env.ctl with ac := a, sel := .dd } : Ctl).step) ∧
        (s.cx.toNat = s.cfg.xmax → t.env.ctl.ac = a) ∧
        t.env.ctl = { s.env.ctl with
          ddram := t.env.ctl.ddram
          ac := t.env.ctl.ac
          sel := .dd
          busy := false
          addrSet := t.env.ctl.addrSet
          nib := t.env.ctl.nib })

/-- R191: a line feed above the last row: CY one further, CX to 0 by policy only, the address command of the new cell; nothing
is written to the display.
The value 0x0A is the spec's choice (D33). -/
def Obligations.PutcLineFeed : Prop :=
  ∀ s : State, s.ready = true → s.responsive = true → s.cx.toNat ≤ s.cfg.xmax → s.cy.toNat < s.cfg.ymax →
    ∃ t evs a, exec (.putc 0x0A) s = .next t ∧
      resolve s.cfg (if s.cfg.nlImpliesCr then 0 else s.cx.toNat) (s.cy.toNat + 1) = some a ∧
      SentEvents s.cfg.busMode false (0x80 ||| a.setWidth 8) evs ∧
      Completed s t (if s.cfg.nlImpliesCr then 0 else s.cx) (s.cy + 1) (idlePins t.pins.dout) evs [0x0A] ∧
      (s.refctl = true → t.refctl = true ∧
        Ctl.after { s.env.ctl with ac := a, sel := .dd, addrSet := true } t.env.ctl)

/-- R191: a line feed on the last row: with scroll support what SCROLL does, then what a LOCATE to the last row does; without,
what a LOCATE to row 0 does; with the byte as result.
The wrap without scroll support and the value 0x0A are the spec's choices (D14, D33). -/
def Obligations.PutcLineFeedLastRow : Prop :=
  ∀ s : State, s.ready = true → s.cx.toNat ≤ s.cfg.xmax → s.cy.toNat = s.cfg.ymax →
    (s.cfg.features = .full → ∀ u t, exec .scroll s = .next u → u.busyOp = false →
      exec (.locate (if s.cfg.nlImpliesCr then 0 else s.cx) s.cy) u = .next t → t.busyOp = false →
        exec (.putc 0x0A) s = .next { t with rsp := t.rsp ++ [0x0A] }) ∧
    (s.cfg.features = .reduced → ∀ t, exec (.locate (if s.cfg.nlImpliesCr then 0 else s.cx) 0) s = .next t →
      t.busyOp = false → exec (.putc 0x0A) s = .next { t with rsp := t.rsp ++ [0x0A] })

/-- R192: a carriage return: CX 0, CY kept, the address command of the new cell; nothing is written to the display.
The value 0x0D is the spec's choice (D33). -/
def Obligations.PutcCarriageReturn : Prop :=
  ∀ s : State, s.ready = true → s.responsive = true → s.cx.toNat ≤ s.cfg.xmax → s.cy.toNat ≤ s.cfg.ymax →
    ∃ t evs a, exec (.putc 0x0D) s = .next t ∧ resolve s.cfg 0 s.cy.toNat = some a ∧
      SentEvents s.cfg.busMode false (0x80 ||| a.setWidth 8) evs ∧
      Completed s t 0 s.cy (idlePins t.pins.dout) evs [0x0D] ∧
      (s.refctl = true → t.refctl = true ∧
        Ctl.after { s.env.ctl with ac := a, sel := .dd, addrSet := true } t.env.ctl)

/-- R190: the entry normalization, for every byte: with CY past the last row, PUTC does what SCROLL does, then what PUTC does with
CY at YMAX; without scroll support, what PUTC does with CY at 0. -/
def Obligations.PutcEntry : Prop :=
  ∀ (s : State) (ch : Byte), s.ready = true → s.cfg.ymax < s.cy.toNat →
    (s.cfg.features = .full → ∀ u, exec .scroll s = .next u → u.busyOp = false →
      exec (.putc ch) s = exec (.putc ch) { u with cy := BitVec.ofNat 8 s.cfg.ymax }) ∧
    (s.cfg.features = .reduced → exec (.putc ch) s = exec (.putc ch) { s with cy := 0 })

/-- R187 and R197: PUTC of every byte, from every state of the resting invariant, completes, returns its operand, and leaves
the cursor in the resting range (R21); all but the cursor, the pins, the history and the controller is as before.
Completion rests on R152, a derived premise; the resting range is R21. -/
def Obligations.PutcCompletes : Prop :=
  ∀ (s : State) (ch : Byte), s.ready = true → s.responsive = true → s.cursorOk = true →
    ∃ t evs, exec (.putc ch) s = .next t ∧ Completed s t t.cx t.cy (idlePins t.pins.dout) evs [ch] ∧
      t.cursorOk = true ∧ t.responsive = true ∧ (s.refctl = true → t.refctl = true)

/-- R198: PUTS is its bytes through PUTC, one after the other, less the results; the empty text does nothing at all.
The spec derives it (R198: "[derived: from rules R187 and R189]"); what PUTS is where one of its bytes hangs, the model deduces
(log 32). Only for the empty text does it say that PUTS completes: for the others see `PutsCompletes`. -/
def Obligations.PutsIsPutcs : Prop :=
  (∀ s : State, s.ready = true → exec (.puts []) s = .next s) ∧
  (∀ (s t : State) (ch : Byte) (rest : List Byte), s.ready = true → textOk (ch :: rest) = true →
    exec (.putc ch) s = .next t →
      (t.busyOp = false → exec (.puts (ch :: rest)) s = exec (.puts rest) { t with rsp := s.rsp }) ∧
      (t.busyOp = true → exec (.puts (ch :: rest)) s = .next t))

/-- R198: PUTS of every text completes and returns nothing.
Completion rests on R152, a derived premise. -/
def Obligations.PutsCompletes : Prop :=
  ∀ (s : State) (text : List Byte), s.ready = true → s.responsive = true → s.cursorOk = true → textOk text = true →
    ∃ t evs, exec (.puts text) s = .next t ∧ Completed s t t.cx t.cy t.pins evs [] ∧ t.cursorOk = true ∧
      t.responsive = true ∧ (s.refctl = true → t.refctl = true)

/-! ## SCROLL and DEFGLYPH -/

/-- R210 to R215: SCROLL copies rows 1 to YMAX one row up, cell by cell, each read and then written before the next is read,
then blanks the last row with 0x20; on a one-row panel it does nothing at all. CX and CY are unchanged.
That each blanked column has its own address command is the spec's decision D16. -/
def Obligations.ScrollSequence : Prop :=
  ∀ s : State, s.ready = true → s.responsive = true → s.cfg.features = .full →
    ∃ t evs, exec .scroll s = .next t ∧ ScrollEvents s.cfg evs ∧ Completed s t s.cx s.cy t.pins evs [] ∧
      (s.cfg.ymax = 0 → t = s) ∧ (0 < s.cfg.ymax → t.pins = idlePins t.pins.dout) ∧
      (s.refctl = true → t.refctl = true)

/-- R210, its sequence and, under REFCTL on a panel whose table the controller implements: every cell shows what the cell below
it showed, the last row is blank, every DDRAM byte no cell maps to is unchanged, CGRAM is unchanged, and the address counter is
left at step(Resolve(XMAX, YMAX)) (R214).
Where the counter is left is the spec's decision D15, that each blank is addressed its decision D16, and which addresses the
controller implements general knowledge there (R68). -/
def Obligations.ScrollMovesDisplay : Prop :=
  ∀ s : State, s.ready = true → s.responsive = true → s.refctl = true → s.cfg.features = .full → 0 < s.cfg.ymax →
    s.env.ctl.memOk = true → (∀ a ∈ s.cfg.table, s.env.ctl.implemented a = true) →
    ∃ t evs last, exec .scroll s = .next t ∧ ScrollEvents s.cfg evs ∧
      Completed s t s.cx s.cy (idlePins t.pins.dout) evs [] ∧ resolve s.cfg s.cfg.xmax s.cfg.ymax = some last ∧
      (∀ x y, x ≤ s.cfg.xmax → y < s.cfg.ymax → shownCode t x y = shownCode s x (y + 1)) ∧
      (∀ x, x ≤ s.cfg.xmax → shownCode t x s.cfg.ymax = some 0x20) ∧
      (∀ a : Addr7, a ∉ s.cfg.table → Mem.read t.env.ctl.ddram a.toNat = Mem.read s.env.ctl.ddram a.toNat) ∧
      t.env.ctl = { s.env.ctl with
        ddram := t.env.ctl.ddram
        ac := ({ s.env.ctl with ac := last, sel := .dd } : Ctl).step
        sel := .dd
        busy := false
        addrSet := false
        nib := t.env.ctl.nib }

/-- R220 to R225: DEFGLYPH's events; under REFCTL, the counter addressing DDRAM and incrementing (as every completed host
operation leaves it, `HostOperationsRestDd`), the eight bytes fill the slot unmasked, no other CGRAM byte and no DDRAM byte
changes, and the address counter is exactly as before. CX and CY are unchanged.
The two waits, the address taken whatever the busy flag says, and the unmasked bytes are the spec's decisions D30, D28, D27. -/
def Obligations.Defglyph : Prop :=
  ∀ (s : State) (code : BitVec 3) (b0 b1 b2 b3 b4 b5 b6 b7 : Byte), s.ready = true → s.responsive = true →
    s.cfg.features = .full →
    ∃ t evs, exec (.defglyph code b0 b1 b2 b3 b4 b5 b6 b7) s = .next t ∧
      GlyphEvents s.cfg.busMode code [b0, b1, b2, b3, b4, b5, b6, b7] evs ∧
      Completed s t s.cx s.cy (idlePins t.pins.dout) evs [] ∧
      (s.refctl = true → s.env.ctl.memOk = true → s.env.ctl.sel = .dd → s.env.ctl.incr = true → t.refctl = true ∧
        (List.range 8).map (fun i => Mem.read t.env.ctl.cgram (8 * code.toNat + i)) = [b0, b1, b2, b3, b4, b5, b6, b7] ∧
        (∀ k, k < 8 * code.toNat ∨ 8 * code.toNat + 7 < k → Mem.read t.env.ctl.cgram k = Mem.read s.env.ctl.cgram k) ∧
        t.env.ctl = { s.env.ctl with
          cgram := t.env.ctl.cgram
          busy := false
          addrSet := true
          nib := t.env.ctl.nib })

/-- R225: of a reference controller, every host operation that completes leaves the address counter addressing DDRAM and
incrementing, INIT from any state and the others from such a state.
The spec derives it. -/
def Obligations.HostOperationsRestDd : Prop :=
  ∀ (i : Instr) (s t : State), i.space = .hostPacket → exec i s = .next t → t.busyOp = false →
    s.env.peer = .reference →
    (i = .init ∨ (s.refctl = true ∧ s.env.ctl.sel = .dd ∧ s.env.ctl.incr = true)) →
    t.refctl = true ∧ t.env.ctl.sel = .dd ∧ t.env.ctl.incr = true

/-! ## The whole machine -/

/-- The source's round-trip property (R65): a character put at a cell and read back at that cell is the character.
The stepping and the addresses of the reference controller are general knowledge (R66 to R68). -/
def Obligations.RoundTrip : Prop :=
  ∀ (s : State) (x y ch : Byte), s.ready = true → s.responsive = true → s.refctl = true → s.cfg.features = .full →
    s.env.ctl.memOk = true → (∀ a ∈ s.cfg.table, s.env.ctl.implemented a = true) → x.toNat ≤ s.cfg.xmax → y.toNat ≤ s.cfg.ymax →
    ch ≠ 0x0A → ch ≠ 0x0D →
    ∃ t u w, exec (.locate x y) s = .next t ∧ exec (.putc ch) t = .next u ∧ exec (.readchar x y) u = .next w ∧
      w.rsp = s.rsp ++ [ch, ch]

/-- R22: CX and CY are written by LOCATE and PUTC only, the latter also through PUTS: every other instruction that gives a next
state, completed or hung, leaves them. -/
def Obligations.CursorWriters : Prop :=
  ∀ (i : Instr) (s t : State), exec i s = .next t →
    (∀ x y, i ≠ .locate x y) → (∀ ch, i ≠ .putc ch) → (∀ text, i ≠ .puts text) → t.cx = s.cx ∧ t.cy = s.cy

/-- R35: no step and no operation alters the configuration, and it does not change at reset. -/
def Obligations.ConfigurationFixed : Prop :=
  (∀ s t : State, step s = .next t → t.cfg = s.cfg) ∧
  (∀ (i : Instr) (s t : State), exec i s = .next t → t.cfg = s.cfg) ∧
  (∀ (k : Ctl) (d : Delays) (s : State), (applyReset k d s).cfg = s.cfg)

/-- Step and exec are those of a machine whose state holds no configuration (R31 (a)) and which has it as its one argument (R7):
`stepAt` and `execAt` of the configuration, which is put beside the answer again.
That the state and the configuration stand side by side in `State` is the model's choice (log 3). -/
def Obligations.ConfigurationIsArgument : Prop :=
  (∀ s : State, step s = withCfg s.cfg (stepAt s.cfg s.toMutable)) ∧
  (∀ (i : Instr) (s : State), exec i s = withCfg s.cfg (execAt s.cfg i s.toMutable))

/-- No step alters the host's list; the history and the responses only grow; and INITED, once true, stays true (R29).
The model's own (log 10, log 24; INITED is the ghost of D23). -/
def Obligations.HistoryOnlyGrows : Prop :=
  ∀ s t : State, step s = .next t → t.packets = s.packets ∧ s.hist <+: t.hist ∧ s.rsp <+: t.rsp ∧
    (s.inited = true → t.inited = true)

/-- R60: the engine depends on the controller only through the bytes it returns: with an unconstrained controller, no host
operation and no bus transaction reads or writes what the model holds of a reference controller.
How the model holds the controller is its own choice (log 6). -/
def Obligations.EngineIgnoresController : Prop :=
  ∀ (i : Instr) (s : State) (k : Ctl), i.space ≠ .controllerCommand → s.env.peer = .unconstrained →
    exec i { s with env := { s.env with ctl := k } } =
      match exec i s with
      | .next t => .next { t with env := { t.env with ctl := k } }
      | .fault f => .fault f
      | .refused r => .refused r

/-- R99: PUTC answers its operand, READCHAR and READRAM the byte of their data read, no other instruction anything.
The channel as a list is the model's (log 24). -/
def Obligations.ResponseBytes : Prop :=
  ∀ (i : Instr) (s t : State), exec i s = .next t → t.busyOp = false →
    match i with
    | .putc ch => t.rsp = s.rsp ++ [ch]
    | .readchar _ _ | .readram _ =>
      ∃ b before, t.rsp = s.rsp ++ [b] ∧ t.hist = before ++ readEvents s.cfg.busMode true b
    | _ => t.rsp = s.rsp

/-- R282: the pins a completed host operation leaves; from pins at rest, E is 0 and the engine does not drive.
That nothing parks the pins is the spec's decision D32. -/
def Obligations.IdlePins : Prop :=
  ∀ (i : Instr) (s t : State), i.space = .hostPacket → exec i s = .next t → t.busyOp = false →
    (match i with
      | .readchar _ _ | .readram _ => t.pins.rs = true ∧ t.pins.rw = true ∧ t.pins.e = false ∧ t.pins.dir = .input
      | .puts [] => t.pins = s.pins
      | .scroll =>
        if s.cfg.ymax = 0 then t.pins = s.pins
        else t.pins.rs = false ∧ t.pins.rw = true ∧ t.pins.e = false ∧ t.pins.dir = .input
      | _ => t.pins.rs = false ∧ t.pins.rw = true ∧ t.pins.e = false ∧ t.pins.dir = .input) ∧
    (s.pins.e = false ∧ s.pins.dir = .input → t.pins.e = false ∧ t.pins.dir = .input)

/-- R144 (f) and R63: on a 4-bit bus every instruction but INIT strobes an even number of times, completed or hung in the poll
loop; one that a settle delay holds, which never returns, may be held between its two strobes. -/
def Obligations.StrobesInPairs : Prop :=
  ∀ (i : Instr) (s t : State), s.cfg.busMode = .bus4 → i ≠ .init → exec i s = .next t → t.stuck = false →
    ∃ evs, t.hist = s.hist ++ evs ∧ strobeCount evs % 2 = 0

/-- R301: the `Ctl` events of the operations against a controller that is never busy (of which nothing else is assumed), on
an 8-bit and on a 4-bit bus.
The spec derives the table. -/
def Obligations.EventCounts : Prop :=
  ∀ (i : Instr) (s t : State), s.env.busyBits = [] → s.env.busyAfter = false → s.env.inStep s.cfg = true →
    s.cursorOk = true → exec i s = .next t → t.busyOp = false →
    let perTransaction := if s.cfg.busMode = .bus8 then 4 else 6
    let n := s.cfg.xmax + 1
    match i with
    | .clear | .locate _ _ | .cursor _ _ | .intensity _ => ctlCount t.hist = ctlCount s.hist + 3 * perTransaction
    | .readchar _ _ | .readram _ => ctlCount t.hist = ctlCount s.hist + 5 * perTransaction
    | .defglyph _ _ _ _ _ _ _ _ _ => ctlCount t.hist = ctlCount s.hist + 33 * perTransaction
    | .scroll => 0 < s.cfg.ymax →
      ctlCount t.hist = ctlCount s.hist + (11 * s.cfg.ymax * n + 6 * n) * perTransaction
    | .init => ctlCount t.hist = ctlCount s.hist + if s.cfg.busMode = .bus8 then 51 else 73
    | .commandWrite _ | .dataWrite _ | .statusRead | .dataRead => ctlCount t.hist = ctlCount s.hist + perTransaction
    | .cmdClear | .cmdEntryInc | .cmdDisplay _ _ | .cmdFs8 | .fsReal _ _ _ | .cmdSetCgram _ | .cmdSetDdram _ => t.hist = s.hist
    | .putc ch => s.cy.toNat ≤ s.cfg.ymax →
      if ch = 0x0A then s.cy.toNat < s.cfg.ymax → ctlCount t.hist = ctlCount s.hist + 3 * perTransaction
      else if ch = 0x0D then ctlCount t.hist = ctlCount s.hist + 3 * perTransaction
      else ctlCount t.hist = ctlCount s.hist + (if s.cx.toNat < s.cfg.xmax then 6 else 9) * perTransaction
    | .puts text => text = [] → t.hist = s.hist
end

