-- ==== Sys2Proof/Laws/State.lean ====
section
/-!
SUPPORT. One lemma per field per named update of State, so that no later proof unfolds a record update. The line operations
change nothing while a settle delay is stuck; what they change otherwise is said under that hypothesis.
-/
namespace Sys2Proof.Machine

/-! ## emit -/

@[simp] theorem emit_cfg (s : State) (ev : Event) : (s.emit ev).cfg = s.cfg := rfl

@[simp] theorem emit_cx (s : State) (ev : Event) : (s.emit ev).cx = s.cx := rfl

@[simp] theorem emit_cy (s : State) (ev : Event) : (s.emit ev).cy = s.cy := rfl

@[simp] theorem emit_pins (s : State) (ev : Event) : (s.emit ev).pins = s.pins := rfl

@[simp] theorem emit_inited (s : State) (ev : Event) : (s.emit ev).inited = s.inited := rfl

@[simp] theorem emit_busyOp (s : State) (ev : Event) : (s.emit ev).busyOp = s.busyOp := rfl

@[simp] theorem emit_hang (s : State) (ev : Event) : (s.emit ev).hang = s.hang := rfl

@[simp] theorem emit_hist (s : State) (ev : Event) : (s.emit ev).hist = s.hist ++ [ev] := rfl

@[simp] theorem emit_rsp (s : State) (ev : Event) : (s.emit ev).rsp = s.rsp := rfl

@[simp] theorem emit_packets (s : State) (ev : Event) : (s.emit ev).packets = s.packets := rfl

@[simp] theorem emit_cp (s : State) (ev : Event) : (s.emit ev).cp = s.cp := rfl

@[simp] theorem emit_direct (s : State) (ev : Event) : (s.emit ev).direct = s.direct := rfl

@[simp] theorem emit_env (s : State) (ev : Event) : (s.emit ev).env = s.env := rfl

/-! ## setCursor -/

@[simp] theorem setCursor_cfg (s : State) (x y : Byte) : (s.setCursor x y).cfg = s.cfg := rfl

@[simp] theorem setCursor_cx (s : State) (x y : Byte) : (s.setCursor x y).cx = x := rfl

@[simp] theorem setCursor_cy (s : State) (x y : Byte) : (s.setCursor x y).cy = y := rfl

@[simp] theorem setCursor_pins (s : State) (x y : Byte) : (s.setCursor x y).pins = s.pins := rfl

@[simp] theorem setCursor_inited (s : State) (x y : Byte) : (s.setCursor x y).inited = s.inited := rfl

@[simp] theorem setCursor_busyOp (s : State) (x y : Byte) : (s.setCursor x y).busyOp = s.busyOp := rfl

@[simp] theorem setCursor_hang (s : State) (x y : Byte) : (s.setCursor x y).hang = s.hang := rfl

@[simp] theorem setCursor_hist (s : State) (x y : Byte) : (s.setCursor x y).hist = s.hist := rfl

@[simp] theorem setCursor_rsp (s : State) (x y : Byte) : (s.setCursor x y).rsp = s.rsp := rfl

@[simp] theorem setCursor_packets (s : State) (x y : Byte) : (s.setCursor x y).packets = s.packets := rfl

@[simp] theorem setCursor_cp (s : State) (x y : Byte) : (s.setCursor x y).cp = s.cp := rfl

@[simp] theorem setCursor_direct (s : State) (x y : Byte) : (s.setCursor x y).direct = s.direct := rfl

@[simp] theorem setCursor_env (s : State) (x y : Byte) : (s.setCursor x y).env = s.env := rfl

/-! ## setBusDirection -/

@[simp] theorem setBusDirection_cfg (s : State) (d : Dir) : (setBusDirection d s).cfg = s.cfg := by
  unfold setBusDirection; split <;> rfl

@[simp] theorem setBusDirection_cx (s : State) (d : Dir) : (setBusDirection d s).cx = s.cx := by
  unfold setBusDirection; split <;> rfl

@[simp] theorem setBusDirection_cy (s : State) (d : Dir) : (setBusDirection d s).cy = s.cy := by
  unfold setBusDirection; split <;> rfl

@[simp] theorem setBusDirection_pins (s : State) (d : Dir) (h : s.stuck = false) : (setBusDirection d s).pins = { s.pins with dir := d } := by
  unfold setBusDirection; rw [h]; rfl

@[simp] theorem setBusDirection_inited (s : State) (d : Dir) : (setBusDirection d s).inited = s.inited := by
  unfold setBusDirection; split <;> rfl

@[simp] theorem setBusDirection_busyOp (s : State) (d : Dir) : (setBusDirection d s).busyOp = s.busyOp := by
  unfold setBusDirection; split <;> rfl

@[simp] theorem setBusDirection_hang (s : State) (d : Dir) : (setBusDirection d s).hang = s.hang := by
  unfold setBusDirection; split <;> rfl

@[simp] theorem setBusDirection_hist (s : State) (d : Dir) (h : s.stuck = false) : (setBusDirection d s).hist = s.hist ++ [.dir d] := by
  unfold setBusDirection; rw [h]; rfl

@[simp] theorem setBusDirection_rsp (s : State) (d : Dir) : (setBusDirection d s).rsp = s.rsp := by
  unfold setBusDirection; split <;> rfl

@[simp] theorem setBusDirection_packets (s : State) (d : Dir) : (setBusDirection d s).packets = s.packets := by
  unfold setBusDirection; split <;> rfl

@[simp] theorem setBusDirection_cp (s : State) (d : Dir) : (setBusDirection d s).cp = s.cp := by
  unfold setBusDirection; split <;> rfl

@[simp] theorem setBusDirection_direct (s : State) (d : Dir) : (setBusDirection d s).direct = s.direct := by
  unfold setBusDirection; split <;> rfl

@[simp] theorem setBusDirection_env (s : State) (d : Dir) : (setBusDirection d s).env = s.env := by
  unfold setBusDirection; split <;> rfl

/-! ## drive -/

@[simp] theorem drive_cfg (s : State) (v : Lines) : (drive v s).cfg = s.cfg := by
  unfold drive; split <;> rfl

@[simp] theorem drive_cx (s : State) (v : Lines) : (drive v s).cx = s.cx := by
  unfold drive; split <;> rfl

@[simp] theorem drive_cy (s : State) (v : Lines) : (drive v s).cy = s.cy := by
  unfold drive; split <;> rfl

@[simp] theorem drive_pins (s : State) (v : Lines) (h : s.stuck = false) : (drive v s).pins = { s.pins with dout := v } := by
  unfold drive; rw [h]; rfl

@[simp] theorem drive_inited (s : State) (v : Lines) : (drive v s).inited = s.inited := by
  unfold drive; split <;> rfl

@[simp] theorem drive_busyOp (s : State) (v : Lines) : (drive v s).busyOp = s.busyOp := by
  unfold drive; split <;> rfl

@[simp] theorem drive_hang (s : State) (v : Lines) : (drive v s).hang = s.hang := by
  unfold drive; split <;> rfl

@[simp] theorem drive_hist (s : State) (v : Lines) (h : s.stuck = false) : (drive v s).hist = s.hist ++ [.drive v] := by
  unfold drive; rw [h]; rfl

@[simp] theorem drive_rsp (s : State) (v : Lines) : (drive v s).rsp = s.rsp := by
  unfold drive; split <;> rfl

@[simp] theorem drive_packets (s : State) (v : Lines) : (drive v s).packets = s.packets := by
  unfold drive; split <;> rfl

@[simp] theorem drive_cp (s : State) (v : Lines) : (drive v s).cp = s.cp := by
  unfold drive; split <;> rfl

@[simp] theorem drive_direct (s : State) (v : Lines) : (drive v s).direct = s.direct := by
  unfold drive; split <;> rfl

@[simp] theorem drive_env (s : State) (v : Lines) : (drive v s).env = s.env := by
  unfold drive; split <;> rfl

/-! ## commandLine and setControlLine -/

@[simp] theorem commandRs_cfg (s : State) (l : Level) : (commandLine .rs l s).cfg = s.cfg := rfl

@[simp] theorem commandRs_cx (s : State) (l : Level) : (commandLine .rs l s).cx = s.cx := rfl

@[simp] theorem commandRs_cy (s : State) (l : Level) : (commandLine .rs l s).cy = s.cy := rfl

@[simp] theorem commandRs_pins (s : State) (l : Level) : (commandLine .rs l s).pins = { s.pins with rs := l } := rfl

@[simp] theorem commandRs_inited (s : State) (l : Level) : (commandLine .rs l s).inited = s.inited := rfl

@[simp] theorem commandRs_busyOp (s : State) (l : Level) : (commandLine .rs l s).busyOp = s.busyOp := rfl

@[simp] theorem commandRs_hang (s : State) (l : Level) : (commandLine .rs l s).hang = s.hang := rfl

@[simp] theorem commandRs_hist (s : State) (l : Level) : (commandLine .rs l s).hist = s.hist ++ [.ctl .rs l] := rfl

@[simp] theorem commandRs_rsp (s : State) (l : Level) : (commandLine .rs l s).rsp = s.rsp := rfl

@[simp] theorem commandRs_packets (s : State) (l : Level) : (commandLine .rs l s).packets = s.packets := rfl

@[simp] theorem commandRs_cp (s : State) (l : Level) : (commandLine .rs l s).cp = s.cp := rfl

@[simp] theorem commandRs_direct (s : State) (l : Level) : (commandLine .rs l s).direct = s.direct := rfl

@[simp] theorem commandRs_env (s : State) (l : Level) : (commandLine .rs l s).env = s.env := rfl

@[simp] theorem commandRw_cfg (s : State) (l : Level) : (commandLine .rw l s).cfg = s.cfg := rfl

@[simp] theorem commandRw_cx (s : State) (l : Level) : (commandLine .rw l s).cx = s.cx := rfl

@[simp] theorem commandRw_cy (s : State) (l : Level) : (commandLine .rw l s).cy = s.cy := rfl

@[simp] theorem commandRw_pins (s : State) (l : Level) : (commandLine .rw l s).pins = { s.pins with rw := l } := rfl

@[simp] theorem commandRw_inited (s : State) (l : Level) : (commandLine .rw l s).inited = s.inited := rfl

@[simp] theorem commandRw_busyOp (s : State) (l : Level) : (commandLine .rw l s).busyOp = s.busyOp := rfl

@[simp] theorem commandRw_hang (s : State) (l : Level) : (commandLine .rw l s).hang = s.hang := rfl

@[simp] theorem commandRw_hist (s : State) (l : Level) : (commandLine .rw l s).hist = s.hist ++ [.ctl .rw l] := rfl

@[simp] theorem commandRw_rsp (s : State) (l : Level) : (commandLine .rw l s).rsp = s.rsp := rfl

@[simp] theorem commandRw_packets (s : State) (l : Level) : (commandLine .rw l s).packets = s.packets := rfl

@[simp] theorem commandRw_cp (s : State) (l : Level) : (commandLine .rw l s).cp = s.cp := rfl

@[simp] theorem commandRw_direct (s : State) (l : Level) : (commandLine .rw l s).direct = s.direct := rfl

@[simp] theorem commandRw_env (s : State) (l : Level) : (commandLine .rw l s).env = s.env := rfl

@[simp] theorem setControlLine_cfg (s : State) (n : Line) (l : Level) : (setControlLine n l s).cfg = s.cfg := by
  unfold setControlLine commandLine State.strobed; split
  · rfl
  · split <;> try rfl
    split <;> try rfl
    split <;> rfl

@[simp] theorem setControlLine_cx (s : State) (n : Line) (l : Level) : (setControlLine n l s).cx = s.cx := by
  unfold setControlLine commandLine State.strobed; split
  · rfl
  · split <;> try rfl
    split <;> try rfl
    split <;> rfl

@[simp] theorem setControlLine_cy (s : State) (n : Line) (l : Level) : (setControlLine n l s).cy = s.cy := by
  unfold setControlLine commandLine State.strobed; split
  · rfl
  · split <;> try rfl
    split <;> try rfl
    split <;> rfl

@[simp] theorem setControlLine_inited (s : State) (n : Line) (l : Level) : (setControlLine n l s).inited = s.inited := by
  unfold setControlLine commandLine State.strobed; split
  · rfl
  · split <;> try rfl
    split <;> try rfl
    split <;> rfl

@[simp] theorem setControlLine_busyOp (s : State) (n : Line) (l : Level) : (setControlLine n l s).busyOp = s.busyOp := by
  unfold setControlLine commandLine State.strobed; split
  · rfl
  · split <;> try rfl
    split <;> try rfl
    split <;> rfl

@[simp] theorem setControlLine_hang (s : State) (n : Line) (l : Level) : (setControlLine n l s).hang = s.hang := by
  unfold setControlLine commandLine State.strobed; split
  · rfl
  · split <;> try rfl
    split <;> try rfl
    split <;> rfl

@[simp] theorem setControlLine_rsp (s : State) (n : Line) (l : Level) : (setControlLine n l s).rsp = s.rsp := by
  unfold setControlLine commandLine State.strobed; split
  · rfl
  · split <;> try rfl
    split <;> try rfl
    split <;> rfl

@[simp] theorem setControlLine_packets (s : State) (n : Line) (l : Level) : (setControlLine n l s).packets = s.packets := by
  unfold setControlLine commandLine State.strobed; split
  · rfl
  · split <;> try rfl
    split <;> try rfl
    split <;> rfl

@[simp] theorem setControlLine_cp (s : State) (n : Line) (l : Level) : (setControlLine n l s).cp = s.cp := by
  unfold setControlLine commandLine State.strobed; split
  · rfl
  · split <;> try rfl
    split <;> try rfl
    split <;> rfl

@[simp] theorem setControlLine_direct (s : State) (n : Line) (l : Level) : (setControlLine n l s).direct = s.direct := by
  unfold setControlLine commandLine State.strobed; split
  · rfl
  · split <;> try rfl
    split <;> try rfl
    split <;> rfl

/-! ## markSettled -/

@[simp] theorem markSettled_cfg (s : State) : (markSettled s).cfg = s.cfg := rfl

@[simp] theorem markSettled_cx (s : State) : (markSettled s).cx = s.cx := rfl

@[simp] theorem markSettled_cy (s : State) : (markSettled s).cy = s.cy := rfl

@[simp] theorem markSettled_pins (s : State) : (markSettled s).pins = s.pins := rfl

@[simp] theorem markSettled_inited (s : State) : (markSettled s).inited = s.inited := rfl

@[simp] theorem markSettled_busyOp (s : State) : (markSettled s).busyOp = s.busyOp := rfl

@[simp] theorem markSettled_hang (s : State) : (markSettled s).hang = s.hang := rfl

@[simp] theorem markSettled_hist (s : State) : (markSettled s).hist = s.hist := rfl

@[simp] theorem markSettled_rsp (s : State) : (markSettled s).rsp = s.rsp := rfl

@[simp] theorem markSettled_packets (s : State) : (markSettled s).packets = s.packets := rfl

@[simp] theorem markSettled_cp (s : State) : (markSettled s).cp = s.cp := rfl

@[simp] theorem markSettled_direct (s : State) : (markSettled s).direct = s.direct := rfl

@[simp] theorem markSettled_env (s : State) : (markSettled s).env = { s.env with settled := true } := rfl

/-! ## applyReset -/

@[simp] theorem applyReset_cfg (k : Ctl) (d : Delays) (s : State) : (applyReset k d s).cfg = s.cfg := rfl

@[simp] theorem applyReset_cx (k : Ctl) (d : Delays) (s : State) : (applyReset k d s).cx = 0 := rfl

@[simp] theorem applyReset_cy (k : Ctl) (d : Delays) (s : State) : (applyReset k d s).cy = 0 := rfl

@[simp] theorem applyReset_pins (k : Ctl) (d : Delays) (s : State) : (applyReset k d s).pins = Pins.reset s.cfg.busMode := rfl

@[simp] theorem applyReset_inited (k : Ctl) (d : Delays) (s : State) : (applyReset k d s).inited = false := rfl

@[simp] theorem applyReset_busyOp (k : Ctl) (d : Delays) (s : State) : (applyReset k d s).busyOp = false := rfl

@[simp] theorem applyReset_hang (k : Ctl) (d : Delays) (s : State) : (applyReset k d s).hang = none := rfl

@[simp] theorem applyReset_hist (k : Ctl) (d : Delays) (s : State) : (applyReset k d s).hist = [] := rfl

@[simp] theorem applyReset_rsp (k : Ctl) (d : Delays) (s : State) : (applyReset k d s).rsp = [] := rfl

@[simp] theorem applyReset_packets (k : Ctl) (d : Delays) (s : State) : (applyReset k d s).packets = s.packets := rfl

@[simp] theorem applyReset_cp (k : Ctl) (d : Delays) (s : State) : (applyReset k d s).cp = s.cp := rfl

@[simp] theorem applyReset_direct (k : Ctl) (d : Delays) (s : State) : (applyReset k d s).direct = s.direct := rfl

@[simp] theorem applyReset_env (k : Ctl) (d : Delays) (s : State) : (applyReset k d s).env = { s.env with ctl := k, settled := false, delays := d } := rfl

end Sys2Proof.Machine
end

