-- ==== Sys2Proof/Laws/Lines.lean ====
section
/-!
SUPPORT. The line operations and the delay source: the controller's reactions neither see nor change what the delay source
will do; what a line operation does while no settle delay is stuck; and what every composition of line operations keeps.
-/
namespace Sys2Proof.Machine

/-! ## The delay source is seen by no reaction of the controller -/

/-- The environment with another delay source. -/
def Env.withDelays (d : Delays) (v : Env) : Env := { v with delays := d }

/-- A reaction of the controller that neither sees nor changes the delay source. -/
def BlindTo (d : Delays) (f : Env → Env) : Prop :=
  ∀ v : Env, f (v.withDelays d) = (f v).withDelays d ∧ (f v).delays = v.delays

/-- The same of a reaction with a value. -/
def BlindAnswer {α : Type} (d : Delays) (f : Env → α × Env) : Prop :=
  ∀ v : Env, f (v.withDelays d) = ((f v).1, (f v).2.withDelays d) ∧ (f v).2.delays = v.delays

theorem draw_blind (d : Delays) : BlindAnswer d Env.draw := by
  rintro ⟨_, _, _, _, _, tape, _, _⟩; cases tape <;> exact ⟨rfl, rfl⟩

theorem drawBusy_blind (d : Delays) : BlindAnswer d Env.drawBusy := by
  rintro ⟨_, _, _, bits, _, _, _, _⟩; cases bits <;> exact ⟨rfl, rfl⟩

theorem command_blind (d : Delays) (c : Cfg) (b : Byte) : BlindTo d (Env.command c b) := by
  intro v
  have h := draw_blind d v
  unfold Env.command
  rw [h.1]
  split_ifs
  all_goals first
    | exact ⟨rfl, rfl⟩
    | exact ⟨rfl, h.2⟩

theorem takeByte_blind (d : Delays) (c : Cfg) (rs : Level) (b : Byte) : BlindTo d (Env.takeByte c rs b) := by
  intro v
  unfold Env.takeByte
  split
  · exact ⟨rfl, rfl⟩
  · have h := command_blind d c b v
    rw [h.1]
    exact ⟨rfl, h.2⟩

theorem seenByte_blind (d : Delays) (l : Option Lines) : BlindAnswer d (Env.seenByte l) := by
  intro v
  unfold Env.seenByte
  have h := draw_blind d v
  split
  · exact ⟨rfl, rfl⟩
  · rw [h.1]; exact ⟨rfl, h.2⟩
  · exact h

theorem seenNibble_blind (d : Delays) (l : Option Lines) : BlindAnswer d (Env.seenNibble l) := by
  intro v
  unfold Env.seenNibble
  have h := draw_blind d v
  split
  · exact ⟨rfl, rfl⟩
  · exact ⟨rfl, rfl⟩
  · rw [h.1]; exact ⟨rfl, h.2⟩

/-- The controller's reaction to a write strobe. -/
theorem takeStrobe_blind (d : Delays) (c : Cfg) (rs : Level) (l : Option Lines) : BlindTo d (Env.takeStrobe c rs l) := by
  intro v
  have hb := seenByte_blind d l v
  have hn := seenNibble_blind d l v
  unfold Env.takeStrobe
  rw [hb.1, hn.1]
  rw [show (v.withDelays d).peer = v.peer from rfl]
  cases v.peer with
  | unconstrained => exact ⟨rfl, rfl⟩
  | reference =>
    show (if v.ctl.if8 = true then _ else _) = _ ∧ _
    cases v.ctl.if8 with
    | true =>
      have h := takeByte_blind d c rs (v.seenByte l).1 (v.seenByte l).2
      exact ⟨h.1, h.2.trans hb.2⟩
    | false =>
      rw [show (v.withDelays d).ctl = v.ctl from rfl]
      cases v.ctl.phase with
      | hi => exact ⟨rfl, hn.2⟩
      | lo =>
        have h := takeByte_blind d c rs (joinNibbles v.ctl.nib (v.seenNibble l).1) (v.seenNibble l).2
        exact ⟨h.1, h.2.trans hn.2⟩

/-- The controller's reaction to the end of a read strobe. -/
theorem endRead_blind (d : Delays) (rs : Level) : BlindTo d (Env.endRead rs) := by
  intro v
  unfold Env.endRead
  rw [show (v.withDelays d).peer = v.peer from rfl]
  cases v.peer with
  | unconstrained => exact ⟨rfl, rfl⟩
  | reference =>
    show (if (!v.ctl.if8 && decide (v.ctl.phase = .hi)) = true then _ else _) = _ ∧ _
    cases (!v.ctl.if8 && decide (v.ctl.phase = .hi)) with
    | true => exact ⟨rfl, rfl⟩
    | false => cases rs <;> exact ⟨rfl, rfl⟩

theorem padLines_blind (d : Delays) (m : BusMode) (n : Nibble) : BlindAnswer d (Env.padLines m n) := by
  intro v
  cases m with
  | bus4 => exact ⟨rfl, rfl⟩
  | bus8 =>
    have h := draw_blind d v
    exact ⟨by simp only [Env.padLines, h.1], h.2⟩

theorem freeLines_blind (d : Delays) (rs : Level) (part : Phase) : BlindAnswer d (Env.freeLines rs part) := by
  intro v
  unfold Env.freeLines
  split
  · exact draw_blind d v
  · have h := drawBusy_blind d v
    have g := draw_blind d v.drawBusy.2
    exact ⟨by simp only [h.1, g.1], g.2.trans h.2⟩

theorem refreshBusy_blind (d : Delays) : BlindTo d Env.refreshBusy := by
  intro v
  have h := drawBusy_blind d v
  exact ⟨by simp only [Env.refreshBusy, h.1]; rfl, h.2⟩

theorem driveStatus_blind (d : Delays) (c : Cfg) : BlindAnswer d (Env.driveStatus c) := by
  intro v
  have h := refreshBusy_blind d v
  have p := padLines_blind d c.busMode (hiNibble v.refreshBusy.ctl.status) v.refreshBusy
  have q := padLines_blind d c.busMode (loNibble v.ctl.status) v
  unfold Env.driveStatus
  rw [h.1]
  show (if v.ctl.if8 = true then _ else _) = _ ∧ _
  cases v.ctl.if8 with
  | true => exact ⟨rfl, h.2⟩
  | false =>
    rw [show (v.withDelays d).ctl = v.ctl from rfl]
    cases v.ctl.phase with
    | hi => exact ⟨p.1, p.2.trans h.2⟩
    | lo => exact q

theorem dataOrDraw_blind (d : Delays) : BlindAnswer d Env.dataOrDraw := by
  intro v
  have h := draw_blind d v
  unfold Env.dataOrDraw
  rw [h.1]
  rw [show (v.withDelays d).ctl = v.ctl from rfl]
  cases v.ctl.dataByte with
  | some b => exact ⟨rfl, rfl⟩
  | none => exact ⟨rfl, h.2⟩

theorem driveData_blind (d : Delays) (c : Cfg) : BlindAnswer d (Env.driveData c) := by
  intro v
  have h := dataOrDraw_blind d v
  have p := padLines_blind d c.busMode (hiNibble v.dataOrDraw.1) v.dataOrDraw.2
  have q := padLines_blind d c.busMode (loNibble v.dataOrDraw.1) v.dataOrDraw.2
  unfold Env.driveData
  rw [h.1]
  show (if v.ctl.if8 = true then _ else _) = _ ∧ _
  cases v.ctl.if8 with
  | true => exact ⟨rfl, h.2⟩
  | false =>
    rw [show (v.withDelays d).ctl = v.ctl from rfl]
    cases v.ctl.phase with
    | hi => exact ⟨p.1, p.2.trans h.2⟩
    | lo => exact ⟨q.1, q.2.trans h.2⟩

/-- What the controller drives during a read strobe. -/
theorem answer_blind (d : Delays) (c : Cfg) (rs : Level) (part : Phase) : BlindAnswer d (Env.answer c rs part) := by
  intro v
  have f := freeLines_blind d rs part v
  have g := driveData_blind d c v
  have h := driveStatus_blind d c v
  unfold Env.answer
  rw [show (v.withDelays d).peer = v.peer from rfl]
  cases v.peer with
  | unconstrained => exact f
  | reference =>
    cases rs with
    | true => exact g
    | false =>
      show (if v.settled = true then _ else _) = _ ∧ _
      cases v.settled with
      | true => exact h
      | false => exact f

@[simp] theorem takeStrobe_delays (c : Cfg) (rs : Level) (l : Option Lines) (v : Env) :
    (v.takeStrobe c rs l).delays = v.delays := (takeStrobe_blind .all c rs l v).2

@[simp] theorem endRead_delays (rs : Level) (v : Env) : (v.endRead rs).delays = v.delays := (endRead_blind .all rs v).2

@[simp] theorem answer_delays (c : Cfg) (rs : Level) (part : Phase) (v : Env) : (v.answer c rs part).2.delays = v.delays :=
  (answer_blind .all c rs part v).2

@[simp] theorem written_delays (c : Cfg) (rs : Level) (b : Byte) (v : Env) : (v.written c rs b).delays = v.delays := by
  unfold Env.written; split <;> simp

@[simp] theorem readStrobe_delays (c : Cfg) (rs : Level) (part : Phase) (v : Env) :
    (v.readStrobe c rs part).2.delays = v.delays := by
  simp [Env.readStrobe]

@[simp] theorem readOut_delays (c : Cfg) (rs : Level) (v : Env) : (v.readOut c rs).2.delays = v.delays := by
  unfold Env.readOut; split <;> simp

/-! ## Line operations while every settle delay returns -/

theorem settle_all {v : Env} (h : v.delays.settle = .all) : v.settle = v := by
  unfold Env.settle
  rw [h]
  show ({ v with delays := ⟨v.delays.ms, .all⟩ } : Env) = v
  rw [← h]

theorem stuck_all {s : State} (h : s.env.delays.settle = .all) : s.stuck = false := by
  simp [State.stuck, h]

theorem commandLine_delays (n : Line) (l : Level) (s : State) : (commandLine n l s).env.delays = s.env.delays := by
  unfold commandLine
  split
  · rfl
  · rfl
  · split
    · unfold State.strobed; split <;> simp
    · rfl

/-- Where settle delays return, `SetControlLine` is the line command. -/
theorem setControlLine_all {s : State} (n : Line) (l : Level) (h : s.env.delays.settle = .all) :
    setControlLine n l s = commandLine n l s := by
  unfold setControlLine
  rw [stuck_all h, if_neg (by simp), settle_all (by rw [commandLine_delays]; exact h)]

theorem setBusDirection_all {s : State} (d : Dir) (h : s.env.delays.settle = .all) :
    setBusDirection d s = { s with pins := { s.pins with dir := d } }.emit (.dir d) := by
  unfold setBusDirection; rw [stuck_all h]; rfl

theorem drive_all {s : State} (v : Lines) (h : s.env.delays.settle = .all) :
    drive v s = { s with pins := { s.pins with dout := v } }.emit (.drive v) := by
  unfold drive; rw [stuck_all h]; rfl

theorem sampleLines_all {s : State} (part : Phase) (h : s.env.delays.settle = .all) :
    sampleLines part s = ((s.env.answer s.cfg s.pins.rs part).1,
      { s with env := (s.env.answer s.cfg s.pins.rs part).2 }.emit
        (.sample (linesOf s.cfg.busMode (s.env.answer s.cfg s.pins.rs part).1))) := by
  unfold sampleLines; rw [stuck_all h]; rfl

theorem unlessStuck_all {α : Type} {s : State} (a : α) (h : s.env.delays.settle = .all) : unlessStuck a s = .done a s := by
  unfold unlessStuck; rw [stuck_all h]; rfl

/-! ## What every composition of line operations keeps -/

/-- A property that every line operation keeps. -/
structure LineClosed (P : State → Prop) : Prop where
  line : ∀ n l s, P s → P (setControlLine n l s)
  dir : ∀ d s, P s → P (setBusDirection d s)
  drive : ∀ v s, P s → P (drive v s)
  sample : ∀ part s, P s → P (sampleLines part s).2

namespace LineClosed

variable {P : State → Prop} (hP : LineClosed P)
include hP

theorem strobe (s : State) (h : P s) : P (strobe s) := hP.line _ _ _ (hP.line _ _ s h)

theorem readStrobe (part : Phase) (s : State) (h : P s) : P (readStrobe part s).2 :=
  hP.line _ _ _ (hP.sample _ _ (hP.line _ _ s h))

theorem writeByte (v : Byte) (s : State) (h : P s) : P (writeByte v s) := by
  unfold Machine.writeByte
  split
  · exact hP.strobe _ (hP.drive _ _ (hP.dir _ s h))
  · exact hP.strobe _ (hP.drive _ _ (hP.strobe _ (hP.drive _ _ (hP.dir _ s h))))

theorem rawWrite (v : Byte) (s : State) (h : P s) : P (rawWrite v s) := hP.strobe _ (hP.drive _ _ (hP.dir _ s h))

theorem readByte (s : State) (h : P s) : P (readByte s).2 := by
  unfold Machine.readByte
  split
  · exact hP.readStrobe _ s h
  · exact hP.readStrobe _ _ (hP.readStrobe _ s h)

theorem busWrite (rs : Level) (v : Byte) (s : State) (h : P s) : P (busWrite rs v s) :=
  hP.writeByte v _ (hP.line _ _ _ (hP.line _ _ s h))

theorem busRead (rs : Level) (s : State) (h : P s) : P (busRead rs s).2 :=
  hP.readByte _ (hP.line _ _ _ (hP.line _ _ _ (hP.dir _ s h)))

end LineClosed

/-- A property of what a line operation cannot touch is kept by all of them: it looks at neither the pins, the history nor
the environment. -/
theorem lineClosed_of_apart {P : State → Prop} (h : ∀ s p hi e, P s → P { s with pins := p, hist := hi, env := e }) :
    LineClosed P := by
  have hline : ∀ n l s, P s → P (setControlLine n l s) := by
    intro n l s hs
    unfold setControlLine
    split
    · exact hs
    · cases n with
      | rs => exact h s _ _ _ hs
      | rw => exact h s _ _ _ hs
      | e =>
        unfold commandLine
        dsimp only
        split
        · unfold State.strobed; split <;> exact h s _ _ _ hs
        · exact h s _ _ _ hs
  refine ⟨hline, fun d s hs => ?_, fun v s hs => ?_, fun part s hs => ?_⟩
  · unfold setBusDirection; split; exacts [hs, h s _ _ _ hs]
  · unfold Machine.drive; split; exacts [hs, h s _ _ _ hs]
  · unfold sampleLines; split; exacts [hs, h s _ _ _ hs]

end Sys2Proof.Machine
end

