-- ==== Sys2Proof/Laws/Bus.lean ====
section
/-!
SUPPORT. What the Bus Transfer Engine does while settle delays return, once and for all: a transaction sets the pins, appends
its events, and leaves the controller as a whole byte does. Callers cite these and never unfold a micro-operation.
-/
namespace Sys2Proof.Machine

@[simp] theorem hiNibble_joinNibbles (h l : Nibble) : hiNibble (joinNibbles h l) = h := by
  revert h l; decide

@[simp] theorem loNibble_joinNibbles (h l : Nibble) : loNibble (joinNibbles h l) = l := by
  revert h l; decide

@[simp] theorem joinNibbles_split (v : Byte) : joinNibbles (hiNibble v) (loNibble v) = v := by
  revert v; decide

/-- A write strobe while settle delays return: the two events, and the controller takes what the engine drives. -/
theorem strobe_eq {s : State} (h : s.env.delays.settle = .all) (hw : s.pins.rw = false) (hd : s.pins.dir = .output) :
    strobe s =
      { s with
        pins := { s.pins with e := false }
        hist := s.hist ++ strobeEvents
        env := s.env.takeStrobe s.cfg s.pins.rs (some s.pins.dout) } := by
  unfold strobe
  rw [setControlLine_all _ _ h, setControlLine_all _ _ (by rw [commandLine_delays]; exact h)]
  simp [commandLine, State.emit, State.strobed, State.driven, hw, hd, strobeEvents]

/-- A read strobe while settle delays return: the value sampled while E is high, and the controller after the falling edge. -/
theorem readStrobe_eq {s : State} (part : Phase) (h : s.env.delays.settle = .all) (hw : s.pins.rw = true) :
    readStrobe part s =
      ((s.env.readStrobe s.cfg s.pins.rs part).1,
        { s with
          pins := { s.pins with e := false }
          hist := s.hist ++
            [.ctl .e true, .sample (linesOf s.cfg.busMode (s.env.readStrobe s.cfg s.pins.rs part).1), .ctl .e false]
          env := (s.env.readStrobe s.cfg s.pins.rs part).2 }) := by
  have h1 : (commandLine .e true s).env.delays.settle = .all := by rw [commandLine_delays]; exact h
  unfold readStrobe
  rw [setControlLine_all _ _ h, sampleLines_all part h1, setControlLine_all _ _ (by simpa [State.emit] using h1)]
  simp [commandLine, State.emit, State.strobed, Env.readStrobe, hw]

/-- `WriteByte` on lines the engine may drive, while settle delays return. -/
theorem writeByte_eq {s : State} (v : Byte) (h : s.env.delays.settle = .all) (hw : s.pins.rw = false) :
    writeByte v s =
      { s with
        pins := { s.pins with e := false, dout := lastDriven s.cfg.busMode v, dir := .output }
        hist := s.hist ++ writeByteEvents s.cfg.busMode v
        env := s.env.written s.cfg s.pins.rs v } := by
  unfold writeByte
  cases hm : s.cfg.busMode <;>
    simp [strobe_eq, drive_all, setBusDirection_all, State.emit, h, hw, Env.written, hm, writeByteEvents, lastDriven]

/-- `RawWrite` while settle delays return: one strobe. -/
theorem rawWrite_eq {s : State} (v : Byte) (h : s.env.delays.settle = .all) (hw : s.pins.rw = false) :
    rawWrite v s =
      { s with
        pins := { s.pins with e := false, dout := linesOf s.cfg.busMode v, dir := .output }
        hist := s.hist ++ rawWriteEvents s.cfg.busMode v
        env := s.env.takeStrobe s.cfg s.pins.rs (some (linesOf s.cfg.busMode v)) } := by
  simp [rawWrite, strobe_eq, drive_all, setBusDirection_all, State.emit, h, hw, rawWriteEvents]

/-- `ReadByte` while RW is at read and settle delays return. -/
theorem readByte_eq {s : State} (h : s.env.delays.settle = .all) (hw : s.pins.rw = true) :
    readByte s =
      ((s.env.readOut s.cfg s.pins.rs).1,
        { s with
          pins := { s.pins with e := false }
          hist := s.hist ++ readByteEvents s.cfg.busMode (s.env.readOut s.cfg s.pins.rs).1
          env := (s.env.readOut s.cfg s.pins.rs).2 }) := by
  unfold readByte
  cases hm : s.cfg.busMode <;> simp [readStrobe_eq, h, hw, Env.readOut, hm, readByteEvents, linesOf]

/-- `BusWrite(rs, v)` in every state whose settle delays return. -/
theorem busWrite_eq (rs : Level) (v : Byte) {s : State} (h : s.env.delays.settle = .all) :
    busWrite rs v s =
      { s with
        pins := ⟨rs, false, false, lastDriven s.cfg.busMode v, .output⟩
        hist := s.hist ++ writeEvents s.cfg.busMode rs v
        env := s.env.written s.cfg rs v } := by
  unfold busWrite
  rw [setControlLine_all .rs rs h, setControlLine_all .rw false (by rw [commandLine_delays]; exact h),
    writeByte_eq _ (by rw [commandLine_delays, commandLine_delays]; exact h) (by simp)]
  simp [writeEvents]

/-- `BusRead(rs)` in every state whose settle delays return. -/
theorem busRead_eq (rs : Level) {s : State} (h : s.env.delays.settle = .all) :
    busRead rs s =
      ((s.env.readOut s.cfg rs).1,
        { s with
          pins := ⟨rs, true, false, s.pins.dout, .input⟩
          hist := s.hist ++ readEvents s.cfg.busMode rs (s.env.readOut s.cfg rs).1
          env := (s.env.readOut s.cfg rs).2 }) := by
  have h1 : (setBusDirection .input s).env.delays.settle = .all := by simpa using h
  unfold busRead
  rw [setControlLine_all .rs rs h1, setControlLine_all .rw true (by rw [commandLine_delays]; exact h1),
    readByte_eq (by rw [commandLine_delays, commandLine_delays]; exact h1) (by simp)]
  simp [readEvents, stuck_all h]

/-- `StatusRead` is a read transaction with RS = 0. -/
theorem statusRead_eq {s : State} (h : s.env.delays.settle = .all) :
    statusRead s =
      ((s.env.readOut s.cfg false).1,
        { s with
          pins := ⟨false, true, false, s.pins.dout, .input⟩
          hist := s.hist ++ readEvents s.cfg.busMode false (s.env.readOut s.cfg false).1
          env := (s.env.readOut s.cfg false).2 }) := busRead_eq false h

/-- The settle delays that are left after a transaction all of whose delays return: all of them. -/
theorem statusRead_settle {s : State} (h : s.env.delays.settle = .all) : (statusRead s).2.env.delays.settle = .all := by
  rw [statusRead_eq h]; simpa using h

theorem busWrite_settle (rs : Level) (v : Byte) {s : State} (h : s.env.delays.settle = .all) :
    (busWrite rs v s).env.delays.settle = .all := by
  rw [busWrite_eq rs v h]; simpa using h

end Sys2Proof.Machine
end

