-- ==== Sys2Proof/Laws/Env.lean ====
section
/-!
SUPPORT. The controller's side of a transfer: what a status read changes, what the draws do, and what a whole byte written
to a controller in step does.
-/
namespace Sys2Proof.Machine

/-- All a status read can change in the environment: draws are used up, the busy flag is refreshed, the phase moves. -/
def Env.StatusChange (v w : Env) : Prop :=
  ∃ bits tape drawn busy phase,
    w = { v with busyBits := bits, tape := tape, drawn := drawn, ctl := { v.ctl with busy := busy, phase := phase } }

theorem Env.StatusChange.refl (v : Env) : v.StatusChange v := ⟨_, _, _, _, _, rfl⟩

theorem Env.StatusChange.trans {u v w : Env} (h : u.StatusChange v) (g : v.StatusChange w) : u.StatusChange w := by
  obtain ⟨_, _, _, _, _, rfl⟩ := h
  obtain ⟨_, _, _, _, _, rfl⟩ := g
  exact ⟨_, _, _, _, _, rfl⟩

theorem Env.draw_eq (v : Env) : ∃ tape, v.draw.2 = { v with tape := tape, drawn := v.drawn + 1 } := by
  unfold Env.draw
  split
  · exact ⟨_, rfl⟩
  · exact ⟨v.tape, rfl⟩

theorem Env.draw_change (v : Env) : v.StatusChange v.draw.2 := by
  obtain ⟨t, h⟩ := v.draw_eq
  exact ⟨_, _, _, _, _, h⟩

/-- A busy-flag draw takes the head of the list, or the constant after it. -/
theorem Env.drawBusy_eq (v : Env) : v.drawBusy = (v.busyBits.headD v.busyAfter, { v with busyBits := v.busyBits.tail }) := by
  unfold Env.drawBusy
  cases h : v.busyBits with
  | nil => simp only [List.headD, List.tail]; rw [← h]
  | cons b rest => rfl

theorem Env.drawBusy_change (v : Env) : v.StatusChange v.drawBusy.2 := by
  rw [Env.drawBusy_eq]; exact ⟨_, _, _, _, _, rfl⟩

theorem Env.refreshBusy_eq (v : Env) :
    v.refreshBusy =
      { v with busyBits := v.busyBits.tail, ctl := { v.ctl with busy := v.busyBits.headD v.busyAfter } } := by
  rw [Env.refreshBusy, Env.drawBusy_eq]

theorem Env.refreshBusy_change (v : Env) : v.StatusChange v.refreshBusy := by
  rw [Env.refreshBusy_eq]; exact ⟨_, _, _, _, _, rfl⟩

theorem Env.padLines_change (m : BusMode) (n : Nibble) (v : Env) : v.StatusChange (v.padLines m n).2 := by
  cases m
  · exact .refl v
  · exact v.draw_change

theorem Env.freeLines_change (rs : Level) (part : Phase) (v : Env) : v.StatusChange (v.freeLines rs part).2 := by
  unfold Env.freeLines
  split
  · exact v.draw_change
  · exact v.drawBusy_change.trans (Env.draw_change _)

/-- What the environment puts on the lines of a status read changes nothing but what `StatusChange` names. -/
theorem Env.answer_status_change (c : Cfg) (part : Phase) (v : Env) : v.StatusChange (v.answer c false part).2 := by
  unfold Env.answer
  split
  · exact v.freeLines_change _ _
  · simp only [Bool.false_eq_true, if_false]
    split
    · unfold Env.driveStatus
      split
      · exact v.refreshBusy_change
      · split
        · exact v.refreshBusy_change.trans (Env.padLines_change _ _ _)
        · exact Env.padLines_change _ _ _
    · exact v.freeLines_change _ _

theorem Env.endRead_status_change (v : Env) : v.StatusChange (v.endRead false) := by
  unfold Env.endRead
  split
  · exact .refl v
  · split
    · exact ⟨_, _, _, _, _, rfl⟩
    · exact ⟨_, _, _, _, _, rfl⟩

theorem Env.readStrobe_status_change (c : Cfg) (part : Phase) (v : Env) : v.StatusChange (v.readStrobe c false part).2 :=
  (v.answer_status_change c part).trans (Env.endRead_status_change _)

/-- A status read changes nothing in the environment but what `StatusChange` names. -/
theorem Env.readOut_status_change (c : Cfg) (v : Env) : v.StatusChange (v.readOut c false).2 := by
  unfold Env.readOut
  split
  · exact v.readStrobe_status_change c _
  · exact (v.readStrobe_status_change c _).trans (Env.readStrobe_status_change c _ _)

/-- Of an unconstrained controller the model's fields say nothing, and no read changes them (R60). -/
theorem Env.readStrobe_unconstrained (c : Cfg) (rs : Level) (part : Phase) {v : Env} (h : v.peer = .unconstrained) :
    (v.readStrobe c rs part).2.ctl = v.ctl ∧ (v.readStrobe c rs part).2.peer = .unconstrained ∧
      (v.readStrobe c rs part).2.settled = v.settled ∧ (v.readStrobe c rs part).2.busyAfter = v.busyAfter ∧
        (v.readStrobe c rs part).2.delays = v.delays := by
  have hd : ∀ w : Env, w.draw.2.ctl = w.ctl ∧ w.draw.2.peer = w.peer ∧ w.draw.2.settled = w.settled ∧
      w.draw.2.busyAfter = w.busyAfter ∧ w.draw.2.delays = w.delays := by
    intro w; obtain ⟨t, ht⟩ := w.draw_eq; simp [ht]
  have he : ∀ w : Env, w.peer = .unconstrained → w.endRead rs = w := by
    intro w hw; simp [Env.endRead, hw]
  have hb : ∀ w : Env, w.drawBusy.2.ctl = w.ctl ∧ w.drawBusy.2.peer = w.peer ∧ w.drawBusy.2.settled = w.settled ∧
      w.drawBusy.2.busyAfter = w.busyAfter ∧ w.drawBusy.2.delays = w.delays := by
    intro w; simp [Env.drawBusy_eq]
  simp only [Env.readStrobe, Env.answer, h, Env.freeLines]
  split
  · obtain ⟨d1, d2, d3, d4, d5⟩ := hd v
    rw [he _ (d2.trans h)]
    exact ⟨d1, d2.trans h, d3, d4, d5⟩
  · obtain ⟨d1, d2, d3, d4, d5⟩ := hd v.drawBusy.2
    obtain ⟨b1, b2, b3, b4, b5⟩ := hb v
    rw [he _ (d2.trans (b2.trans h))]
    exact ⟨d1.trans b1, d2.trans (b2.trans h), d3.trans b3, d4.trans b4, d5.trans b5⟩

theorem Env.readOut_unconstrained (c : Cfg) (rs : Level) {v : Env} (h : v.peer = .unconstrained) :
    (v.readOut c rs).2.ctl = v.ctl ∧ (v.readOut c rs).2.peer = .unconstrained ∧
      (v.readOut c rs).2.settled = v.settled ∧ (v.readOut c rs).2.busyAfter = v.busyAfter ∧
        (v.readOut c rs).2.delays = v.delays := by
  obtain ⟨a1, a2, a3, a4, a5⟩ := Env.readStrobe_unconstrained c rs .hi h
  unfold Env.readOut
  split
  · exact ⟨a1, a2, a3, a4, a5⟩
  · obtain ⟨b1, b2, b3, b4, b5⟩ := Env.readStrobe_unconstrained c rs .lo a2
    exact ⟨b1.trans a1, b2, b3.trans a3, b4.trans a4, b5.trans a5⟩

/-! ## A controller in step -/

theorem Env.inStep_reference {c : Cfg} {v : Env} (hp : v.peer = .reference) (h : v.inStep c = true) :
    v.ctl.if8 = decide (c.busMode = .bus8) ∧ v.ctl.phase = .hi := by
  simpa [Env.inStep, hp] using h

theorem busyFlag_status (k : Ctl) : busyFlag k.status = k.busy := by
  simp only [busyFlag, Ctl.status, BitVec.getLsbD_append]
  simp

theorem statusAddr_status (k : Ctl) : statusAddr k.status = k.ac := by
  unfold statusAddr Ctl.status
  generalize k.ac = a
  cases k.busy <;> (revert a; decide)

/-- A status read of the reference controller in step: the drawn busy flag and the address counter (R69). -/
theorem Env.readOut_status_reference {c : Cfg} {v : Env} (hp : v.peer = .reference) (hs : v.settled = true)
    (h : v.inStep c = true) :
    v.readOut c false =
      (BitVec.ofBool (v.busyBits.headD v.busyAfter) ++ v.ctl.ac,
        { v with
          busyBits := v.busyBits.tail
          ctl := { v.ctl with busy := v.busyBits.headD v.busyAfter, phase := .hi } }) := by
  obtain ⟨h8, hph⟩ := Env.inStep_reference hp h
  unfold Env.readOut
  cases hm : c.busMode with
  | bus8 =>
    simp only [hm, decide_true] at h8
    simp [Env.readStrobe, Env.answer, Env.driveStatus, Env.endRead, Env.aligned, Env.refreshBusy_eq, Ctl.status, hp, hs, h8]
  | bus4 =>
    simp only [hm, reduceCtorEq, decide_false] at h8
    simp [Env.readStrobe, Env.answer, Env.driveStatus, Env.endRead, Env.aligned, Env.padLines, Env.refreshBusy_eq,
      Ctl.status, hp, hs, h8, hph, hm]

/-- Bit 7 of drawn lines at the first strobe of a status read is the drawn busy flag. -/
theorem Env.freeLines_status (v : Env) :
    ∃ tape low, v.freeLines false .hi =
      (BitVec.ofBool (v.busyBits.headD v.busyAfter) ++ (low : BitVec 7),
        { v with busyBits := v.busyBits.tail, tape := tape, drawn := v.drawn + 1 }) := by
  obtain ⟨t, ht⟩ := Env.draw_eq { v with busyBits := v.busyBits.tail }
  refine ⟨t, ?_, ?_⟩
  · exact ({ v with busyBits := v.busyBits.tail } : Env).draw.1.extractLsb' 0 7
  · simp [Env.freeLines, Env.drawBusy_eq, ht]

theorem busyFlag_append (b : Bool) (x : BitVec 7) : busyFlag (BitVec.ofBool b ++ x) = b := by
  simp only [busyFlag, BitVec.getLsbD_append]
  simp

theorem busyFlag_join (a b : Byte) : busyFlag (joinNibbles (hiNibble a) (hiNibble b)) = busyFlag a := by
  simp only [busyFlag, joinNibbles, hiNibble, BitVec.getLsbD_append]
  simp

/-- Lines of a status read that only the draws fix. -/
theorem Env.answer_free (c : Cfg) (part : Phase) {v : Env} (h : v.peer = .unconstrained ∨ v.settled = false) :
    v.answer c false part = v.freeLines false part := by
  unfold Env.answer
  rcases h with h | h
  · simp [h]
  · split <;> simp [h]

/-- The first strobe of a status read whose lines only the draws fix: one draw of the busy flag. -/
theorem Env.readStrobe_free (c : Cfg) (v : Env) (h : v.peer = .unconstrained ∨ v.settled = false) :
    busyFlag (v.readStrobe c false .hi).1 = v.busyBits.headD v.busyAfter ∧
      (v.readStrobe c false .hi).2.busyBits = v.busyBits.tail ∧ (v.readStrobe c false .hi).2.busyAfter = v.busyAfter ∧
        (v.readStrobe c false .hi).2.peer = v.peer ∧ (v.readStrobe c false .hi).2.settled = v.settled ∧
          (v.readStrobe c false .hi).2.ctl = (v.endRead false).ctl := by
  obtain ⟨t, l, hf⟩ := v.freeLines_status
  have ha := v.answer_free c .hi h
  simp only [Env.readStrobe, ha, hf, busyFlag_append, Env.endRead, Env.aligned]
  cases v.peer <;> simp only [true_and]
  split <;> simp

/-- Its second strobe on a 4-bit bus: all four lines are draws under no law (R134, R153), and no busy flag is drawn. -/
theorem Env.readStrobe_free_second (c : Cfg) (v : Env) (h : v.peer = .unconstrained ∨ v.settled = false) :
    (v.readStrobe c false .lo).1 = v.draw.1 ∧ (v.readStrobe c false .lo).2.busyBits = v.busyBits ∧
      (v.readStrobe c false .lo).2.peer = v.peer ∧ (v.readStrobe c false .lo).2.ctl = (v.endRead false).ctl := by
  obtain ⟨t, ht⟩ := v.draw_eq
  have hf : v.freeLines false .lo = (v.draw.1, v.draw.2) := by simp [Env.freeLines]
  simp only [Env.readStrobe, v.answer_free c .lo h, hf, ht, Env.endRead, Env.aligned]
  cases v.peer <;> simp only [true_and]
  split <;> simp

/-- In step, bit 7 of a status read is the drawn busy flag; at least one draw is used; and the controller stays in step. -/
theorem Env.readOut_status_inStep {c : Cfg} {v : Env} (h : v.inStep c = true) :
    busyFlag (v.readOut c false).1 = v.busyBits.headD v.busyAfter ∧ (v.readOut c false).2.inStep c = true ∧
      ∃ n, (v.readOut c false).2.busyBits = v.busyBits.drop (n + 1) := by
  by_cases hfree : v.peer = .unconstrained ∨ v.settled = false
  · obtain ⟨h1, h2, h3, h4, h5, h6⟩ := Env.readStrobe_free c v hfree
    unfold Env.readOut
    cases hm : c.busMode with
    | bus8 =>
      refine ⟨h1, ?_, 0, by simpa using h2⟩
      cases hp : v.peer with
      | unconstrained => simp [Env.inStep, h4, hp]
      | reference =>
        obtain ⟨h8, hph⟩ := Env.inStep_reference hp h
        simp only [hm, decide_true] at h8
        simp [Env.inStep, h4, hp, h6, Env.endRead, Env.aligned, h8, hm]
    | bus4 =>
      obtain ⟨-, g2, g4, g6⟩ := Env.readStrobe_free_second c (v.readStrobe c false .hi).2 (by rw [h4, h5]; exact hfree)
      refine ⟨by rw [busyFlag_join, h1], ?_, 0, by simp [g2, h2]⟩
      cases hp : v.peer with
      | unconstrained => simp [Env.inStep, g4, h4, hp]
      | reference =>
        obtain ⟨h8, hph⟩ := Env.inStep_reference hp h
        simp only [hm, reduceCtorEq, decide_false] at h8
        simp [Env.inStep, g4, h4, hp, g6, h6, Env.endRead, Env.aligned, h8, hm, hph]
  · obtain ⟨hp, hs⟩ : v.peer = .reference ∧ v.settled = true := by
      cases hp : v.peer <;> cases hs : v.settled <;> simp_all
    obtain ⟨h8, hph⟩ := Env.inStep_reference hp h
    rw [Env.readOut_status_reference hp hs h]
    exact ⟨busyFlag_append _ _, by simp [Env.inStep, hp, h8], 0, by simp⟩

end Sys2Proof.Machine
end

