-- ==== Sys2Proof/Laws/BusySync.lean ====
section
/-!
SUPPORT. What `WaitUntilReady` does while settle delays return: it completes after status reads of which only the last reads
ready, or it hangs after status reads that all read busy; it changes nothing but the pins, the history and what a status read changes in the
environment; and in step, with the busy flag eventually false, it completes.
-/
namespace Sys2Proof.Machine

/-- The state after status reads with these answers. -/
def Polled (s t : State) (answers : List Byte) : Prop :=
  ∃ w, s.env.StatusChange w ∧ (s.env.peer = .unconstrained → w.ctl = s.env.ctl) ∧
    t = { s with pins := idlePins s.pins.dout, hist := s.hist ++ pollEvents s.cfg.busMode answers, env := w }

theorem statusRead_polled {s : State} (h : s.env.delays.settle = .all) : Polled s (statusRead s).2 [(statusRead s).1] := by
  refine ⟨(s.env.readOut s.cfg false).2, Env.readOut_status_change _ _, fun h => (Env.readOut_unconstrained _ _ h).1, ?_⟩
  simp [statusRead_eq h, pollEvents, idlePins]

theorem Polled.settle {s t : State} {a : List Byte} (h : Polled s t a) (hs : s.env.delays.settle = .all) :
    t.env.delays.settle = .all := by
  obtain ⟨_, ⟨_, _, _, _, _, rfl⟩, -, rfl⟩ := h; exact hs

/-- One poll. -/
theorem pollLoop_succ {s : State} (n : Nat) (h : s.env.delays.settle = .all) :
    pollLoop (n + 1) s =
      if busyFlag (statusRead s).1 then pollLoop n (statusRead s).2 else .done () (statusRead s).2 := by
  rw [pollLoop, unlessStuck_all _ (statusRead_settle h)]; rfl

theorem Polled.trans {s t u : State} {a b : List Byte} (h : Polled s t a) (g : Polled t u b) : Polled s u (a ++ b) := by
  obtain ⟨w, hw, hu, rfl⟩ := h
  obtain ⟨x, hx, hv, rfl⟩ := g
  refine ⟨x, hw.trans hx, fun h => ?_, by simp [pollEvents, idlePins]⟩
  have hp : w.peer = .unconstrained := by obtain ⟨_, _, _, _, _, rfl⟩ := hw; exact h
  exact (hv hp).trans (hu h)

/-- Everything the poll loop can do, from one poll on: complete, with only the last answer ready, or hang, with every
answer busy. -/
theorem pollLoop_cases (n : Nat) (s : State) (hs : s.env.delays.settle = .all) :
    (∃ t answers, pollLoop (n + 1) s = .done () t ∧ waitAnswers answers ∧ Polled s t answers) ∨
      (∃ t answers, pollLoop (n + 1) s = .hung { t with hang := some .poll } ∧
        (∀ b ∈ answers, busyFlag b = true) ∧ answers.length = n + 1 ∧ Polled s t answers) := by
  induction n generalizing s with
  | zero =>
    have hp := statusRead_polled hs
    cases hb : busyFlag (statusRead s).1 with
    | true => exact .inr ⟨_, _, by rw [pollLoop_succ _ hs]; simp [pollLoop, hb], by simpa using hb, rfl, hp⟩
    | false => exact .inl ⟨_, _, by rw [pollLoop_succ _ hs]; simp [hb], ⟨[], _, rfl, by simp, hb⟩, hp⟩
  | succ n ih =>
    have hp := statusRead_polled hs
    cases hb : busyFlag (statusRead s).1 with
    | false => exact .inl ⟨_, _, by rw [pollLoop_succ _ hs]; simp [hb], ⟨[], _, rfl, by simp, hb⟩, hp⟩
    | true =>
      have hstep : pollLoop (n + 1 + 1) s = pollLoop (n + 1) (statusRead s).2 := by rw [pollLoop_succ _ hs]; simp [hb]
      rcases ih (statusRead s).2 (statusRead_settle hs) with ⟨t, as, h1, ⟨bs, r, rfl, h3, h4⟩, h5⟩ | ⟨t, as, h1, h2, h3, h4⟩
      · refine .inl ⟨t, _, hstep.trans h1, ⟨(statusRead s).1 :: bs, r, by simp, ?_, h4⟩, hp.trans h5⟩
        simpa [hb] using h3
      · exact .inr ⟨t, (statusRead s).1 :: as, hstep.trans h1, by simpa [hb] using h2, by simp [h3], hp.trans h4⟩

/-- Everything `WaitUntilReady` can do (R150, R151). -/
theorem waitUntilReady_cases (s : State) (hs : s.env.delays.settle = .all) :
    (∃ t answers, waitUntilReady s = .done () t ∧ waitAnswers answers ∧ Polled s t answers) ∨
      (∃ t answers, waitUntilReady s = .hung { t with hang := some .poll } ∧
        (∀ b ∈ answers, busyFlag b = true) ∧ Polled s t answers) := by
  rcases pollLoop_cases (2 * s.env.busyBits.length + 1) s hs with h | ⟨t, as, h1, h2, -, h3⟩
  · exact .inl h
  · exact .inr ⟨t, as, h1, h2, h3⟩

theorem statusRead_inStep {s : State} (hs : s.env.delays.settle = .all) (h : s.env.inStep s.cfg = true) :
    (statusRead s).2.env.inStep (statusRead s).2.cfg = true := by
  rw [statusRead_eq hs]; exact (Env.readOut_status_inStep h).2.1

/-- The reference controller after a status read of an engine in step. -/
theorem statusRead_reference {s : State} (ha : s.env.delays.settle = .all) (h : s.refctl = true) :
    (statusRead s).1 = BitVec.ofBool (s.env.busyBits.headD s.env.busyAfter) ++ s.env.ctl.ac ∧
      (statusRead s).2.env.ctl = { s.env.ctl with busy := busyFlag (statusRead s).1 } ∧
        (statusRead s).2.refctl = true := by
  simp only [State.refctl, Bool.and_eq_true, decide_eq_true_eq] at h ⊢
  obtain ⟨⟨hp, hs⟩, hi⟩ := h
  obtain ⟨h8, hph⟩ := Env.inStep_reference hp hi
  rw [statusRead_eq ha, Env.readOut_status_reference hp hs hi]
  refine ⟨rfl, ?_, ⟨hp, hs⟩, by simp [Env.inStep, hp, h8]⟩
  simp only [busyFlag_append, ← hph]

/-- The three premises of a wait, taken apart. -/
theorem responsive_parts (s : State) :
    s.responsive = true ↔ (s.env.busyAfter = false ∧ s.env.inStep s.cfg = true) ∧ s.env.delays.settle = .all := by
  simp [State.responsive, State.eventuallyReady, State.settlesReturn, Env.eventuallyReady]

/-- Where the poll loop completes, the reference controller is left with its busy flag clear and otherwise as it was
(R69), whatever the busy flag does later. -/
theorem pollLoop_reference (n : Nat) (s t : State) (hs : s.env.delays.settle = .all) (hr : s.refctl = true)
    (h : pollLoop n s = .done () t) : t.refctl = true ∧ t.env.ctl = { s.env.ctl with busy := false } := by
  induction n generalizing s with
  | zero => cases h
  | succ n ih =>
    obtain ⟨-, g2, g3⟩ := statusRead_reference hs hr
    rw [pollLoop_succ _ hs] at h
    cases hb : busyFlag (statusRead s).1 with
    | false => rw [hb] at h; cases h; exact ⟨g3, by rw [g2, hb]⟩
    | true =>
      rw [hb] at h
      obtain ⟨k1, k2⟩ := ih _ (statusRead_settle hs) g3 h
      exact ⟨k1, by rw [k2, g2]⟩

/-- In step and with the busy flag eventually false, the poll loop completes, still in step (R152). -/
theorem pollLoop_done (n : Nat) (s : State) (h : s.responsive = true) (hn : s.env.busyBits.length < n) :
    ∃ t answers, pollLoop n s = .done () t ∧ waitAnswers answers ∧ Polled s t answers ∧ t.responsive = true := by
  induction n generalizing s with
  | zero => omega
  | succ n ih =>
    obtain ⟨h, hs⟩ := (responsive_parts s).1 h
    obtain ⟨hb, hi, k, hk⟩ := Env.readOut_status_inStep h.2
    have hp := statusRead_polled hs
    have hready : (statusRead s).2.responsive = true := by
      refine (responsive_parts _).2 ⟨⟨?_, statusRead_inStep hs h.2⟩, statusRead_settle hs⟩
      obtain ⟨w, ⟨_, _, _, _, _, rfl⟩, -, he⟩ := hp
      rw [he]; exact h.1
    cases hbz : busyFlag (statusRead s).1 with
    | false =>
      exact ⟨_, _, by rw [pollLoop_succ _ hs]; simp [hbz], ⟨[], _, rfl, by simp, hbz⟩, hp, hready⟩
    | true =>
      have hstep : pollLoop (n + 1) s = pollLoop n (statusRead s).2 := by rw [pollLoop_succ _ hs]; simp [hbz]
      have hlen : (statusRead s).2.env.busyBits.length < n := by
        rw [statusRead_eq hs] at hbz ⊢
        simp only [hk, List.length_drop]
        simp only [hb] at hbz
        cases hl : s.env.busyBits with
        | nil => simp [hl, h.1] at hbz
        | cons a l => simp only [hl, List.length_cons] at hn ⊢; omega
      obtain ⟨t, as, h1, ⟨bs, r, rfl, h3, h4⟩, h5, h6⟩ := ih _ hready hlen
      exact ⟨t, _, hstep.trans h1, ⟨(statusRead s).1 :: bs, r, by simp, by simpa [hbz] using h3, h4⟩, hp.trans h5, h6⟩

/-- Under `CTL_EVENTUALLY_READY`, `WaitUntilReady` completes (R152). -/
theorem waitUntilReady_done (s : State) (h : s.responsive = true) :
    ∃ t answers, waitUntilReady s = .done () t ∧ waitAnswers answers ∧ Polled s t answers ∧ t.responsive = true ∧
      (s.refctl = true → t.refctl = true ∧ t.env.ctl = { s.env.ctl with busy := false }) := by
  obtain ⟨t, as, h1, h2, h3, h4⟩ := pollLoop_done (pollBudget s) s h (by unfold pollBudget; omega)
  exact ⟨t, as, h1, h2, h3, h4, fun hr => pollLoop_reference _ s t ((responsive_parts s).1 h).2 hr h1⟩

end Sys2Proof.Machine
end

