-- ==== Sys2Proof/Laws/Send.lean ====
section
/-!
SUPPORT. What a whole byte written to the controller does, and what `SendCommand` and `SendData` do when the wait ends.
-/
namespace Sys2Proof.Machine

/-! ## Frames of a write -/

/-- What a write strobe keeps of the environment. -/
def Env.WriteKept (v w : Env) : Prop :=
  w.settled = v.settled ∧ w.busyBits = v.busyBits ∧ w.busyAfter = v.busyAfter ∧ w.delays = v.delays ∧
    (v.peer = .unconstrained → w = v)

theorem Env.WriteKept.refl (v : Env) : v.WriteKept v := ⟨rfl, rfl, rfl, rfl, fun _ => rfl⟩

theorem Env.WriteKept.trans {u v w : Env} (h : u.WriteKept v) (g : v.WriteKept w) : u.WriteKept w := by
  obtain ⟨h1, h2, h3, h4, h5⟩ := h
  obtain ⟨g1, g2, g3, g4, g5⟩ := g
  refine ⟨g1.trans h1, g2.trans h2, g3.trans h3, g4.trans h4, fun hu => ?_⟩
  obtain rfl := h5 hu
  exact g5 hu

/-- The same but for the last clause, for reactions of the reference controller alone. -/
def Env.DrawKept (v w : Env) : Prop :=
  w.settled = v.settled ∧ w.busyBits = v.busyBits ∧ w.busyAfter = v.busyAfter ∧ w.delays = v.delays

theorem Env.DrawKept.trans {u v w : Env} (h : u.DrawKept v) (g : v.DrawKept w) : u.DrawKept w :=
  ⟨g.1.trans h.1, g.2.1.trans h.2.1, g.2.2.1.trans h.2.2.1, g.2.2.2.trans h.2.2.2⟩

theorem Env.draw_kept (v : Env) : v.DrawKept v.draw.2 := by
  obtain ⟨t, h⟩ := v.draw_eq
  rw [h]; exact ⟨rfl, rfl, rfl, rfl⟩

theorem Env.command_kept (c : Cfg) (b : Byte) (v : Env) : v.DrawKept (v.command c b) := by
  unfold Env.command
  split_ifs
  all_goals first
    | exact ⟨rfl, rfl, rfl, rfl⟩
    | exact v.draw_kept

theorem Env.takeByte_kept (c : Cfg) (rs : Level) (b : Byte) (v : Env) : v.DrawKept (v.takeByte c rs b) := by
  unfold Env.takeByte
  split
  · exact ⟨rfl, rfl, rfl, rfl⟩
  · exact v.command_kept c b

theorem Env.seenByte_kept (l : Option Lines) (v : Env) : v.DrawKept (v.seenByte l).2 := by
  unfold Env.seenByte
  split
  · exact ⟨rfl, rfl, rfl, rfl⟩
  · exact v.draw_kept
  · exact v.draw_kept

theorem Env.seenNibble_kept (l : Option Lines) (v : Env) : v.DrawKept (v.seenNibble l).2 := by
  unfold Env.seenNibble
  split
  · exact ⟨rfl, rfl, rfl, rfl⟩
  · exact ⟨rfl, rfl, rfl, rfl⟩
  · exact v.draw_kept

/-- Everything a write strobe keeps, in every state of the controller. -/
theorem Env.takeStrobe_kept (c : Cfg) (rs : Level) (l : Option Lines) (v : Env) : v.WriteKept (v.takeStrobe c rs l) := by
  unfold Env.takeStrobe
  split
  · exact .refl v
  · rename_i hp
    have hno : v.peer = .unconstrained → ∀ w : Env, w = v := fun h => by rw [hp] at h; cases h
    split
    · obtain ⟨h1, h2, h3, h4⟩ := (v.seenByte_kept l).trans (Env.takeByte_kept c rs _ _)
      exact ⟨h1, h2, h3, h4, fun h => hno h _⟩
    · split
      · obtain ⟨h1, h2, h3, h4⟩ := v.seenNibble_kept l
        exact ⟨h1, h2, h3, h4, fun h => hno h _⟩
      · obtain ⟨h1, h2, h3, h4⟩ := (v.seenNibble_kept l).trans (Env.takeByte_kept c rs _ _)
        exact ⟨h1, h2, h3, h4, fun h => hno h _⟩

/-- Everything a whole byte written keeps, in every state of the controller. -/
theorem Env.written_kept (c : Cfg) (rs : Level) (b : Byte) (v : Env) : v.WriteKept (v.written c rs b) := by
  unfold Env.written
  split
  · exact v.takeStrobe_kept c rs _
  · exact (v.takeStrobe_kept c rs _).trans (Env.takeStrobe_kept c rs _ _)

/-! ## A byte written to a controller in step -/

/-- A data byte does not read the nibble phase. -/
theorem Ctl.dataWrite_phase (k : Ctl) (p : Phase) (b : Byte) :
    ({ k with phase := p } : Ctl).dataWrite b = { k.dataWrite b with phase := p } := by
  obtain ⟨_, _, _, ac, sel, _, _, _, _, _, _, _, n, _, _, _, _⟩ := k
  cases sel with
  | cg => rfl
  | dd =>
    unfold Ctl.dataWrite
    by_cases h : ({ Ctl.powerOn with twoLine := n } : Ctl).implemented ac = true
    · simp only [show ∀ k : Ctl, k.twoLine = n → k.implemented ac = true from fun k hk => by
        simpa [Ctl.implemented, hk] using h]
      rfl
    · simp only [show ∀ k : Ctl, k.twoLine = n → ¬ k.implemented ac = true from fun k hk => by
        simpa [Ctl.implemented, hk] using h]
      rfl

/-- The controller holding the high nibble of a byte, on a 4-bit bus. -/
def Env.holding (m : BusMode) (b : Byte) (v : Env) : Env :=
  match m with
  | .bus8 => v
  | .bus4 => { v with ctl := { v.ctl with nib := hiNibble b } }

/-- A whole byte reaches a controller in step (R62, R63). -/
theorem Env.written_reference {c : Cfg} {v : Env} (hp : v.peer = .reference) (h : v.inStep c = true) (rs : Level)
    (b : Byte) : v.written c rs b = (v.holding c.busMode b).takeByte c rs b := by
  obtain ⟨h8, hph⟩ := Env.inStep_reference hp h
  unfold Env.written
  cases hm : c.busMode with
  | bus8 =>
    simp only [hm, decide_true] at h8
    simp [Env.takeStrobe, hp, h8, Env.seenByte, Env.holding]
  | bus4 =>
    simp only [hm, reduceCtorEq, decide_false] at h8
    have hlo : ∀ k : Env, k.ctl.phase = .hi →
        ({ k with ctl := { k.ctl with phase := .lo } } : Env).takeByte c rs b = k.takeByte c rs b := by
      intro k hk
      unfold Env.takeByte
      split
      · simp only [Env.aligned, Ctl.dataWrite_phase]
      · unfold Env.command
        split_ifs <;> first
          | rfl
          | (simp only [Env.aligned, Env.draw]; split <;> rfl)
    simp only [Env.takeStrobe, hp, h8, hph, Env.seenNibble, Env.holding, joinNibbles_split, Bool.false_eq_true, if_false]
    have := hlo { v with ctl := { v.ctl with nib := hiNibble b } } hph
    simpa [hp, h8, hph] using this

theorem Env.takeByte_phase (c : Cfg) (rs : Level) (b : Byte) (v : Env) : (v.takeByte c rs b).ctl.phase = .hi := by
  unfold Env.takeByte; split <;> rfl

theorem Env.command_if8 {c : Cfg} {b : Byte} (v : Env) (hk : keepsWidth c b = true)
    (h : v.ctl.if8 = decide (c.busMode = .bus8)) : (v.command c b).ctl.if8 = decide (c.busMode = .bus8) := by
  unfold Env.command
  obtain ⟨t, ht⟩ := v.draw_eq
  split_ifs with h7 h6 h5 h4 h3 h2 h1 h0
  · exact h
  · exact h
  · simp only [keepsWidth, h7, h6, h5] at hk
    simpa [Ctl.functionSet] using hk
  · simp [ht, Ctl.shifted, Ctl.accessed, h]
  all_goals exact h

theorem Ctl.dataWrite_if8 (k : Ctl) (b : Byte) : (k.dataWrite b).if8 = k.if8 := by
  unfold Ctl.dataWrite
  split
  · rfl
  · split <;> rfl

/-- After a data byte, or a command byte that keeps the interface width, the controller is still in step. -/
theorem Env.written_inStep {c : Cfg} {v : Env} (h : v.inStep c = true) (rs : Level) (b : Byte)
    (hk : rs = true ∨ keepsWidth c b = true) : (v.written c rs b).inStep c = true := by
  cases hp : v.peer with
  | unconstrained =>
    rw [(v.written_kept c rs b).2.2.2.2 hp]; exact h
  | reference =>
    rw [Env.written_reference hp h]
    obtain ⟨h8, hph⟩ := Env.inStep_reference hp h
    have hh : (v.holding c.busMode b).ctl.if8 = decide (c.busMode = .bus8) := by
      unfold Env.holding; split <;> exact h8
    unfold Env.inStep
    split
    · rfl
    · rw [Env.takeByte_phase]
      simp only [decide_true, Bool.and_true, decide_eq_true_eq]
      unfold Env.takeByte
      split
      · simp only [Env.aligned, Ctl.dataWrite_if8, hh]
      · rename_i hrs
        exact Env.command_if8 _ (hk.resolve_left hrs) hh

/-! ## What the byte does to the reference controller -/

/-- What a whole byte does to the reference controller, at the start of a byte (R64, R65). -/
def Env.reacted (c : Cfg) (rs : Level) (b : Byte) (v : Env) : Ctl :=
  if rs then v.ctl.dataWrite b else (v.command c b).ctl

/-- A data byte does not read the held nibble. -/
theorem Ctl.dataWrite_nib (k : Ctl) (n : Nibble) (b : Byte) :
    ({ k with nib := n } : Ctl).dataWrite b = { k.dataWrite b with nib := n } := by
  obtain ⟨_, _, _, ac, sel, _, _, _, _, _, _, _, m, _, _, _, _⟩ := k
  cases sel with
  | cg => rfl
  | dd =>
    unfold Ctl.dataWrite
    by_cases h : ({ Ctl.powerOn with twoLine := m } : Ctl).implemented ac = true
    · simp only [show ∀ k : Ctl, k.twoLine = m → k.implemented ac = true from fun k hk => by
        simpa [Ctl.implemented, hk] using h]
      rfl
    · simp only [show ∀ k : Ctl, k.twoLine = m → ¬ k.implemented ac = true from fun k hk => by
        simpa [Ctl.implemented, hk] using h]
      rfl

theorem Env.reacted_nib (c : Cfg) (rs : Level) (b : Byte) (n : Nibble) (v : Env) :
    ({ v with ctl := { v.ctl with nib := n } } : Env).reacted c rs b = { v.reacted c rs b with nib := n } := by
  unfold Env.reacted
  cases rs with
  | true => exact Ctl.dataWrite_nib _ _ _
  | false =>
    simp only [Bool.false_eq_true, if_false]
    unfold Env.command
    split_ifs <;> first
      | rfl
      | (simp only [Env.draw]; split <;> rfl)

theorem Ctl.dataWrite_keepsPhase (k : Ctl) (b : Byte) : (k.dataWrite b).phase = k.phase := by
  unfold Ctl.dataWrite
  split
  · rfl
  · split <;> rfl

theorem Env.reacted_phase (c : Cfg) (rs : Level) (b : Byte) {v : Env} (h : v.ctl.phase = .hi) :
    (v.reacted c rs b).phase = .hi := by
  unfold Env.reacted
  cases rs with
  | true => simp only [if_true, Ctl.dataWrite_keepsPhase, h]
  | false =>
    simp only [Bool.false_eq_true, if_false]
    unfold Env.command
    obtain ⟨t, ht⟩ := v.draw_eq
    split_ifs
    case pos => exact h
    case pos => exact h
    case pos => simp only [Ctl.functionSet, Ctl.accessed]; split <;> first | exact h | rfl
    case pos => simp [ht, Ctl.shifted, Ctl.accessed, h]
    all_goals exact h

/-- The peer changes with the byte 0x00 only (log 15). -/
theorem Env.command_peer (c : Cfg) {b : Byte} (hb : b ≠ 0) (v : Env) : (v.command c b).peer = v.peer := by
  obtain ⟨t, ht⟩ := v.draw_eq
  unfold Env.command
  split_ifs with h7 h6 h5 h4 h3 h2 h1 h0
  all_goals first
    | rfl
    | simp [ht]
  exact absurd (by
    revert hb h7 h6 h5 h4 h3 h2 h1 h0
    revert b; decide) hb

/-- A whole byte written to a controller in step: what it keeps, and the controller's reaction. -/
theorem Env.written_done {c : Cfg} {v : Env} (h : v.inStep c = true) (rs : Level) (b : Byte)
    (hb : rs = true ∨ b ≠ 0) :
    EnvKept v (v.written c rs b) ∧
      (v.peer = .reference → (v.written c rs b).ctl =
        { v.reacted c rs b with nib := (v.written c rs b).ctl.nib }) := by
  obtain ⟨h1, h2, h3, h4, h5⟩ := v.written_kept c rs b
  cases hp : v.peer with
  | unconstrained =>
    rw [h5 hp]
    exact ⟨⟨rfl, rfl, rfl, rfl, fun _ => rfl⟩, nofun⟩
  | reference =>
    obtain ⟨h8, hph⟩ := Env.inStep_reference hp h
    have hw := Env.written_reference hp h rs b
    have hctl : (v.written c rs b).ctl = { v.reacted c rs b with nib := (v.written c rs b).ctl.nib } := by
      have hr : ∀ w : Env, w.ctl.phase = .hi → (w.takeByte c rs b).ctl = w.reacted c rs b := by
        intro w hw
        have := Env.reacted_phase c rs b hw
        unfold Env.takeByte Env.reacted at *
        cases rs <;> simp only [Bool.false_eq_true, if_true, if_false, Env.aligned] at this ⊢ <;> rw [← this]
      rw [hw]
      unfold Env.holding
      split
      · rw [hr v hph]
      · rw [hr { v with ctl := { v.ctl with nib := hiNibble b } } hph, Env.reacted_nib]
    refine ⟨⟨?_, h1, h3, h4, fun hu => by simp [hp] at hu⟩, fun _ => hctl⟩
    rw [hw]
    have hpeer : ∀ w : Env, (w.takeByte c rs b).peer = w.peer := by
      intro w
      unfold Env.takeByte
      cases rs with
      | true => rfl
      | false => exact Env.command_peer c (hb.resolve_left (by simp)) w
    rw [hpeer]
    unfold Env.holding
    split <;> simp

/-! ## SendCommand and SendData -/

theorem EnvKept.refl (v : Env) : EnvKept v v := ⟨rfl, rfl, rfl, rfl, fun _ => rfl⟩

theorem EnvKept.trans {u v w : Env} (h : EnvKept u v) (g : EnvKept v w) : EnvKept u w := by
  obtain ⟨h1, h2, h3, h4, h5⟩ := h
  obtain ⟨g1, g2, g3, g4, g5⟩ := g
  exact ⟨g1.trans h1, g2.trans h2, g3.trans h3, g4.trans h4, fun hu => (g5 (h1.trans hu)).trans (h5 hu)⟩

theorem Completed.trans {s t u : State} {x y x' y' : Byte} {p p' : Pins} {e e' : List Event} {r r' : List Byte}
    (h : Completed s t x y p e r) (g : Completed t u x' y' p' e' r') : Completed s u x' y' p' (e ++ e') (r ++ r') := by
  obtain ⟨h1, h2⟩ := h
  obtain ⟨g1, g2⟩ := g
  refine ⟨?_, h2.trans g2⟩
  rw [g1, h1]
  simp

theorem Polled.completed {s t : State} {answers : List Byte} (h : Polled s t answers) :
    Completed s t s.cx s.cy (idlePins s.pins.dout) (pollEvents s.cfg.busMode answers) [] := by
  obtain ⟨w, ⟨_, _, _, _, _, rfl⟩, hu, rfl⟩ := h
  exact ⟨by simp, rfl, rfl, rfl, rfl, hu⟩

theorem busWrite_completed {s : State} (ha : s.env.delays.settle = .all) (h : s.env.inStep s.cfg = true) (rs : Level)
    (b : Byte) (hb : rs = true ∨ b ≠ 0) :
    Completed s (busWrite rs b s) s.cx s.cy ⟨rs, false, false, lastDriven s.cfg.busMode b, .output⟩
      (writeEvents s.cfg.busMode rs b) [] := by
  rw [busWrite_eq rs b ha]
  exact ⟨by simp, (Env.written_done h rs b hb).1⟩

theorem busRead_completed (rs : Level) {s : State} (ha : s.env.delays.settle = .all) (h : EnvKept s.env (s.env.readOut s.cfg rs).2) :
    Completed s (busRead rs s).2 s.cx s.cy ⟨rs, true, false, s.pins.dout, .input⟩
      (readEvents s.cfg.busMode rs (busRead rs s).1) [] := by
  rw [busRead_eq rs ha]
  exact ⟨by simp, h⟩

theorem Completed.cfg {s t : State} {x y : Byte} {p : Pins} {e : List Event} {r : List Byte}
    (h : Completed s t x y p e r) : t.cfg = s.cfg := by rw [h.1]

theorem Completed.cx {s t : State} {x y : Byte} {p : Pins} {e : List Event} {r : List Byte}
    (h : Completed s t x y p e r) : t.cx = x := by rw [h.1]

theorem Completed.cy {s t : State} {x y : Byte} {p : Pins} {e : List Event} {r : List Byte}
    (h : Completed s t x y p e r) : t.cy = y := by rw [h.1]

theorem Completed.pins {s t : State} {x y : Byte} {p : Pins} {e : List Event} {r : List Byte}
    (h : Completed s t x y p e r) : t.pins = p := by rw [h.1]

theorem Completed.settle {s t : State} {x y : Byte} {p : Pins} {e : List Event} {r : List Byte}
    (h : Completed s t x y p e r) (hs : s.env.delays.settle = .all) : t.env.delays.settle = .all := by
  rw [h.2.2.2.2.1]; exact hs

theorem refctl_iff (s : State) :
    s.refctl = true ↔ s.env.peer = .reference ∧ s.env.settled = true ∧ s.env.inStep s.cfg = true := by
  simp [State.refctl, and_assoc]

/-- The reference controller has acted on a byte that was sent (R173), once `SendCommand` or `SendData` has completed,
whatever the busy flag does later. -/
theorem send_reference (rs : Level) (b : Byte) (s t : State) (ha : s.env.delays.settle = .all) (hr : s.refctl = true)
    (hb : rs = true ∨ (keepsWidth s.cfg b = true ∧ b ≠ 0))
    (h : waitUntilReady (statusRead (busWrite rs b s)).2 = .done () t) :
    t.refctl = true ∧ (s.env.reacted s.cfg rs b).after t.env.ctl ∧ t.cfg = s.cfg ∧ t.env.delays.settle = .all := by
  obtain ⟨hp, hs, hin⟩ := (refctl_iff s).1 hr
  have hb0 : rs = true ∨ b ≠ 0 := hb.imp_right And.right
  have hw := busWrite_completed ha hin rs b hb0
  have ha' := hw.settle ha
  have hr1 : (busWrite rs b s).refctl = true :=
    (refctl_iff _).2 ⟨hw.2.1.trans hp, hw.2.2.1.trans hs, by
      rw [busWrite_eq rs b ha]; exact Env.written_inStep hin rs b (hb.imp_right And.left)⟩
  obtain ⟨-, g2, g3⟩ := statusRead_reference ha' hr1
  obtain ⟨k1, k2⟩ := pollLoop_reference _ _ t (statusRead_settle ha') g3 h
  refine ⟨k1, ?_, ?_⟩
  · unfold Ctl.after
    rw [k2, g2, show (busWrite rs b s).env.ctl = (s.env.written s.cfg rs b).ctl by rw [busWrite_eq rs b ha],
      (Env.written_done hin rs b hb0).2 hp]
  · rcases waitUntilReady_cases _ (statusRead_settle ha') with ⟨u, as, e, -, hu⟩ | ⟨u, as, e, -⟩
    · rw [h] at e; cases e
      have h3 := (statusRead_polled ha').completed
      exact ⟨(hu.completed.cfg.trans h3.cfg).trans hw.cfg, hu.settle (statusRead_settle ha')⟩
    · rw [h] at e; cases e

/-- What `SendCommand` and `SendData` do under `CTL_EVENTUALLY_READY` (R170, R171): they complete, with their events, and the
reference controller has acted on the byte (R173). -/
theorem send_done (rs : Level) (b : Byte) (s : State) (h : s.responsive = true)
    (hb : rs = true ∨ (keepsWidth s.cfg b = true ∧ b ≠ 0)) :
    ∃ t evs, waitUntilReady (statusRead (busWrite rs b s)).2 = .done () t ∧ SentEvents s.cfg.busMode rs b evs ∧
      Completed s t s.cx s.cy (idlePins (lastDriven s.cfg.busMode b)) evs [] ∧ t.responsive = true ∧
        (s.refctl = true → t.refctl = true ∧ (s.env.reacted s.cfg rs b).after t.env.ctl) := by
  obtain ⟨⟨hbusy, hin⟩, ha⟩ := (responsive_parts s).1 h
  have hb0 : rs = true ∨ b ≠ 0 := hb.imp_right And.right
  have hw := busWrite_completed ha hin rs b hb0
  have ha' := hw.settle ha
  have hin' : (busWrite rs b s).env.inStep (busWrite rs b s).cfg = true := by
    rw [busWrite_eq rs b ha]; exact Env.written_inStep hin rs b (hb.imp_right And.left)
  have hd := (statusRead_polled ha').completed
  have hready : (statusRead (busWrite rs b s)).2.responsive = true := by
    rw [responsive_parts]
    refine ⟨⟨?_, statusRead_inStep ha' hin'⟩, hd.settle ha'⟩
    rw [hd.2.2.2.1, hw.2.2.2.1, hbusy]
  obtain ⟨t, answers, h1, h2, h3, h4, -⟩ := waitUntilReady_done _ hready
  refine ⟨t, _, h1, ⟨(statusRead (busWrite rs b s)).1, pollEvents s.cfg.busMode answers, ⟨answers, h2, rfl⟩, rfl⟩, ?_, h4, ?_⟩
  · have := (hw.trans hd).trans h3.completed
    simpa [hd.cx, hd.cy, hd.pins, hd.cfg, hw.cx, hw.cy, hw.pins, hw.cfg, idlePins, pollEvents] using this
  · intro hr
    obtain ⟨k1, k2, -⟩ := send_reference rs b s t ha hr hb h1
    exact ⟨k1, k2⟩

end Sys2Proof.Machine
end

