-- ==== Sys2Proof/Laws/Dispatcher.lean ====
section
/-!
SUPPORT. What the Dispatcher's primitives do when their waits end: the command bytes as the controller takes them,
`SendCommand`, `SendData`, a store, and `ReadDataRam`.
-/
namespace Sys2Proof.Machine

/-! ## The command bytes of R101 as the controller takes them (R64) -/

theorem setDdramByte_bits (a : Addr7) :
    (setDdramByte a).getLsbD 7 = true ∧ (setDdramByte a).extractLsb' 0 7 = a ∧ setDdramByte a ≠ 0 := by
  revert a; decide +kernel

theorem setCgramByte_bits (k : BitVec 3) :
    (setCgramByte k).getLsbD 7 = false ∧ (setCgramByte k).getLsbD 6 = true ∧
      (setCgramByte k).extractLsb' 0 6 = k ++ 0#3 ∧ setCgramByte k ≠ 0 := by
  revert k; decide

theorem displayByte_bits (c b : Bool) :
    (displayByte c b).getLsbD 7 = false ∧ (displayByte c b).getLsbD 6 = false ∧ (displayByte c b).getLsbD 5 = false ∧
      (displayByte c b).getLsbD 4 = false ∧ (displayByte c b).getLsbD 3 = true ∧ (displayByte c b).getLsbD 2 = true ∧
        (displayByte c b).getLsbD 1 = c ∧ (displayByte c b).getLsbD 0 = b ∧ displayByte c b ≠ 0 := by
  revert c b; decide

theorem functionSetByte_bits (c : Cfg) (bb : BitVec 2) :
    (functionSetByte c bb).getLsbD 7 = false ∧ (functionSetByte c bb).getLsbD 6 = false ∧
      (functionSetByte c bb).getLsbD 5 = true ∧ (functionSetByte c bb).getLsbD 4 = decide (c.busMode = .bus8) ∧
        (functionSetByte c bb).getLsbD 3 = c.twoLine ∧ (functionSetByte c bb).getLsbD 2 = false ∧
          (functionSetByte c bb).extractLsb' 0 2 = bb ∧ functionSetByte c bb ≠ 0 := by
  unfold functionSetByte
  generalize c.twoLine = n
  generalize decide (c.busMode = .bus8) = l
  revert l n bb; decide

theorem command_setDdram (c : Cfg) (a : Addr7) (v : Env) :
    v.command c (setDdramByte a) = { v with ctl := v.ctl.setDdram a } := by
  obtain ⟨h7, hx, -⟩ := setDdramByte_bits a
  simp only [Env.command, h7, hx, if_true]

theorem command_setCgram (c : Cfg) (k : BitVec 3) (v : Env) :
    v.command c (setCgramByte k) = { v with ctl := v.ctl.setCgram (k ++ 0#3) } := by
  obtain ⟨h7, h6, hx, -⟩ := setCgramByte_bits k
  simp only [Env.command, h7, h6, hx, Bool.false_eq_true, if_true, if_false]

theorem command_display (c : Cfg) (x y : Bool) (v : Env) :
    v.command c (displayByte x y) = { v with ctl := v.ctl.displayControl true x y } := by
  obtain ⟨h7, h6, h5, h4, h3, h2, h1, h0, -⟩ := displayByte_bits x y
  simp only [Env.command, h7, h6, h5, h4, h3, h2, h1, h0, Bool.false_eq_true, if_true, if_false]

theorem command_functionSet (c : Cfg) (bb : BitVec 2) (v : Env) :
    v.command c (functionSetByte c bb) =
      { v with ctl := v.ctl.functionSet c.displayType (decide (c.busMode = .bus8)) c.twoLine false bb } := by
  obtain ⟨h7, h6, h5, h4, h3, h2, hx, -⟩ := functionSetByte_bits c bb
  simp only [Env.command, h7, h6, h5, h4, h3, h2, hx, Bool.false_eq_true, if_true, if_false]

theorem command_clear (c : Cfg) (v : Env) : v.command c codeClear = { v with ctl := v.ctl.clearDisplay } := rfl

theorem command_entryInc (c : Cfg) (v : Env) : v.command c codeEntryInc = { v with ctl := v.ctl.entryMode true false } := rfl

theorem keepsWidth_setDdram (c : Cfg) (a : Addr7) : keepsWidth c (setDdramByte a) = true := by
  simp only [keepsWidth, (setDdramByte_bits a).1, Bool.true_or]

theorem keepsWidth_setCgram (c : Cfg) (k : BitVec 3) : keepsWidth c (setCgramByte k) = true := by
  simp only [keepsWidth, (setCgramByte_bits k).2.1, Bool.true_or, Bool.or_true]

theorem keepsWidth_display (c : Cfg) (x y : Bool) : keepsWidth c (displayByte x y) = true := by
  simp only [keepsWidth, (displayByte_bits x y).2.2.1, Bool.true_or, Bool.or_true, Bool.not_false]

theorem keepsWidth_functionSet (c : Cfg) (bb : BitVec 2) : keepsWidth c (functionSetByte c bb) = true := by
  simp only [keepsWidth, (functionSetByte_bits c bb).2.2.2.1, Bool.or_true, decide_true]

theorem keepsWidth_clear (c : Cfg) : keepsWidth c codeClear = true := rfl

theorem keepsWidth_entryInc (c : Cfg) : keepsWidth c codeEntryInc = true := rfl

/-! ## The nibble latch and the busy flag do not matter -/

theorem Ctl.after_setDdram {k k' u : Ctl} {a : Addr7} (h : k.after k') (g : (k'.setDdram a).after u) :
    (k.setDdram a).after u := by
  rw [Ctl.after] at h; rw [h] at g; exact g

theorem Ctl.after_setCgram {k k' u : Ctl} {a : BitVec 6} (h : k.after k') (g : (k'.setCgram a).after u) :
    (k.setCgram a).after u := by
  rw [Ctl.after] at h; rw [h] at g; exact g

theorem Ctl.dataWrite_busy (k : Ctl) (x : Bool) (b : Byte) : ({ k with busy := x } : Ctl).dataWrite b = k.dataWrite b := by
  obtain ⟨_, _, _, ac, sel, _, _, _, _, _, _, _, m, _, _, _, _⟩ := k
  cases sel with
  | cg => rfl
  | dd =>
    unfold Ctl.dataWrite
    by_cases h : ({ Ctl.powerOn with twoLine := m } : Ctl).implemented ac = true
    · simp only [show ∀ k : Ctl, k.twoLine = m → k.implemented ac = true from fun k hk => by
        simpa [Ctl.implemented, hk] using h]
      rfl
    · simp only [show ∀ k : Ctl, k.twoLine = m → ¬ k.implemented ac = true from fun k hk => by
        simpa [Ctl.implemented, hk] using h]
      rfl

theorem Ctl.after_dataWrite {k k' u : Ctl} {b : Byte} (h : k.after k') (g : (k'.dataWrite b).after u) :
    (k.dataWrite b).after u := by
  rw [Ctl.after] at h
  rw [h] at g
  have := Ctl.dataWrite_nib { k with busy := false } k'.nib b
  rw [Ctl.dataWrite_busy] at this
  rw [show ({ k with nib := k'.nib, busy := false } : Ctl).dataWrite b = { k.dataWrite b with nib := k'.nib } from this] at g
  exact g

/-! ## The primitives -/

/-- A command that is sent, waited for, and acted on (R170, R173). -/
theorem sendCommand_done (b : Byte) (s : State) (h : s.responsive = true) (hk : keepsWidth s.cfg b = true)
    (hb : b ≠ 0) :
    ∃ t evs, sendCommand b s = .done () t ∧ SentEvents s.cfg.busMode false b evs ∧
      Completed s t s.cx s.cy (idlePins (lastDriven s.cfg.busMode b)) evs [] ∧ t.responsive = true ∧
        (s.refctl = true → t.refctl = true ∧ (s.env.command s.cfg b).ctl.after t.env.ctl) :=
  send_done false b s h (.inr ⟨hk, hb⟩)

/-- A data byte that is sent, waited for, and acted on (R171, R173). -/
theorem sendData_done (b : Byte) (s : State) (h : s.responsive = true) :
    ∃ t evs, sendData b s = .done () t ∧ SentEvents s.cfg.busMode true b evs ∧
      Completed s t s.cx s.cy (idlePins (lastDriven s.cfg.busMode b)) evs [] ∧ t.responsive = true ∧
        (s.refctl = true → t.refctl = true ∧ (s.env.ctl.dataWrite b).after t.env.ctl) :=
  send_done true b s h (.inl rfl)

/-- The address-set command. -/
theorem address_done (a : Addr7) (s : State) (h : s.responsive = true) :
    ∃ t evs, sendCommand (setDdramByte a) s = .done () t ∧ SentEvents s.cfg.busMode false (setDdramByte a) evs ∧
      Completed s t s.cx s.cy (idlePins (lastDriven s.cfg.busMode (setDdramByte a))) evs [] ∧ t.responsive = true ∧
        (s.refctl = true → t.refctl = true ∧ (s.env.ctl.setDdram a).after t.env.ctl) := by
  have := sendCommand_done (setDdramByte a) s h (keepsWidth_setDdram _ a) (setDdramByte_bits a).2.2
  simpa only [command_setDdram] using this

/-- A store at a DDRAM address (R179). -/
theorem storeAt_done (a : Addr7) (b : Byte) (s : State) (h : s.responsive = true) :
    ∃ t evs, storeAt a b s = .done () t ∧ StoreEvents s.cfg.busMode a b evs ∧
      Completed s t s.cx s.cy (idlePins (lastDriven s.cfg.busMode b)) evs [] ∧ t.responsive = true ∧
        (s.refctl = true → t.refctl = true ∧ ((s.env.ctl.setDdram a).dataWrite b).after t.env.ctl) := by
  obtain ⟨u, e1, h1, h2, h3, h4, h5⟩ := address_done a s h
  obtain ⟨t, e2, g1, g2, g3, g4, g5⟩ := sendData_done b u h4
  rw [h3.cfg] at g2 g3
  refine ⟨t, e1 ++ e2, by simp [storeAt, h1, Ran.bind, g1], ⟨e1, e2, h2, g2, rfl⟩, ?_, g4, fun hr => ?_⟩
  · have := h3.trans g3
    simpa only [h3.cx, h3.cy, List.append_nil] using this
  · obtain ⟨k1, k2⟩ := h5 hr
    obtain ⟨m1, m2⟩ := g5 k1
    exact ⟨m1, Ctl.after_dataWrite k2 m2⟩

/-- The explicit wait of the longer operations. -/
theorem wait_done (s : State) (h : s.responsive = true) :
    ∃ t evs, waitUntilReady s = .done () t ∧ WaitEvents s.cfg.busMode evs ∧
      Completed s t s.cx s.cy (idlePins s.pins.dout) evs [] ∧ t.responsive = true ∧
        (s.refctl = true → t.refctl = true ∧ s.env.ctl.after t.env.ctl) := by
  obtain ⟨t, answers, h1, h2, h3, h4, h5⟩ := waitUntilReady_done s h
  refine ⟨t, _, h1, ⟨answers, h2, rfl⟩, h3.completed, h4, fun hr => ?_⟩
  obtain ⟨k1, k2⟩ := h5 hr
  exact ⟨k1, by unfold Ctl.after; rw [k2]⟩

/-! ## Data reads -/

/-- A data read of an engine in step, of any controller: what it keeps, and that it stays in step. -/
theorem Env.readOut_data {c : Cfg} {v : Env} (h : v.inStep c = true) :
    EnvKept v (v.readOut c true).2 ∧ (v.readOut c true).2.inStep c = true ∧
      (v.peer = .reference →
        (v.readOut c true).2.ctl = { v.ctl.dataTaken with phase := .hi } ∧
          ∀ b, v.ctl.dataByte = some b → (v.readOut c true).1 = b) := by
  cases hp : v.peer with
  | unconstrained =>
    obtain ⟨h1, h2, h3, h4, h5⟩ := Env.readOut_unconstrained c true hp
    refine ⟨⟨h2.trans hp.symm, h3, h4, h5, fun _ => h1⟩, by simp [Env.inStep, h2], nofun⟩
  | reference =>
    obtain ⟨h8, hph⟩ := Env.inStep_reference hp h
    have hd : ∀ w : Env, ∃ tape n, w.dataOrDraw.2 = { w with tape := tape, drawn := n } ∧
        ∀ b, w.ctl.dataByte = some b → w.dataOrDraw.1 = b := by
      intro w
      unfold Env.dataOrDraw
      split
      · rename_i b hb
        exact ⟨w.tape, w.drawn, rfl, fun x hx => by simp_all⟩
      · rename_i hb
        obtain ⟨t, ht⟩ := w.draw_eq
        exact ⟨t, _, ht, fun x hx => by simp_all⟩
    obtain ⟨t1, n1, hd1, hd2⟩ := hd v
    unfold Env.readOut
    cases hm : c.busMode with
    | bus8 =>
      simp only [hm, decide_true] at h8
      have hs : v.readStrobe c true .hi =
          (v.dataOrDraw.1, { v with tape := t1, drawn := n1, ctl := { v.ctl.dataTaken with phase := .hi } }) := by
        simp [Env.readStrobe, Env.answer, hp, Env.driveData, h8, hd1, Env.endRead, Env.aligned]
      simp only [hs]
      refine ⟨⟨rfl, rfl, rfl, rfl, fun hu => by simp [hp] at hu⟩, ?_, fun _ => ⟨trivial, hd2⟩⟩
      simp [Env.inStep, hp, hm, h8, Ctl.dataTaken, Ctl.accessed]
    | bus4 =>
      simp only [hm, reduceCtorEq, decide_false] at h8
      have hs : v.readStrobe c true .hi = (joinNibbles (hiNibble v.dataOrDraw.1) 0,
          { v with tape := t1, drawn := n1, ctl := { v.ctl with phase := .lo } }) := by
        simp [Env.readStrobe, Env.answer, hp, Env.driveData, h8, hph, hd1, Env.endRead, Env.padLines, hm]
      generalize hw : ({ v with tape := t1, drawn := n1, ctl := { v.ctl with phase := .lo } } : Env) = w at hs
      obtain ⟨t2, n2, he1, he2⟩ := hd w
      have hw8 : w.ctl.if8 = false := by rw [← hw]; exact h8
      have hwp : w.peer = .reference := by rw [← hw]; exact hp
      have hwl : w.ctl.phase = .lo := by rw [← hw]
      have hwb : w.ctl.dataByte = v.ctl.dataByte := by rw [← hw]; rfl
      have hwt : ({ w.ctl.dataTaken with phase := .hi } : Ctl) = { v.ctl.dataTaken with phase := .hi } := by
        rw [← hw]; rfl
      have hg : w.readStrobe c true .lo = (joinNibbles (loNibble w.dataOrDraw.1) 0,
          { w with tape := t2, drawn := n2, ctl := { w.ctl.dataTaken with phase := .hi } }) := by
        simp [Env.readStrobe, Env.answer, hwp, Env.driveData, hw8, hwl, he1, Env.endRead, Env.aligned, Env.padLines, hm]
      simp only [hs, hg]
      refine ⟨?_, ?_, fun _ => ⟨hwt, fun b hb => ?_⟩⟩
      · rw [← hw]; exact ⟨rfl, rfl, rfl, rfl, fun hu => by simp [hp] at hu⟩
      · simp [Env.inStep, hwp, hm, hw8, Ctl.dataTaken, Ctl.accessed]
      · rw [hd2 b hb, he2 b (by rw [hwb]; exact hb)]
        simp

/-- `ReadDataRam` (R176). -/
theorem readDataRam_done (a : Addr7) (s : State) (h : s.responsive = true) :
    ∃ b t evs, readDataRam a s = .done b t ∧ LoadEvents s.cfg.busMode a b evs ∧
      Completed s t s.cx s.cy (readPins (lastDriven s.cfg.busMode (setDdramByte a))) evs [] ∧ t.responsive = true ∧
        (s.refctl = true → t.refctl = true ∧
          t.env.ctl = { (s.env.ctl.setDdram a).dataTaken with nib := t.env.ctl.nib } ∧
            (s.env.ctl.implemented a = true → b = Mem.read s.env.ctl.ddram a.toNat)) := by
  obtain ⟨u, e1, h1, h2, h3, h4, h5⟩ := address_done a s h
  obtain ⟨w, e2, g1, g2, g3, g4, g5⟩ := wait_done u h4
  obtain ⟨⟨hb, hin⟩, ha⟩ := (responsive_parts w).1 g4
  obtain ⟨d1, d2, d3⟩ := Env.readOut_data hin
  have hr := busRead_completed true ha d1
  rw [h3.cfg] at g2
  have hcfg : w.cfg = s.cfg := by rw [g3.cfg, h3.cfg]
  rw [hcfg] at hr
  refine ⟨(busRead true w).1, (busRead true w).2, e1 ++ e2 ++ readEvents s.cfg.busMode true (busRead true w).1,
    by simp [readDataRam, h1, Ran.bind, g1, unlessStuck_all _ (hr.settle ha)], ⟨e1, e2, h2, g2, rfl⟩, ?_, ?_, fun href => ?_⟩
  · have := (h3.trans g3).trans hr
    simpa only [h3.cx, h3.cy, g3.cx, g3.cy, g3.pins, h3.pins, List.append_nil, readPins, idlePins] using this
  · rw [responsive_parts]
    refine ⟨⟨by rw [hr.2.2.2.1, hb], ?_⟩, hr.settle ha⟩
    rw [busRead_eq true ha]; exact d2
  · obtain ⟨k1, k2⟩ := h5 href
    obtain ⟨m1, m2⟩ := g5 k1
    obtain ⟨hp, hs, -⟩ := (refctl_iff w).1 m1
    obtain ⟨n1, n2⟩ := d3 hp
    have hctl : w.env.ctl = { s.env.ctl.setDdram a with nib := w.env.ctl.nib, busy := false } := by
      rw [Ctl.after] at k2 m2; rw [m2, k2]
    have hph : (s.env.ctl.setDdram a).phase = .hi := by
      obtain ⟨q1, -, q3⟩ := (refctl_iff s).1 href
      exact (Env.inStep_reference q1 q3).2
    refine ⟨?_, ?_, fun himp => ?_⟩
    · rw [refctl_iff, busRead_eq true ha]
      exact ⟨d1.1.trans hp, d1.2.1.trans hs, d2⟩
    · rw [busRead_eq true ha]
      rw [n1, hctl]
      simp only [Ctl.dataTaken, Ctl.accessed, Ctl.mk.injEq, and_true, true_and]
      exact ⟨hph.symm, rfl⟩
    · rw [busRead_eq true ha]
      refine n2 _ ?_
      rw [hctl]
      have himp' : ∀ k : Ctl, k.twoLine = s.env.ctl.twoLine → k.implemented a = true := fun k hk => by
        simpa [Ctl.implemented, hk] using himp
      simp only [Ctl.dataByte, Ctl.setDdram, Ctl.addressed, if_true]
      exact if_pos (himp' _ rfl)

end Sys2Proof.Machine
end

