-- ==== Sys2Proof/Laws/Ends.lean ====
section
/-!
SUPPORT. What every operation keeps, completed or hung: a predicate that a bus write and a bus read keep is kept by every
operation built from them. `Ends stop P r` says of a micro-operation that it completes or hangs in a state of P (but for the
mark where it hangs), or is refused where `stop` allows it; and that a settle delay that never returns is how it ends exactly
where it says so.
-/
namespace Sys2Proof.Machine

/-- How a micro-operation may end; `q` is what its caller assumes in order to know that no settle delay is stuck before it. -/
def Ran.Ends {α : Type} (q stop : Prop) (P : State → Prop) (r : Ran α) : Prop :=
  match r with
  | .done _ t => P t ∧ (q → t.stuck = false)
  | .hung t => ∃ u h, P u ∧ (q → u.stuck = decide (h = .settle)) ∧ t = { u with hang := some h }
  | .stop _ => stop

variable {q : Prop}

theorem Ran.Ends.bind {α β : Type} {stop : Prop} {P Q : State → Prop} {r : Ran α} {f : α → State → Ran β}
    (h : r.Ends q stop P) (hPQ : ∀ t, P t → Q t) (g : ∀ a t, P t → (q → t.stuck = false) → (f a t).Ends q stop Q) :
    (r.bind f).Ends q stop Q := by
  cases r with
  | done a t => exact g a t h.1 h.2
  | hung t =>
    obtain ⟨u, k, hu, hk, rfl⟩ := h
    exact ⟨u, k, hPQ u hu, hk, rfl⟩
  | stop q => exact h

theorem Ran.Ends.andThen {α β : Type} {stop : Prop} {P : State → Prop} {r : Ran α} {f : α → State → Ran β}
    (h : r.Ends q stop P) (g : ∀ a t, P t → (q → t.stuck = false) → (f a t).Ends q stop P) : (r.bind f).Ends q stop P :=
  h.bind (fun _ x => x) g

theorem Ran.Ends.mono {α : Type} {stop : Prop} {P Q : State → Prop} {r : Ran α} (h : r.Ends q stop P)
    (hPQ : ∀ t, P t → Q t) : r.Ends q stop Q := by
  cases r with
  | done a t => exact ⟨hPQ t h.1, h.2⟩
  | hung t =>
    obtain ⟨u, k, hu, hk, rfl⟩ := h
    exact ⟨u, k, hPQ u hu, hk, rfl⟩
  | stop q => exact h

theorem Ran.Ends.weaken {α : Type} {P : State → Prop} {r : Ran α} (h : r.Ends q False P) : r.Ends q True P := by
  cases r with
  | done a t => exact h
  | hung t => exact h
  | stop q => exact h.elim

theorem forEach_ends {α : Type} {stop : Prop} {P : State → Prop} {items : List α} {body : α → State → Ran Unit}
    (hb : ∀ i ∈ items, ∀ s, P s → (q → s.stuck = false) → (body i s).Ends q stop P) (s : State) (h : P s)
    (hs : q → s.stuck = false) : (forEach items body s).Ends q stop P := by
  induction items generalizing s with
  | nil => exact ⟨h, hs⟩
  | cons i rest ih =>
    exact (hb i (by simp) s h hs).andThen fun _ t ht hst => ih (fun j hj => hb j (List.mem_cons_of_mem _ hj)) t ht hst

theorem unlessStuck_ends {α : Type} {P : State → Prop} (a : α) (s : State) (h : P s) : (unlessStuck a s).Ends q False P := by
  unfold unlessStuck
  cases hs : s.stuck with
  | true => exact ⟨s, .settle, h, fun _ => by simpa using hs, rfl⟩
  | false => exact ⟨h, fun _ => hs⟩

/-- A predicate that the two framed transactions keep. -/
structure Closed (P : State → Prop) : Prop where
  write : ∀ rs b s, P s → P (busWrite rs b s)
  read : ∀ rs s, P s → P (busRead rs s).2

/-- A predicate that the line operations keep. -/
theorem LineClosed.closed {P : State → Prop} (hP : LineClosed P) : Closed P := ⟨hP.busWrite, hP.busRead⟩

namespace Closed

variable {P : State → Prop}

theorem pollLoop (hP : Closed P) (n : Nat) (s : State) (h : P s) (hn : n = 0 → q → s.stuck = false) :
    (pollLoop n s).Ends q False P := by
  induction n generalizing s with
  | zero => exact ⟨s, .poll, h, fun hq => by simpa using hn rfl hq, rfl⟩
  | succ n ih =>
    refine (unlessStuck_ends _ _ (hP.read false s h)).andThen fun status t ht hs => ?_
    split
    · exact ih t ht fun _ => hs
    · exact ⟨ht, hs⟩

theorem waitUntilReady (hP : Closed P) (s : State) (h : P s) : (waitUntilReady s).Ends q False P :=
  hP.pollLoop _ s h (by simp [pollBudget])

theorem send (hP : Closed P) (rs : Level) (b : Byte) (s : State) (h : P s) :
    (Machine.waitUntilReady (statusRead (busWrite rs b s)).2).Ends q False P :=
  hP.waitUntilReady _ (hP.read false _ (hP.write rs b s h))

theorem sendCommand (hP : Closed P) (b : Byte) (s : State) (h : P s) : (sendCommand b s).Ends q False P := hP.send false b s h

theorem sendData (hP : Closed P) (b : Byte) (s : State) (h : P s) : (sendData b s).Ends q False P := hP.send true b s h

theorem storeAt (hP : Closed P) (a : Addr7) (b : Byte) (s : State) (h : P s) : (storeAt a b s).Ends q False P :=
  (hP.sendCommand _ s h).andThen fun _ t ht _ => hP.sendData b t ht

theorem readDataRam (hP : Closed P) (a : Addr7) (s : State) (h : P s) : (readDataRam a s).Ends q False P :=
  (hP.sendCommand _ s h).andThen fun _ t ht _ =>
    (hP.waitUntilReady t ht).andThen fun _ u hu _ => unlessStuck_ends _ _ (hP.read true u hu)

theorem defineGlyph (hP : Closed P) (code : BitVec 3) (rows : List Byte) (s : State) (h : P s) :
    (defineGlyph code rows s).Ends q False P :=
  (hP.waitUntilReady _ (hP.read false s h)).andThen fun _ t ht _ =>
    (hP.sendCommand _ t ht).andThen fun _ u hu hus =>
      (forEach_ends (fun b _ s hs _ => hP.sendData b s hs) u hu hus).andThen fun _ w hw _ =>
        (hP.waitUntilReady w hw).andThen fun _ x hx _ => hP.sendCommand _ x hx

end Closed

/-! ## Cells -/

theorem resolve_some {c : Cfg} {x y : Nat} (hx : x ≤ c.xmax) (hy : y ≤ c.ymax) :
    ∃ a, resolve c x y = some a ∧ a ∈ c.table := by
  have hl : c.table.length = (c.xmax + 1) * (c.ymax + 1) := by
    have := c.fits; simp only [geometryOk, Bool.and_eq_true, decide_eq_true_eq] at this; exact this.1.2
  have hi : x + (c.xmax + 1) * y < c.table.length := by
    rw [hl]
    have : (c.xmax + 1) * y ≤ (c.xmax + 1) * c.ymax := Nat.mul_le_mul_left _ hy
    rw [Nat.mul_add, Nat.mul_one]; omega
  refine ⟨c.table[x + (c.xmax + 1) * y], ?_, List.getElem_mem hi⟩
  simp [resolve, hx, hy, List.getElem?_eq_getElem hi]

theorem resolve_range {c : Cfg} {x y : Nat} {a : Addr7} (h : resolve c x y = some a) : x ≤ c.xmax ∧ y ≤ c.ymax := by
  unfold resolve at h
  split at h
  · assumption
  · cases h

theorem resolve_mem {c : Cfg} {x y : Nat} {a : Addr7} (h : resolve c x y = some a) : a ∈ c.table := by
  obtain ⟨hx, hy⟩ := resolve_range h
  obtain ⟨b, hb, hm⟩ := resolve_some hx hy
  rw [hb] at h; cases h; exact hm

theorem geometry_bounds (c : Cfg) : c.xmax ≤ 127 ∧ c.ymax ≤ 127 := by
  have := c.fits
  simp only [geometryOk, Bool.and_eq_true, decide_eq_true_eq] at this
  exact ⟨this.1.1.1, this.1.1.2⟩

theorem atCell_ends {α : Type} {P : State → Prop} {x y : Nat} {s : State} {go : Addr7 → Ran α} {stop : Prop}
    (hr : stop ∨ (x ≤ s.cfg.xmax ∧ y ≤ s.cfg.ymax)) (hg : ∀ a, resolve s.cfg x y = some a → (go a).Ends q stop P) :
    (atCell x y s go).Ends q stop P := by
  unfold atCell
  split
  · exact hg _ ‹_›
  · rename_i hn
    rcases hr with h | ⟨hx, hy⟩
    · exact h
    · obtain ⟨a, ha, -⟩ := resolve_some hx hy
      rw [hn] at ha; cases ha

theorem mem_rowCells {c : Cfg} {r : Nat} {cell : Nat × Nat} (h : cell ∈ rowCells c r) : cell.1 ≤ c.xmax ∧ cell.2 = r := by
  simp only [rowCells, List.mem_map, List.mem_range] at h
  obtain ⟨x, hx, rfl⟩ := h
  exact ⟨by simpa using Nat.lt_succ_iff.1 hx, rfl⟩

theorem mem_scrolledCells {c : Cfg} {cell : Nat × Nat} (h : cell ∈ scrolledCells c) :
    cell.1 ≤ c.xmax ∧ 1 ≤ cell.2 ∧ cell.2 ≤ c.ymax := by
  simp only [scrolledCells, List.mem_flatMap, List.mem_range] at h
  obtain ⟨r, hr, hc⟩ := h
  obtain ⟨h1, h2⟩ := mem_rowCells hc
  omega

theorem copyUp_ends {P : State → Prop} (hP : Closed P) (cell : Nat × Nat) (s : State) (h : P s) : (copyUp cell s).Ends q True P :=
  atCell_ends (.inl trivial) fun a _ =>
    (hP.readDataRam a s h).weaken.andThen fun v t ht _ =>
      atCell_ends (.inl trivial) fun b _ => (hP.storeAt b v t ht).weaken

theorem blankCell_ends {P : State → Prop} (hP : Closed P) (cell : Nat × Nat) (s : State) (h : P s) :
    (blankCell cell s).Ends q True P :=
  atCell_ends (.inl trivial) fun a _ => (hP.storeAt a _ s h).weaken

/-- No part of a scroll is refused, and what the transactions keep it keeps (R210, R162). -/
theorem scrollUp_ends {P : State → Prop} (hP : Closed P) {c : Cfg} (hc : ∀ s, P s → s.cfg = c) (s : State) (h : P s)
    (hs : q → s.stuck = false) : (scrollUp s).Ends q False P := by
  unfold scrollUp
  split
  · exact ⟨h, hs⟩
  · refine (forEach_ends (P := P) (fun cell hcell t ht _ => ?_) s h hs).andThen fun _ t ht hts =>
      forEach_ends (fun cell hcell u hu _ => ?_) t ht hts
    · rw [hc s h] at hcell
      obtain ⟨h1, h2, h3⟩ := mem_scrolledCells hcell
      refine atCell_ends (.inr (by rw [hc t ht]; exact ⟨h1, h3⟩)) fun a _ => ?_
      exact (hP.readDataRam a t ht).andThen fun v u hu _ =>
        atCell_ends (.inr (by rw [hc u hu]; omega)) fun b _ => hP.storeAt b v u hu
    · rw [hc t ht] at hcell
      obtain ⟨h1, h2⟩ := mem_rowCells hcell
      exact atCell_ends (.inr (by rw [hc u hu]; omega)) fun a _ => hP.storeAt a _ u hu

/-! ## INIT -/

/-- What INIT keeps: `Q` is the predicate inside the bootstrap phase, while RW = 0 or a settle delay is stuck. -/
structure ClosedBoot (P Q : State → Prop) : Prop extends Closed P where
  force : ∀ s, P s → Q (forceWriteMode s)
  raw : ∀ b s, Q s → Q (rawWrite b s)
  byte : ∀ b s, Q s → Q (writeByte b s)
  delayed : ∀ ms v s, s.env.delay = some v → s.stuck = false → Q s → Q ({ s with env := v }.emit (.delayMs ms))
  leave : ∀ s, Q s → P s
  settled : ∀ s, Q s → P (markSettled s)
  inited : ∀ s, P s → s.env.settled = true → P { s with inited := true }

/-- A millisecond delay that returns takes no settle delay. -/
theorem Env.delay_settle {v w : Env} (h : v.delay = some w) : w.delays.settle = v.delays.settle := by
  unfold Env.delay at h
  split at h <;> cases h <;> rfl

theorem delayMs_ends {P Q : State → Prop} (hP : ClosedBoot P Q) (ms : Nat) (s : State) (h : Q s) :
    (delayMs ms s).Ends q False Q := by
  unfold delayMs unlessStuck
  cases hs : s.stuck with
  | true => exact ⟨s, .settle, h, fun _ => by simpa using hs, rfl⟩
  | false =>
    show Ran.Ends q False Q (match s.env.delay with | some v => _ | none => _)
    split
    · rename_i v hv
      exact ⟨hP.delayed ms v s hv hs h, fun _ => by simpa [State.stuck, Env.delay_settle hv] using hs⟩
    · exact ⟨s, .delay, h, fun _ => by simpa using hs, rfl⟩

theorem bootstrap_ends {P Q : State → Prop} (hP : ClosedBoot P Q) (s : State) (h : P s) :
    ((initStep1 s).bind fun _ t => initStep2 t).Ends q False Q := by
  have raw : ∀ b ms t, Q t → (thenDelay (rawWrite b) ms t).Ends q False Q := fun b ms t ht =>
    delayMs_ends hP ms _ (hP.raw b t ht)
  have byte : ∀ b ms t, Q t → (thenDelay (writeByte b) ms t).Ends q False Q := fun b ms t ht =>
    delayMs_ends hP ms _ (hP.byte b t ht)
  refine Ran.Ends.andThen ?_ fun _ t ht _ => ?_
  · exact (raw _ _ _ (hP.force s h)).andThen fun _ t ht _ => (raw _ _ t ht).andThen fun _ u hu _ => raw _ _ u hu
  · exact (raw _ _ t ht).andThen fun _ u hu _ => (byte _ _ u hu).andThen fun _ w hw _ => byte _ _ w hw

theorem Ran.bind_assoc {α β γ : Type} (r : Ran α) (f : α → State → Ran β) (g : β → State → Ran γ) :
    (r.bind f).bind g = r.bind fun a s => (f a s).bind g := by cases r <;> rfl

theorem initSequence_ends {P Q : State → Prop} (hP : ClosedBoot P Q)
    (hset : Closed fun s => P s ∧ s.env.settled = true) (s : State) (h : P s) : (initSequence s).Ends q False P := by
  unfold initSequence
  rw [← Ran.bind_assoc]
  refine (bootstrap_ends hP s h).bind hP.leave fun _ t ht _ => ?_
  have h3 : (initStep3 (markSettled t)).Ends q False fun s => P s ∧ s.env.settled = true :=
    (hset.sendCommand _ _ ⟨hP.settled t ht, rfl⟩).andThen fun _ u hu _ =>
      (hset.sendCommand _ u hu).andThen fun _ w hw _ => hset.sendCommand _ w hw
  exact h3.bind (fun _ x => x.1) fun _ u hu hs => ⟨hP.inited u hu.1 hu.2, hs⟩

/-! ## Whole operations -/

/-- How a host operation ends: what its body's end says, with `BUSY_OP` and the response as R30 and R99 have them. -/
theorem runOp_next {stop : Prop} {P : State → Prop} {body : State → Ran (Option Byte)} {s t : State}
    (h : (body { s with busyOp := true }).Ends q stop P) (hn : runOp s body = .next t) :
    (∃ u r, body { s with busyOp := true } = .done r u ∧ P u ∧ (q → u.stuck = false) ∧
        t = { u with busyOp := false, rsp := u.rsp ++ r.toList }) ∨
      (∃ u k, body { s with busyOp := true } = .hung t ∧ P u ∧ (q → u.stuck = decide (k = .settle)) ∧
        t = { u with hang := some k }) := by
  unfold runOp at hn
  split at hn
  · rename_i r u hb
    rw [hb] at h
    cases hn
    exact .inl ⟨u, r, hb, h.1, h.2, rfl⟩
  · rename_i u hb
    rw [hb] at h
    cases hn
    obtain ⟨w, k, hw, hk, rfl⟩ := h
    exact .inr ⟨w, k, hb, hw, hk, rfl⟩
  · cases hn

/-- An operation whose body is never refused gives a next state. -/
theorem runOp_total {P : State → Prop} {body : State → Ran (Option Byte)} {s : State}
    (h : (body { s with busyOp := true }).Ends q False P) : ∃ t, runOp s body = .next t := by
  unfold runOp
  split
  · exact ⟨_, rfl⟩
  · exact ⟨_, rfl⟩
  · rename_i q hb
    rw [hb] at h
    exact h.elim

/-- A request that gives a next state was accepted (R257). -/
theorem accept_next {s t : State} {present initFirst : Bool} {go : Answer} (h : accept s present initFirst go = .next t) :
    s.busyOp = false ∧ present = true ∧ (initFirst = true → s.inited = true) ∧ go = .next t := by
  unfold accept at h
  split at h
  · cases h
  · split at h
    · cases h
    · split at h
      · cases h
      · simp_all

theorem accept_ok {s : State} {present initFirst : Bool} {go : Answer} (hb : s.busyOp = false) (hp : present = true)
    (hi : initFirst = false ∨ s.inited = true) : accept s present initFirst go = go := by
  rcases hi with hi | hi <;> simp [accept, hb, hp, hi]

theorem noResult_ends {stop : Prop} {P : State → Prop} {r : Ran Unit} (h : r.Ends q stop P) : (noResult r).Ends q stop P :=
  h.andThen fun _ _ ht hs => ⟨ht, hs⟩

theorem withResult_ends {stop : Prop} {P : State → Prop} {r : Ran Byte} (h : r.Ends q stop P) : (withResult r).Ends q stop P :=
  h.andThen fun _ _ ht hs => ⟨ht, hs⟩

end Sys2Proof.Machine
end

