-- ==== Sys2Proof/Laws/Alike.lean ====
section
/-!
SUPPORT. What the micro-operations do not look at. A relation between states that every line operation keeps is kept by every
operation built from them, with the same values and the same end: so a scroll does not see the cursor (R214), nothing sees
what the model holds of an unconstrained controller (R60), and an operation that is not stuck in a settle delay runs as if
all of them returned (R262). Where `esc` holds the relation is given up once the right-hand run is stuck.
-/
namespace Sys2Proof.Machine

/-- The relation is given up: the right-hand run is stuck in a settle delay. -/
def Lost (esc : Prop) (s : State) : Prop := esc ∧ s.stuck = true

/-- What every line operation keeps. -/
structure Alike (esc : Prop) (R : State → State → Prop) : Prop where
  line : ∀ n l s' s, R s' s → R (setControlLine n l s') (setControlLine n l s)
  dir : ∀ d s' s, R s' s → R (setBusDirection d s') (setBusDirection d s)
  drive : ∀ v s' s, R s' s → R (drive v s') (drive v s)
  sample : ∀ part s' s, R s' s → R (sampleLines part s').2 (sampleLines part s).2
  value : ∀ part s' s, R s' s → ¬ Lost esc s → (sampleLines part s').1 = (sampleLines part s).1
  stuck : ∀ s' s, R s' s → ¬ Lost esc s → s'.stuck = s.stuck
  cfg : ∀ s' s, R s' s → s'.cfg = s.cfg
  bits : ∀ s' s, R s' s → ¬ Lost esc s → s'.env.busyBits = s.env.busyBits
  hang : ∀ h s' s, R s' s → R { s' with hang := h } { s with hang := h }

/-- Two ends alike: the same end with the same value, in related states. -/
def Ran.Alike {α : Type} (esc : Prop) (R : State → State → Prop) (r' r : Ran α) : Prop :=
  match r with
  | .done a t => ¬ Lost esc t ∧ ∃ t', r' = .done a t' ∧ R t' t
  | .hung t => Lost esc t ∨ ∃ t', r' = .hung t' ∧ R t' t
  | .stop q => r' = .stop q

theorem Ran.Alike.bind {α β : Type} {esc : Prop} {R : State → State → Prop} {r' r : Ran α} {f' f : α → State → Ran β}
    (h : r'.Alike esc R r) (g : ∀ a t' t, R t' t → ¬ Lost esc t → (f' a t').Alike esc R (f a t)) :
    (r'.bind f').Alike esc R (r.bind f) := by
  cases r with
  | done a t => obtain ⟨hl, t', rfl, ht⟩ := h; exact g a t' t ht hl
  | hung t => exact h.imp id fun ⟨t', e, ht⟩ => ⟨t', by rw [e]; rfl, ht⟩
  | stop q => rw [show r' = .stop q from h]; rfl

theorem forEach_alike {α : Type} {esc : Prop} {R : State → State → Prop} {items : List α} {body : α → State → Ran Unit}
    (hb : ∀ i s' s, R s' s → ¬ Lost esc s → (body i s').Alike esc R (body i s)) (s' s : State) (h : R s' s)
    (hl : ¬ Lost esc s) : (forEach items body s').Alike esc R (forEach items body s) := by
  induction items generalizing s' s with
  | nil => exact ⟨hl, s', rfl, h⟩
  | cons i rest ih => exact (hb i s' s h hl).bind fun _ t' t ht htl => ih t' t ht htl

/-- A stuck engine does nothing: no line operation is reached (R262). -/
theorem still_closed {s : State} (hs : s.stuck = true) : LineClosed (fun t => t = s) where
  line n l t h := by unfold setControlLine; rw [if_pos (h ▸ hs)]; exact h
  dir d t h := by unfold setBusDirection; rw [if_pos (h ▸ hs)]; exact h
  drive v t h := by unfold drive; rw [if_pos (h ▸ hs)]; exact h
  sample part t h := by unfold sampleLines; rw [if_pos (h ▸ hs)]; exact h

/-- A stuck engine stays stuck. -/
theorem stuck_closed : LineClosed (fun s => s.stuck = true) where
  line n l s h := by rw [(still_closed h).line n l s rfl]; exact h
  dir d s h := by rw [(still_closed h).dir d s rfl]; exact h
  drive v s h := by rw [(still_closed h).drive v s rfl]; exact h
  sample part s h := by rw [(still_closed h).sample part s rfl]; exact h

/-- A wait of a stuck engine. -/
theorem waitUntilReady_stuck {s : State} (h : s.stuck = true) : waitUntilReady s = .hung { s with hang := some .settle } := by
  unfold waitUntilReady pollBudget pollLoop unlessStuck
  rw [show (statusRead s).2 = s from (still_closed h).busRead false s rfl, if_pos h]
  rfl

namespace Alike

variable {esc : Prop} {R : State → State → Prop} (hR : Alike esc R)
include hR

theorem strobe (s' s : State) (h : R s' s) : R (strobe s') (strobe s) := hR.line _ _ _ _ (hR.line _ _ _ _ h)

theorem readStrobe (part : Phase) (s' s : State) (h : R s' s) : R (readStrobe part s').2 (readStrobe part s).2 :=
  hR.line _ _ _ _ (hR.sample _ _ _ (hR.line _ _ _ _ h))

omit hR in
/-- What was not stuck after a step was not stuck before it. -/
theorem notLost {s t : State} (hst : s.stuck = true → t.stuck = true) (h : ¬ Lost esc t) : ¬ Lost esc s :=
  fun g => h ⟨g.1, hst g.2⟩

theorem readStrobe_value (part : Phase) (s' s : State) (h : R s' s) (hl : ¬ Lost esc (Machine.readStrobe part s).2) :
    (Machine.readStrobe part s').1 = (Machine.readStrobe part s).1 :=
  hR.value _ _ _ (hR.line _ _ _ _ h)
    (notLost (fun x => stuck_closed.line _ _ _ (stuck_closed.sample _ _ x)) hl)

theorem writeByte (v : Byte) (s' s : State) (h : R s' s) : R (writeByte v s') (writeByte v s) := by
  unfold Machine.writeByte
  rw [hR.cfg _ _ h]
  split
  · exact hR.strobe _ _ (hR.drive _ _ _ (hR.dir _ _ _ h))
  · exact hR.strobe _ _ (hR.drive _ _ _ (hR.strobe _ _ (hR.drive _ _ _ (hR.dir _ _ _ h))))

theorem rawWrite (v : Byte) (s' s : State) (h : R s' s) : R (rawWrite v s') (rawWrite v s) := by
  unfold Machine.rawWrite
  rw [hR.cfg _ _ h]
  exact hR.strobe _ _ (hR.drive _ _ _ (hR.dir _ _ _ h))

theorem readByte (s' s : State) (h : R s' s) : R (readByte s').2 (readByte s).2 := by
  unfold Machine.readByte
  rw [hR.cfg _ _ h]
  split
  · exact hR.readStrobe _ _ _ h
  · exact hR.readStrobe _ _ _ (hR.readStrobe _ _ _ h)

theorem readByte_value (s' s : State) (h : R s' s) (hl : ¬ Lost esc (Machine.readByte s).2) :
    (Machine.readByte s').1 = (Machine.readByte s).1 := by
  unfold Machine.readByte at hl ⊢
  rw [hR.cfg _ _ h]
  cases hm : s.cfg.busMode with
  | bus8 =>
    simp only [hm] at hl ⊢
    exact hR.readStrobe_value _ _ _ h hl
  | bus4 =>
    simp only [hm] at hl ⊢
    rw [hR.readStrobe_value _ _ _ h (notLost (stuck_closed.readStrobe _ _) hl),
      hR.readStrobe_value _ _ _ (hR.readStrobe _ _ _ h) hl]

theorem busWrite (rs : Level) (v : Byte) (s' s : State) (h : R s' s) : R (busWrite rs v s') (busWrite rs v s) :=
  hR.writeByte v _ _ (hR.line _ _ _ _ (hR.line _ _ _ _ h))

theorem busRead (rs : Level) (s' s : State) (h : R s' s) : R (busRead rs s').2 (busRead rs s).2 :=
  hR.readByte _ _ (hR.line _ _ _ _ (hR.line _ _ _ _ (hR.dir _ _ _ h)))

theorem busRead_value (rs : Level) (s' s : State) (h : R s' s) (hl : ¬ Lost esc (Machine.busRead rs s).2) :
    (Machine.busRead rs s').1 = (Machine.busRead rs s).1 :=
  hR.readByte_value _ _ (hR.line _ _ _ _ (hR.line _ _ _ _ (hR.dir _ _ _ h))) hl

/-- The end of a micro-operation with a value. -/
theorem unlessStuck {α : Type} {a' a : α} {s' s : State} (h : R s' s) (hv : ¬ Lost esc s → a' = a) :
    (unlessStuck a' s').Alike esc R (unlessStuck a s) := by
  unfold Machine.unlessStuck
  by_cases hl : Lost esc s
  · rw [if_pos hl.2]; exact .inl hl
  · rw [hR.stuck _ _ h hl, hv hl]
    split
    · exact .inr ⟨_, rfl, hR.hang _ _ _ h⟩
    · exact ⟨hl, s', rfl, h⟩

theorem pollLoop (n : Nat) (s' s : State) (h : R s' s) : (pollLoop n s').Alike esc R (pollLoop n s) := by
  induction n generalizing s' s with
  | zero => exact .inr ⟨_, rfl, hR.hang _ _ _ h⟩
  | succ n ih =>
    refine Ran.Alike.bind (hR.unlessStuck (hR.busRead false _ _ h) (hR.busRead_value false _ _ h)) fun st t' t ht hl => ?_
    split
    · exact ih t' t ht
    · exact ⟨hl, t', rfl, ht⟩

theorem waitUntilReady (s' s : State) (h : R s' s) : (waitUntilReady s').Alike esc R (waitUntilReady s) := by
  by_cases hl : Lost esc s
  · rw [waitUntilReady_stuck hl.2]; exact .inl hl
  · unfold Machine.waitUntilReady pollBudget
    rw [hR.bits _ _ h hl]
    exact hR.pollLoop _ _ _ h

theorem send (rs : Level) (b : Byte) (s' s : State) (h : R s' s) :
    (Machine.waitUntilReady (Machine.statusRead (Machine.busWrite rs b s')).2).Alike esc R
      (Machine.waitUntilReady (Machine.statusRead (Machine.busWrite rs b s)).2) :=
  hR.waitUntilReady _ _ (hR.busRead false _ _ (hR.busWrite rs b _ _ h))

theorem sendCommand (b : Byte) (s' s : State) (h : R s' s) : (sendCommand b s').Alike esc R (sendCommand b s) :=
  hR.send false b _ _ h

theorem sendData (b : Byte) (s' s : State) (h : R s' s) : (sendData b s').Alike esc R (sendData b s) :=
  hR.send true b _ _ h

theorem storeAt (a : Addr7) (b : Byte) (s' s : State) (h : R s' s) : (storeAt a b s').Alike esc R (storeAt a b s) :=
  (hR.sendCommand _ _ _ h).bind fun _ t' t ht _ => hR.sendData b t' t ht

theorem readDataRam (a : Addr7) (s' s : State) (h : R s' s) : (readDataRam a s').Alike esc R (readDataRam a s) :=
  (hR.sendCommand _ _ _ h).bind fun _ _ _ ht _ => (hR.waitUntilReady _ _ ht).bind fun _ _ _ hu _ =>
    hR.unlessStuck (hR.busRead true _ _ hu) (hR.busRead_value true _ _ hu)

theorem atCell {α : Type} (x y : Nat) {s' s : State} {go' go : Addr7 → Ran α} (h : R s' s)
    (hg : ∀ a, resolve s.cfg x y = some a → (go' a).Alike esc R (go a)) :
    (atCell x y s' go').Alike esc R (atCell x y s go) := by
  unfold Machine.atCell
  rw [hR.cfg _ _ h]
  split
  · exact hg _ ‹_›
  · rfl

theorem copyUp (cell : Nat × Nat) (s' s : State) (h : R s' s) : (copyUp cell s').Alike esc R (copyUp cell s) :=
  hR.atCell _ _ h fun a _ => (hR.readDataRam a _ _ h).bind fun v _ _ ht _ =>
    hR.atCell _ _ ht fun b _ => hR.storeAt b v _ _ ht

theorem blankCell (cell : Nat × Nat) (s' s : State) (h : R s' s) : (blankCell cell s').Alike esc R (blankCell cell s) :=
  hR.atCell _ _ h fun a _ => hR.storeAt a _ _ _ h

/-- A scroll in related states. -/
theorem scrollUp (s' s : State) (h : R s' s) (hl : ¬ Lost esc s) : (scrollUp s').Alike esc R (scrollUp s) := by
  unfold Machine.scrollUp
  rw [hR.cfg _ _ h]
  split
  · exact ⟨hl, s', rfl, h⟩
  · refine (forEach_alike (fun c t' t ht _ => hR.copyUp c t' t ht) s' s h hl).bind fun _ t' t ht hl => ?_
    rw [hR.cfg _ _ ht]
    exact forEach_alike (fun c t' t ht _ => hR.blankCell c t' t ht) t' t ht hl

theorem defineGlyph (code : BitVec 3) (rows : List Byte) (s' s : State) (h : R s' s) :
    (defineGlyph code rows s').Alike esc R (defineGlyph code rows s) := by
  unfold Machine.defineGlyph readAddressCounter
  have h1 : R (statusRead s').2 (statusRead s).2 := hR.busRead false _ _ h
  by_cases hl : Lost esc (statusRead s).2
  · rw [waitUntilReady_stuck hl.2]; exact .inl hl
  · rw [show (statusRead s').1 = (statusRead s).1 from hR.busRead_value false _ _ h hl]
    exact (hR.waitUntilReady _ _ h1).bind fun _ _ _ ht _ => (hR.sendCommand _ _ _ ht).bind fun _ _ _ hu hul =>
      (forEach_alike (fun b _ _ hx _ => hR.sendData b _ _ hx) _ _ hu hul).bind fun _ _ _ hw _ =>
        (hR.waitUntilReady _ _ hw).bind fun _ _ _ hx _ => hR.sendCommand _ _ _ hx

end Alike

/-! ## A change that is not seen -/

/-- The same end, in a changed state. -/
def Ran.mapState {α : Type} (F : State → State) (r : Ran α) : Ran α :=
  match r with
  | .done a t => .done a (F t)
  | .hung t => .hung (F t)
  | .stop q => .stop q

/-- Alike for a change of the state, with no way out: the end is the changed end. -/
theorem Ran.Alike.map {α : Type} {R : State → State → Prop} {F : State → State} (hF : ∀ s' s, R s' s → s' = F s)
    {r' r : Ran α} (h : r'.Alike False R r) : r' = r.mapState F := by
  cases r with
  | done a t => obtain ⟨-, t', rfl, ht⟩ := h; rw [hF _ _ ht]; rfl
  | hung t => obtain ⟨t', rfl, ht⟩ := h.resolve_left (·.1); rw [hF _ _ ht]; rfl
  | stop q => exact h

theorem not_lost_false (s : State) : ¬ Lost False s := fun h => h.1

/-- The cursor registers are seen by no line operation (R214). -/
theorem cursor_alike (x y : Byte) : Alike False fun s' s => s' = s.setCursor x y where
  line n l s' s h := by
    rw [h]
    unfold setControlLine
    rw [show (s.setCursor x y).stuck = s.stuck from rfl]
    split
    · rfl
    · cases n with
      | rs => rfl
      | rw => rfl
      | e =>
        unfold commandLine State.strobed
        rw [show (s.setCursor x y).pins = s.pins from rfl]
        dsimp only
        split <;> (try split) <;> rfl
  dir d s' s h := by
    rw [h]; unfold setBusDirection; rw [show (s.setCursor x y).stuck = s.stuck from rfl]; split <;> rfl
  drive v s' s h := by rw [h]; unfold drive; rw [show (s.setCursor x y).stuck = s.stuck from rfl]; split <;> rfl
  sample part s' s h := by rw [h]; unfold sampleLines; rw [show (s.setCursor x y).stuck = s.stuck from rfl]; split <;> rfl
  value part s' s h _ := by rw [h]; unfold sampleLines; rw [show (s.setCursor x y).stuck = s.stuck from rfl]; split <;> rfl
  stuck s' s h _ := by rw [h]; rfl
  cfg s' s h := by rw [h]; rfl
  bits s' s h _ := by rw [h]; rfl
  hang k s' s h := by rw [h]; rfl

/-! ## The settle delays -/

/-- The state with another outcome of the coming settle delays. -/
def State.withSettle (q : Settles) (s : State) : State :=
  { s with env := { s.env with delays := { s.env.delays with settle := q } } }

/-- The state with another delay source. -/
def State.withDelays (d : Delays) (s : State) : State := { s with env := s.env.withDelays d }

theorem commandLine_withDelays (n : Line) (l : Level) (d : Delays) (s : State) :
    commandLine n l (s.withDelays d) = (commandLine n l s).withDelays d := by
  cases n with
  | rs => rfl
  | rw => rfl
  | e =>
    unfold commandLine State.strobed State.withDelays
    dsimp only
    split
    · split
      · simp only [(endRead_blind d s.pins.rs s.env).1]; rfl
      · simp only [show State.driven { s with env := s.env.withDelays d } = s.driven from rfl,
          (takeStrobe_blind d s.cfg s.pins.rs s.driven s.env).1]; rfl
    · rfl

/-- `s'` is `s` with every settle delay returning, or the engine of `s` is stuck. -/
def Settled (s' s : State) : Prop := s'.cfg = s.cfg ∧ (s.stuck = true ∨ s' = s.withSettle .all)

theorem withSettle_stuck (s : State) : (s.withSettle .all).stuck = false := by simp [State.stuck, State.withSettle]

theorem Settled.start (s : State) : Settled (s.withSettle .all) s := ⟨rfl, .inr rfl⟩

theorem sampleLines_withSettle {s : State} (part : Phase) (hs : s.stuck = false) :
    sampleLines part (s.withSettle .all) = ((sampleLines part s).1, (sampleLines part s).2.withSettle .all) := by
  unfold sampleLines
  rw [hs, withSettle_stuck]
  simp only [Bool.false_eq_true, if_false]
  have h := answer_blind { s.env.delays with settle := .all } s.cfg s.pins.rs part s.env
  rw [show (s.withSettle .all).env = s.env.withDelays { s.env.delays with settle := .all } from rfl,
    show (s.withSettle .all).cfg = s.cfg from rfl, show (s.withSettle .all).pins = s.pins from rfl, h.1]
  simp only [State.withSettle, Env.withDelays, State.emit, h.2]

theorem cfg_closed (s : State) : LineClosed fun t => t.cfg = s.cfg := lineClosed_of_apart fun _ _ _ _ h => h

/-- What an operation does that is not stuck in a settle delay, it does as if all of them returned (R262). -/
theorem settled_alike : Alike True Settled where
  line n l s' s h := by
    refine ⟨(cfg_closed s).line n l s' h.1 |>.trans ((cfg_closed s).line n l s rfl).symm, ?_⟩
    rcases h.2 with hs | rfl
    · exact .inl (stuck_closed.line n l s hs)
    · cases hs : s.stuck with
      | true => exact .inl (stuck_closed.line n l s hs)
      | false =>
        right
        rw [setControlLine_all n l rfl]
        unfold setControlLine
        rw [hs]
        simp only [Bool.false_eq_true, if_false]
        have := commandLine_withDelays n l { s.env.delays with settle := .all } s
        rw [show s.withSettle .all = s.withDelays { s.env.delays with settle := .all } from rfl, this]
        simp only [State.withSettle, State.withDelays, Env.withDelays, Env.settle, commandLine_delays]
  dir d s' s h := by
    refine ⟨(cfg_closed s).dir d s' h.1 |>.trans ((cfg_closed s).dir d s rfl).symm, ?_⟩
    cases hs : s.stuck with
    | true => exact .inl (stuck_closed.dir d s hs)
    | false =>
      obtain rfl := h.2.resolve_left (by simp [hs])
      unfold setBusDirection; rw [hs, withSettle_stuck]; exact .inr rfl
  drive v s' s h := by
    refine ⟨(cfg_closed s).drive v s' h.1 |>.trans ((cfg_closed s).drive v s rfl).symm, ?_⟩
    cases hs : s.stuck with
    | true => exact .inl (stuck_closed.drive v s hs)
    | false =>
      obtain rfl := h.2.resolve_left (by simp [hs])
      unfold drive; rw [hs, withSettle_stuck]; exact .inr rfl
  sample part s' s h := by
    refine ⟨(cfg_closed s).sample part s' h.1 |>.trans ((cfg_closed s).sample part s rfl).symm, ?_⟩
    cases hs : s.stuck with
    | true => exact .inl (stuck_closed.sample part s hs)
    | false =>
      obtain rfl := h.2.resolve_left (by simp [hs])
      right; rw [sampleLines_withSettle part hs]
  value part s' s h hl := by
    have hs : s.stuck = false := by simpa [Lost] using hl
    obtain rfl := h.2.resolve_left (by simp [hs])
    rw [sampleLines_withSettle part hs]
  stuck s' s h hl := by
    rcases h with ⟨hc, hs | rfl⟩
    · exact absurd ⟨trivial, hs⟩ hl
    · rw [withSettle_stuck]; symm; simpa [Lost] using hl
  cfg s' s h := h.1
  bits s' s h hl := by
    rcases h with ⟨hc, hs | rfl⟩
    · exact absurd ⟨trivial, hs⟩ hl
    · rfl
  hang k s' s h := by
    rcases h with ⟨hc, hs | rfl⟩
    · exact ⟨hc, .inl hs⟩
    · exact ⟨hc, .inr rfl⟩

/-! ## The controller -/

/-- `s'` is `s` with another value of what the model holds of an unconstrained controller. -/
def OtherCtl (k : Ctl) (s' s : State) : Prop :=
  s.env.peer = .unconstrained ∧ s' = { s with env := { s.env with ctl := k } }

theorem answer_unconstrained (c : Cfg) (rs : Level) (part : Phase) (k : Ctl) {v : Env} (hv : v.peer = .unconstrained) :
    ({ v with ctl := k } : Env).answer c rs part = ((v.answer c rs part).1, { (v.answer c rs part).2 with ctl := k }) ∧
      (v.answer c rs part).2.peer = .unconstrained := by
  have hd : ∀ w : Env, ({ w with ctl := k } : Env).draw = (w.draw.1, { w.draw.2 with ctl := k }) ∧
      w.draw.2.peer = w.peer := by
    intro w; simp only [Env.draw]; split <;> exact ⟨rfl, rfl⟩
  have hb : ({ v with ctl := k } : Env).drawBusy = (v.drawBusy.1, { v.drawBusy.2 with ctl := k }) ∧
      v.drawBusy.2.peer = v.peer := by
    simp only [Env.drawBusy]; split <;> exact ⟨rfl, rfl⟩
  have h1 : v.answer c rs part = v.freeLines rs part := by unfold Env.answer; rw [hv]
  have h2 : ({ v with ctl := k } : Env).answer c rs part = ({ v with ctl := k } : Env).freeLines rs part := by
    unfold Env.answer
    show (match v.peer with | _ => _) = _
    rw [hv]
  rw [h1, h2]
  unfold Env.freeLines
  split
  · exact ⟨(hd v).1, (hd v).2.trans hv⟩
  · exact ⟨by simp only [hb.1, (hd _).1], (hd _).2.trans (hb.2.trans hv)⟩

/-- What the model holds of an unconstrained controller is seen by no line operation (R60). -/
theorem controller_alike (k : Ctl) : Alike False (OtherCtl k) where
  line n l s' s h := by
    obtain ⟨hp, rfl⟩ := h
    have key : (commandLine n l s).env.peer = .unconstrained ∧
        commandLine n l { s with env := { s.env with ctl := k } } =
          { commandLine n l s with env := { (commandLine n l s).env with ctl := k } } := by
      cases n with
      | rs => exact ⟨hp, rfl⟩
      | rw => exact ⟨hp, rfl⟩
      | e =>
        have ht : ∀ (v : Env) rs o, v.peer = .unconstrained → v.takeStrobe s.cfg rs o = v ∧ v.endRead rs = v :=
          fun v rs o hv => by simp [Env.takeStrobe, Env.endRead, hv]
        unfold commandLine State.strobed
        dsimp only
        split
        · split
          · rw [(ht s.env _ none hp).2, (ht { s.env with ctl := k } _ none hp).2]; exact ⟨hp, rfl⟩
          · rw [(ht s.env _ _ hp).1, (ht { s.env with ctl := k } _ _ hp).1]; exact ⟨hp, rfl⟩
        · exact ⟨hp, rfl⟩
    unfold setControlLine
    rw [show State.stuck { s with env := { s.env with ctl := k } } = s.stuck from rfl]
    split
    · exact ⟨hp, rfl⟩
    · rw [key.2]; exact ⟨key.1, rfl⟩
  dir d s' s h := by
    obtain ⟨hp, rfl⟩ := h
    unfold setBusDirection
    rw [show State.stuck { s with env := { s.env with ctl := k } } = s.stuck from rfl]
    split <;> exact ⟨hp, rfl⟩
  drive v s' s h := by
    obtain ⟨hp, rfl⟩ := h
    unfold drive
    rw [show State.stuck { s with env := { s.env with ctl := k } } = s.stuck from rfl]
    split <;> exact ⟨hp, rfl⟩
  sample part s' s h := by
    obtain ⟨hp, rfl⟩ := h
    obtain ⟨h1, h2⟩ := answer_unconstrained s.cfg s.pins.rs part k hp
    unfold sampleLines
    rw [show State.stuck { s with env := { s.env with ctl := k } } = s.stuck from rfl]
    split
    · exact ⟨hp, rfl⟩
    · dsimp only; rw [h1]; exact ⟨h2, rfl⟩
  value part s' s h _ := by
    obtain ⟨hp, rfl⟩ := h
    obtain ⟨h1, h2⟩ := answer_unconstrained s.cfg s.pins.rs part k hp
    unfold sampleLines
    rw [show State.stuck { s with env := { s.env with ctl := k } } = s.stuck from rfl]
    split
    · rfl
    · dsimp only; rw [h1]
  stuck s' s h _ := by rw [h.2]; rfl
  cfg s' s h := by rw [h.2]
  bits s' s h _ := by rw [h.2]
  hang h' s' s h := ⟨h.1, by rw [h.2]⟩

end Sys2Proof.Machine
end

