-- ==== Sys2Proof/Laws/Mem.lean ====
section
/-!
SUPPORT. The laws of the controller's RAMs: read after write, and that every memory operation keeps the canonical form.
-/
namespace Sys2Proof.Machine

theorem Mem.above_iff (lo : Nat) (m : List Host.Cell) : Mem.above lo m = true ↔ ∀ cell ∈ m, lo < cell.1 := by
  simp [Mem.above]

theorem Mem.below_iff (n : Nat) (m : List Host.Cell) : Mem.below n m = true ↔ ∀ cell ∈ m, cell.1 < n := by
  simp [Mem.below]

theorem Mem.wf_cons (a : Nat) (b : Byte) (m : List Host.Cell) :
    Mem.wf ((a, b) :: m) = true ↔ b ≠ Mem.unlisted ∧ Mem.above a m = true ∧ Mem.wf m = true := by
  simp [Mem.wf, and_assoc]

theorem Mem.mem_erase {m : List Host.Cell} {k : Nat} {cell : Host.Cell} (h : cell ∈ Mem.erase m k) : cell ∈ m := by
  induction m with
  | nil => simp [Mem.erase] at h
  | cons e rest ih =>
    obtain ⟨a, b⟩ := e
    simp only [Mem.erase] at h
    split at h
    · exact List.mem_cons_of_mem _ h
    · rcases List.mem_cons.mp h with h | h
      · exact h ▸ List.mem_cons_self
      · exact List.mem_cons_of_mem _ (ih h)

theorem Mem.mem_insert {m : List Host.Cell} {k : Nat} {v : Byte} {cell : Host.Cell} (h : cell ∈ Mem.insert m k v) :
    cell = (k, v) ∨ cell ∈ m := by
  induction m with
  | nil => simpa [Mem.insert] using h
  | cons e rest ih =>
    obtain ⟨a, b⟩ := e
    simp only [Mem.insert] at h
    split at h
    · simpa using h
    · split at h
      · rcases List.mem_cons.mp h with h | h
        · exact .inl h
        · exact .inr (List.mem_cons_of_mem _ h)
      · rcases List.mem_cons.mp h with h | h
        · exact .inr (h ▸ List.mem_cons_self)
        · rcases ih h with h | h
          · exact .inl h
          · exact .inr (List.mem_cons_of_mem _ h)

theorem Mem.erase_wf (m : List Host.Cell) (k : Nat) (h : Mem.wf m = true) : Mem.wf (Mem.erase m k) = true := by
  induction m with
  | nil => rfl
  | cons e rest ih =>
    obtain ⟨a, b⟩ := e
    obtain ⟨hb, ha, hr⟩ := (Mem.wf_cons a b rest).mp h
    simp only [Mem.erase]
    split
    · exact hr
    · refine (Mem.wf_cons _ _ _).mpr ⟨hb, ?_, ih hr⟩
      rw [Mem.above_iff] at ha ⊢
      exact fun cell hc => ha cell (Mem.mem_erase hc)

theorem Mem.insert_wf (m : List Host.Cell) (k : Nat) (v : Byte) (hv : v ≠ Mem.unlisted) (h : Mem.wf m = true) :
    Mem.wf (Mem.insert m k v) = true := by
  induction m with
  | nil => simp [Mem.insert, Mem.wf, Mem.above, hv]
  | cons e rest ih =>
    obtain ⟨a, b⟩ := e
    obtain ⟨hb, ha, hr⟩ := (Mem.wf_cons a b rest).mp h
    rw [Mem.above_iff] at ha
    simp only [Mem.insert]
    split
    · rename_i hk
      refine (Mem.wf_cons _ _ _).mpr ⟨hv, ?_, h⟩
      rw [Mem.above_iff]
      intro cell hc
      rcases List.mem_cons.mp hc with hc | hc
      · subst hc; exact hk
      · exact lt_trans hk (ha cell hc)
    · split
      · rename_i hk
        subst hk
        exact (Mem.wf_cons _ _ _).mpr ⟨hv, by rw [Mem.above_iff]; exact ha, hr⟩
      · refine (Mem.wf_cons _ _ _).mpr ⟨hb, ?_, ih hr⟩
        rw [Mem.above_iff]
        intro cell hc
        rcases Mem.mem_insert hc with hc | hc
        · subst hc; simp only; omega
        · exact ha cell hc

/-- A store keeps the canonical form. -/
theorem Mem.write_wf (m : List Host.Cell) (k : Nat) (v : Byte) (h : Mem.wf m = true) : Mem.wf (Mem.write m k v) = true := by
  unfold Mem.write
  split
  · exact Mem.erase_wf m k h
  · exact Mem.insert_wf m k v ‹_› h

/-- A store below a bound keeps every address below it. -/
theorem Mem.write_below (n : Nat) (m : List Host.Cell) (k : Nat) (v : Byte) (hk : k < n) (h : Mem.below n m = true) :
    Mem.below n (Mem.write m k v) = true := by
  rw [Mem.below_iff] at h ⊢
  intro cell hc
  unfold Mem.write at hc
  split at hc
  · exact h cell (Mem.mem_erase hc)
  · rcases Mem.mem_insert hc with hc | hc
    · subst hc; exact hk
    · exact h cell hc

theorem Mem.read_above (m : List Host.Cell) (k : Nat) (h : Mem.above k m = true) : Mem.read m k = Mem.unlisted := by
  induction m with
  | nil => rfl
  | cons e rest ih =>
    obtain ⟨a, b⟩ := e
    simp only [Mem.above, List.all_cons, Bool.and_eq_true, decide_eq_true_eq] at h
    simp only [Mem.read, if_neg (Nat.ne_of_gt h.1)]
    exact ih h.2

theorem Mem.read_erase (m : List Host.Cell) (k j : Nat) (h : Mem.wf m = true) :
    Mem.read (Mem.erase m k) j = if j = k then Mem.unlisted else Mem.read m j := by
  induction m with
  | nil => simp [Mem.erase, Mem.read]
  | cons e rest ih =>
    obtain ⟨a, b⟩ := e
    obtain ⟨-, ha, hr⟩ := (Mem.wf_cons a b rest).mp h
    simp only [Mem.erase]
    by_cases hak : a = k
    · subst hak
      rw [if_pos rfl]
      by_cases hj : j = a
      · subst hj; rw [if_pos rfl, Mem.read_above _ _ ha]
      · simp [Mem.read, hj, Ne.symm hj]
    · rw [if_neg hak]
      simp only [Mem.read, ih hr]
      by_cases haj : a = j
      · subst haj; simp [hak]
      · simp [haj]

theorem Mem.read_insert (m : List Host.Cell) (k j : Nat) (v : Byte) :
    Mem.read (Mem.insert m k v) j = if j = k then v else Mem.read m j := by
  induction m with
  | nil => by_cases h : k = j <;> simp [Mem.insert, Mem.read, h, eq_comm]
  | cons e rest ih =>
    obtain ⟨a, b⟩ := e
    simp only [Mem.insert]
    split
    · by_cases h : k = j
      · simp [Mem.read, h]
      · simp [Mem.read, h, Ne.symm h]
    · split
      · rename_i hk
        subst hk
        by_cases h : a = j
        · simp [Mem.read, h]
        · simp [Mem.read, h, Ne.symm h]
      · simp only [Mem.read, ih]
        by_cases haj : a = j
        · subst haj; simp [*]
        · simp [haj]

/-- Read after write: the byte written at its address, the old byte at every other. -/
theorem Mem.read_write (m : List Host.Cell) (k j : Nat) (v : Byte) (h : Mem.wf m = true) :
    Mem.read (Mem.write m k v) j = if j = k then v else Mem.read m j := by
  unfold Mem.write
  split
  · rename_i hv; rw [Mem.read_erase m k j h, hv]
  · exact Mem.read_insert m k j v

theorem Mem.write_read_same (m : List Host.Cell) (k : Nat) (v : Byte) (h : Mem.wf m = true) :
    Mem.read (Mem.write m k v) k = v := by
  rw [Mem.read_write m k k v h, if_pos rfl]

theorem Mem.write_read_other (m : List Host.Cell) (k j : Nat) (v : Byte) (h : Mem.wf m = true) (hj : j ≠ k) :
    Mem.read (Mem.write m k v) j = Mem.read m j := by
  rw [Mem.read_write m k j v h, if_neg hj]

end Sys2Proof.Machine
end

