-- ==== Sys2Proof/Laws/Frame.lean ====
section
/-!
SUPPORT. What every transaction keeps: the frame of the event history (41_bus_transfer.md R144), the controller's RAMs in
canonical form (20_memory.md R53, R54), the configuration.
-/
namespace Sys2Proof.Machine

/-- Replaying a history in two parts. -/
theorem replay_append (m : BusMode) (p : Bench) (a b : List Event) :
    p.replay m (a ++ b) = (p.replay m a).bind fun q => q.replay m b := by
  induction a generalizing p with
  | nil => rfl
  | cons ev a ih =>
    simp only [List.cons_append, Bench.replay]
    cases p.see m ev with
    | none => rfl
    | some q => simp [ih]

/-- The history is well framed up to the point `p`, where the lines are as the pin latches have them. -/
def At (p : Bench) (s : State) : Prop :=
  Bench.reset.replay s.cfg.busMode s.hist = some p ∧ p.rs = s.pins.rs ∧ p.rw = s.pins.rw ∧ p.e = s.pins.e ∧
    p.dir = s.pins.dir

/-- The history is well framed, up to the point `p` unless a settle delay held the engine before it. -/
def Upto (m : BusMode) (p : Bench) (s : State) : Prop :=
  s.cfg.busMode = m ∧ (At p s ∨ (s.stuck = true ∧ ∃ q, At q s))

/-- One event more. -/
theorem At.step {p q : Bench} {s t : State} {ev : Event} (h : At p s) (hc : t.cfg = s.cfg) (hh : t.hist = s.hist ++ [ev])
    (hs : p.see s.cfg.busMode ev = some q)
    (hq : q.rs = t.pins.rs ∧ q.rw = t.pins.rw ∧ q.e = t.pins.e ∧ q.dir = t.pins.dir) : At q t := by
  refine ⟨?_, hq⟩
  rw [hc, hh, replay_append, h.1]
  simp [Bench.replay, hs]

theorem Upto.line {m : BusMode} {p q : Bench} {s : State} (h : Upto m p s) (n : Line) (l : Level)
    (hs : p.see m (.ctl n l) = some q) : Upto m q (setControlLine n l s) := by
  obtain ⟨rfl, h⟩ := h
  cases hst : s.stuck with
  | true =>
    unfold setControlLine
    rw [if_pos hst]
    exact ⟨rfl, .inr ⟨hst, h.elim (fun x => ⟨p, x⟩) And.right⟩⟩
  | false =>
    have h := h.resolve_right (by simp [hst])
    have keep : (setControlLine n l s).cfg = s.cfg ∧ (setControlLine n l s).hist = s.hist ++ [.ctl n l] ∧
        (setControlLine n l s).pins = (commandLine n l s).pins := by
      unfold setControlLine
      rw [hst]
      cases n with
      | rs => exact ⟨rfl, rfl, rfl⟩
      | rw => exact ⟨rfl, rfl, rfl⟩
      | e =>
        simp only [Bool.false_eq_true, if_false, and_true]
        unfold commandLine
        dsimp only
        split
        · unfold State.strobed; split <;> exact ⟨rfl, rfl⟩
        · exact ⟨rfl, rfl⟩
    obtain ⟨k1, k2, k3⟩ := keep
    refine ⟨by rw [k1], .inl (h.step k1 k2 hs ?_)⟩
    obtain ⟨-, h1, h2, h3, h4⟩ := h
    rw [k3]
    cases n with
    | rs =>
      simp only [Bench.see] at hs
      split at hs
      · cases hs
      · cases hs; exact ⟨rfl, h2, h3, h4⟩
    | rw =>
      simp only [Bench.see] at hs
      split at hs
      · cases hs
      · cases hs; exact ⟨h1, rfl, h3, h4⟩
    | e =>
      have he : (commandLine .e l s).pins = { s.pins with e := l } := by unfold commandLine; dsimp only; split <;> rfl
      rw [he]
      simp only [Bench.see] at hs
      cases l with
      | true =>
        simp only [if_true] at hs
        split at hs
        · cases hs
        · cases hs; exact ⟨h1, h2, rfl, h4⟩
      | false =>
        simp only [Bool.false_eq_true, if_false] at hs
        split at hs
        · cases hs; exact ⟨h1, h2, rfl, h4⟩
        · cases hs

theorem Upto.dir {m : BusMode} {p q : Bench} {s : State} (h : Upto m p s) (d : Dir)
    (hs : p.see m (.dir d) = some q) : Upto m q (setBusDirection d s) := by
  obtain ⟨rfl, h⟩ := h
  unfold setBusDirection
  cases hst : s.stuck with
  | true => exact ⟨rfl, .inr ⟨hst, h.elim (fun x => ⟨p, x⟩) And.right⟩⟩
  | false =>
    have h := h.resolve_right (by simp [hst])
    refine ⟨rfl, .inl (h.step rfl rfl hs ?_)⟩
    obtain ⟨-, h1, h2, h3, h4⟩ := h
    simp only [Bench.see] at hs
    split at hs
    · cases hs
    · cases hs; exact ⟨h1, h2, h3, rfl⟩

theorem Upto.drive {m : BusMode} {p q : Bench} {s : State} (h : Upto m p s) (v : Lines)
    (hs : p.see m (.drive v) = some q) : Upto m q (drive v s) := by
  obtain ⟨rfl, h⟩ := h
  unfold Machine.drive
  cases hst : s.stuck with
  | true => exact ⟨rfl, .inr ⟨hst, h.elim (fun x => ⟨p, x⟩) And.right⟩⟩
  | false =>
    have h := h.resolve_right (by simp [hst])
    refine ⟨rfl, .inl (h.step rfl rfl hs ?_)⟩
    obtain ⟨-, h1, h2, h3, h4⟩ := h
    simp only [Bench.see] at hs
    split at hs
    · cases hs; exact ⟨h1, h2, h3, h4⟩
    · cases hs

/-- Whatever is sampled. -/
theorem Upto.sample {m : BusMode} {p q : Bench} {s : State} (h : Upto m p s)
    (part : Phase) (hs : ∀ b, p.see m (.sample (linesOf m b)) = some q) : Upto m q (sampleLines part s).2 := by
  obtain ⟨rfl, h⟩ := h
  unfold sampleLines
  cases hst : s.stuck with
  | true => exact ⟨rfl, .inr ⟨hst, h.elim (fun x => ⟨p, x⟩) And.right⟩⟩
  | false =>
    have h := h.resolve_right (by simp [hst])
    have hs := hs (s.env.answer s.cfg s.pins.rs part).1
    refine ⟨rfl, .inl (h.step rfl rfl hs ?_)⟩
    obtain ⟨-, h1, h2, h3, h4⟩ := h
    simp only [Bench.see] at hs
    split at hs
    · cases hs; exact ⟨h1, h2, h3, h4⟩
    · cases hs

/-- A framed write is well framed from any point with E = 0 (R141, R144). -/
theorem Upto.busWrite {m : BusMode} {p : Bench} {s : State} (h : Upto m p s) (hp : p.e = false) (rs : Level) (v : Byte) :
    ∃ q, Upto m q (busWrite rs v s) ∧ q.e = false := by
  obtain ⟨r, w, e, d, f, g⟩ := p
  obtain rfl : e = false := hp
  have hm := h.1
  have h := (h.line .rs rs rfl).line .rw false rfl
  unfold Machine.busWrite writeByte strobe
  rw [(cfg_closed s).line .rw false _ ((cfg_closed s).line .rs rs s rfl), hm]
  cases m with
  | bus8 => exact ⟨_, (((h.dir .output rfl).drive _ rfl).line .e true rfl).line .e false rfl, rfl⟩
  | bus4 =>
    exact ⟨_, ((((((h.dir .output rfl).drive _ rfl).line .e true rfl).line .e false rfl).drive _ rfl).line .e true
      rfl).line .e false rfl, rfl⟩

/-- A framed read is well framed from any point with E = 0 (R142, R144). -/
theorem Upto.busRead {m : BusMode} {p : Bench} {s : State} (h : Upto m p s) (hp : p.e = false) (rs : Level) :
    ∃ q, Upto m q (busRead rs s).2 ∧ q.e = false := by
  obtain ⟨r, w, e, d, f, g⟩ := p
  obtain rfl : e = false := hp
  have hm := h.1
  have h := ((h.dir .input (q := ⟨r, w, false, .input, false, g⟩) (by cases w <;> rfl)).line .rs rs rfl).line .rw true rfl
  unfold Machine.busRead readByte readStrobe
  rw [(cfg_closed s).line .rw true _ ((cfg_closed s).line .rs rs _ ((cfg_closed s).dir .input s rfl)), hm]
  cases m with
  | bus8 => exact ⟨_, ((h.line .e true rfl).sample .hi fun _ => rfl).line .e false rfl, rfl⟩
  | bus4 =>
    exact ⟨_, ((((((h.line .e true rfl).sample .hi fun _ => rfl).line .e false rfl).line .e true rfl).sample .lo
      fun _ => rfl).line .e false rfl), rfl⟩

/-- The bootstrap's first lines and its transfers (R231, R232), from a point with E = 0, the transfers with RW = 0. -/
theorem Upto.force {m : BusMode} {p : Bench} {s : State} (h : Upto m p s) (hp : p.e = false) :
    ∃ q, Upto m q (forceWriteMode s) ∧ q.e = false ∧ q.rw = false := by
  obtain ⟨r, w, e, d, f, g⟩ := p
  obtain rfl : e = false := hp
  exact ⟨_, ((((h.dir .input (q := ⟨r, w, false, .input, false, g⟩) (by cases w <;> rfl)).line .rw true rfl).line .rw false
    rfl).dir .output rfl).line .rs false rfl, rfl, rfl⟩

theorem Upto.rawWrite {m : BusMode} {p : Bench} {s : State} (h : Upto m p s) (hp : p.e = false ∧ p.rw = false) (v : Byte) :
    ∃ q, Upto m q (rawWrite v s) ∧ q.e = false ∧ q.rw = false := by
  obtain ⟨r, w, e, d, f, g⟩ := p
  obtain ⟨rfl, rfl⟩ : e = false ∧ w = false := hp
  have hm := h.1
  unfold Machine.rawWrite strobe
  rw [hm]
  cases m <;> exact ⟨_, (((h.dir .output rfl).drive _ rfl).line .e true rfl).line .e false rfl, rfl, rfl⟩

theorem Upto.writeByte {m : BusMode} {p : Bench} {s : State} (h : Upto m p s) (hp : p.e = false ∧ p.rw = false) (v : Byte) :
    ∃ q, Upto m q (writeByte v s) ∧ q.e = false ∧ q.rw = false := by
  obtain ⟨r, w, e, d, f, g⟩ := p
  obtain ⟨rfl, rfl⟩ : e = false ∧ w = false := hp
  have hm := h.1
  unfold Machine.writeByte strobe
  rw [hm]
  cases m with
  | bus8 => exact ⟨_, (((h.dir .output rfl).drive _ rfl).line .e true rfl).line .e false rfl, rfl, rfl⟩
  | bus4 =>
    exact ⟨_, ((((((h.dir .output rfl).drive _ rfl).line .e true rfl).line .e false rfl).drive _ rfl).line .e true
      rfl).line .e false rfl, rfl, rfl⟩

/-- `framed` as a fact. -/
theorem framed_iff (s : State) : s.framed = true ↔ ∃ p, At p s ∧ (s.stuck = true ∨ p.e = false) := by
  unfold State.framed At
  cases h : Bench.reset.replay s.cfg.busMode s.hist with
  | none => simp
  | some p => simp [and_assoc]

/-- A well framed history, seen from a point with E = 0; with RW = 0 too, where the latch is so. -/
theorem framed_upto {s : State} (h : s.framed = true) (w : Level) (hw : s.stuck = true ∨ s.pins.rw = w) :
    ∃ p, Upto s.cfg.busMode p s ∧ p.e = false ∧ p.rw = w := by
  obtain ⟨p, hp, he⟩ := (framed_iff s).1 h
  cases hs : s.stuck with
  | true => exact ⟨{ p with e := false, rw := w }, ⟨rfl, .inr ⟨hs, p, hp⟩⟩, rfl, rfl⟩
  | false => exact ⟨p, ⟨rfl, .inl hp⟩, by simpa [hs] using he, by simpa [hs, hp.2.2.1] using hw⟩

theorem Upto.framed {m : BusMode} {p : Bench} {s : State} (h : Upto m p s) (he : p.e = false) : s.framed = true :=
  (framed_iff s).2 (h.2.elim (fun x => ⟨p, x, .inr he⟩) fun ⟨hs, q, hq⟩ => ⟨q, hq, .inl hs⟩)

theorem Upto.rw {m : BusMode} {p : Bench} {s : State} (h : Upto m p s) : s.stuck = true ∨ s.pins.rw = p.rw :=
  h.2.elim (fun x => .inr x.2.2.1.symm) fun x => .inl x.1

/-! ## The controller's RAMs -/
/-- A command keeps the RAMs in their form. -/
theorem command_memOk (c : Cfg) (b : Byte) (v : Env) (h : v.ctl.memOk = true) : (v.command c b).ctl.memOk = true := by
  unfold Env.command
  obtain ⟨t, ht⟩ := v.draw_eq
  split_ifs
  case pos => exact h
  case pos => exact h
  case pos => exact h
  case pos => rw [ht]; exact h
  case pos => exact h
  case pos => exact h
  case pos => exact h
  case pos => simp only [Ctl.memOk, Bool.and_eq_true] at h ⊢; exact ⟨⟨⟨rfl, rfl⟩, h.1.2⟩, h.2⟩
  exact h

/-- A data byte keeps the RAMs in their form. -/
theorem dataWrite_memOk (b : Byte) (k : Ctl) (h : k.memOk = true) : (k.dataWrite b).memOk = true := by
  simp only [Ctl.memOk, Bool.and_eq_true] at h ⊢
  obtain ⟨⟨⟨h1, h2⟩, h3⟩, h4⟩ := h
  unfold Ctl.dataWrite
  split
  · exact ⟨⟨⟨h1, h2⟩, Mem.write_wf _ _ _ h3⟩, Mem.write_below _ _ _ _ (BitVec.isLt (k.ac.extractLsb' 0 6)) h4⟩
  · split
    · exact ⟨⟨⟨Mem.write_wf _ _ _ h1, Mem.write_below _ _ _ _ (BitVec.isLt k.ac) h2⟩, h3⟩, h4⟩
    · exact ⟨⟨⟨h1, h2⟩, h3⟩, h4⟩

theorem takeByte_memOk (c : Cfg) (rs : Level) (b : Byte) (v : Env) (h : v.ctl.memOk = true) :
    (v.takeByte c rs b).ctl.memOk = true := by
  unfold Env.takeByte
  split
  · exact dataWrite_memOk b v.ctl h
  · exact command_memOk c b v h

theorem draw_memOk (v : Env) (h : v.ctl.memOk = true) : v.draw.2.ctl.memOk = true := by
  obtain ⟨t, ht⟩ := v.draw_eq; rw [ht]; exact h

theorem takeStrobe_memOk (c : Cfg) (rs : Level) (l : Option Lines) (v : Env) (h : v.ctl.memOk = true) :
    (v.takeStrobe c rs l).ctl.memOk = true := by
  have hb : (v.seenByte l).2.ctl.memOk = true := by unfold Env.seenByte; split; exacts [h, draw_memOk v h, draw_memOk v h]
  have hn : (v.seenNibble l).2.ctl.memOk = true := by unfold Env.seenNibble; split; exacts [h, h, draw_memOk v h]
  unfold Env.takeStrobe
  split
  · exact h
  · split
    · exact takeByte_memOk c rs _ _ hb
    · split
      · exact hn
      · exact takeByte_memOk c rs _ _ hn

theorem written_memOk (c : Cfg) (rs : Level) (b : Byte) (v : Env) (h : v.ctl.memOk = true) :
    (v.written c rs b).ctl.memOk = true := by
  unfold Env.written
  split
  · exact takeStrobe_memOk c rs _ v h
  · exact takeStrobe_memOk c rs _ _ (takeStrobe_memOk c rs _ v h)

/-- All a read strobe can change. -/
theorem answer_kept (c : Cfg) (rs : Level) (part : Phase) (v : Env) : (v.answer c rs part).2.ctl.ddram = v.ctl.ddram ∧
    (v.answer c rs part).2.ctl.cgram = v.ctl.cgram ∧ (v.answer c rs part).2.settled = v.settled ∧
    (v.answer c rs part).2.peer = v.peer := by
  cases rs with
  | false =>
    obtain ⟨_, _, _, _, _, h⟩ := v.answer_status_change c part
    rw [h]; exact ⟨rfl, rfl, rfl, rfl⟩
  | true =>
    have hd : ∀ w : Env, w.draw.2.ctl = w.ctl ∧ w.draw.2.settled = w.settled ∧ w.draw.2.peer = w.peer :=
        by intro w; obtain ⟨t, ht⟩ := w.draw_eq; simp [ht]
    have hp : ∀ (w : Env) m n, (w.padLines m n).2.ctl = w.ctl ∧ (w.padLines m n).2.settled = w.settled ∧
        (w.padLines m n).2.peer = w.peer := by
      intro w m n; cases m; exacts [⟨rfl, rfl, rfl⟩, hd w]
    have hdd : v.dataOrDraw.2.ctl = v.ctl ∧ v.dataOrDraw.2.settled = v.settled ∧ v.dataOrDraw.2.peer = v.peer := by
      unfold Env.dataOrDraw; split; exacts [⟨rfl, rfl, rfl⟩, hd v]
    have key : (v.answer c true part).2.ctl = v.ctl ∧ (v.answer c true part).2.settled = v.settled ∧
        (v.answer c true part).2.peer = v.peer := by
      unfold Env.answer
      split
      · exact hd v
      · simp only [if_true]
        unfold Env.driveData
        split
        · exact hdd
        · split
          · obtain ⟨a, b, e⟩ := hp v.dataOrDraw.2 c.busMode (hiNibble v.dataOrDraw.1); exact ⟨a.trans hdd.1,
                b.trans hdd.2.1, e.trans hdd.2.2⟩
          · obtain ⟨a, b, e⟩ := hp v.dataOrDraw.2 c.busMode (loNibble v.dataOrDraw.1); exact ⟨a.trans hdd.1,
                b.trans hdd.2.1, e.trans hdd.2.2⟩
    rw [key.1]; exact ⟨rfl, rfl, key.2⟩

theorem endRead_kept (rs : Level) (w : Env) : (w.endRead rs).ctl.ddram = w.ctl.ddram ∧
    (w.endRead rs).ctl.cgram = w.ctl.cgram ∧ (w.endRead rs).settled = w.settled ∧ (w.endRead rs).peer = w.peer := by
  unfold Env.endRead
  split
  · exact ⟨rfl, rfl, rfl, rfl⟩
  · split
    · exact ⟨rfl, rfl, rfl, rfl⟩
    · split <;> exact ⟨rfl, rfl, rfl, rfl⟩

theorem readStrobe_kept (c : Cfg) (rs : Level) (part : Phase) (v : Env) :
    (v.readStrobe c rs part).2.ctl.ddram = v.ctl.ddram ∧ (v.readStrobe c rs part).2.ctl.cgram = v.ctl.cgram ∧
    (v.readStrobe c rs part).2.settled = v.settled ∧ (v.readStrobe c rs part).2.peer = v.peer := by
  obtain ⟨h1, h2, h3, h4⟩ := answer_kept c rs part v
  obtain ⟨e1, e2, e3, e4⟩ := endRead_kept rs (v.answer c rs part).2
  exact ⟨e1.trans h1, e2.trans h2, e3.trans h3, e4.trans h4⟩

/-- A read changes no RAM, whoever answers. -/
theorem readOut_kept (c : Cfg) (rs : Level) (v : Env) : (v.readOut c rs).2.ctl.ddram = v.ctl.ddram ∧
    (v.readOut c rs).2.ctl.cgram = v.ctl.cgram ∧ (v.readOut c rs).2.settled = v.settled ∧
    (v.readOut c rs).2.peer = v.peer := by
  unfold Env.readOut
  split
  · exact readStrobe_kept c rs .hi v
  · obtain ⟨a, b, e, f⟩ := readStrobe_kept c rs .hi v
    obtain ⟨a', b', e', f'⟩ := readStrobe_kept c rs .lo (v.readStrobe c rs .hi).2
    exact ⟨a'.trans a, b'.trans b, e'.trans e, f'.trans f⟩

/-- The invariant but for the cursor and the busy flag. -/
def Core (c : Cfg) (s : State) : Prop := s.cfg = c ∧ s.framed = true ∧ s.env.ctl.memOk = true ∧ (s.inited = true →
    s.env.settled = true)

/-- The line operations keep the parts of `Core` that are not the frame. -/
theorem tame_closed (c : Cfg) : LineClosed fun s => s.cfg = c ∧ s.env.ctl.memOk = true ∧ (s.inited = true →
    s.env.settled = true) where
  line n l s h := by
    unfold setControlLine
    split
    · exact h
    · cases n with
      | rs => exact h
      | rw => exact h
      | e =>
        unfold commandLine State.strobed
        dsimp only
        split
        · split
          · obtain ⟨e1, e2, e3, -⟩ := endRead_kept s.pins.rs s.env
            exact ⟨h.1, by simpa [Ctl.memOk, Env.settle, State.emit, e1, e2] using h.2.1, fun hi => e3.trans (h.2.2 hi)⟩
          · exact ⟨h.1, takeStrobe_memOk _ _ _ _ h.2.1, fun hi => (Env.takeStrobe_kept _ _ _ _).1.trans (h.2.2 hi)⟩
        · exact h
  dir d s h := by unfold setBusDirection; split <;> exact h
  drive v s h := by unfold drive; split <;> exact h
  sample part s h := by
    unfold sampleLines
    split
    · exact h
    · obtain ⟨e1, e2, e3, -⟩ := answer_kept s.cfg s.pins.rs part s.env
      exact ⟨h.1, by simpa [Ctl.memOk, State.emit, e1, e2] using h.2.1, fun hi => e3.trans (h.2.2 hi)⟩

/-- The transactions keep `Core`. -/
theorem core_closed (c : Cfg) : Closed (Core c) := by
  constructor
  · rintro rs b s ⟨h1, h2, h3⟩
    obtain ⟨p, hp, he, -⟩ := framed_upto h2 _ (.inr rfl)
    obtain ⟨q, hq, hqe⟩ := hp.busWrite he rs b
    obtain ⟨g1, g2⟩ := (tame_closed c).busWrite rs b s ⟨h1, h3⟩
    exact ⟨g1, hq.framed hqe, g2⟩
  · rintro rs s ⟨h1, h2, h3⟩
    obtain ⟨p, hp, he, -⟩ := framed_upto h2 _ (.inr rfl)
    obtain ⟨q, hq, hqe⟩ := hp.busRead he rs
    obtain ⟨g1, g2⟩ := (tame_closed c).busRead rs s ⟨h1, h3⟩
    exact ⟨g1, hq.framed hqe, g2⟩

/-- INIT's bootstrap keeps `Core`. -/
theorem core_boot (c : Cfg) : ClosedBoot (Core c) (fun s => Core c s ∧ (s.stuck = true ∨ s.pins.rw = false)) where
  toClosed := core_closed c
  force s h := by
    obtain ⟨h1, h2, h3⟩ := h
    obtain ⟨p, hp, he, -⟩ := framed_upto h2 _ (.inr rfl)
    obtain ⟨q, hq, hqe, hqw⟩ := hp.force he
    have tc := tame_closed c
    obtain ⟨g1, g2⟩ := tc.line .rs false _ (tc.dir .output _ (tc.line .rw false _ (tc.line .rw true _ (tc.dir .input s ⟨h1, h3⟩))))
    exact ⟨⟨g1, hq.framed hqe, g2⟩, hqw ▸ hq.rw⟩
  raw b s h := by
    obtain ⟨⟨h1, h2, h3⟩, hw⟩ := h
    obtain ⟨p, hp, he⟩ := framed_upto h2 false hw
    obtain ⟨q, hq, hqe, hqw⟩ := hp.rawWrite he b
    obtain ⟨g1, g2⟩ := (tame_closed c).rawWrite b s ⟨h1, h3⟩
    exact ⟨⟨g1, hq.framed hqe, g2⟩, hqw ▸ hq.rw⟩
  byte b s h := by
    obtain ⟨⟨h1, h2, h3⟩, hw⟩ := h
    obtain ⟨p, hp, he⟩ := framed_upto h2 false hw
    obtain ⟨q, hq, hqe, hqw⟩ := hp.writeByte he b
    obtain ⟨g1, g2⟩ := (tame_closed c).writeByte b s ⟨h1, h3⟩
    exact ⟨⟨g1, hq.framed hqe, g2⟩, hqw ▸ hq.rw⟩
  delayed ms v s hv hs h := by
    obtain ⟨⟨h1, h2, h3, h4⟩, hw⟩ := h
    have hk : v.ctl = s.env.ctl ∧ v.settled = s.env.settled := by
      unfold Env.delay at hv; split at hv <;> cases hv <;> exact ⟨rfl, rfl⟩
    obtain ⟨p, hp, he⟩ := (framed_iff s).1 h2
    have he : p.e = false := by simpa [hs] using he
    have hat : At p ({ s with env := v }.emit (.delayMs ms)) :=
      hp.step rfl rfl (by simp [Bench.see, he]) hp.2
    refine ⟨⟨h1, (framed_iff _).2 ⟨p, hat, .inr he⟩, by simpa [hk] using h3, fun hi => hk.2.trans (h4 hi)⟩, ?_⟩
    exact .inr (by simpa [hs] using hw)
  leave s h := h.1
  settled s h := ⟨h.1.1, h.1.2.1, h.1.2.2.1, fun _ => rfl⟩
  inited s h hs := ⟨h.1, h.2.1, h.2.2.1, fun _ => hs⟩

/-- The invariant is `Core`, the resting cursor, a hang exactly while busy, and that hang which it is. -/
theorem inv_iff (s : State) : s.inv = true ↔ Core s.cfg s ∧ s.cursorOk = true ∧ s.busyOp = s.hang.isSome ∧
    s.stuck = decide (s.hang = some .settle) := by
  simp only [State.inv, Bool.and_eq_true, Core, decide_eq_true_eq]
  constructor
  · rintro ⟨⟨⟨⟨⟨a, b⟩, d⟩, e⟩, f⟩, g⟩
    refine ⟨⟨by trivial, b, d, fun hi => by simpa [hi] using f⟩, a, e, g⟩
  · rintro ⟨⟨-, b, d, f⟩, a, e, g⟩
    refine ⟨⟨⟨⟨⟨a, b⟩, d⟩, e⟩, ?_⟩, g⟩
    cases hi : s.inited <;> simp_all

end Sys2Proof.Machine
end

