-- ==== Sys2Proof/Laws/Scroll.lean ====
section
/-!
SUPPORT. Loops of cell accesses, and ScrollUp (46_scroll.md R210 to R214): its events, and what it does to the display.
-/
namespace Sys2Proof.Machine

/-- A loop whose every round completes (R14 `for`). -/
theorem forEach_done {α : Type} {body : α → State → Ran Unit} {stp : α → List Event → Prop} (J : List α → State → Prop)
    (items : List α) (pre : List α)
    (hb : ∀ p i q, pre ++ items = p ++ i :: q → ∀ s, J p s → ∃ t evs, body i s = .done () t ∧ stp i evs ∧
      Completed s t s.cx s.cy (idlePins t.pins.dout) evs [] ∧ J (p ++ [i]) t)
    (s : State) (hJ : J pre s) :
    ∃ t evs, forEach items body s = .done () t ∧ EventsOf stp items evs ∧ Completed s t s.cx s.cy t.pins evs [] ∧
        J (pre ++ items) t ∧
      (items = [] → t = s) ∧ (items ≠ [] → t.pins = idlePins t.pins.dout) := by
  induction items generalizing pre s with
  | nil => exact ⟨s, [], rfl, rfl, ⟨by simp, EnvKept.refl _⟩, by simpa using hJ, fun _ => rfl, fun h => absurd rfl h⟩
  | cons i rest ih =>
    obtain ⟨t, e, h1, h2, h3, h4⟩ := hb pre i rest rfl s hJ
    obtain ⟨u, f, g1, g2, g3, g4, g5, g6⟩ := ih (pre ++ [i]) (fun p j q hp => hb p j q (by simpa using hp)) t h4
    refine ⟨u, e ++ f, by simp [forEach, h1, Ran.bind, g1], ⟨e, f, h2, g2, rfl⟩, ?_, by simpa using g4,
        fun h => by simp at h, fun _ => ?_⟩
    · have := h3.trans g3
      simpa only [h3.cx, h3.cy, List.append_nil] using this
    · cases rest with
      | nil => rw [g5 rfl]; exact h3.pins
      | cons => exact g6 (by simp)

/-- What a controller keeps while cells are read and written. -/
def Moved (k0 k : Ctl) : Prop :=
  k = { k0 with ddram := k.ddram, ac := k.ac, sel := k.sel, busy := k.busy, addrSet := k.addrSet, nib := k.nib }

/-- The controller after accesses of which the last was at `last`: only DDRAM may differ (R214). -/
def Stepped (k0 : Ctl) (last : Addr7) (k : Ctl) : Prop :=
  k = { k0 with
    ddram := k.ddram
    ac := ({ k0 with ac := last, sel := .dd } : Ctl).step
    sel := .dd
    busy := false
    addrSet := false
    nib := k.nib }

theorem implemented_congr {k k' : Ctl} (h : k'.twoLine = k.twoLine) (a : Addr7) : k'.implemented a = k.implemented a := by
  simp [Ctl.implemented, h]

theorem step_congr {k k' : Ctl} (h1 : k'.twoLine = k.twoLine) (h2 : k'.incr = k.incr) (h3 : k'.sel = k.sel)
    (h4 : k'.ac = k.ac) : k'.step = k.step := by
  unfold Ctl.step Ctl.stepUp Ctl.stepDown; rw [h1, h2, h3, h4]

/-- A store, on the reference controller. -/
theorem stored_ctl {k k' : Ctl} {a : Addr7} {b : Byte} (hi : k.implemented a = true)
    (h : ((k.setDdram a).dataWrite b).after k') :
    k' = { k with
      ddram := Mem.write k.ddram a.toNat b
      ac := ({ k with ac := a, sel := .dd } : Ctl).step
      sel := .dd
      busy := false
      addrSet := false
      nib := k'.nib } := by
  rw [Ctl.after] at h
  have hw : (k.setDdram a).dataWrite b =
      { (k.setDdram a).accessed with ddram := Mem.write k.ddram a.toNat b, ac := (k.setDdram a).step } := by
    unfold Ctl.dataWrite
    show (if (k.setDdram a).implemented a = true then _ else _) = _
    rw [if_pos ((implemented_congr (k := k) (k' := k.setDdram a) rfl a).trans hi)]
    rfl
  have hs : (k.setDdram a).step = ({ k with ac := a, sel := .dd } : Ctl).step := step_congr rfl rfl rfl rfl
  rw [hw, hs] at h
  exact h

/-- The cell map is injective (R161). -/
theorem resolve_injective {c : Cfg} {x y x' y' : Nat} {a : Addr7} (h : resolve c x y = some a) (h' :
    resolve c x' y' = some a) : x = x' ∧ y = y' := by
  obtain ⟨hx, hy⟩ := resolve_range h
  obtain ⟨hx', hy'⟩ := resolve_range h'
  have hf := c.fits
  simp only [geometryOk, Bool.and_eq_true, decide_eq_true_eq] at hf
  have hnd : ∀ l : List Addr7, allDistinct l = true → l.Nodup := by
    intro l; induction l with
    | nil => simp
    | cons b l ih => intro h; simp only [allDistinct, Bool.and_eq_true, Bool.not_eq_true', List.contains_eq_mem,
        decide_eq_false_iff_not] at h; exact List.nodup_cons.2 ⟨h.1, ih h.2⟩
  have hn := hnd _ hf.2
  simp only [resolve, hx, hy, and_self, if_true] at h
  simp only [resolve, hx', hy', and_self, if_true] at h'
  have hlt : x + (c.xmax + 1) * y < c.table.length := (List.getElem?_eq_some_iff.1 h).1
  have := (List.getElem?_inj hlt hn).1 (h.trans h'.symm)
  have e1 : (x + (c.xmax + 1) * y) % (c.xmax + 1) = x :=
      by rw [Nat.add_mul_mod_self_left]; exact Nat.mod_eq_of_lt (by omega)
  have e2 : (x' + (c.xmax + 1) * y') % (c.xmax + 1) = x' :=
      by rw [Nat.add_mul_mod_self_left]; exact Nat.mod_eq_of_lt (by omega)
  have e3 : x = x' := by rw [← e1, ← e2, this]
  subst e3
  refine ⟨rfl, ?_⟩
  have : (c.xmax + 1) * y = (c.xmax + 1) * y' := by omega
  exact Nat.eq_of_mul_eq_mul_left (by omega) this

/-- The display while the rows are copied up, `pre` being the cells copied (R210). -/
structure CopyInv (s0 : State) (pre : List (Nat × Nat)) (s : State) : Prop where
  cfg : s.cfg = s0.cfg
  er : s.responsive = true
  ref : s0.refctl = true → s.refctl = true
  moved : s0.refctl = true → s0.env.ctl.memOk = true → (∀ a ∈ s0.cfg.table, s0.env.ctl.implemented a = true) →
    Moved s0.env.ctl s.env.ctl ∧ Mem.wf s.env.ctl.ddram = true ∧
    (∀ x y a, resolve s0.cfg x y = some a → Mem.read s.env.ctl.ddram a.toNat =
      if (x, y + 1) ∈ pre then Mem.read s0.env.ctl.ddram ((resolve s0.cfg x (y + 1)).getD 0).toNat else Mem.read
          s0.env.ctl.ddram a.toNat) ∧
    (∀ a : Addr7, a ∉ s0.cfg.table → Mem.read s.env.ctl.ddram a.toNat = Mem.read s0.env.ctl.ddram a.toNat)

/-- Cells are copied row by row. -/
theorem sorted_rows (c : Cfg) : (scrolledCells c).Pairwise fun a b => a.2 ≤ b.2 := by
  unfold scrolledCells
  rw [List.pairwise_flatMap]
  refine ⟨fun r _ => ?_, ?_⟩
  · apply List.Pairwise.imp_of_mem (R := fun _ _ => True)
    · intro a b ha hb _; rw [(mem_rowCells ha).2, (mem_rowCells hb).2]
    · simp [List.pairwise_iff_forall_sublist]
  · apply List.Pairwise.imp _ (List.pairwise_lt_range (n := c.ymax))
    intro r r' h a ha b hb
    rw [(mem_rowCells ha).2, (mem_rowCells hb).2]; omega

/-- One round of the copy loop. -/
theorem copy_round (s0 : State) (pre : List (Nat × Nat)) (i : Nat × Nat) (post) (hi :
    scrolledCells s0.cfg = pre ++ i :: post) (s : State) (h : CopyInv s0 pre s) :
    ∃ t evs, copyUp i s = .done () t ∧ CopyEvents s0.cfg i evs ∧
        Completed s t s.cx s.cy (idlePins t.pins.dout) evs [] ∧ CopyInv s0 (pre ++ [i]) t := by
  obtain ⟨x, r⟩ := i
  have hm : (x, r) ∈ scrolledCells s0.cfg := by rw [hi]; simp
  obtain ⟨hx, hr1, hr2⟩ := mem_scrolledCells hm
  simp only at hx hr1 hr2
  obtain ⟨a, ha, hat⟩ := resolve_some (c := s0.cfg) hx hr2
  obtain ⟨up, hup, hupt⟩ := resolve_some (c := s0.cfg) (x := x) (y := r - 1) hx (by omega)
  obtain ⟨b, t1, e1, p1, p2, p3, p4, p5⟩ := readDataRam_done a s h.er
  obtain ⟨t2, e2, q1, q2, q3, q4, q5⟩ := storeAt_done up b t1 p4
  have c1 : t1.cfg = s0.cfg := p3.cfg.trans h.cfg
  rw [h.cfg] at p2
  rw [c1] at q2
  refine ⟨t2, e1 ++ e2, ?_, ⟨a, up, b, e1, e2, ha, hup, p2, q2, rfl⟩, ?_, ⟨q3.cfg.trans c1, q4,
      fun hr => (q5 (p5 (h.ref hr)).1).1, fun hr hmem himp => ?_⟩⟩
  · simp [copyUp, atCell, h.cfg, ha, p1, Ran.bind, c1, hup, q1]
  · have := p3.trans q3
    simpa only [p3.cx, p3.cy, List.append_nil, q3.pins, idlePins] using this
  · obtain ⟨m1, m2, m3, m4⟩ := h.moved hr hmem himp
    obtain ⟨-, k2, k3⟩ := p5 (h.ref hr)
    have tl : s.env.ctl.twoLine = s0.env.ctl.twoLine := by rw [m1]
    have hb : b = Mem.read s.env.ctl.ddram a.toNat := k3 ((implemented_congr tl a).trans (himp a hat))
    have himp1 : t1.env.ctl.implemented up = true := (implemented_congr (k := s0.env.ctl)
        (by rw [k2]; exact tl) up).trans (himp up hupt)
    have hst := stored_ctl himp1 (q5 (p5 (h.ref hr)).1).2
    have hdd : t1.env.ctl.ddram = s.env.ctl.ddram := by rw [k2]; rfl
    have hdd2 : t2.env.ctl.ddram = Mem.write s.env.ctl.ddram up.toNat b := by rw [hst, ← hdd]
    have hnot : (x, r + 1) ∉ pre := by
      intro hc
      have hs := sorted_rows s0.cfg
      rw [hi, List.pairwise_append] at hs
      have := hs.2.2 _ hc (x, r) (by simp)
      simp only at this; omega
    have hbv : b = Mem.read s0.env.ctl.ddram a.toNat := by rw [hb, m3 x r a ha, if_neg hnot]
    refine ⟨?_, by rw [hdd2]; exact Mem.write_wf _ _ _ m2, fun x' y' a' ha' => ?_, fun a' ha' => ?_⟩
    · unfold Moved; rw [hst, k2]; rw [Moved] at m1; rw [m1]; rfl
    · rw [hdd2, Mem.read_write _ _ _ _ m2]
      by_cases heq : a' = up
      · subst heq
        obtain ⟨rfl, rfl⟩ := resolve_injective ha' hup
        rw [if_pos rfl, if_pos (by rw [Nat.sub_add_cancel hr1]; simp), Nat.sub_add_cancel hr1, ha]
        exact hbv
      · have hn : a'.toNat ≠ up.toNat := fun h => heq (BitVec.eq_of_toNat_eq h)
        rw [if_neg hn, m3 x' y' a' ha']
        have : (x', y' + 1) ∈ pre ++ [(x, r)] ↔ (x', y' + 1) ∈ pre := by
          simp only [List.mem_append, List.mem_singleton, Prod.mk.injEq]
          constructor
          · rintro (h | ⟨rfl, rfl⟩)
            · exact h
            · simp only [Nat.add_sub_cancel] at hup
              rw [ha'] at hup; cases hup; exact absurd rfl heq
          · exact .inl
        simp only [this]
    · rw [hdd2, Mem.read_write _ _ _ _ m2]
      have hn : a'.toNat ≠ up.toNat := fun h => ha' (by rw [BitVec.eq_of_toNat_eq h]; exact hupt)
      rw [if_neg hn]; exact m4 a' ha'

/-- The display while the last row is blanked (R213). -/
structure BlankInv (s0 s1 : State) (pre : List (Nat × Nat)) (s : State) : Prop where
  cfg : s.cfg = s0.cfg
  er : s.responsive = true
  ref : s0.refctl = true → s.refctl = true
  moved : s0.refctl = true → s0.env.ctl.memOk = true → (∀ a ∈ s0.cfg.table, s0.env.ctl.implemented a = true) →
    Moved s0.env.ctl s.env.ctl ∧ Mem.wf s.env.ctl.ddram = true ∧
    (∀ x y a, resolve s0.cfg x y = some a → Mem.read s.env.ctl.ddram a.toNat =
      if (x, y) ∈ pre then 0x20 else Mem.read s1.env.ctl.ddram a.toNat) ∧
    (∀ a : Addr7, a ∉ s0.cfg.table → Mem.read s.env.ctl.ddram a.toNat = Mem.read s1.env.ctl.ddram a.toNat) ∧
    (∀ x y, pre.getLast? = some (x, y) → ∃ a, resolve s0.cfg x y = some a ∧ Stepped s0.env.ctl a s.env.ctl)

/-- One round of the blanking loop. -/
theorem blank_round (s0 s1 : State) (pre : List (Nat × Nat)) (i : Nat × Nat) (post) (hi :
    rowCells s0.cfg s0.cfg.ymax = pre ++ i :: post) (s : State) (h : BlankInv s0 s1 pre s) :
    ∃ t evs, blankCell i s = .done () t ∧ BlankEvents s0.cfg i evs ∧
        Completed s t s.cx s.cy (idlePins t.pins.dout) evs [] ∧ BlankInv s0 s1 (pre ++ [i]) t := by
  obtain ⟨x, r⟩ := i
  have hm : (x, r) ∈ rowCells s0.cfg s0.cfg.ymax := by rw [hi]; simp
  obtain ⟨hx, hr2⟩ := mem_rowCells hm
  simp only at hx hr2
  obtain ⟨a, ha, hat⟩ := resolve_some (c := s0.cfg) (x := x) (y := r) hx (by omega)
  obtain ⟨t2, e2, q1, q2, q3, q4, q5⟩ := storeAt_done a 0x20 s h.er
  rw [h.cfg] at q2
  refine ⟨t2, e2, ?_, ⟨a, ha, q2⟩, ?_, ⟨q3.cfg.trans h.cfg, q4, fun hr => (q5 (h.ref hr)).1, fun hr hmem himp => ?_⟩⟩
  · simp [blankCell, atCell, h.cfg, ha, chSpace]; exact q1
  · simpa only [q3.pins, idlePins] using q3
  · obtain ⟨m1, m2, m3, m4, -⟩ := h.moved hr hmem himp
    have tl : s.env.ctl.twoLine = s0.env.ctl.twoLine := by rw [m1]
    have himp1 : s.env.ctl.implemented a = true := (implemented_congr tl a).trans (himp a hat)
    have hst := stored_ctl himp1 (q5 (h.ref hr)).2
    have hdd2 : t2.env.ctl.ddram = Mem.write s.env.ctl.ddram a.toNat 0x20 := by rw [hst]
    refine ⟨?_, by rw [hdd2]; exact Mem.write_wf _ _ _ m2, fun x' y' a' ha' => ?_, fun a' ha' => ?_, fun x' y' hl => ?_⟩
    · unfold Moved; rw [hst]; rw [Moved] at m1; rw [m1]
    · rw [hdd2, Mem.read_write _ _ _ _ m2]
      by_cases heq : a' = a
      · subst heq
        obtain ⟨rfl, rfl⟩ := resolve_injective ha' ha
        rw [if_pos rfl, if_pos (by simp)]
      · have hn : a'.toNat ≠ a.toNat := fun h => heq (BitVec.eq_of_toNat_eq h)
        rw [if_neg hn, m3 x' y' a' ha']
        have : (x', y') ∈ pre ++ [(x, r)] ↔ (x', y') ∈ pre := by
          simp only [List.mem_append, List.mem_singleton, Prod.mk.injEq]
          constructor
          · rintro (h | ⟨rfl, rfl⟩)
            · exact h
            · rw [ha'] at ha; cases ha; exact absurd rfl heq
          · exact .inl
        simp only [this]
    · rw [hdd2, Mem.read_write _ _ _ _ m2]
      have hn : a'.toNat ≠ a.toNat := fun h => ha' (by rw [BitVec.eq_of_toNat_eq h]; exact hat)
      rw [if_neg hn]; exact m4 a' ha'
    · simp only [List.getLast?_append, List.getLast?_singleton, Option.some_or, Option.some.injEq, Prod.mk.injEq] at hl
      obtain ⟨rfl, rfl⟩ := hl
      refine ⟨a, ha, ?_⟩
      have hs : ({ s.env.ctl with ac := a, sel := .dd } : Ctl).step = ({ s0.env.ctl with ac := a, sel := .dd } :
          Ctl).step := step_congr (by exact tl) (by show s.env.ctl.incr = s0.env.ctl.incr; rw [m1]) rfl rfl
      rw [hs] at hst
      unfold Stepped
      rw [hst]; rw [Moved] at m1; rw [m1]

/-- ScrollUp completes; its events; and under REFCTL what the panel shows afterwards. -/
theorem scrollUp_done (s : State) (he : s.responsive = true) (hy : 0 < s.cfg.ymax) :
    ∃ t evs, scrollUp s = .done () t ∧ ScrollEvents s.cfg evs ∧
        Completed s t s.cx s.cy (idlePins t.pins.dout) evs [] ∧ t.responsive = true ∧
    (s.refctl = true → t.refctl = true) ∧
    (s.refctl = true → s.env.ctl.memOk = true → (∀ a ∈ s.cfg.table, s.env.ctl.implemented a = true) →
      ∃ last, resolve s.cfg s.cfg.xmax s.cfg.ymax = some last ∧
      (∀ x y, x ≤ s.cfg.xmax → y < s.cfg.ymax → shownCode t x y = shownCode s x (y + 1)) ∧
      (∀ x, x ≤ s.cfg.xmax → shownCode t x s.cfg.ymax = some 0x20) ∧
      (∀ a : Addr7, a ∉ s.cfg.table → Mem.read t.env.ctl.ddram a.toNat = Mem.read s.env.ctl.ddram a.toNat) ∧
      Stepped s.env.ctl last t.env.ctl) := by
  obtain ⟨t1, e1, p1, p2, p3, p4, -, -⟩ := forEach_done (CopyInv s) (scrolledCells s.cfg) [] (body := copyUp) (stp :=
      CopyEvents s.cfg)
    (fun p i q hp u hu => copy_round s p i q (by simpa using hp) u hu) s
    ⟨rfl, he, fun h => h, fun _ hm _ => ⟨rfl, by simp only [Ctl.memOk, Bool.and_eq_true] at hm; exact hm.1.1.1,
        fun _ _ _ _ => by simp, fun _ _ => rfl⟩⟩
  have c1 : t1.cfg = s.cfg := p4.cfg
  obtain ⟨t, e2, q1, q2, q3, q4, -, q6⟩ := forEach_done (BlankInv s t1) (rowCells s.cfg s.cfg.ymax) [] (body :=
      blankCell) (stp := BlankEvents s.cfg)
    (fun p i q hp u hu => blank_round s t1 p i q (by simpa using hp) u hu) t1
    ⟨p4.cfg, p4.er, p4.ref, fun a b d => ⟨(p4.moved a b d).1, (p4.moved a b d).2.1, fun _ _ _ _ => by simp,
        fun _ _ => rfl, fun _ _ h => by simp at h⟩⟩
  have hne : rowCells s.cfg s.cfg.ymax ≠ [] := by simp [rowCells]
  refine ⟨t, e1 ++ e2, ?_, ?_, ?_, q4.er, q4.ref, fun hr hm himp => ?_⟩
  · have : oneRow s.cfg = false := by simp [oneRow]; omega
    unfold scrollUp; rw [this, if_neg (by simp), p1]; simp only [Ran.bind, c1]; exact q1
  · unfold ScrollEvents; rw [if_neg (by omega)]; exact ⟨e1, e2, p2, q2, rfl⟩
  · have h := p3.trans q3
    rw [p3.cx, p3.cy] at h
    have hp := q6 hne
    rw [← hp]
    exact h
  · obtain ⟨m1, m2, m3, m4⟩ := p4.moved hr hm himp
    obtain ⟨n1, n2, n3, n4, n5⟩ := q4.moved hr hm himp
    have hlast : ([] ++ rowCells s.cfg s.cfg.ymax).getLast? = some (s.cfg.xmax, s.cfg.ymax) := by
      simp [rowCells, List.range_succ]
    obtain ⟨last, hl1, hl2⟩ := n5 _ _ hlast
    have tcfg : t.cfg = s.cfg := q4.cfg
    have inrow : ∀ x y, (x, y) ∈ rowCells s.cfg s.cfg.ymax ↔ x ≤ s.cfg.xmax ∧ y = s.cfg.ymax := by
      intro x y; simp [rowCells]; omega
    have inscr : ∀ x y, x ≤ s.cfg.xmax → y < s.cfg.ymax → (x, y + 1) ∈ scrolledCells s.cfg := by
      intro x y hx hy; simp only [scrolledCells, List.mem_flatMap, List.mem_range, rowCells, List.mem_map]
      exact ⟨y, hy, x, by omega, rfl⟩
    refine ⟨last, hl1, fun x y hx hy' => ?_, fun x hx => ?_, fun a ha => (n4 a ha).trans (m4 a ha), hl2⟩
    · obtain ⟨a, ha, -⟩ := resolve_some (c := s.cfg) (x := x) (y := y) hx (by omega)
      obtain ⟨b, hb, -⟩ := resolve_some (c := s.cfg) (x := x) (y := y + 1) hx (by omega)
      simp only [shownCode, tcfg, ha, hb, Option.map_some]
      rw [n3 x y a ha, if_neg (by simp only [List.nil_append]; rw [inrow]; omega), m3 x y a ha,
          if_pos (by simpa using inscr x y hx hy'), hb]
      rfl
    · obtain ⟨a, ha, -⟩ := resolve_some (c := s.cfg) (x := x) (y := s.cfg.ymax) hx (by omega)
      simp only [shownCode, tcfg, ha, Option.map_some]
      rw [n3 x _ a ha, if_pos (by simp only [List.nil_append]; rw [inrow]; exact ⟨hx, rfl⟩)]

end Sys2Proof.Machine
end

