-- ==== Sys2Proof/Laws/Ops.lean ====
section
/-!
SUPPORT. Accepting and completing a host operation (10_state.md R30, 60_exceptions.md R257): what the provers cite instead of
unfolding `runOp`.
-/
namespace Sys2Proof.Machine

/-- `ready` is: idle, INIT completed. -/
theorem ready_iff (s : State) : s.ready = true ↔ s.busyOp = false ∧ s.inited = true := by
  simp [State.ready]

/-- What the body of an operation did, seen from the accepted request to the answer. -/
theorem completed_finish {s t : State} {x y : Byte} {p : Pins} {e : List Event} (r : Option Byte)
    (hb : s.busyOp = false) (h : Completed { s with busyOp := true } t x y p e []) :
    Completed s { t with busyOp := false, rsp := t.rsp ++ r.toList } x y p e r.toList := by
  obtain ⟨h1, h2⟩ := h
  refine ⟨?_, h2⟩
  rw [h1]; simp [hb]

/-- An operation whose body completes. -/
theorem runOp_done {s t : State} {r : Option Byte} {body : State → Ran (Option Byte)}
    (h : body { s with busyOp := true } = .done r t) :
    runOp s body = .next { t with busyOp := false, rsp := t.rsp ++ r.toList } := by
  simp [runOp, h]

/-- `t` is `s` but for what a transaction can change: the pins, the history, the environment. -/
def Worked (s t : State) : Prop := t = { s with pins := t.pins, hist := t.hist, env := t.env }

theorem Worked.refl (s : State) : Worked s s := rfl

theorem worked_closed (s : State) : Closed (Worked s) :=
  (lineClosed_of_apart fun t _ _ _ h => by rw [Worked] at h ⊢; rw [h]).closed

theorem Worked.fields {s t : State} (h : Worked s t) :
    t.cfg = s.cfg ∧ t.cx = s.cx ∧ t.cy = s.cy ∧ t.busyOp = s.busyOp ∧ t.inited = s.inited ∧ t.rsp = s.rsp ∧ t.hang = s.hang := by
  rw [Worked] at h; rw [h]; exact ⟨rfl, rfl, rfl, rfl, rfl, rfl, rfl⟩

/-- An operation that ends in a state at rest has completed. -/
theorem runOp_idle {body : State → Ran (Option Byte)} {s t : State}
    {q : Prop} (h : (body { s with busyOp := true }).Ends q True (fun u => u.busyOp = true)) (hn : runOp s body = .next t)
    (hb : t.busyOp = false) :
    ∃ u r, body { s with busyOp := true } = .done r u ∧ u.busyOp = true ∧ (q → u.stuck = false) ∧
      t = { u with busyOp := false, rsp := u.rsp ++ r.toList } := by
  rcases runOp_next h hn with h | ⟨u, k, -, hu, -, rfl⟩
  · exact h
  · rw [show ({ u with hang := some k } : State).busyOp = u.busyOp from rfl, hu] at hb; cases hb

end Sys2Proof.Machine
end

