-- ==== Sys2Proof/Laws/Terminal.lean ====
section
/-!
SUPPORT. The terminal layer: from a state of the cursor's resting invariant (10_state.md R21) Putchar completes or hangs in
one, and is never refused; with it anything that the transactions and the cursor writes keep.
-/
namespace Sys2Proof.Machine

/-- What the transactions and the cursor writes keep, in one configuration. -/
structure Carried (C : State → Prop) (c : Cfg) : Prop where
  closed : Closed C
  cursor : ∀ s x y, C s → C (s.setCursor x y)
  cfg : ∀ s, C s → s.cfg = c

/-- At rest (R21). -/
def Rest (C : State → Prop) (c : Cfg) (s : State) : Prop := C s ∧ s.cx.toNat ≤ c.xmax ∧ s.cy.toNat ≤ c.ymax + 1

/-- The cursor on the panel. -/
def OnPanel (C : State → Prop) (c : Cfg) (s : State) : Prop := C s ∧ s.cx.toNat ≤ c.xmax ∧ s.cy.toNat ≤ c.ymax

/-- A condition on the cursor is kept by the transactions beside what they keep anyway. -/
theorem Closed.withCursor {C : State → Prop} (hC : Closed C) (R : Byte → Byte → Prop) : Closed fun s => C s ∧ R s.cx s.cy := by
  constructor
  · rintro rs b s ⟨h, h1⟩
    obtain ⟨-, e1, e2, -⟩ := ((worked_closed s).write rs b s (.refl s)).fields
    exact ⟨hC.write rs b s h, by rw [e1, e2]; exact h1⟩
  · rintro rs s ⟨h, h1⟩
    obtain ⟨-, e1, e2, -⟩ := ((worked_closed s).read rs s (.refl s)).fields
    exact ⟨hC.read rs s h, by rw [e1, e2]; exact h1⟩

theorem rest_closed {C : State → Prop} (hC : Closed C) (c : Cfg) : Closed (Rest C c) :=
  hC.withCursor fun x y => x.toNat ≤ c.xmax ∧ y.toNat ≤ c.ymax + 1

theorem onPanel_closed {C : State → Prop} (hC : Closed C) (c : Cfg) : Closed (OnPanel C c) :=
  hC.withCursor fun x y => x.toNat ≤ c.xmax ∧ y.toNat ≤ c.ymax

theorem onPanel_rest {C : State → Prop} {c : Cfg} {s : State} (h : OnPanel C c s) : Rest C c s :=
  ⟨h.1, h.2.1, Nat.le_succ_of_le h.2.2⟩

/-- Completes in a state of `D`, or hangs from a state of `H`; never refused. -/
def Ran.Ends2 {α : Type} (q : Prop) (D H : State → Prop) (r : Ran α) : Prop :=
  match r with
  | .done _ t => D t ∧ (q → t.stuck = false)
  | .hung t => ∃ u h, H u ∧ (q → u.stuck = decide (h = .settle)) ∧ t = { u with hang := some h }
  | .stop _ => False

variable {q : Prop}

/-- `a; b` with an end of its own for each. -/
theorem ends2_bind {α β : Type} {D D' H : State → Prop} {r : Ran α} {f : α → State → Ran β} (h : Ran.Ends2 q D H r)
    (g : ∀ a t, D t → (q → t.stuck = false) → Ran.Ends2 q D' H (f a t)) : Ran.Ends2 q D' H (r.bind f) := by
  cases r with
  | done a t => exact g a t h.1 h.2
  | hung t => exact h
  | stop q => exact h

theorem ends2_of {α : Type} {P D H : State → Prop} {r : Ran α} (h : r.Ends q False P) (hd : ∀ t, P t → D t)
    (hh : ∀ t, P t → H t) : Ran.Ends2 q D H r := by
  cases r with
  | done a t => exact ⟨hd t h.1, h.2⟩
  | hung t => obtain ⟨u, k, hu, hk, rfl⟩ := h; exact ⟨u, k, hh u hu, hk, rfl⟩
  | stop q => exact h

theorem ends2_ends {α : Type} {D : State → Prop} {r : Ran α} (h : Ran.Ends2 q D D r) : r.Ends q False D := by
  cases r <;> exact h

theorem ends2_mono {α : Type} {D D' H : State → Prop} {r : Ran α} (h : Ran.Ends2 q D H r) (hD : ∀ t, D t → D' t) :
    Ran.Ends2 q D' H r := by
  cases r with
  | done a t => exact ⟨hD t h.1, h.2⟩
  | hung t => exact h
  | stop q => exact h

theorem toNat_add_one_le (b : Byte) : (b + 1).toNat ≤ b.toNat + 1 := by
  rw [BitVec.toNat_add]; exact Nat.mod_le _ _

variable {C : State → Prop} {c : Cfg}

/-- The row overflow brings the cursor onto the panel (R190, R191). -/
theorem foldRow_ends (hC : Carried C c) {s : State} (h : Rest C c s) (hs : q → s.stuck = false) :
    Ran.Ends2 q (OnPanel C c) (Rest C c) (foldRow s) := by
  have hym := (geometry_bounds c).2
  unfold foldRow
  split
  · split
    · refine ends2_bind (D := Rest C c) (ends2_of (P := Rest C c)
        (scrollUp_ends (rest_closed hC.closed c) (fun s h => hC.cfg s h.1) s h hs) (fun _ x => x) fun _ x => x) fun _ t ht hts => ?_
      refine ⟨⟨hC.cursor _ _ _ ht.1, ht.2.1, ?_⟩, hts⟩
      simp only [setCursor_cy, hC.cfg t ht.1, BitVec.toNat_ofNat]; omega
    · exact ⟨⟨hC.cursor _ _ _ h.1, h.2.1, by simp⟩, hs⟩
  · rename_i hp
    refine ⟨⟨h.1, h.2.1, ?_⟩, hs⟩
    simpa [pastRow, hC.cfg s h.1] using hp

/-- On the panel the address command has an address. -/
theorem addressCursor_ends (hC : Carried C c) {s : State} (h : OnPanel C c s) :
    Ran.Ends2 q (OnPanel C c) (Rest C c) (addressCursor s) := by
  refine ends2_of (P := OnPanel C c) ?_ (fun _ x => x) fun _ => onPanel_rest
  exact atCell_ends (.inr (by rw [hC.cfg s h.1]; exact h.2)) fun a _ => (onPanel_closed hC.closed c).sendCommand _ s h

/-- Putchar leaves the cursor at rest (R197), and is never refused there. -/
theorem putchar_ends (hC : Carried C c) (ch : Byte) {s : State} (h : Rest C c s) (hs : q → s.stuck = false) :
    Ran.Ends2 q (Rest C c) (Rest C c) (putchar ch s) := by
  unfold putchar
  refine ends2_bind (foldRow_ends hC h hs) fun _ t ht hts => ?_
  have htc := hC.cfg t ht.1
  obtain ⟨a, ha, -⟩ := resolve_some (c := t.cfg) (x := t.cx.toNat) (y := t.cy.toNat) (by rw [htc]; exact ht.2.1)
    (by rw [htc]; exact ht.2.2)
  simp only [atCell, ha]
  refine ends2_bind (D := fun s => C s ∧ s.cx.toNat ≤ c.xmax + 1 ∧ s.cy.toNat ≤ c.ymax) ?_ fun _ u hu hus =>
    ends2_bind (D := Rest C c) ?_ fun _ w hw hws => ⟨hw, hws⟩
  · have weak : ∀ w, OnPanel C c w → C w ∧ w.cx.toNat ≤ c.xmax + 1 ∧ w.cy.toNat ≤ c.ymax :=
      fun w hw => ⟨hw.1, Nat.le_succ_of_le hw.2.1, hw.2.2⟩
    unfold putByte
    split
    · refine ends2_mono (ends2_bind (foldRow_ends hC ⟨hC.cursor _ _ _ ht.1, ?_, ?_⟩ hts) fun _ w hw _ =>
        addressCursor_ends hC hw) weak
      · simp only [setCursor_cx]; split
        · simp
        · exact ht.2.1
      · exact (toNat_add_one_le t.cy).trans (Nat.succ_le_succ ht.2.2)
    · split
      · exact ends2_mono (addressCursor_ends hC ⟨hC.cursor _ _ _ ht.1, by simp, ht.2.2⟩) weak
      · unfold ordinary
        refine ends2_bind (D := OnPanel C c) (ends2_of ((onPanel_closed hC.closed c).storeAt a ch t ht)
          (fun _ x => x) fun _ => onPanel_rest) fun _ w hw hws => ?_
        exact ⟨⟨hC.cursor _ _ _ hw.1, (toNat_add_one_le w.cx).trans (Nat.succ_le_succ hw.2.1), hw.2.2⟩, hws⟩
  · unfold wrap
    split
    · refine ends2_of ((rest_closed hC.closed c).sendCommand _ _ ⟨hC.cursor _ _ _ hu.1, by simp, ?_⟩) (fun _ x => x) fun _ x => x
      exact (toNat_add_one_le u.cy).trans (Nat.succ_le_succ hu.2.2)
    · rename_i hp
      exact ⟨⟨hu.1, by simpa [pastColumn, hC.cfg u hu.1] using hp, Nat.le_succ_of_le hu.2.2⟩, hus⟩

/-! ## The arms of Putchar one by one -/

/-- On the panel there is no row overflow. -/
theorem foldRow_none {s : State} (h : s.cy.toNat ≤ s.cfg.ymax) : foldRow s = .done () s := by
  unfold foldRow; rw [if_neg]; simp [pastRow]; omega

theorem toNat_add_one {b : Byte} (h : b.toNat < 255) : (b + 1).toNat = b.toNat + 1 := by
  rw [BitVec.toNat_add]; show (b.toNat + 1) % 256 = _; omega

/-- No wrap while CX is on the panel. -/
theorem wrap_none {s : State} (a : Addr7) (h : s.cx.toNat ≤ s.cfg.xmax) : wrap a s = .done () s := by
  unfold wrap; rw [if_neg]; simp [pastColumn]; omega

/-- The address command of the cursor's cell completes, the cursor being on the panel. -/
theorem addressCursor_done (s : State) (he : s.responsive = true) (hx : s.cx.toNat ≤ s.cfg.xmax)
    (hy : s.cy.toNat ≤ s.cfg.ymax) :
    ∃ t evs a, addressCursor s = .done () t ∧ resolve s.cfg s.cx.toNat s.cy.toNat = some a ∧
      SentEvents s.cfg.busMode false (setDdramByte a) evs ∧ Completed s t s.cx s.cy (idlePins t.pins.dout) evs [] ∧
      t.responsive = true ∧ (s.refctl = true → t.refctl = true ∧ (s.env.ctl.setDdram a).after t.env.ctl) := by
  obtain ⟨a, ha, -⟩ := resolve_some hx hy
  obtain ⟨t, evs, h1, h2, h3, h4, h5⟩ := address_done a s he
  exact ⟨t, evs, a, by simp [addressCursor, addressCell, atCell, ha, h1], ha, h2,
    by simpa [h3.pins, idlePins] using h3, h4, h5⟩

/-- Putchar with the row on the panel (R189): no entry normalization, the cell's address, the arm, the wrap. -/
theorem putchar_onPanel {s : State} {a : Addr7} (ch : Byte) (hy : s.cy.toNat ≤ s.cfg.ymax)
    (ha : resolve s.cfg s.cx.toNat s.cy.toNat = some a) :
    putchar ch s = (putByte a ch s).bind fun _ u => (wrap a u).bind fun _ w => .done ch w := by
  unfold putchar
  rw [foldRow_none hy]
  simp only [Ran.bind, atCell, ha]

theorem putByte_lf (a : Addr7) (s : State) : putByte a 0x0A s = lineFeed s := rfl

theorem putByte_cr (a : Addr7) (s : State) : putByte a 0x0D s = carriageReturn s := rfl

theorem putByte_ordinary (a : Addr7) {ch : Byte} (s : State) (hl : ch ≠ 0x0A) (hc : ch ≠ 0x0D) :
    putByte a ch s = ordinary a ch s := by
  unfold putByte
  rw [if_neg (show ¬ ch = chLf from hl), if_neg (show ¬ ch = chCr from hc)]

end Sys2Proof.Machine
end

