-- ==== Sys2Proof/Laws/Putchar.lean ====
section
/-!
SUPPORT. Putchar (45_terminal.md R189 to R197) as a whole: it completes when the busy flag is eventually clear and delays
return, it returns its operand, and what it writes of the engine is the cursor, the pins and the history.
-/
namespace Sys2Proof.Machine

/-- ScrollUp writes nothing but what a transaction writes (R214). -/
theorem scrollUp_worked (s : State) : (scrollUp s).Ends (s.stuck = false) False (Worked s) :=
  scrollUp_ends (worked_closed s) (c := s.cfg) (fun _ h => h.fields.1) s (.refl s) id

/-- ScrollUp does not see the cursor (R214). -/
theorem scrollUp_cursor (s : State) (x y : Byte) :
    scrollUp (s.setCursor x y) = (scrollUp s).mapState fun t => t.setCursor x y :=
  ((cursor_alike x y).scrollUp _ s rfl (not_lost_false s)).map fun _ _ h => h

theorem pastRow_true {s : State} (h : s.cfg.ymax < s.cy.toNat) : pastRow s = true := by simp [pastRow, h]

/-- `t` is `s` after micro-operations that ended: but for the cursor, nothing else of the engine changed. -/
structure Did (s t : State) : Prop where
  completed : ∃ evs, Completed s t t.cx t.cy t.pins evs []
  ready : t.responsive = true
  refctl : s.refctl = true → t.refctl = true

theorem Did.refl {s : State} (h : s.responsive = true) : Did s s := ⟨⟨[], by simp, EnvKept.refl _⟩, h, fun x => x⟩

theorem Did.trans {s t u : State} (h : Did s t) (g : Did t u) : Did s u := by
  obtain ⟨⟨e, h1⟩, h2, h3⟩ := h
  obtain ⟨⟨f, g1⟩, g2, g3⟩ := g
  exact ⟨⟨e ++ f, by simpa using h1.trans g1⟩, g2, fun x => g3 (h3 x)⟩

theorem Did.cfg {s t : State} (h : Did s t) : t.cfg = s.cfg := by obtain ⟨⟨e, h1⟩, -⟩ := h; exact h1.cfg

theorem Did.ofCompleted {s t : State} {x y p evs} (h : Completed s t x y p evs []) (h2 : t.responsive = true)
    (h3 : s.refctl = true → t.refctl = true) : Did s t := by
  refine ⟨⟨evs, ?_, h.2⟩, h2, h3⟩
  have := h.1
  rw [h.cx, h.cy, h.pins]; exact this

theorem Did.setCursor {s : State} (h : s.responsive = true) (x y) : Did s (s.setCursor x y) :=
  ⟨⟨[], by simp [State.setCursor], EnvKept.refl _⟩, h, fun x => x⟩

/-- The row overflow completes, with the row on the panel (R190, R191). -/
theorem foldRow_done {s : State} (he : s.responsive = true) (hy : s.cy.toNat ≤ s.cfg.ymax + 1) :
    ∃ t, foldRow s = .done () t ∧ Did s t ∧ t.cx = s.cx ∧ t.cy.toNat ≤ s.cfg.ymax := by
  have hym := (geometry_bounds s.cfg).2
  by_cases hp : s.cy.toNat ≤ s.cfg.ymax
  · exact ⟨s, foldRow_none hp, .refl he, rfl, hp⟩
  · unfold foldRow
    rw [if_pos (pastRow_true (by omega))]
    cases hf : s.cfg.hasScroll with
    | false => exact ⟨s.setCursor s.cx 0, by simp, .setCursor he _ _, rfl, by simp⟩
    | true =>
      rw [if_pos rfl]
      by_cases h0 : s.cfg.ymax = 0
      · refine ⟨s.setCursor s.cx (BitVec.ofNat 8 s.cfg.ymax), ?_, .setCursor he _ _, rfl, ?_⟩
        · unfold scrollUp; rw [if_pos (by simpa [oneRow] using h0)]; rfl
        · simp [h0]
      · obtain ⟨t, evs, h1, -, h3, h4, h5, -⟩ := scrollUp_done s he (by omega)
        have hd : Did s t := .ofCompleted h3 h4 h5
        refine ⟨t.setCursor t.cx (BitVec.ofNat 8 t.cfg.ymax), by rw [h1]; rfl, hd.trans (.setCursor h4 _ _), h3.cx, ?_⟩
        simp only [setCursor_cy, h3.cfg, BitVec.toNat_ofNat]; omega

/-- Putchar completes, with the cursor at rest (R197). -/
theorem putchar_done {s : State} (ch : Byte) (he : s.responsive = true) (hx : s.cx.toNat ≤ s.cfg.xmax) (hy :
    s.cy.toNat ≤ s.cfg.ymax + 1) :
    ∃ t, putchar ch s = .done ch t ∧ Did s t ∧ t.pins = idlePins t.pins.dout ∧ t.cx.toNat ≤ s.cfg.xmax ∧
        t.cy.toNat ≤ s.cfg.ymax + 1 := by
  have hxm := (geometry_bounds s.cfg).1
  have hym := (geometry_bounds s.cfg).2
  obtain ⟨t, a1, a2, a3, a4⟩ := foldRow_done he hy
  have ct := a2.cfg
  obtain ⟨a, ha, -⟩ := resolve_some (c := t.cfg) (x := t.cx.toNat) (y := t.cy.toNat) (by rw [a3, ct]; exact hx)
      (by rw [ct]; exact a4)
  unfold putchar
  simp only [a1, Ran.bind, atCell, ha]
  have addr : ∀ u : State, Did s u → u.cx.toNat ≤ s.cfg.xmax → u.cy.toNat ≤ s.cfg.ymax → ∃ w,
      addressCursor u = .done () w ∧ Did s w ∧ w.pins = idlePins w.pins.dout ∧ w.cx.toNat ≤ s.cfg.xmax ∧
      w.cy.toNat ≤ s.cfg.ymax := by
    intro u hu hux huy
    obtain ⟨w, evs, b, b1, b2, b3, b4, b5, b6⟩ := addressCursor_done u hu.ready (by rw [hu.cfg]; exact hux)
        (by rw [hu.cfg]; exact huy)
    exact ⟨w, b1, hu.trans (.ofCompleted b4 b5 fun h => (b6 h).1), b4.pins, by rw [b4.cx]; exact hux,
        by rw [b4.cy]; exact huy⟩
  have fin : ∀ w : State, Did s w → w.pins = idlePins w.pins.dout → w.cx.toNat ≤ s.cfg.xmax →
      w.cy.toNat ≤ s.cfg.ymax → ∃ v, wrap a w = .done () v ∧ Did s v ∧ v.pins = idlePins v.pins.dout ∧
      v.cx.toNat ≤ s.cfg.xmax ∧ v.cy.toNat ≤ s.cfg.ymax + 1 := by
    intro w hw hp hwx hwy
    exact ⟨w, wrap_none a (by rw [hw.cfg]; exact hwx), hw, hp, hwx, by omega⟩
  by_cases hlf : ch = 0x0A
  · subst hlf
    rw [putByte_lf]
    unfold lineFeed
    obtain ⟨u, b1, b2, b3, b4⟩ := foldRow_done (s := t.setCursor (if t.cfg.nlImpliesCr then 0 else t.cx)
        (t.cy + 1)) a2.ready (by
      simp only [setCursor_cy, setCursor_cfg, ct, toNat_add_one (show t.cy.toNat < 255 by omega)]; omega)
    simp only [setCursor_cfg, setCursor_cx, ct] at b3 b4
    obtain ⟨w, c1, c2, c3, c4, c5⟩ := addr u ((a2.trans (.setCursor a2.ready _ _)).trans b2)
        (by rw [b3]; split; simp; rw [a3]; exact hx) b4
    obtain ⟨v, d1, d2⟩ := fin w c2 c3 c4 c5
    exact ⟨v, by simp only [b1, Ran.bind, c1, d1], d2⟩
  · by_cases hcr : ch = 0x0D
    · subst hcr
      rw [putByte_cr]
      obtain ⟨w, c1, c2, c3, c4, c5⟩ := addr (t.setCursor 0 t.cy) (a2.trans (.setCursor a2.ready _ _)) (by simp) a4
      obtain ⟨v, d1, d2⟩ := fin w c2 c3 c4 c5
      exact ⟨v, by simp only [carriageReturn, c1, d1], d2⟩
    · rw [putByte_ordinary a t hlf hcr]
      obtain ⟨u, e1, h1, h2, h3, h4, h5⟩ := storeAt_done a ch t a2.ready
      have du : Did s u := a2.trans (.ofCompleted h3 h4 fun h => (h5 h).1)
      simp only [ordinary, h1, Ran.bind]
      have h1x := toNat_add_one (show u.cx.toNat < 255 by rw [h3.cx, a3]; omega)
      by_cases hl : u.cx.toNat < s.cfg.xmax
      · obtain ⟨v, d1, d2⟩ := fin (u.setCursor (u.cx + 1) u.cy) (du.trans (.setCursor h4 _ _))
            (by simp only [setCursor_pins]; rw [h3.pins]; rfl) (by simp only [setCursor_cx]; omega)
            (by simp only [setCursor_cy, h3.cy]; exact a4)
        exact ⟨v, by rw [d1], d2⟩
      · have hxe : u.cx.toNat = s.cfg.xmax := by rw [h3.cx, a3] at hl ⊢; omega
        unfold wrap
        rw [if_pos (by simp only [pastColumn, setCursor_cx, setCursor_cfg, du.cfg]; simp; omega)]
        obtain ⟨v, e2, g1, g2, g3, g4, g5⟩ := address_done a ((u.setCursor (u.cx + 1) u.cy).setCursor 0 (u.cy + 1)) h4
        refine ⟨v, ?_, du.trans ((Did.setCursor h4 _ _).trans (.ofCompleted g3 g4 fun h => (g5 h).1)),
            by rw [g3.pins]; rfl, by rw [g3.cx]; simp, ?_⟩
        · rw [show sendCommand (setDdramByte a) ((u.setCursor (u.cx + 1) u.cy).setCursor 0 ((u.setCursor (u.cx + 1)
              u.cy).cy + 1)) = .done () v from g1]
        · rw [g3.cy]; simp only [setCursor_cy, h3.cy, toNat_add_one (show t.cy.toNat < 255 by omega)]; omega

variable {q : Prop}

/-- What the transactions and the cursor writes keep, the row overflow keeps. -/
theorem foldRow_closed {P : State → Prop} (hP : Closed P) (hset : ∀ s x y, P s → P (s.setCursor x y)) {c : Cfg} (hc :
    ∀ s, P s → s.cfg = c) (s : State) (h : P s) (hs : q → s.stuck = false) : (foldRow s).Ends q True P := by
  unfold foldRow
  split
  · split
    · exact (scrollUp_ends hP hc s h hs).weaken.andThen fun _ t ht hts => ⟨hset _ _ _ ht, hts⟩
    · exact ⟨hset _ _ _ h, hs⟩
  · exact ⟨h, hs⟩

/-- What the transactions and the cursor writes keep, Putchar keeps. -/
theorem putchar_closed {P : State → Prop} (hP : Closed P) (hset : ∀ s x y, P s → P (s.setCursor x y)) {c : Cfg} (hc :
    ∀ s, P s → s.cfg = c) (ch : Byte) (s : State) (h : P s) (hs : q → s.stuck = false) : (putchar ch s).Ends q True P := by
  unfold putchar
  have hac : ∀ t, P t → (addressCursor t).Ends q True P :=
      fun t ht => atCell_ends (.inl trivial) fun a _ => (hP.sendCommand _ t ht).weaken
  refine (foldRow_closed hP hset hc s h hs).andThen fun _ t ht hts => atCell_ends (.inl trivial) fun a _ => ?_
  refine Ran.Ends.andThen (P := P) ?_ fun _ u hu hus => Ran.Ends.andThen (P := P) ?_ fun _ w hw hws => ⟨hw, hws⟩
  · unfold putByte
    split
    · unfold lineFeed
      exact Ran.Ends.andThen (foldRow_closed hP hset hc _ (hset t _ _ ht) hts) fun _ u hu _ => hac u hu
    · split
      · exact hac _ (hset _ _ _ ht)
      · exact (hP.storeAt a ch t ht).weaken.andThen fun _ u hu hus => ⟨hset _ _ _ hu, hus⟩
  · unfold wrap
    split
    · exact (hP.sendCommand _ _ (hset _ _ _ hu)).weaken
    · exact ⟨hu, hus⟩

/-- `t` is `s` but for the cursor and what a transaction changes. -/
def Typed (s t : State) : Prop := t = { s with cx := t.cx, cy := t.cy, pins := t.pins, hist := t.hist, env := t.env }

theorem typed_closed (s : State) : Closed (Typed s) :=
  (lineClosed_of_apart fun t _ _ _ h => by rw [Typed] at h ⊢; rw [h]).closed

/-- What Putchar writes. -/
theorem putchar_typed (ch : Byte) (s : State) : (putchar ch s).Ends (s.stuck = false) True (Typed s) :=
  putchar_closed (typed_closed s) (fun t x y h => by rw [Typed] at h; rw [h]; rfl) (c := s.cfg)
      (fun t h => by rw [h]) ch s rfl id

/-- Putchar returns its operand (R197). -/
theorem putchar_value (ch b : Byte) (s t : State) (h : putchar ch s = .done b t) : b = ch := by
  unfold putchar at h
  cases h1 : foldRow s with
  | done a u =>
    rw [h1] at h; simp only [Ran.bind] at h
    unfold atCell at h
    split at h
    · rename_i a' _
      dsimp only at h
      cases h2 : putByte a' ch u with
      | done a v =>
        rw [h2] at h; simp only at h
        cases h3 : wrap a' v with
        | done a w => rw [h3] at h; cases h; rfl
        | hung w => rw [h3] at h; cases h
        | stop q => rw [h3] at h; cases h
      | hung v => rw [h2] at h; cases h
      | stop q => rw [h2] at h; cases h
    · cases h
  | hung u => rw [h1] at h; cases h
  | stop q => rw [h1] at h; cases h

end Sys2Proof.Machine
end

