-- ==== Sys2Proof/Laws/Exec.lean ====
section
/-!
SUPPORT. What a next state of `exec` can be, said once for all instructions: a property that the micro-operations keep is kept
by every host operation, completed or hung; a bus transaction is one micro-operation; a controller command changes the
controller alone.
-/
namespace Sys2Proof.Machine

/-- The instructions that write the cursor (R22). -/
def writesCursor : Instr → Bool
  | .locate _ _ | .putc _ | .puts _ => true
  | .init | .clear | .cursor _ _ | .defglyph _ _ _ _ _ _ _ _ _ | .readchar _ _ | .readram _ | .scroll | .intensity _
  | .cmdClear | .cmdEntryInc | .cmdDisplay _ _ | .cmdFs8 | .fsReal _ _ _ | .cmdSetCgram _ | .cmdSetDdram _
  | .commandWrite _ | .dataWrite _ | .statusRead | .dataRead => false

/-- What is asked of a property that every micro-operation of an instruction keeps. -/
structure Kept (i : Instr) (P : State → Prop) : Prop where
  closed : Closed P
  cursor : writesCursor i = true → ∀ s x y, P s → P (s.setCursor x y)
  init : i = .init → (∃ Q, ClosedBoot P Q) ∧ Closed fun s => P s ∧ s.env.settled = true

/-- How a host operation ends: completed from a state of `P`, or hung in one; under `q` no settle delay was stuck before it. -/
def HostEnd (q : Prop) (P : State → Prop) (t : State) : Prop :=
  (∃ u r, P u ∧ (q → u.stuck = false) ∧ t = { u with busyOp := false, rsp := u.rsp ++ r }) ∨
    ∃ u k, P u ∧ (q → u.stuck = decide (k = .settle)) ∧ t = { u with hang := some k }

theorem runOp_ends {q : Prop} {P : State → Prop} {body : State → Ran (Option Byte)} {s t : State}
    (h : (body { s with busyOp := true }).Ends q True P) (hn : runOp s body = .next t) : HostEnd q P t := by
  rcases runOp_next h hn with ⟨u, r, -, hu, hs, rfl⟩ | ⟨u, k, -, hu, hs, rfl⟩
  · exact .inl ⟨u, _, hu, hs, rfl⟩
  · exact .inr ⟨u, k, hu, hs, rfl⟩

/-- A host operation that gives a next state was accepted, and keeps what its micro-operations keep. -/
theorem exec_host {i : Instr} {s t : State} {P : State → Prop} (hP : Kept i P) {c : Cfg} (hc : ∀ s, P s → s.cfg = c)
    (hi : i.space = .hostPacket) (h : exec i s = .next t) (h0 : s.busyOp = false → P { s with busyOp := true }) :
    s.busyOp = false ∧ presentIn s.cfg i = true ∧ (i ≠ .init → s.inited = true) ∧ HostEnd (s.stuck = false) P t := by
  have op : ∀ present initFirst body, accept s present initFirst (runOp s body) = .next t →
      (∀ u, P u → (s.stuck = false → u.stuck = false) → (body u).Ends (s.stuck = false) True P) →
      s.busyOp = false ∧ present = true ∧ (initFirst = true → s.inited = true) ∧ HostEnd (s.stuck = false) P t := by
    intro p f body ha hb
    obtain ⟨h1, h2, h3, h4⟩ := accept_next ha
    exact ⟨h1, h2, h3, runOp_ends (hb _ (h0 h1) id) h4⟩
  have cl := hP.closed
  cases i with
  | init =>
    obtain ⟨⟨Q, hQ⟩, hs⟩ := hP.init rfl
    obtain ⟨a, b, -, d⟩ := op true false _ h fun u hu _ => noResult_ends (initSequence_ends hQ hs u hu).weaken
    exact ⟨a, b, fun x => absurd rfl x, d⟩
  | clear =>
    obtain ⟨a, b, e, d⟩ := op _ _ _ h fun u hu _ => noResult_ends (cl.sendCommand _ u hu).weaken
    exact ⟨a, b, fun _ => e rfl, d⟩
  | locate x y =>
    obtain ⟨a, b, e, d⟩ := op _ _ _ h fun u hu _ =>
      noResult_ends (atCell_ends (.inl trivial) fun a _ => (cl.sendCommand _ _ (hP.cursor rfl u x y hu)).weaken)
    exact ⟨a, b, fun _ => e rfl, d⟩
  | cursor x y =>
    obtain ⟨a, b, e, d⟩ := op _ _ _ h fun u hu _ => noResult_ends (cl.sendCommand _ u hu).weaken
    exact ⟨a, b, fun _ => e rfl, d⟩
  | putc ch =>
    obtain ⟨a, b, e, d⟩ := op _ _ _ h fun u hu hs => withResult_ends (putchar_closed cl (hP.cursor rfl) hc ch u hu hs)
    exact ⟨a, b, fun _ => e rfl, d⟩
  | puts text =>
    obtain ⟨a, b, e, d⟩ := accept_next (show accept s true true _ = .next t from h)
    split at d
    · refine ⟨a, b, fun _ => e rfl, runOp_ends (noResult_ends (q := s.stuck = false) (forEach_ends (fun ch _ u hu hs => ?_) _
        (h0 a) id)) d⟩
      exact (putchar_closed cl (hP.cursor rfl) hc ch u hu hs).andThen fun _ w hw hws => ⟨hw, hws⟩
    · cases d
  | defglyph =>
    obtain ⟨a, b, e, d⟩ := op _ _ _ h fun u hu _ => noResult_ends (cl.defineGlyph _ _ u hu).weaken
    exact ⟨a, b, fun _ => e rfl, d⟩
  | readchar x y =>
    obtain ⟨a, b, e, d⟩ := op _ _ _ h fun u hu _ =>
      withResult_ends (atCell_ends (.inl trivial) fun a _ => (cl.readDataRam a u hu).weaken)
    exact ⟨a, b, fun _ => e rfl, d⟩
  | readram a =>
    obtain ⟨a, b, e, d⟩ := op _ _ _ h fun u hu _ => withResult_ends (cl.readDataRam a u hu).weaken
    exact ⟨a, b, fun _ => e rfl, d⟩
  | scroll =>
    obtain ⟨a, b, e, d⟩ := op _ _ _ h fun u hu hs => noResult_ends (scrollUp_ends cl hc u hu hs).weaken
    exact ⟨a, b, fun _ => e rfl, d⟩
  | intensity l =>
    obtain ⟨a, b, e, d⟩ := op _ _ _ h fun u hu _ => noResult_ends (cl.sendCommand _ u hu).weaken
    exact ⟨a, b, fun _ => e rfl, d⟩
  | cmdClear | cmdEntryInc | cmdDisplay | cmdFs8 | fsReal | cmdSetCgram | cmdSetDdram | commandWrite | dataWrite
  | statusRead | dataRead => cases hi

/-- The state of the engine before a bus transaction and what the transaction makes of it (R100, R141, R142). -/
theorem exec_transaction {i : Instr} {s t : State} (hi : i.space = .busTransaction) (h : exec i s = .next t) :
    s.busyOp = false ∧ ∃ u, ((∃ rs b, u = busWrite rs b s) ∨ ∃ rs, u = (busRead rs s).2) ∧
      ((u.stuck = false ∧ t = u) ∨ (u.stuck = true ∧ t = { u with busyOp := true, hang := some .settle })) := by
  have tr : ∀ u, ((∃ rs b, u = busWrite rs b s) ∨ ∃ rs, u = (busRead rs s).2) → transaction s u = .next t →
      s.busyOp = false ∧ ∃ u, ((∃ rs b, u = busWrite rs b s) ∨ ∃ rs, u = (busRead rs s).2) ∧
      ((u.stuck = false ∧ t = u) ∨ (u.stuck = true ∧ t = { u with busyOp := true, hang := some .settle })) := by
    intro u hu hn
    unfold transaction at hn
    split at hn
    · cases hn
    · refine ⟨by simpa using ‹¬ s.busyOp = true›, u, hu, ?_⟩
      split at hn
      · cases hn; exact .inr ⟨‹_›, rfl⟩
      · cases hn; exact .inl ⟨Bool.eq_false_iff.2 ‹_›, rfl⟩
  cases i with
  | commandWrite v => exact tr _ (.inl ⟨_, _, rfl⟩) h
  | dataWrite v => exact tr _ (.inl ⟨_, _, rfl⟩) h
  | statusRead => exact tr _ (.inr ⟨_, rfl⟩) h
  | dataRead => exact tr _ (.inr ⟨_, rfl⟩) h
  | init | clear | locate | cursor | putc | puts | defglyph | readchar | readram | scroll | intensity | cmdClear
  | cmdEntryInc | cmdDisplay | cmdFs8 | fsReal | cmdSetCgram | cmdSetDdram => cases hi

/-- A write transaction of an idle engine while settle delays return. -/
theorem exec_write {s : State} (rs : Level) (v : Byte) (hb : s.busyOp = false) (h : s.env.delays.settle = .all) :
    exec (if rs then .dataWrite v else .commandWrite v) s = .next (busWrite rs v s) := by
  have hst := stuck_all (busWrite_settle rs v h)
  cases rs <;>
    simp [Machine.exec, execDataWrite, execCommandWrite, transaction, hb, hst]

/-- A read transaction of an idle engine while settle delays return. -/
theorem exec_read {s : State} (rs : Level) (hb : s.busyOp = false) (h : s.env.delays.settle = .all) :
    exec (if rs then .dataRead else .statusRead) s = .next (busRead rs s).2 := by
  have hst : (busRead rs s).2.stuck = false := stuck_all (by rw [busRead_eq rs h]; simpa using h)
  cases rs
  · simp [Machine.exec, execStatusRead, statusRead, transaction, hb, hst]
  · simp [Machine.exec, execDataRead, transaction, hb, hst]

/-- A controller command gives a next state, and changes the controller alone. -/
theorem exec_command {i : Instr} (s : State) (hi : i.space = .controllerCommand) :
    ∃ k : Ctl, exec i s = .next { s with env := { s.env with ctl := k } } := by
  cases i with
  | cmdClear | cmdEntryInc | cmdDisplay | cmdFs8 | fsReal | cmdSetCgram | cmdSetDdram => exact ⟨_, rfl⟩
  | init | clear | locate | cursor | putc | puts | defglyph | readchar | readram | scroll | intensity | commandWrite
  | dataWrite | statusRead | dataRead => cases hi

/-- A property of what no micro-operation of INIT touches, but INITED, is kept by it. -/
theorem boot_of_apart {P : State → Prop} (h : ∀ s p hi e, P s → P { s with pins := p, hist := hi, env := e })
    (hi : ∀ s, P s → P { s with inited := true }) : ClosedBoot P P :=
  have cl := lineClosed_of_apart h
  { toClosed := cl.closed
    force := fun s hs => cl.line _ _ _ (cl.dir _ _ (cl.line _ _ _ (cl.line _ _ _ (cl.dir _ s hs))))
    raw := fun b s hs => cl.rawWrite b s hs
    byte := fun b s hs => cl.writeByte b s hs
    delayed := fun _ v s _ _ hs => h s s.pins _ v hs
    leave := fun _ hs => hs
    settled := fun s hs => h s s.pins s.hist _ hs
    inited := fun s hs _ => hi s hs }

/-- The line operations leave `settled` alone. -/
theorem settled_closed : LineClosed fun s => s.env.settled = true where
  line n l s h := by
    unfold setControlLine
    split
    · exact h
    · cases n with
      | rs => exact h
      | rw => exact h
      | e =>
        unfold commandLine State.strobed
        dsimp only
        split
        · split
          · exact (endRead_kept s.pins.rs s.env).2.2.1.trans h
          · exact (Env.takeStrobe_kept _ _ _ s.env).1.trans h
        · exact h
  dir d s h := by unfold setBusDirection; split <;> exact h
  drive v s h := by unfold drive; split <;> exact h
  sample part s h := by
    unfold sampleLines
    split
    · exact h
    · exact (answer_kept s.cfg s.pins.rs part s.env).2.2.1.trans h

/-- Two properties that the transactions keep, together. -/
theorem Closed.and {P Q : State → Prop} (hP : Closed P) (hQ : Closed Q) : Closed fun s => P s ∧ Q s :=
  ⟨fun rs b s h => ⟨hP.write rs b s h.1, hQ.write rs b s h.2⟩, fun rs s h => ⟨hP.read rs s h.1, hQ.read rs s h.2⟩⟩

/-- The configuration is carried through every micro-operation (R35). -/
theorem carried (s : State) : Carried (fun t => t.cfg = s.cfg) s.cfg where
  closed := (cfg_closed s).closed
  cursor := fun _ _ _ h => h
  cfg := fun _ h => h

theorem boot_cfg (s : State) : ClosedBoot (fun t => t.cfg = s.cfg) (fun t => t.cfg = s.cfg) :=
  boot_of_apart (fun _ _ _ _ h => h) fun _ h => h

/-- An accepted host operation of a well-formed packet whose cell is on the panel gives a next state, from the resting cursor:
nothing is refused half-way (R257). -/
theorem exec_total (i : Instr) (s : State) (hi : i.space = .hostPacket) (hw : i.wellFormed = true) (hb : s.busyOp = false) (hp : presentIn s.cfg i = true) (hn : i = .init ∨ s.inited = true)
    (hr : inRange s.cfg i = true) (hc : s.cursorOk = true) : ∃ t, exec i s = .next t := by
  have cl := (carried s).closed
  simp only [State.cursorOk, Bool.and_eq_true, decide_eq_true_eq] at hc
  have hrest : Rest (fun t => t.cfg = s.cfg) s.cfg { s with busyOp := true } := ⟨rfl, hc⟩
  have op : ∀ present initFirst body, present = true → (initFirst = false ∨ s.inited = true) →
      (body { s with busyOp := true }).Ends (s.stuck = false) False (fun t => t.cfg = s.cfg) →
      ∃ t, accept s present initFirst (runOp s body) = .next t := by
    intro p f body h1 h2 h3
    rw [accept_ok hb h1 h2]; exact runOp_total h3
  cases i with
  | init =>
    exact op true false _ rfl (.inl rfl)
      (noResult_ends (initSequence_ends (boot_cfg s) (cl.and settled_closed.closed) _ rfl))
  | clear => exact op _ _ _ hp (.inr (hn.resolve_left nofun)) (noResult_ends (cl.sendCommand _ _ rfl))
  | locate x y =>
    simp only [inRange, Bool.and_eq_true, decide_eq_true_eq] at hr
    exact op _ _ _ hp (.inr (hn.resolve_left nofun))
        (noResult_ends (atCell_ends (.inr hr) fun a _ => cl.sendCommand _ _ rfl))
  | cursor x y => exact op _ _ _ hp (.inr (hn.resolve_left nofun)) (noResult_ends (cl.sendCommand _ _ rfl))
  | putc ch =>
    exact op _ _ _ hp (.inr (hn.resolve_left nofun))
      (withResult_ends ((ends2_ends (putchar_ends (carried s) ch hrest id)).mono fun t h => h.1))
  | puts text =>
    have ht : textOk text = true := hw
    show ∃ t, accept s true true (if textOk text then _ else _) = .next t
    rw [ht, if_pos rfl]
    refine op _ _ _ hp (.inr (hn.resolve_left nofun)) (noResult_ends ((forEach_ends (P :=
        Rest (fun t => t.cfg = s.cfg) s.cfg) (fun ch _ u hu hs => ?_) _ hrest id).mono fun t h => h.1))
    exact (ends2_ends (putchar_ends (carried s) ch hu hs)).andThen fun _ w hw hws => ⟨hw, hws⟩
  | defglyph => exact op _ _ _ hp (.inr (hn.resolve_left nofun)) (noResult_ends (cl.defineGlyph _ _ _ rfl))
  | readchar x y =>
    simp only [inRange, Bool.and_eq_true, decide_eq_true_eq] at hr
    exact op _ _ _ hp (.inr (hn.resolve_left nofun))
        (withResult_ends (atCell_ends (.inr hr) fun a _ => cl.readDataRam _ _ rfl))
  | readram a => exact op _ _ _ hp (.inr (hn.resolve_left nofun)) (withResult_ends (cl.readDataRam _ _ rfl))
  | scroll => exact op _ _ _ hp (.inr (hn.resolve_left nofun)) (noResult_ends (scrollUp_ends cl (fun _ h => h) _ rfl id))
  | intensity l => exact op _ _ _ hp (.inr (hn.resolve_left nofun)) (noResult_ends (cl.sendCommand _ _ rfl))
  | cmdClear | cmdEntryInc | cmdDisplay | cmdFs8 | fsReal | cmdSetCgram | cmdSetDdram | commandWrite | dataWrite
  | statusRead | dataRead => cases hi

/-- Every host operation begins with the checks of R257. -/
theorem exec_accept {i : Instr} {s : State} (hi : i.space = .hostPacket) : ∃ go,
    exec i s = accept s (presentIn s.cfg i) (decide (i ≠ .init)) go := by
  cases i with
  | init => exact ⟨_, rfl⟩
  | clear | locate | cursor | putc | puts | defglyph | readchar | readram | scroll | intensity => exact ⟨_, rfl⟩
  | cmdClear | cmdEntryInc | cmdDisplay | cmdFs8 | fsReal | cmdSetCgram | cmdSetDdram | commandWrite | dataWrite
  | statusRead | dataRead => cases hi

/-- What no micro-operation of a host operation but the cursor's own writes: `t` is `s` but for the cursor, the pins, the
history, the environment, and INITED, which only rises. -/
def Operated (s t : State) : Prop :=
  t = { s with cx := t.cx, cy := t.cy, pins := t.pins, inited := t.inited, hist := t.hist, env := t.env } ∧
    s.hist <+: t.hist ∧ (s.inited = true → t.inited = true)

/-- The line operations only add to the history. -/
theorem hist_closed (s : State) : LineClosed fun t => s.hist <+: t.hist where
  line n l t h := by
    unfold setControlLine
    split
    · exact h
    · refine h.trans ?_
      have : (commandLine n l t).hist = t.hist ++ [.ctl n l] := by
        cases n with
        | rs => rfl
        | rw => rfl
        | e =>
          unfold commandLine State.strobed
          dsimp only
          split
          · split <;> rfl
          · rfl
      exact this ▸ List.prefix_append _ _
  dir d t h := by unfold setBusDirection; split; exacts [h, h.trans (List.prefix_append _ _)]
  drive v t h := by unfold drive; split; exacts [h, h.trans (List.prefix_append _ _)]
  sample part t h := by unfold sampleLines; split; exacts [h, h.trans (List.prefix_append _ _)]

theorem operated_kept (i : Instr) (s : State) : Kept i (Operated s) := by
  -- the parts of `Operated` that look at the history and those that do not
  have apart : LineClosed fun t => t = { s with
      cx := t.cx, cy := t.cy, pins := t.pins, inited := t.inited, hist := t.hist, env := t.env } ∧
        (s.inited = true → t.inited = true) :=
    lineClosed_of_apart fun t _ _ _ h => ⟨by rw [h.1], h.2⟩
  have line : LineClosed (Operated s) := by
    constructor
    · intro n l t h; exact ⟨(apart.line n l t ⟨h.1, h.2.2⟩).1, (hist_closed s).line n l t h.2.1, (apart.line n l t ⟨h.1, h.2.2⟩).2⟩
    · intro d t h; exact ⟨(apart.dir d t ⟨h.1, h.2.2⟩).1, (hist_closed s).dir d t h.2.1, (apart.dir d t ⟨h.1, h.2.2⟩).2⟩
    · intro v t h; exact ⟨(apart.drive v t ⟨h.1, h.2.2⟩).1, (hist_closed s).drive v t h.2.1, (apart.drive v t ⟨h.1, h.2.2⟩).2⟩
    · intro part t h
      exact ⟨(apart.sample part t ⟨h.1, h.2.2⟩).1, (hist_closed s).sample part t h.2.1, (apart.sample part t ⟨h.1, h.2.2⟩).2⟩
  refine ⟨line.closed, fun _ t x y ⟨h1, h2, h3⟩ => ⟨by rw [h1]; rfl, h2, h3⟩, fun _ => ⟨⟨Operated s, ?_⟩,
    line.closed.and settled_closed.closed⟩⟩
  exact
    { toClosed := line.closed
      force := fun t h => line.line _ _ _ (line.dir _ _ (line.line _ _ _ (line.line _ _ _ (line.dir _ t h))))
      raw := fun b t h => line.rawWrite b t h
      byte := fun b t h => line.writeByte b t h
      delayed := fun ms v t _ _ ⟨h1, h2, h3⟩ => ⟨by rw [h1]; rfl, h2.trans (List.prefix_append _ _), h3⟩
      leave := fun t h => h
      settled := fun t ⟨h1, h2, h3⟩ => ⟨by rw [h1]; rfl, h2, h3⟩
      inited := fun t ⟨h1, h2, h3⟩ _ => ⟨by rw [h1], h2, fun _ => rfl⟩ }

end Sys2Proof.Machine
end

