-- ==== Sys2Proof/Laws/AlikeExec.lean ====
section
/-!
SUPPORT. Instructions in related states: a relation that the line operations and the engine's own writes keep is kept by every
instruction but the controller commands. With it: an instruction that ends unstuck ends as if all settle delays returned
(R262), and an unconstrained controller is not seen (R60).
-/
namespace Sys2Proof.Machine

/-- What the line operations and the engine's own writes keep; nothing the engine reads of itself differs. -/
structure AlikeAll (esc : Prop) (R : State → State → Prop) : Prop extends Alike esc R where
  setCursor : ∀ x y s' s, R s' s → R (s'.setCursor x y) (s.setCursor x y)
  same : ∀ s' s, R s' s → ¬ Lost esc s →
    s'.cx = s.cx ∧ s'.cy = s.cy ∧ s'.busyOp = s.busyOp ∧ s'.inited = s.inited ∧ s'.rsp = s.rsp
  delay : ∀ s' s, R s' s → ¬ Lost esc s → (s'.env.delay = none ∧ s.env.delay = none) ∨
    ∃ v' v, s'.env.delay = some v' ∧ s.env.delay = some v ∧
      ∀ ms, R ({ s' with env := v' }.emit (.delayMs ms)) ({ s with env := v }.emit (.delayMs ms))
  settled : ∀ s' s, R s' s → R (markSettled s') (markSettled s)
  inited : ∀ s' s, R s' s → R { s' with inited := true } { s with inited := true }
  busy : ∀ b s' s, R s' s → R { s' with busyOp := b } { s with busyOp := b }
  respond : ∀ r s' s, R s' s → R { s' with rsp := r } { s with rsp := r }

namespace AlikeAll

variable {esc : Prop} {R : State → State → Prop} (hR : AlikeAll esc R)
include hR

theorem delayMs (ms : Nat) (s' s : State) (h : R s' s) : (delayMs ms s').Alike esc R (delayMs ms s) := by
  refine Ran.Alike.bind (hR.unlessStuck h fun _ => rfl) fun _ t' t ht hl => ?_
  rcases hR.delay _ _ ht hl with ⟨e', e⟩ | ⟨v', v, e', e, hv⟩
  · rw [e', e]; exact .inr ⟨_, rfl, hR.hang _ _ _ ht⟩
  · have hst : ¬ Lost esc ({ t with env := v }.emit (.delayMs ms)) := fun g =>
      hl ⟨g.1, by simpa [State.stuck, State.emit, Env.delay_settle e] using g.2⟩
    rw [e', e]; exact ⟨hst, _, rfl, hv ms⟩

theorem initSequence (s' s : State) (h : R s' s) : (initSequence s').Alike esc R (initSequence s) := by
  have raw : ∀ b ms t' t, R t' t → (thenDelay (rawWrite b) ms t').Alike esc R (thenDelay (rawWrite b) ms t) :=
    fun b ms t' t ht => hR.delayMs ms _ _ (hR.rawWrite b _ _ ht)
  have byte : ∀ b ms t' t, R t' t → (thenDelay (writeByte b) ms t').Alike esc R (thenDelay (writeByte b) ms t) :=
    fun b ms t' t ht => hR.delayMs ms _ _ (hR.writeByte b _ _ ht)
  have force : R (forceWriteMode s') (forceWriteMode s) :=
    hR.line _ _ _ _ (hR.dir _ _ _ (hR.line _ _ _ _ (hR.line _ _ _ _ (hR.dir _ _ _ h))))
  have h1 : (initStep1 s').Alike esc R (initStep1 s) :=
    (raw _ _ _ _ force).bind fun _ _ _ ht _ => (raw _ _ _ _ ht).bind fun _ _ _ hu _ => raw _ _ _ _ hu
  have h2 : ∀ t' t, R t' t → (initStep2 t').Alike esc R (initStep2 t) := by
    intro t' t ht
    unfold initStep2
    rw [hR.cfg _ _ ht]
    refine (raw _ _ _ _ ht).bind fun _ u' u hu _ => ?_
    rw [hR.cfg _ _ hu]
    refine (byte _ _ _ _ hu).bind fun _ w' w hw _ => ?_
    rw [hR.cfg _ _ hw]
    exact byte _ _ _ _ hw
  exact h1.bind fun _ _ _ ht _ => (h2 _ _ ht).bind fun _ _ _ hu _ =>
    Ran.Alike.bind ((hR.sendCommand _ _ _ (hR.settled _ _ hu)).bind fun _ _ _ ha _ =>
      (hR.sendCommand _ _ _ ha).bind fun _ _ _ hb _ => hR.sendCommand _ _ _ hb) fun _ _ _ hw hl =>
        ⟨fun g => hl ⟨g.1, g.2⟩, _, rfl, hR.inited _ _ hw⟩

theorem pastRow {s' s : State} (h : R s' s) (hl : ¬ Lost esc s) : Machine.pastRow s' = Machine.pastRow s := by
  unfold Machine.pastRow; rw [hR.cfg _ _ h, (hR.same _ _ h hl).2.1]

theorem foldRow (s' s : State) (h : R s' s) (hl : ¬ Lost esc s) : (foldRow s').Alike esc R (foldRow s) := by
  unfold Machine.foldRow
  rw [hR.pastRow h hl, hR.cfg _ _ h]
  split
  · split
    · refine (hR.scrollUp _ _ h hl).bind fun _ t' t ht htl => ?_
      rw [hR.cfg _ _ ht, (hR.same _ _ ht htl).1]
      exact ⟨htl, _, rfl, hR.setCursor _ _ _ _ ht⟩
    · rw [(hR.same _ _ h hl).1]
      exact ⟨hl, _, rfl, hR.setCursor _ _ _ _ h⟩
  · exact ⟨hl, _, rfl, h⟩

theorem addressCursor (s' s : State) (h : R s' s) (hl : ¬ Lost esc s) :
    (addressCursor s').Alike esc R (addressCursor s) := by
  obtain ⟨hx, hy, -⟩ := hR.same _ _ h hl
  unfold Machine.addressCursor addressCell
  rw [hx, hy]
  exact hR.atCell _ _ h fun a _ => hR.sendCommand _ _ _ h

theorem putByte (a : Addr7) (ch : Byte) (s' s : State) (h : R s' s) (hl : ¬ Lost esc s) :
    (putByte a ch s').Alike esc R (putByte a ch s) := by
  obtain ⟨hx, hy, -⟩ := hR.same _ _ h hl
  unfold Machine.putByte
  split
  · unfold lineFeed
    rw [hx, hy, hR.cfg _ _ h]
    exact Ran.Alike.bind (hR.foldRow _ _ (hR.setCursor _ _ s' s h) hl) fun _ _ _ ht htl => hR.addressCursor _ _ ht htl
  · split
    · unfold carriageReturn
      rw [hy]
      exact hR.addressCursor _ _ (hR.setCursor _ _ _ _ h) hl
    · refine (hR.storeAt a ch _ _ h).bind fun _ t' t ht htl => ?_
      obtain ⟨hx, hy, -⟩ := hR.same _ _ ht htl
      rw [hx, hy]
      exact ⟨htl, _, rfl, hR.setCursor _ _ _ _ ht⟩

theorem wrap (a : Addr7) (s' s : State) (h : R s' s) (hl : ¬ Lost esc s) : (wrap a s').Alike esc R (wrap a s) := by
  obtain ⟨hx, hy, -⟩ := hR.same _ _ h hl
  unfold Machine.wrap pastColumn
  rw [hx, hy, hR.cfg _ _ h]
  split
  · exact hR.sendCommand _ _ _ (hR.setCursor _ _ _ _ h)
  · exact ⟨hl, _, rfl, h⟩

theorem putchar (ch : Byte) (s' s : State) (h : R s' s) (hl : ¬ Lost esc s) :
    (putchar ch s').Alike esc R (putchar ch s) := by
  unfold Machine.putchar
  refine (hR.foldRow _ _ h hl).bind fun _ t' t ht htl => ?_
  obtain ⟨hx, hy, -⟩ := hR.same _ _ ht htl
  rw [hx, hy]
  exact hR.atCell _ _ ht fun a _ => (hR.putByte a ch _ _ ht htl).bind fun _ _ _ hu hul =>
    (hR.wrap a _ _ hu hul).bind fun _ _ _ hw hwl => ⟨hwl, _, rfl, hw⟩

end AlikeAll

/-- Two answers alike. -/
def AnswerAlike (esc : Prop) (R : State → State → Prop) (a' a : Answer) : Prop :=
  match a with
  | .next t => Lost esc t ∨ ∃ t', a' = .next t' ∧ R t' t
  | .fault f => a' = .fault f
  | .refused r => a' = .refused r

/-- Every instruction but a controller command, in related states: related next states, or the same refusal. -/
theorem AlikeAll.exec {esc : Prop} {R : State → State → Prop} (hR : AlikeAll esc R) {i : Instr}
    (hi : i.space ≠ .controllerCommand) (s' s : State) (h : R s' s) (hl : ¬ Lost esc s) :
    AnswerAlike esc R (Machine.exec i s') (Machine.exec i s) := by
  obtain ⟨hx, hy, hb, hn, hr⟩ := hR.same _ _ h hl
  have hc := hR.cfg _ _ h
  have run : ∀ body' body, (body' { s' with busyOp := true }).Alike esc R (body { s with busyOp := true }) →
      AnswerAlike esc R (runOp s' body') (runOp s body) := by
    intro body' body hbody
    unfold runOp
    cases hrun : body { s with busyOp := true } with
    | done r t =>
      rw [hrun] at hbody
      obtain ⟨htl, t', e, ht⟩ := hbody
      rw [e]
      refine .inr ⟨_, rfl, ?_⟩
      rw [(hR.same _ _ ht htl).2.2.2.2]
      exact hR.respond (t.rsp ++ r.toList) _ _ (hR.busy false _ _ ht)
    | hung t =>
      rw [hrun] at hbody
      rcases hbody with hl | ⟨t', e, ht⟩
      · exact .inl hl
      · rw [e]; exact .inr ⟨_, rfl, ht⟩
    | stop q => rw [hrun] at hbody; rw [show body' { s' with busyOp := true } = .stop q from hbody]; rfl
  have acc : ∀ p f go' go, AnswerAlike esc R go' go → AnswerAlike esc R (accept s' p f go') (accept s p f go) := by
    intro p f go' go hg
    unfold accept
    rw [hb, hn]
    split
    · rfl
    · split
      · rfl
      · split
        · rfl
        · exact hg
  have hs : R { s' with busyOp := true } { s with busyOp := true } := hR.busy _ _ _ h
  have silent : ∀ {r' r : Ran Unit}, r'.Alike esc R r → (noResult r').Alike esc R (noResult r) := fun h =>
    h.bind fun _ _ _ ht htl => ⟨htl, _, rfl, ht⟩
  have answering : ∀ {r' r : Ran Byte}, r'.Alike esc R r → (withResult r').Alike esc R (withResult r) := fun h =>
    h.bind fun _ _ _ ht htl => ⟨htl, _, rfl, ht⟩
  have tr : ∀ t' t, R t' t → AnswerAlike esc R (transaction s' t') (transaction s t) := by
    intro t' t ht
    unfold transaction
    rw [hb]
    split
    · rfl
    · by_cases htl : Lost esc t
      · rw [if_pos htl.2]; exact .inl htl
      · rw [hR.stuck _ _ ht htl]
        split
        · exact .inr ⟨_, rfl, hR.hang (some .settle) _ _ (hR.busy true _ _ ht)⟩
        · exact .inr ⟨_, rfl, ht⟩
  cases i with
  | init => exact acc _ _ _ _ (run _ _ (silent (hR.initSequence _ _ hs)))
  | clear => exact acc _ _ _ _ (run _ _ (silent (hR.sendCommand _ _ _ hs)))
  | locate x y => exact acc _ _ _ _ (run _ _ (silent (hR.atCell _ _ hs fun a _ => hR.sendCommand _ _ _ (hR.setCursor _ _ _ _ hs))))
  | cursor c b => exact acc _ _ _ _ (run _ _ (silent (hR.sendCommand _ _ _ hs)))
  | putc ch => exact acc _ _ _ _ (run _ _ (answering (hR.putchar ch _ _ hs hl)))
  | puts text =>
    refine acc _ _ _ _ ?_
    split
    · refine run _ _ (silent (forEach_alike (fun ch t' t ht htl => ?_) _ _ hs hl))
      exact (hR.putchar ch _ _ ht htl).bind fun _ _ _ hu hul => ⟨hul, _, rfl, hu⟩
    · rfl
  | defglyph code b0 b1 b2 b3 b4 b5 b6 b7 =>
    unfold Machine.exec execDefglyph; rw [hc]; exact acc _ _ _ _ (run _ _ (silent (hR.defineGlyph _ _ _ _ hs)))
  | readchar x y =>
    unfold Machine.exec execReadchar; rw [hc]
    exact acc _ _ _ _ (run _ _ (answering (hR.atCell _ _ hs fun a _ => hR.readDataRam a _ _ hs)))
  | readram a => unfold Machine.exec execReadram; rw [hc]; exact acc _ _ _ _ (run _ _ (answering (hR.readDataRam a _ _ hs)))
  | scroll => unfold Machine.exec execScroll; rw [hc]; exact acc _ _ _ _ (run _ _ (silent (hR.scrollUp _ _ hs hl)))
  | intensity l =>
    have hf : functionSetByte s'.cfg l = functionSetByte s.cfg l := by rw [hc]
    have hg : s'.cfg.hasIntensity = s.cfg.hasIntensity := by rw [hc]
    unfold Machine.exec execIntensity
    rw [hg]
    refine acc _ _ _ _ (run _ _ (silent ?_))
    show Ran.Alike esc R (sendCommand (functionSetByte s'.cfg l) _) (sendCommand (functionSetByte s.cfg l) _)
    rw [hf]
    exact hR.sendCommand _ _ _ hs
  | commandWrite v => exact tr _ _ (hR.busWrite _ _ _ _ h)
  | dataWrite v => exact tr _ _ (hR.busWrite _ _ _ _ h)
  | statusRead => exact tr _ _ (hR.busRead _ _ _ h)
  | dataRead => exact tr _ _ (hR.busRead _ _ _ h)
  | cmdClear | cmdEntryInc | cmdDisplay | cmdFs8 | fsReal | cmdSetCgram | cmdSetDdram => exact absurd rfl hi

/-- Every settle delay returns, or the engine is stuck. -/
theorem settled_alikeAll : AlikeAll True Settled where
  toAlike := settled_alike
  setCursor x y s' s h := by
    rcases h with ⟨hc, hs | rfl⟩
    · exact ⟨hc, .inl hs⟩
    · exact ⟨hc, .inr rfl⟩
  same s' s h hl := by
    obtain rfl := h.2.resolve_left fun hs => hl ⟨trivial, hs⟩
    exact ⟨rfl, rfl, rfl, rfl, rfl⟩
  delay s' s h hl := by
    obtain rfl := h.2.resolve_left fun hs => hl ⟨trivial, hs⟩
    unfold Env.delay
    rw [show (s.withSettle .all).env.delays.ms = s.env.delays.ms from rfl]
    split
    · exact .inr ⟨_, _, rfl, rfl, fun ms => ⟨rfl, .inr rfl⟩⟩
    · exact .inl ⟨rfl, rfl⟩
    · exact .inr ⟨_, _, rfl, rfl, fun ms => ⟨rfl, .inr rfl⟩⟩
  settled s' s h := by
    rcases h with ⟨hc, hs | rfl⟩
    · exact ⟨hc, .inl hs⟩
    · exact ⟨hc, .inr rfl⟩
  inited s' s h := by
    rcases h with ⟨hc, hs | rfl⟩
    · exact ⟨hc, .inl hs⟩
    · exact ⟨hc, .inr rfl⟩
  busy b s' s h := by
    rcases h with ⟨hc, hs | rfl⟩
    · exact ⟨hc, .inl hs⟩
    · exact ⟨hc, .inr rfl⟩
  respond r s' s h := by
    rcases h with ⟨hc, hs | rfl⟩
    · exact ⟨hc, .inl hs⟩
    · exact ⟨hc, .inr rfl⟩

/-- Nothing of the engine's own reads what the model holds of an unconstrained controller. -/
theorem controller_alikeAll (k : Ctl) : AlikeAll False (OtherCtl k) where
  toAlike := controller_alike k
  setCursor x y s' s h := ⟨h.1, by rw [h.2]; rfl⟩
  same s' s h _ := by rw [h.2]; exact ⟨rfl, rfl, rfl, rfl, rfl⟩
  delay s' s h _ := by
    obtain ⟨hp, rfl⟩ := h
    unfold Env.delay
    dsimp only
    split
    · exact .inr ⟨_, _, rfl, rfl, fun ms => ⟨hp, rfl⟩⟩
    · exact .inl ⟨rfl, rfl⟩
    · exact .inr ⟨_, _, rfl, rfl, fun ms => ⟨hp, rfl⟩⟩
  settled s' s h := ⟨h.1, by rw [h.2]; rfl⟩
  inited s' s h := ⟨h.1, by rw [h.2]⟩
  busy b s' s h := ⟨h.1, by rw [h.2]⟩
  respond r s' s h := ⟨h.1, by rw [h.2]⟩

/-- An engine stuck in a settle delay is stuck after every instruction that gives a next state. -/
theorem exec_stuck {i : Instr} {s t : State} (hs : s.stuck = true) (h : exec i s = .next t) : t.stuck = true := by
  have cl : LineClosed fun u => u.cfg = s.cfg ∧ u.stuck = true :=
    ⟨fun n l u h => ⟨(cfg_closed s).line n l u h.1, stuck_closed.line n l u h.2⟩,
      fun d u h => ⟨(cfg_closed s).dir d u h.1, stuck_closed.dir d u h.2⟩,
      fun v u h => ⟨(cfg_closed s).drive v u h.1, stuck_closed.drive v u h.2⟩,
      fun part u h => ⟨(cfg_closed s).sample part u h.1, stuck_closed.sample part u h.2⟩⟩
  have kept : Kept i fun u => u.cfg = s.cfg ∧ u.stuck = true :=
    ⟨cl.closed, fun _ u x y hu => hu, fun _ => ⟨⟨fun u => u.cfg = s.cfg ∧ u.stuck = true,
      { toClosed := cl.closed
        force := fun u hu => cl.line _ _ _ (cl.dir _ _ (cl.line _ _ _ (cl.line _ _ _ (cl.dir _ u hu))))
        raw := fun b u hu => cl.rawWrite b u hu
        byte := fun b u hu => cl.writeByte b u hu
        delayed := fun ms v u _ h hu => by rw [hu.2] at h; cases h
        leave := fun u hu => hu
        settled := fun u hu => hu
        inited := fun u hu _ => hu }⟩, cl.closed.and settled_closed.closed⟩⟩
  cases hi : i.space with
  | hostPacket =>
    obtain ⟨-, -, -, he⟩ := exec_host kept (c := s.cfg) (fun u hu => hu.1) hi h fun _ => ⟨rfl, hs⟩
    rcases he with ⟨u, r, hu, -, rfl⟩ | ⟨u, k, hu, -, rfl⟩ <;> exact hu.2
  | controllerCommand =>
    obtain ⟨k, hk⟩ := exec_command s hi
    rw [hk] at h; cases h; exact hs
  | busTransaction =>
    obtain ⟨-, u, hu, ht⟩ := exec_transaction hi h
    have hu : u.stuck = true := by
      rcases hu with ⟨rs, b, rfl⟩ | ⟨rs, rfl⟩
      · exact stuck_closed.busWrite rs b s hs
      · exact stuck_closed.busRead rs s hs
    rcases ht with ⟨-, rfl⟩ | ⟨-, rfl⟩ <;> exact hu

/-- An instruction whose settle delays return as far as it requests them answers as if all returned (R262). -/
theorem exec_unstuck {i : Instr} (hi : i.space ≠ .controllerCommand) {s t : State}
    (h : exec i s = .next t) (ht : t.stuck = false) : exec i (s.withSettle .all) = .next (t.withSettle .all) := by
  have hs : s.stuck = false := by
    cases hs : s.stuck with
    | false => rfl
    | true => rw [exec_stuck hs h] at ht; cases ht
  have := settled_alikeAll.exec hi _ s (Settled.start s) (by simp [Lost, hs])
  rw [h] at this
  obtain ⟨t', e, -, hu⟩ := this.resolve_left (by simp [Lost, ht])
  rw [e, hu.resolve_left (by simp [ht])]

/-- A refusal does not hang on the settle delays. -/
theorem exec_refused_settle {i : Instr} (hi : i.space ≠ .controllerCommand) {s : State} (hs : s.stuck = false) {r : Refusal}
    (h : exec i s = .refused r) : exec i (s.withSettle .all) = .refused r := by
  have := settled_alikeAll.exec hi _ s (Settled.start s) (by simp [Lost, hs])
  rw [h] at this
  exact this

end Sys2Proof.Machine
end

