-- ==== Sys2Proof/Laws/Boot.lean ====
section
/-!
SUPPORT. INIT's bootstrap phase, steps 1 and 2 (48_init_and_display_control.md R230 to R232): from every state of the
controller it ends in step with the engine.
-/
namespace Sys2Proof.Machine

/-- What the bootstrap keeps. -/
def BootKept (v w : Env) : Prop := w.peer = v.peer ∧ w.settled = v.settled ∧ w.busyAfter = v.busyAfter ∧
    w.delays = v.delays ∧ w.ctl.cgram = v.ctl.cgram
theorem BootKept.trans {u v w : Env} (h : BootKept u v) (g : BootKept v w) : BootKept u w :=
  ⟨g.1.trans h.1, g.2.1.trans h.2.1, g.2.2.1.trans h.2.2.1, g.2.2.2.1.trans h.2.2.2.1, g.2.2.2.2.trans h.2.2.2.2⟩

theorem command_cgram (c : Cfg) (b : Byte) (v : Env) : (v.command c b).ctl.cgram = v.ctl.cgram := by
  obtain ⟨t, ht⟩ := v.draw_eq
  unfold Env.command
  split_ifs
  all_goals first
    | rfl
    | (rw [ht]; rfl)

theorem takeCommand_kept (c : Cfg) {b : Byte} (hb : b ≠ 0) (v : Env) : BootKept v (v.takeByte c false b) := by
  obtain ⟨h1, h2, h3, h4⟩ := v.takeByte_kept c false b
  refine ⟨?_, h1, h3, h4, ?_⟩
  · simp only [Env.takeByte, Bool.false_eq_true, if_false]; exact Env.command_peer c hb v
  · simp only [Env.takeByte, Bool.false_eq_true, if_false]; exact command_cgram c b v

theorem seenNibble_eq (m : BusMode) (b : Byte) (v : Env) : v.seenNibble (some (linesOf m b)) = (hiNibble b, v) := by
  cases m <;> rfl

theorem seenByte_eq (m : BusMode) (b : Byte) (v : Env) : ∃ low t n,
    v.seenByte (some (linesOf m b)) = (joinNibbles (hiNibble b) low, { v with tape := t, drawn := n }) := by
  cases m with
  | bus8 => exact ⟨loNibble b, v.tape, v.drawn, by simp [linesOf, Env.seenByte]⟩
  | bus4 =>
    obtain ⟨t, ht⟩ := v.draw_eq
    exact ⟨loNibble v.draw.1, t, v.drawn + 1, by simp [linesOf, Env.seenByte, ht]⟩

-- bytes
theorem fs_byte : ∀ (h low : Nibble), (h = 3 ∨ h = 2) → (joinNibbles h low).getLsbD 7 = false ∧
    (joinNibbles h low).getLsbD 6 = false ∧ (joinNibbles h low).getLsbD 5 = true ∧
    (joinNibbles h low).getLsbD 4 = decide (h = 3) ∧ joinNibbles h low ≠ 0 := by decide
theorem stray_byte : ∀ (n : Nibble), joinNibbles n 3 ≠ 0 := by decide
theorem take_fs (c : Cfg) (h low : Nibble) (hh : h = 3 ∨ h = 2) (v : Env) :
    (v.takeByte c false (joinNibbles h low)).ctl.if8 = decide (h = 3) ∧
        (v.takeByte c false (joinNibbles h low)).ctl.phase = .hi := by
  obtain ⟨h7, h6, h5, h4, -⟩ := fs_byte h low hh
  simp only [Env.takeByte, Env.command, h7, h6, h5, h4, Env.aligned, Ctl.functionSet, Bool.false_eq_true, if_true,
      if_false, and_self]

/-- One strobe of step 1. -/
def strobeFs8 (c : Cfg) (v : Env) : Env := v.takeStrobe c false (some (linesOf c.busMode 0x30))

theorem strobe_if8 (c : Cfg) (b : Byte) (hh : hiNibble b = 3 ∨ hiNibble b = 2) (v : Env) (hp : v.peer = .reference)
    (h8 : v.ctl.if8 = true) :
    BootKept v (v.takeStrobe c false (some (linesOf c.busMode b))) ∧
        (v.takeStrobe c false (some (linesOf c.busMode b))).ctl.if8 = decide (hiNibble b = 3) ∧
      (v.takeStrobe c false (some (linesOf c.busMode b))).ctl.phase = .hi := by
  obtain ⟨low, t, n, hs⟩ := seenByte_eq c.busMode b v
  have : v.takeStrobe c false (some (linesOf c.busMode b)) = ({ v with tape := t, drawn := n } :
      Env).takeByte c false (joinNibbles (hiNibble b) low) := by
    simp [Env.takeStrobe, hp, h8, hs]
  rw [this]
  exact ⟨takeCommand_kept c (fs_byte _ low hh).2.2.2.2 _, take_fs c _ low hh _⟩

theorem strobe_hi (c : Cfg) (b : Byte) (v : Env) (hp : v.peer = .reference) (h8 : v.ctl.if8 = false) (hh :
    v.ctl.phase = .hi) :
    v.takeStrobe c false (some (linesOf c.busMode b)) = { v with ctl := { v.ctl with nib := hiNibble b, phase :=
        .lo } } := by
  simp [Env.takeStrobe, hp, h8, hh, seenNibble_eq]

theorem strobe_lo (c : Cfg) (b : Byte) (v : Env) (hp : v.peer = .reference) (h8 : v.ctl.if8 = false) (hh :
    v.ctl.phase = .lo) :
    v.takeStrobe c false (some (linesOf c.busMode b)) = v.takeByte c false (joinNibbles v.ctl.nib (hiNibble b)) := by
  simp [Env.takeStrobe, hp, h8, hh, seenNibble_eq]

/-- Three strobes of the 8-bit function set make every controller 8 bits wide (R231, R234). -/
theorem three_strobes (c : Cfg) (v : Env) (hp : v.peer = .reference) :
    BootKept v (strobeFs8 c (strobeFs8 c (strobeFs8 c v))) ∧
        (strobeFs8 c (strobeFs8 c (strobeFs8 c v))).ctl.if8 = true := by
  have A : ∀ w : Env, w.peer = .reference → w.ctl.if8 = true → BootKept w (strobeFs8 c w) ∧
      (strobeFs8 c w).ctl.if8 = true := by
    intro w hw h8
    obtain ⟨h1, h2, h3⟩ := strobe_if8 c 0x30 (.inl rfl) w hw h8
    exact ⟨h1, h2⟩
  have AA : ∀ w : Env, w.peer = .reference → w.ctl.if8 = true → BootKept w (strobeFs8 c (strobeFs8 c w)) ∧
      (strobeFs8 c (strobeFs8 c w)).ctl.if8 = true := by
    intro w hw h8
    obtain ⟨h1, h2⟩ := A w hw h8
    obtain ⟨h3, h4⟩ := A _ (h1.1.trans hw) h2
    exact ⟨h1.trans h3, h4⟩
  have BC : ∀ w : Env, w.peer = .reference → w.ctl.if8 = false → w.ctl.phase = .hi →
      BootKept w (strobeFs8 c (strobeFs8 c w)) ∧ (strobeFs8 c (strobeFs8 c w)).ctl.if8 = true := by
    intro w hw h8 hh
    have e1 : strobeFs8 c w = _ := strobe_hi c 0x30 w hw h8 hh
    rw [e1]
    have e2 : strobeFs8 c { w with ctl := { w.ctl with nib := hiNibble 0x30, phase := .lo } } = ({ w with ctl :=
        { w.ctl with nib := hiNibble 0x30, phase := .lo } } : Env).takeByte c false (joinNibbles 3 3) :=
        strobe_lo c 0x30 { w with ctl := { w.ctl with nib := hiNibble 0x30, phase := .lo } } hw h8 rfl
    rw [e2]
    obtain ⟨h1, h2⟩ := take_fs c 3 3 (.inl rfl) { w with ctl := { w.ctl with nib := hiNibble 0x30, phase := .lo } }
    exact ⟨takeCommand_kept c (by decide) { w with ctl := { w.ctl with nib := hiNibble 0x30, phase := .lo } }, h1⟩
  cases h8 : v.ctl.if8 with
  | true =>
    obtain ⟨h1, h2⟩ := A v hp h8
    obtain ⟨h3, h4⟩ := AA _ (h1.1.trans hp) h2
    exact ⟨h1.trans h3, h4⟩
  | false =>
    cases hh : v.ctl.phase with
    | hi =>
      obtain ⟨h1, h2⟩ := BC v hp h8 hh
      obtain ⟨h3, h4⟩ := A _ (h1.1.trans hp) h2
      exact ⟨h1.trans h3, h4⟩
    | lo =>
      have e1 : strobeFs8 c v = v.takeByte c false (joinNibbles v.ctl.nib 3) := strobe_lo c 0x30 v hp h8 hh
      have hk : BootKept v (strobeFs8 c v) := by rw [e1]; exact takeCommand_kept c (stray_byte _) v
      have hph : (strobeFs8 c v).ctl.phase = .hi := by rw [e1]; exact Env.takeByte_phase c false _ v
      cases h8' : (strobeFs8 c v).ctl.if8 with
      | true => obtain ⟨h3, h4⟩ := AA _ (hk.1.trans hp) h8'; exact ⟨hk.trans h3, h4⟩
      | false => obtain ⟨h3, h4⟩ := BC _ (hk.1.trans hp) h8' hph; exact ⟨hk.trans h3, h4⟩

theorem hiNibble_fsReal (c : Cfg) : hiNibble (fsRealByte c) = if c.busMode = .bus8 then 3 else 2 := by
  unfold fsRealByte functionSetByte
  generalize initIntensity c = bb
  generalize c.twoLine = n
  cases c.busMode <;> (revert bb n; decide)

/-- The environment after steps 1 and 2. -/
def bootEnv (c : Cfg) (v : Env) : Env :=
  (((strobeFs8 c (strobeFs8 c (strobeFs8 c v))).takeStrobe c false (some (linesOf c.busMode (fsRealByte c)))).written
      c false (fsRealByte c)).written c false (fsRealByte c)

/-- After steps 1 and 2 the reference controller is in step with the engine, from every state of it (R236). -/
theorem bootEnv_reference (c : Cfg) (v : Env) (hp : v.peer = .reference) :
    BootKept v (bootEnv c v) ∧ (bootEnv c v).inStep c = true ∧ (bootEnv c v).ctl.twoLine = c.twoLine ∧
        (bootEnv c v).ctl.font = false ∧
      (c.displayType = .vfd → (bootEnv c v).ctl.bright = c.vfdInitIntensity) := by
  obtain ⟨h1, h2⟩ := three_strobes c v hp
  have hn := hiNibble_fsReal c
  obtain ⟨g1, g2, g3⟩ := strobe_if8 c (fsRealByte c) (by rw [hn]; split <;> simp) _ (h1.1.trans hp) h2
  have k1 := h1.trans g1
  unfold bootEnv
  generalize hw : ((strobeFs8 c (strobeFs8 c (strobeFs8 c v))).takeStrobe c false (some (linesOf c.busMode
      (fsRealByte c)))) = w at *
  have hwp : w.peer = .reference := k1.1.trans hp
  have hin : w.inStep c = true := by
    simp only [Env.inStep, hwp, g3, g2, hn]
    cases c.busMode <;> decide
  have fsb := functionSetByte_bits c (initIntensity c)
  have one : ∀ u : Env, u.peer = .reference → u.inStep c = true → BootKept u (u.written c false (fsRealByte c)) ∧
      (u.written c false (fsRealByte c)).inStep c = true ∧
      (u.written c false (fsRealByte c)).ctl.twoLine = c.twoLine ∧
          (u.written c false (fsRealByte c)).ctl.font = false ∧ (c.displayType = .vfd →
          (u.written c false (fsRealByte c)).ctl.bright = c.vfdInitIntensity) := by
    intro u hu hui
    obtain ⟨⟨a1, a2, a3, a4, -⟩, b⟩ := Env.written_done hui false (fsRealByte c) (.inr fsb.2.2.2.2.2.2.2)
    have b := b hu
    have hr : u.reacted c false (fsRealByte c) = u.ctl.functionSet c.displayType (decide (c.busMode = .bus8))
        c.twoLine false (initIntensity c) := by
      simp only [Env.reacted, Bool.false_eq_true, if_false]
      show (u.command c (functionSetByte c (initIntensity c))).ctl = _
      rw [command_functionSet]
    rw [hr] at b
    refine ⟨⟨a1, a2, a3, a4, by rw [b]; rfl⟩, Env.written_inStep hui false _ (.inr (keepsWidth_functionSet c _)),
        by rw [b]; rfl, by rw [b]; rfl, fun hv => ?_⟩
    rw [b]; simp [Ctl.functionSet, hv, initIntensity]
  obtain ⟨q1, q2, -⟩ := one w hwp hin
  obtain ⟨r1, r2, r3⟩ := one _ (q1.1.trans hwp) q2
  exact ⟨(k1.trans q1).trans r1, r2, r3⟩

theorem bootEnv_unconstrained (c : Cfg) (v : Env) (hp : v.peer = .unconstrained) : bootEnv c v = v := by
  have h1 : ∀ l, v.takeStrobe c false l = v := fun l => by simp [Env.takeStrobe, hp]
  have h2 : v.written c false (fsRealByte c) = v := (v.written_kept c false _).2.2.2.2 hp
  simp [bootEnv, strobeFs8, h1, h2]

/-! ## The run of steps 1 and 2 -/

/-- The environment after `n` millisecond delays have returned. -/
def Env.waited (n : Nat) (v : Env) : Env := v.withDelays { v.delays with ms := v.delays.ms.map (· - n) }

theorem waited_settle (n : Nat) (v : Env) : (v.waited n).delays.settle = v.delays.settle := rfl

theorem waited_none (n : Nat) {v : Env} (h : v.delays.ms = none) : v.waited n = v := by
  unfold Env.waited Env.withDelays; rw [h, Option.map_none, ← h]

theorem waited_takeStrobe (n : Nat) (c : Cfg) (rs : Level) (l : Option Lines) (v : Env) :
    (v.waited n).takeStrobe c rs l = (v.takeStrobe c rs l).waited n := by
  unfold Env.waited
  rw [(takeStrobe_blind _ c rs l v).1, takeStrobe_delays]

theorem waited_written (n : Nat) (c : Cfg) (rs : Level) (b : Byte) (v : Env) :
    (v.waited n).written c rs b = (v.written c rs b).waited n := by
  unfold Env.written; split <;> simp only [waited_takeStrobe]

theorem waited_waited (n m : Nat) (v : Env) : (v.waited n).waited m = v.waited (n + m) := by
  simp only [Env.waited, Env.withDelays, Option.map_map, Function.comp_def, Nat.sub_sub]

/-- A millisecond delay while settle delays return: it hangs where it is the one that never returns, or it completes. -/
theorem delayMs_all (ms : Nat) {s : State} (h : s.env.delays.settle = .all) :
    delayMs ms s = if s.env.delays.ms = some 0 then .hung { s with hang := some .delay }
      else .done () ({ s with env := s.env.waited 1 }.emit (.delayMs ms)) := by
  unfold delayMs
  rw [unlessStuck_all () h]
  cases hm : s.env.delays.ms with
  | none => simp [Ran.bind, Env.delay, hm, waited_none 1 hm]
  | some n => cases n <;> simp [Ran.bind, Env.delay, hm, Env.waited, Env.withDelays]

/-- A state of the bootstrap phase: the pins between two transfers. -/
def St (s : State) (h : List Event) (e : Env) (d : Lines) : State :=
  { s with pins := ⟨false, false, false, d, .output⟩, hist := h, env := e }

/-- A write of the bootstrap phase, and its delay: the write's state, then the delay's. -/
def bootWrite (s : State) (evs h : List Event) (e : Env) (d : Lines) (ms : Nat) : Ran Unit :=
  if e.delays.ms = some 0 then .hung { St s (h ++ evs) e d with hang := some .delay }
  else .done () (St s (h ++ evs ++ [.delayMs ms]) (e.waited 1) d)

theorem raw_runs (s : State) (h : List Event) (e : Env) (d : Lines) (b : Byte) (ms : Nat) (hd : e.delays.settle = .all) :
    thenDelay (rawWrite b) ms (St s h e d) = bootWrite s (rawWriteEvents s.cfg.busMode b) h
      (e.takeStrobe s.cfg false (some (linesOf s.cfg.busMode b))) (linesOf s.cfg.busMode b) ms := by
  have hs : (St s h e d).env.delays.settle = .all := hd
  unfold thenDelay
  rw [rawWrite_eq b hs rfl, delayMs_all _ (by simpa [St] using hd)]
  rfl

theorem byte_runs (s : State) (h : List Event) (e : Env) (d : Lines) (b : Byte) (ms : Nat) (hd : e.delays.settle = .all) :
    thenDelay (writeByte b) ms (St s h e d) = bootWrite s (writeByteEvents s.cfg.busMode b) h
      (e.written s.cfg false b) (lastDriven s.cfg.busMode b) ms := by
  have hs : (St s h e d).env.delays.settle = .all := hd
  unfold thenDelay
  rw [writeByte_eq b hs rfl, delayMs_all _ (by simpa [St] using hd)]
  rfl

/-- The bootstrap's first lines. -/
theorem forceWriteMode_all {s : State} (h : s.env.delays.settle = .all) :
    forceWriteMode s = { s with
      pins := { s.pins with rs := false, rw := false, dir := .output }
      hist := s.hist ++ [.dir .input, .ctl .rw true, .ctl .rw false, .dir .output, .ctl .rs false] } := by
  unfold forceWriteMode
  rw [setBusDirection_all _ h]
  rw [setControlLine_all .rw true (by exact h)]
  rw [setControlLine_all .rw false (by exact h)]
  rw [setBusDirection_all .output (by exact h)]
  rw [setControlLine_all .rs false (by exact h)]
  simp [commandLine, State.emit]

theorem force_runs (s : State) (b : Byte) (ms : Nat) (hd : s.env.delays.settle = .all) :
    thenDelay (rawWrite b) ms (forceWriteMode s) = bootWrite s (rawWriteEvents s.cfg.busMode b)
      (s.hist ++ [.dir .input, .ctl .rw true, .ctl .rw false, .dir .output, .ctl .rs false])
      (s.env.takeStrobe s.cfg false (some (linesOf s.cfg.busMode b))) (linesOf s.cfg.busMode b) ms := by
  have hf := forceWriteMode_all hd
  have hs : (forceWriteMode s).env.delays.settle = .all := by rw [hf]; exact hd
  unfold thenDelay
  rw [rawWrite_eq b hs (by rw [hf]), hf, delayMs_all _ (by simpa using hd)]
  rfl

theorem waited_ms (n : Nat) (v : Env) : (v.waited n).delays.ms = v.delays.ms.map (· - n) := rfl

theorem waited_zero (v : Env) : v.waited 0 = v := by
  unfold Env.waited Env.withDelays; cases h : v.delays.ms <;> simp [← h]

/-- Everything a part of the bootstrap with `k` millisecond delays can do: where so many return it completes, having made the
events `evs` and brought the controller to `e`; otherwise it hangs in the one that does not return, after the ones that did. -/
structure BootRun (s : State) (k : Nat) (evs : List Event) (e : Env) (d : Lines) (r : Ran Unit) : Prop where
  count : delayCount evs = k
  returns : (∀ n, s.env.delays.ms = some n → k ≤ n) → r = .done () (St s (s.hist ++ evs) (e.waited k) d)
  hangs : ∀ n, s.env.delays.ms = some n → n < k → ∃ evs e d,
    r = .hung { St s (s.hist ++ evs) e d with hang := some .delay } ∧ delayCount evs = n

theorem delayCount_append (a b : List Event) : delayCount (a ++ b) = delayCount a + delayCount b := by simp [delayCount]

/-- A write and its delay, after `k` delays have returned. -/
theorem BootRun.write {s : State} {k ms : Nat} {evs new : List Event} {e : Env} {d : Lines}
    (he : e.delays = s.env.delays) :
    ((∀ n, s.env.delays.ms = some n → k + 1 ≤ n) → bootWrite s new (s.hist ++ evs) (e.waited k) d ms =
      .done () (St s (s.hist ++ (evs ++ new ++ [.delayMs ms])) (e.waited (k + 1)) d)) ∧
    (s.env.delays.ms = some k → bootWrite s new (s.hist ++ evs) (e.waited k) d ms =
      .hung { St s (s.hist ++ (evs ++ new)) (e.waited k) d with hang := some .delay }) := by
  refine ⟨fun hk => ?_, fun hm => ?_⟩
  · rw [bootWrite, if_neg, waited_waited]
    · simp only [List.append_assoc]
    · rw [waited_ms, he]
      cases hm : s.env.delays.ms with
      | none => nofun
      | some n => have := hk n hm; simp; omega
  · rw [bootWrite, if_pos (by rw [waited_ms, he, hm]; simp), List.append_assoc]

/-- The first write and its delay. -/
theorem BootRun.first {s : State} {ms : Nat} {evs new : List Event} {e : Env} {d : Lines} (he : e.delays = s.env.delays)
    (hc : delayCount evs = 0) (hn : delayCount new = 0) :
    BootRun s 1 (evs ++ new ++ [.delayMs ms]) e d (bootWrite s new (s.hist ++ evs) e d ms) where
  count := by simp [delayCount_append, hc, hn]; rfl
  returns hk := by have := (BootRun.write (evs := evs) (new := new) (d := d) (ms := ms) he).1 hk; rwa [waited_zero] at this
  hangs n hm hlt := by
    have hz : n = 0 := by omega
    subst hz
    have := (BootRun.write (evs := evs) (new := new) (d := d) (ms := ms) he).2 hm
    rw [waited_zero] at this
    exact ⟨_, _, _, this, by rw [delayCount_append, hc, hn]⟩

/-- One more write and its delay. -/
theorem BootRun.next {s : State} {k ms : Nat} {evs new : List Event} {e e' : Env} {d d' : Lines} {r : Ran Unit}
    (h : BootRun s k evs e d r) (he : e'.delays = s.env.delays) (hn : delayCount new = 0) {f : Unit → State → Ran Unit}
    (hf : f () (St s (s.hist ++ evs) (e.waited k) d) = bootWrite s new (s.hist ++ evs) (e'.waited k) d' ms) :
    BootRun s (k + 1) (evs ++ new ++ [.delayMs ms]) e' d' (r.bind f) where
  count := by simp [delayCount_append, h.count, hn]; rfl
  returns hk := by
    rw [h.returns fun n hn => Nat.le_of_succ_le (hk n hn)]
    exact hf.trans ((BootRun.write he).1 hk)
  hangs n hm hlt := by
    by_cases hk : n < k
    · obtain ⟨a, b, c, e, g⟩ := h.hangs n hm hk
      exact ⟨a, b, c, by rw [e]; rfl, g⟩
    · have hz : n = k := by omega
      subst hz
      rw [h.returns fun m hm' => by rw [hm] at hm'; cases hm'; omega]
      exact ⟨_, _, _, hf.trans ((BootRun.write he).2 hm), by rw [delayCount_append, h.count, hn, Nat.add_zero]⟩

theorem delayCount_raw (m : BusMode) (b : Byte) : delayCount (rawWriteEvents m b) = 0 := rfl

theorem delayCount_byte (m : BusMode) (b : Byte) : delayCount (writeByteEvents m b) = 0 := by cases m <;> rfl

/-- Steps 1 and 2 while settle delays return. -/
theorem boot_runs (s : State) (hs : s.env.delays.settle = .all) :
    BootRun s 6 (bootEvents s.cfg) (bootEnv s.cfg s.env) (lastDriven s.cfg.busMode (fsRealByte s.cfg))
      ((initStep1 s).bind fun _ t => initStep2 t) := by
  have raw : ∀ {k evs e d r f} (b : Byte) (ms : Nat), BootRun s k evs e d r → e.delays = s.env.delays →
      (∀ h v l, f () (St s h v l) = thenDelay (rawWrite b) ms (St s h v l)) →
      BootRun s (k + 1) (evs ++ rawWriteEvents s.cfg.busMode b ++ [.delayMs ms])
        (e.takeStrobe s.cfg false (some (linesOf s.cfg.busMode b))) (linesOf s.cfg.busMode b) (r.bind f) :=
    fun b ms h he hf => h.next (by rw [takeStrobe_delays, he]) (delayCount_raw _ _) (by
      rw [hf, raw_runs _ _ _ _ _ _ (by rw [waited_settle, he, hs]), waited_takeStrobe])
  have byte : ∀ {k evs e d r f} (b : Byte) (ms : Nat), BootRun s k evs e d r → e.delays = s.env.delays →
      (∀ h v l, f () (St s h v l) = thenDelay (writeByte b) ms (St s h v l)) →
      BootRun s (k + 1) (evs ++ writeByteEvents s.cfg.busMode b ++ [.delayMs ms])
        (e.written s.cfg false b) (lastDriven s.cfg.busMode b) (r.bind f) :=
    fun b ms h he hf => h.next (by rw [written_delays, he]) (delayCount_byte _ _) (by
      rw [hf, byte_runs _ _ _ _ _ _ (by rw [waited_settle, he, hs]), waited_written])
  have first := BootRun.first (s := s) (ms := 15) (d := linesOf s.cfg.busMode codeFs8)
    (evs := [.dir .input, .ctl .rw true, .ctl .rw false, .dir .output, .ctl .rs false])
    (takeStrobe_delays s.cfg false (some (linesOf s.cfg.busMode codeFs8)) s.env) rfl (delayCount_raw s.cfg.busMode codeFs8)
  rw [← force_runs s codeFs8 15 hs] at first
  unfold initStep1 initStep2
  simp only [Ran.bind_assoc]
  have two := raw codeFs8 5 (f := fun _ t => thenDelay (rawWrite codeFs8) 5 t) first (by simp) fun _ _ _ => rfl
  have three := raw codeFs8 5 (f := fun _ t => thenDelay (rawWrite codeFs8) 5 t) two (by simp) fun _ _ _ => rfl
  have four := raw (fsRealByte s.cfg) 15 (f := fun _ t => thenDelay (rawWrite (fsRealByte t.cfg)) 15 t) three (by simp)
    fun _ _ _ => rfl
  let again : Unit → State → Ran Unit := fun _ t => thenDelay (writeByte (fsRealByte t.cfg)) (step2Delay t.cfg) t
  have five := byte (fsRealByte s.cfg) (step2Delay s.cfg) (f := again) four (by simp) fun _ _ _ => rfl
  have all := byte (fsRealByte s.cfg) (step2Delay s.cfg) (f := again) five (by simp) fun _ _ _ => rfl
  simp only [Ran.bind_assoc] at all
  exact all

/-- Steps 1 and 2 with returning delays. -/
theorem boot_done (s : State) (h : s.env.delays = .all) :
    ((initStep1 s).bind fun _ t => initStep2 t) =
      .done () (St s (s.hist ++ bootEvents s.cfg) (bootEnv s.cfg s.env) (lastDriven s.cfg.busMode (fsRealByte s.cfg))) := by
  have hm : s.env.delays.ms = none := by rw [h]; rfl
  have := (boot_runs s (by rw [h]; rfl)).returns (by rw [hm]; nofun)
  rwa [waited_none] at this
  have hd : (bootEnv s.cfg s.env).delays = s.env.delays := by simp [bootEnv, strobeFs8]
  rw [hd, hm]

end Sys2Proof.Machine
end

