-- ==== Sys2Proof/Laws/Hang.lean ====
section
/-!
SUPPORT. How an operation hangs (60_exceptions.md R252, R262): in the poll loop, where no draw of the busy flag is ever 0, and
in a settle delay.
-/
namespace Sys2Proof.Machine

/-- In step with a controller that is busy for ever, while settle delays return. -/
def Deaf (s : State) : Prop := s.env.delays.settle = .all ∧ s.env.inStep s.cfg = true ∧ s.neverReady = true

theorem statusRead_deaf {s : State} (h : Deaf s) : Deaf (statusRead s).2 ∧ busyFlag (statusRead s).1 = true := by
  obtain ⟨hs, hi, hn⟩ := h
  simp only [State.neverReady, Bool.and_eq_true, List.all_eq_true, id] at hn
  obtain ⟨h1, h2, k, h3⟩ := Env.readOut_status_inStep hi
  obtain ⟨w, ⟨_, _, _, _, _, hw⟩, -, -⟩ := statusRead_polled hs
  refine ⟨⟨statusRead_settle hs, statusRead_inStep hs hi, ?_⟩, ?_⟩
  · rw [statusRead_eq hs]
    simp only [State.neverReady, Bool.and_eq_true, List.all_eq_true, id]
    obtain ⟨_, _, _, _, _, hc⟩ := Env.readOut_status_change s.cfg s.env
    refine ⟨fun b hb => hn.1 b (by rw [h3] at hb; exact List.mem_of_mem_drop hb), by rw [hc]; exact hn.2⟩
  · rw [statusRead_eq hs]
    refine h1.trans ?_
    cases hl : s.env.busyBits with
    | nil => exact hn.2
    | cons b l => exact hn.1 b (by rw [hl]; simp)

/-- The poll loop of a deaf engine never ends. -/
theorem pollLoop_deaf (n : Nat) (s : State) (h : Deaf s) : ∃ t answers,
    pollLoop (n + 1) s = .hung { t with hang := some .poll } ∧ Polled s t answers := by
  induction n generalizing s with
  | zero =>
    refine ⟨_, _, ?_, statusRead_polled h.1⟩
    rw [pollLoop_succ _ h.1, (statusRead_deaf h).2]; rfl
  | succ n ih =>
    obtain ⟨t, answers, h1, h2⟩ := ih _ (statusRead_deaf h).1
    refine ⟨t, _, ?_, (statusRead_polled h.1).trans h2⟩
    rw [pollLoop_succ _ h.1, (statusRead_deaf h).2, if_pos rfl, h1]

theorem waitUntilReady_deaf (s : State) (h : Deaf s) : ∃ t answers,
    waitUntilReady s = .hung { t with hang := some .poll } ∧ Polled s t answers := pollLoop_deaf _ s h

/-- A byte sent by a deaf engine: what it does before it hangs. -/
theorem send_deaf (rs : Level) (b : Byte) (s : State) (h : Deaf s) (hb : rs = true ∨ (keepsWidth s.cfg b = true ∧ b ≠ 0)) :
    ∃ t evs, waitUntilReady (statusRead (busWrite rs b s)).2 = .hung { t with hang := some .poll } ∧
      Completed s t s.cx s.cy t.pins evs [] := by
  obtain ⟨hs, hi, hn⟩ := h
  have hw := busWrite_completed hs hi rs b (hb.imp_right And.right)
  have hd : Deaf (busWrite rs b s) := by
    refine ⟨hw.settle hs, by rw [busWrite_eq rs b hs]; exact Env.written_inStep hi rs b (hb.imp_right And.left), ?_⟩
    rw [busWrite_eq rs b hs]
    obtain ⟨-, k1, k2, -⟩ := s.env.written_kept s.cfg rs b
    simpa [State.neverReady, k1, k2] using hn
  have h1 := (statusRead_polled hd.1).completed
  obtain ⟨t, answers, h2, h3⟩ := waitUntilReady_deaf _ (statusRead_deaf hd).1
  have h4 := (hw.trans h1).trans h3.completed
  rw [h1.cx, h1.cy, hw.cx, hw.cy] at h4
  rw [← h4.pins] at h4
  exact ⟨t, _, h2, h4⟩

theorem sendCommand_deaf (b : Byte) (s : State) (h : Deaf s) (hk : keepsWidth s.cfg b = true) (hb : b ≠ 0) :
    ∃ t evs, sendCommand b s = .hung { t with hang := some .poll } ∧ Completed s t s.cx s.cy t.pins evs [] :=
  send_deaf false b s h (.inr ⟨hk, hb⟩)

theorem address_deaf (a : Addr7) (s : State) (h : Deaf s) :
    ∃ t evs, sendCommand (setDdramByte a) s = .hung { t with hang := some .poll } ∧ Completed s t s.cx s.cy t.pins evs [] :=
  sendCommand_deaf _ s h (keepsWidth_setDdram _ a) (setDdramByte_bits a).2.2

/-- A byte sent by an engine whose write is stuck in a settle delay. -/
theorem send_stuck {rs : Level} {b : Byte} {s : State} (h : (busWrite rs b s).stuck = true) :
    waitUntilReady (statusRead (busWrite rs b s)).2 = .hung { busWrite rs b s with hang := some .settle } := by
  rw [show (statusRead (busWrite rs b s)).2 = busWrite rs b s from (still_closed h).busRead false _ rfl]
  exact waitUntilReady_stuck h

/-- A millisecond delay of an engine stuck in a settle delay. -/
theorem delayMs_stuck {s : State} (ms : Nat) (h : s.stuck = true) : delayMs ms s = .hung { s with hang := some .settle } := by
  unfold delayMs unlessStuck; rw [if_pos h]; rfl

/-- Settle delays counted along line operations: while `.left k` is left, and the `Ctl` events so far. -/
def Counted (c : Nat) (s : State) : Prop :=
  (∃ k, s.env.delays.settle = .left k ∧ ctlCount s.hist + k = c) ∨ (s.stuck = true ∧ ctlCount s.hist = c + 1)

theorem counted_closed (c : Nat) : LineClosed (Counted c) where
  line n l s h := by
    rcases h with ⟨k, h1, h2⟩ | h
    · have hst : s.stuck = false := by simp [State.stuck, h1]
      have hd := commandLine_delays n l s
      have hh : (commandLine n l s).hist = s.hist ++ [.ctl n l] := by
        cases n with
        | rs => rfl
        | rw => rfl
        | e =>
          unfold commandLine State.strobed
          dsimp only
          split
          · split <;> rfl
          · rfl
      have hcount : ctlCount (commandLine n l s).hist = ctlCount s.hist + 1 := by
        rw [hh]; simp [ctlCount]
      unfold setControlLine
      rw [hst, if_neg (by simp)]
      cases k with
      | zero => exact .inr ⟨by simp [State.stuck, Env.settle, hd, h1, Settles.take], by rw [← h2]; exact hcount⟩
      | succ k =>
        refine .inl ⟨k, by simp [Env.settle, hd, h1, Settles.take], ?_⟩
        show ctlCount (commandLine n l s).hist + k = c
        omega
    · rw [(still_closed h.1).line n l s rfl]; exact .inr h
  dir d s h := by
    rcases h with ⟨k, h1, h2⟩ | h
    · unfold setBusDirection
      rw [if_neg (by simp [State.stuck, h1])]
      exact .inl ⟨k, h1, by simpa [ctlCount, State.emit] using h2⟩
    · rw [(still_closed h.1).dir d s rfl]; exact .inr h
  drive v s h := by
    rcases h with ⟨k, h1, h2⟩ | h
    · unfold drive
      rw [if_neg (by simp [State.stuck, h1])]
      exact .inl ⟨k, h1, by simpa [ctlCount, State.emit] using h2⟩
    · rw [(still_closed h.1).drive v s rfl]; exact .inr h
  sample part s h := by
    rcases h with ⟨k, h1, h2⟩ | h
    · unfold sampleLines
      rw [if_neg (by simp [State.stuck, h1])]
      exact .inl ⟨k, by simpa using h1, by simpa [ctlCount, State.emit] using h2⟩
    · rw [(still_closed h.1).sample part s rfl]; exact .inr h

/-- The engine is stuck in a settle delay, or fewer than `n` of the coming ones return. -/
def Fewer (n : Nat) (s : State) : Prop := s.stuck = true ∨ ∃ k, s.env.delays.settle = .left k ∧ k < n

/-- A control line takes one of them. -/
theorem line_fewer {m : Nat} (n : Line) (l : Level) (s : State) (h : Fewer (m + 1) s) : Fewer m (setControlLine n l s) := by
  rcases h with h | ⟨k, h1, h2⟩
  · exact .inl (stuck_closed.line n l s h)
  · have hd := commandLine_delays n l s
    have e : setControlLine n l s = { commandLine n l s with env := (commandLine n l s).env.settle } := by
      unfold setControlLine; rw [if_neg (by simp [State.stuck, h1])]
    rw [e]
    cases k with
    | zero => exact .inl (by simp [State.stuck, Env.settle, hd, h1, Settles.take])
    | succ k => exact .inr ⟨k, by simp [Env.settle, hd, h1, Settles.take], by omega⟩

theorem dir_fewer {m : Nat} (d : Dir) (s : State) (h : Fewer m s) : Fewer m (setBusDirection d s) := by
  unfold setBusDirection; split <;> exact h

theorem drive_fewer {m : Nat} (v : Lines) (s : State) (h : Fewer m s) : Fewer m (drive v s) := by
  unfold drive; split <;> exact h

theorem sample_fewer {m : Nat} (part : Phase) (s : State) (h : Fewer m s) : Fewer m (sampleLines part s).2 := by
  unfold sampleLines
  split
  · exact h
  · rcases h with h | ⟨k, h1, h2⟩
    · exact .inl (by simpa [State.stuck, State.emit] using h)
    · exact .inr ⟨k, by simpa [State.emit] using h1, h2⟩

theorem fewer_zero {s : State} (h : Fewer 0 s) : s.stuck = true := by
  rcases h with h | ⟨_, -, h⟩
  · exact h
  · omega

/-- The first strobe of a transfer, with two lines commanded before it, needs four settle delays. -/
theorem strobe_left {s : State} (h : Fewer 2 s) : (strobe s).stuck = true :=
  fewer_zero (line_fewer _ _ _ (line_fewer _ _ _ h))

theorem writeByte_left (v : Byte) {s : State} (h : Fewer 2 s) : (writeByte v s).stuck = true := by
  unfold writeByte
  split
  · exact strobe_left (drive_fewer _ _ (dir_fewer _ _ h))
  · exact stuck_closed.strobe _ (stuck_closed.drive _ _ (strobe_left (drive_fewer _ _ (dir_fewer _ _ h))))

theorem readByte_left {s : State} (h : Fewer 2 s) : (readByte s).2.stuck = true := by
  have h1 : (readStrobe .hi s).2.stuck = true := fewer_zero (line_fewer _ _ _ (sample_fewer _ _ (line_fewer _ _ _ h)))
  unfold readByte
  split
  · exact h1
  · exact stuck_closed.readStrobe _ _ h1

/-- A transaction makes four settle delays at least: where fewer return, it is stuck in the one that does not, whose control
line has been commanded and no later one. -/
theorem transaction_left {s u : State} {n : Nat} (h : s.env.delays.settle = .left n) (hn : n < 4)
    (hu : (∃ rs b, u = busWrite rs b s) ∨ ∃ rs, u = (busRead rs s).2) :
    u.stuck = true ∧ ∃ evs, ctlCount evs = n + 1 ∧ u = { s with pins := u.pins, hist := s.hist ++ evs, env := u.env } := by
  have h0 : Fewer 4 s := .inr ⟨n, h, hn⟩
  have c0 : Counted (ctlCount s.hist + n) s := .inl ⟨n, h, rfl⟩
  have key : u.stuck = true ∧ Counted (ctlCount s.hist + n) u ∧ Worked s u ∧ s.hist <+: u.hist := by
    rcases hu with ⟨rs, b, rfl⟩ | ⟨rs, rfl⟩
    · exact ⟨writeByte_left b (line_fewer _ _ _ (line_fewer _ _ _ h0)), (counted_closed _).busWrite rs b s c0,
        (worked_closed s).write rs b s (Worked.refl s), (hist_closed s).busWrite rs b s (List.prefix_refl _)⟩
    · exact ⟨readByte_left (line_fewer _ _ _ (line_fewer _ _ _ (dir_fewer _ _ h0))), (counted_closed _).busRead rs s c0,
        (worked_closed s).read rs s (Worked.refl s), (hist_closed s).busRead rs s (List.prefix_refl _)⟩
  obtain ⟨h1, h2, h3, evs, h4⟩ := key
  refine ⟨h1, evs, ?_, by rw [h4]; exact h3⟩
  rcases h2 with ⟨k, hk, -⟩ | ⟨-, hc⟩
  · simp [State.stuck, hk] at h1
  · rw [← h4] at hc; simp only [ctlCount, List.countP_append] at hc ⊢; omega

end Sys2Proof.Machine
end

