-- ==== Sys2Proof/Laws/Leaves.lean ====
section
/-!
SUPPORT. What a micro-operation leaves of a reference controller once it has completed, whatever its busy flag does later: the
RAM its counter addresses and the counter's direction (44_dispatcher.md, 47_glyph_loader.md R225).
-/
namespace Sys2Proof.Machine

/-- Where it completes it does so in a state of `D`. -/
def Ran.Leaves {α : Type} (D : State → Prop) (r : Ran α) : Prop := ∀ a t, r = .done a t → D t

theorem Ran.Leaves.bind {α β : Type} {D D' : State → Prop} {r : Ran α} {f : α → State → Ran β} (h : r.Leaves D)
    (g : ∀ a t, D t → (f a t).Leaves D') : (r.bind f).Leaves D' := by
  cases r with
  | done a t => exact g a t (h a t rfl)
  | hung t => intro b u e; cases e
  | stop q => intro b u e; cases e

theorem leaves_done {α : Type} {D : State → Prop} {a : α} {s : State} (h : D s) : (Ran.done a s).Leaves D := by
  intro b t e; cases e; exact h

theorem atCell_leaves {α : Type} {D : State → Prop} {x y : Nat} {s : State} {go : Addr7 → Ran α}
    (h : ∀ a, (go a).Leaves D) : (atCell x y s go).Leaves D := by
  unfold atCell; split; exacts [h _, fun b t e => by cases e]

theorem forEach_leaves {α : Type} {D : State → Prop} {body : α → State → Ran Unit} (items : List α)
    (h : ∀ i s, D s → (body i s).Leaves D) (s : State) (hs : D s) : (forEach items body s).Leaves D := by
  induction items generalizing s with
  | nil => exact leaves_done hs
  | cons i rest ih => exact (h i s hs).bind fun _ t ht => ih t ht

/-- A reference controller in step after an INIT, whose counter addresses `sel` and increments, while settle delays return. -/
structure Addressing (sel : Ram) (s : State) : Prop where
  settle : s.env.delays.settle = .all
  refctl : s.refctl = true
  sel : s.env.ctl.sel = sel
  incr : s.env.ctl.incr = true

theorem send_leaves {sel sel' : Ram} (rs : Level) (b : Byte) (s : State) (h : Addressing sel s)
    (hb : rs = true ∨ (keepsWidth s.cfg b = true ∧ b ≠ 0)) (hr : ∀ k, (s.env.reacted s.cfg rs b).after k →
      k.sel = sel' ∧ k.incr = true) :
    (waitUntilReady (statusRead (busWrite rs b s)).2).Leaves (Addressing sel') := by
  intro _ t ht
  obtain ⟨h1, h2, -, h4⟩ := send_reference rs b s t h.settle h.refctl hb ht
  exact ⟨h4, h1, (hr _ h2).1, (hr _ h2).2⟩

theorem data_leaves {sel : Ram} (b : Byte) (s : State) (h : Addressing sel s) : (sendData b s).Leaves (Addressing sel) :=
  send_leaves true b s h (.inl rfl) fun k hk => by
    have hk : k = { s.env.ctl.dataWrite b with nib := k.nib, busy := false } := hk
    rw [hk, ← h.sel, ← h.incr]
    cases hs : s.env.ctl.sel with
    | cg => simp [Ctl.dataWrite, hs, Ctl.accessed]
    | dd => by_cases hi : s.env.ctl.implemented s.env.ctl.ac <;> simp [Ctl.dataWrite, hs, hi, Ctl.accessed]

/-- A command that neither selects a RAM nor touches the counter's direction. -/
theorem command_leaves {sel sel' : Ram} (b : Byte) (s : State) (h : Addressing sel s) (hw : keepsWidth s.cfg b = true)
    (hb : b ≠ 0) (hr : (s.env.command s.cfg b).ctl.sel = sel' ∧ (s.env.command s.cfg b).ctl.incr = true) :
    (sendCommand b s).Leaves (Addressing sel') :=
  send_leaves false b s h (.inr ⟨hw, hb⟩) fun k hk => by
    have hk : k = { (s.env.command s.cfg b).ctl with nib := k.nib, busy := false } := hk
    rw [hk]; exact hr

theorem address_leaves {sel : Ram} (a : Addr7) (s : State) (h : Addressing sel s) :
    (sendCommand (setDdramByte a) s).Leaves (Addressing .dd) :=
  command_leaves _ s h (keepsWidth_setDdram _ a) (setDdramByte_bits a).2.2 (by
    rw [command_setDdram]; exact ⟨rfl, h.incr⟩)

theorem wait_leaves {sel : Ram} (s : State) (h : Addressing sel s) : (waitUntilReady s).Leaves (Addressing sel) := by
  intro _ t ht
  obtain ⟨h1, h2⟩ := pollLoop_reference _ s t h.settle h.refctl ht
  refine ⟨?_, h1, by rw [h2]; exact h.sel, by rw [h2]; exact h.incr⟩
  rcases waitUntilReady_cases s h.settle with ⟨u, as, e, -, hu⟩ | ⟨u, as, e, -⟩
  · rw [ht] at e; cases e; exact hu.settle h.settle
  · rw [ht] at e; cases e

theorem statusRead_leaves {sel : Ram} (s : State) (h : Addressing sel s) : Addressing sel (statusRead s).2 := by
  obtain ⟨-, g2, g3⟩ := statusRead_reference h.settle h.refctl
  exact ⟨statusRead_settle h.settle, g3, by rw [g2]; exact h.sel, by rw [g2]; exact h.incr⟩

theorem storeAt_leaves {sel : Ram} (a : Addr7) (b : Byte) (s : State) (h : Addressing sel s) :
    (storeAt a b s).Leaves (Addressing .dd) :=
  (address_leaves a s h).bind fun _ t ht => data_leaves b t ht

theorem readDataRam_leaves {sel : Ram} (a : Addr7) (s : State) (h : Addressing sel s) :
    (readDataRam a s).Leaves (Addressing .dd) := by
  refine (address_leaves a s h).bind fun _ t ht => (wait_leaves t ht).bind fun _ u hu => ?_
  obtain ⟨hp, hs, hin⟩ := (refctl_iff u).1 hu.refctl
  obtain ⟨d1, d2, d3⟩ := Env.readOut_data hin
  have e := busRead_eq true hu.settle
  rw [unlessStuck_all _ (by rw [e]; simpa using hu.settle)]
  refine leaves_done ⟨by rw [e]; simpa using hu.settle, ?_, ?_, ?_⟩
  · rw [refctl_iff, e]; exact ⟨d1.1.trans hp, d1.2.1.trans hs, d2⟩
  · rw [e]; show (u.env.readOut u.cfg true).2.ctl.sel = _; rw [(d3 hp).1]; exact hu.sel
  · rw [e]; show (u.env.readOut u.cfg true).2.ctl.incr = _; rw [(d3 hp).1]; exact hu.incr

theorem scrollUp_leaves (s : State) (h : Addressing .dd s) : (scrollUp s).Leaves (Addressing .dd) := by
  unfold scrollUp
  split
  · exact leaves_done h
  · refine (forEach_leaves _ (fun i t ht => atCell_leaves fun a => (readDataRam_leaves a t ht).bind fun _ u hu =>
      atCell_leaves fun _ => storeAt_leaves _ _ u hu) s h).bind fun _ t ht => ?_
    exact forEach_leaves _ (fun i u hu => atCell_leaves fun a => storeAt_leaves a _ u hu) t ht

theorem setCursor_addressing {sel : Ram} {s : State} (x y : Byte) (h : Addressing sel s) : Addressing sel (s.setCursor x y) :=
  ⟨h.settle, h.refctl, h.sel, h.incr⟩

theorem putchar_leaves (ch : Byte) (s : State) (h : Addressing .dd s) : (putchar ch s).Leaves (Addressing .dd) := by
  have fold : ∀ s, Addressing .dd s → (foldRow s).Leaves (Addressing .dd) := by
    intro s h
    unfold foldRow
    split
    · split
      · exact (scrollUp_leaves s h).bind fun _ t ht => leaves_done (setCursor_addressing _ _ ht)
      · exact leaves_done (setCursor_addressing _ _ h)
    · exact leaves_done h
  have addr : ∀ s, Addressing .dd s → (addressCursor s).Leaves (Addressing .dd) :=
    fun s h => atCell_leaves fun a => address_leaves a s h
  refine (fold s h).bind fun _ t ht => atCell_leaves fun a => Ran.Leaves.bind (D := Addressing .dd) ?_ fun _ u hu => ?_
  · unfold putByte
    split
    · exact (fold _ (setCursor_addressing _ _ ht)).bind fun _ u hu => addr u hu
    · split
      · exact addr _ (setCursor_addressing _ _ ht)
      · exact (storeAt_leaves a ch t ht).bind fun _ u hu => leaves_done (setCursor_addressing _ _ hu)
  · refine Ran.Leaves.bind (D := Addressing .dd) ?_ fun _ w hw => leaves_done hw
    unfold wrap
    split
    · exact address_leaves a _ (setCursor_addressing _ _ hu)
    · exact leaves_done hu

theorem defineGlyph_leaves (code : BitVec 3) (rows : List Byte) (s : State) (h : Addressing .dd s) :
    (defineGlyph code rows s).Leaves (Addressing .dd) := by
  refine (wait_leaves _ (statusRead_leaves s h)).bind fun _ t ht => ?_
  refine Ran.Leaves.bind (D := Addressing .cg) (command_leaves _ t ht (keepsWidth_setCgram _ code)
    (setCgramByte_bits code).2.2.2 (by rw [command_setCgram]; exact ⟨rfl, ht.incr⟩)) fun _ u hu => ?_
  exact (forEach_leaves rows (fun b v hv => data_leaves b v hv) u hu).bind fun _ w hw =>
    (wait_leaves w hw).bind fun _ x hx => address_leaves _ x hx

/-- INIT, from every controller: step 3 ends with the counter addressing DDRAM and incrementing. -/
theorem initSequence_leaves (s : State) (hs : s.env.delays.settle = .all) (hp : s.env.peer = .reference) :
    (initSequence s).Leaves (Addressing .dd) := by
  unfold initSequence
  rw [← Ran.bind_assoc]
  have boot := boot_runs s hs
  by_cases hk : ∀ n, s.env.delays.ms = some n → 6 ≤ n
  · rw [boot.returns hk]
    generalize hw : markSettled (St s (s.hist ++ bootEvents s.cfg) ((bootEnv s.cfg s.env).waited 6)
      (lastDriven s.cfg.busMode (fsRealByte s.cfg))) = w
    obtain ⟨⟨k1, -⟩, k2, -⟩ := bootEnv_reference s.cfg s.env hp
    have wr : w.refctl = true := by
      subst hw
      exact (refctl_iff _).2 ⟨k1.trans hp, rfl, k2⟩
    have ws : w.env.delays.settle = .all := by
      subst hw
      show (bootEnv s.cfg s.env).delays.settle = .all
      simpa [bootEnv, strobeFs8] using hs
    show ((initStep3 (markSettled _)).bind _).Leaves _
    rw [hw]
    have sent : ∀ (b : Byte) (u : State), u.env.delays.settle = .all → u.refctl = true → keepsWidth u.cfg b = true → b ≠ 0 →
        (sendCommand b u).Leaves fun t => t.env.delays.settle = .all ∧ t.refctl = true ∧
          (u.env.command u.cfg b).ctl.after t.env.ctl := by
      intro b u h1 h2 h3 h4 _ t ht
      obtain ⟨a, b, -, c⟩ := send_reference false b u t h1 h2 (.inr ⟨h3, h4⟩) ht
      exact ⟨c, a, b⟩
    have three : (initStep3 w).Leaves (Addressing .dd) := by
      refine (sent codeDisplayOn w ws wr rfl (by decide)).bind fun _ t ht => ?_
      refine (sent codeClear t ht.1 ht.2.1 rfl (by decide)).bind fun _ u hu => ?_
      intro _ x hx
      obtain ⟨h1, h2, h3⟩ := sent codeEntryInc u hu.1 hu.2.1 rfl (by decide) _ _ hx
      have hu : u.env.ctl = { t.env.ctl.clearDisplay with nib := u.env.ctl.nib, busy := false } := hu.2.2
      have hx : x.env.ctl = { u.env.ctl.entryMode true false with nib := x.env.ctl.nib, busy := false } := h3
      exact ⟨h1, h2, by rw [hx]; show u.env.ctl.sel = _; rw [hu]; rfl, by rw [hx]; rfl⟩
    exact three.bind fun _ t ht => leaves_done ⟨ht.settle, ht.refctl, ht.sel, ht.incr⟩
  · simp only [not_forall, Nat.not_le] at hk
    obtain ⟨n, hn, hlt⟩ := hk
    obtain ⟨evs, e, d, h, -⟩ := boot.hangs n hn hlt
    rw [h]
    intro _ t e; cases e

end Sys2Proof.Machine
end

