-- ==== Sys2Proof/Laws/PerInstr.lean ====
section
/-!
SUPPORT. A statement per instruction, as syntax: the length of its words (30_encoding.md R97 for the host packets, R101 and
R100 for the other two spaces). One lemma per constructor.
-/
namespace Sys2Proof.Laws.PacketLength

/-- How many bytes the tables give the instruction: R97 for a host packet, one for a command byte (R101); a bus transaction is
its RS and RW levels and, where it writes, the byte (R100; log 11). -/
def lengthOf : Instr → Nat
  | .init | .clear | .scroll => 1
  | .cursor _ _ | .putc _ | .readram _ | .intensity _ => 2
  | .locate _ _ | .readchar _ _ => 3
  | .defglyph _ _ _ _ _ _ _ _ _ => 10
  | .puts text => text.length + 2
  | .cmdClear | .cmdEntryInc | .cmdDisplay _ _ | .cmdFs8 | .fsReal _ _ _ | .cmdSetCgram _ | .cmdSetDdram _ => 1
  | .commandWrite _ | .dataWrite _ => 2
  | .statusRead | .dataRead => 1

/-- The instruction's words have that length. -/
def Statement (i : Instr) : Prop := (encode i).length = lengthOf i

theorem init : Statement .init := rfl

theorem clear : Statement .clear := rfl

theorem locate (x y : Byte) : Statement (.locate x y) := rfl

theorem cursor (c b : Bool) : Statement (.cursor c b) := rfl

theorem putc (ch : Byte) : Statement (.putc ch) := rfl

theorem puts (text : List Byte) : Statement (.puts text) := by simp [Statement, encode, lengthOf]

theorem defglyph (code : BitVec 3) (b0 b1 b2 b3 b4 b5 b6 b7 : Byte) :
    Statement (.defglyph code b0 b1 b2 b3 b4 b5 b6 b7) := rfl

theorem readchar (x y : Byte) : Statement (.readchar x y) := rfl

theorem readram (addr : Addr7) : Statement (.readram addr) := rfl

theorem scroll : Statement .scroll := rfl

theorem intensity (level : BitVec 2) : Statement (.intensity level) := rfl

theorem cmdClear : Statement .cmdClear := rfl

theorem cmdEntryInc : Statement .cmdEntryInc := rfl

theorem cmdDisplay (c b : Bool) : Statement (.cmdDisplay c b) := rfl

theorem cmdFs8 : Statement .cmdFs8 := rfl

theorem fsReal (l n : Bool) (bb : BitVec 2) : Statement (.fsReal l n bb) := rfl

theorem cmdSetCgram (code : BitVec 3) : Statement (.cmdSetCgram code) := rfl

theorem cmdSetDdram (a : Addr7) : Statement (.cmdSetDdram a) := rfl

theorem commandWrite (v : Byte) : Statement (.commandWrite v) := rfl

theorem dataWrite (v : Byte) : Statement (.dataWrite v) := rfl

theorem statusRead : Statement .statusRead := rfl

theorem dataRead : Statement .dataRead := rfl

end Sys2Proof.Laws.PacketLength
end

