-- ==== Sys2Proof/Tests/Slice0.lean ====
section
/-!
SUPPORT. The model's own tests: ill-formed terms refused; every constructor's decoding from a word written out from the
encoding tables; at most two small steps an instruction, with results from the vectors of 95_test_vectors.md; and for each
statement with hypotheses a witness that meets them.
-/
namespace Sys2Proof.Tests

set_option Elab.async false

open Sys2Proof Sys2Proof.Machine

/-! ## Well-formed and ill-formed (R93, log 14) -/

theorem test_wf_puts : (Instr.puts [0x48, 0x69]).wellFormed = true := by decide

/-- A text with a terminator in it is in no packet (R96). -/
theorem test_illformed_puts : (Instr.puts [0x48, 0x00]).wellFormed = false := by decide

theorem test_wf_fsReal : (Instr.fsReal true true 0).wellFormed = true := by decide

/-- 0x30 is CMD_FS8's word. -/
theorem test_illformed_fsReal : (Instr.fsReal true false 0).wellFormed = false := by decide

/-! ## Decoding (V30-1 to V30-15; R101; R100) -/

theorem test_decode_init : decodePacket [0x01] = .ok (.init, 1) := by decide

theorem test_decode_clear : decodePacket [0x02] = .ok (.clear, 1) := by decide

theorem test_decode_locate : decodePacket [0x03, 0x03, 0x01] = .ok (.locate 3 1, 3) := by decide

theorem test_decode_cursor : decodePacket [0x04, 0b00000010] = .ok (.cursor true false, 2) := by decide

theorem test_decode_cursor_reserved : decodePacket [0x04, 0x04] = .error .reservedBits := by decide

theorem test_decode_putc : decodePacket [0x05, 0x41] = .ok (.putc 0x41, 2) := by decide

theorem test_decode_puts : decodePacket [0x06, 0x48, 0x69, 0x00, 0x05] = .ok (.puts [0x48, 0x69], 4) := by decide

theorem test_decode_puts_truncated : decodePacket [0x06, 0x41] = .error .truncatedPacket := by decide

theorem test_decode_defglyph :
    decodePacket [0x07, 0b00000001, 0x00, 0x0A, 0x1F, 0x1F, 0x0E, 0x04, 0x00, 0x00] =
      .ok (.defglyph 1 0x00 0x0A 0x1F 0x1F 0x0E 0x04 0x00 0x00, 10) := by decide

theorem test_decode_defglyph_reserved :
    decodePacket [0x07, 0x08, 0, 0, 0, 0, 0, 0, 0, 0] = .error .reservedBits := by decide

theorem test_decode_readchar : decodePacket [0x08, 0x00, 0x02] = .ok (.readchar 0 2, 3) := by decide

theorem test_decode_readram : decodePacket [0x09, 0x40] = .ok (.readram 0x40, 2) := by decide

theorem test_decode_readram_reserved : decodePacket [0x09, 0x80] = .error .reservedBits := by decide

theorem test_decode_scroll : decodePacket [0x0A] = .ok (.scroll, 1) := by decide

theorem test_decode_intensity : decodePacket [0x0B, 0b00000010] = .ok (.intensity 2, 2) := by decide

theorem test_decode_unassigned :
    decodePacket [0x00] = .error .unassignedOpcode ∧ decodePacket [0x0C] = .error .unassignedOpcode ∧
      decodePacket [0xFF, 0x00] = .error .unassignedOpcode := by decide

theorem test_decode_cmdClear : decodeCommand [0b00000001] = .ok (.cmdClear, 1) := by decide

theorem test_decode_cmdEntryInc : decodeCommand [0b00000110] = .ok (.cmdEntryInc, 1) := by decide

/-- 000011cb with c = 1, b = 0. -/
theorem test_decode_cmdDisplay : decodeCommand [0b00001110] = .ok (.cmdDisplay true false, 1) := by decide

theorem test_decode_cmdFs8 : decodeCommand [0b00110000] = .ok (.cmdFs8, 1) := by decide

/-- 001LN0bb with L = 0, N = 1, bb = 11. -/
theorem test_decode_fsReal : decodeCommand [0b00101011] = .ok (.fsReal false true 3, 1) := by decide

/-- 01kkk000 with k = 1 (V47-1). -/
theorem test_decode_cmdSetCgram : decodeCommand [0b01001000] = .ok (.cmdSetCgram 1, 1) := by decide

theorem test_decode_cmdSetDdram : decodeCommand [0b11000011] = .ok (.cmdSetDdram 0x43, 1) := by decide

/-- Command bytes the engine never sends: a shift, return home, a function set with the font bit. -/
theorem test_decode_unsent :
    decodeCommand [0x10] = .error .unsentCommand ∧ decodeCommand [0x02] = .error .unsentCommand ∧
      decodeCommand [0x34] = .error .unsentCommand ∧ decodeCommand [0x41] = .error .unsentCommand := by decide

/-- RS ++ RW = 00, then the byte. -/
theorem test_decode_commandWrite : decodeTransaction [0b00, 0x80] = .ok (.commandWrite 0x80, 2) := by decide

/-- RS ++ RW = 10. -/
theorem test_decode_dataWrite : decodeTransaction [0b10, 0x41] = .ok (.dataWrite 0x41, 2) := by decide

/-- RS ++ RW = 01. -/
theorem test_decode_statusRead : decodeTransaction [0b01] = .ok (.statusRead, 1) := by decide

/-- RS ++ RW = 11. -/
theorem test_decode_dataRead : decodeTransaction [0b11] = .ok (.dataRead, 1) := by decide

/-- The opcode table's numbering: the first byte is bits 7..0. -/
theorem test_table_word : decodeTableWord 24 0x010303 = some (.locate 3 1) := by decide +kernel

theorem test_notation : notationOf (.locate 3 1) = some "LOCATE 3, 1" := by decide +kernel

theorem test_pseudo : Pseudo.cls.expand = [.clear, .locate 0 0] := by decide

/-! ## States -/

/-- 16 by 2, one row 16 by 1, and 2 by 2 (V46-2). -/
def panel (m : BusMode) (f : Features) (d : DisplayType) : Cfg where
  busMode := m
  xmax := 15
  ymax := 1
  table := Config.table16x2
  features := f
  displayType := d
  nlImpliesCr := false
  twoLine := true
  vfdInitIntensity := 0
  fits := by decide

def smallPanel (m : BusMode) (f : Features) : Cfg where
  busMode := m
  xmax := 1
  ymax := 1
  table := [0x00, 0x01, 0x40, 0x41]
  features := f
  displayType := .lcd
  nlImpliesCr := false
  twoLine := true
  vfdInitIntensity := 0
  fits := by decide

def rowPanel : Cfg where
  busMode := .bus8
  xmax := 15
  ymax := 0
  table := Config.table16x1
  features := .full
  displayType := .lcd
  nlImpliesCr := false
  twoLine := false
  vfdInitIntensity := 0
  fits := by decide

/-- The controller after an INIT (R236), with some DDRAM bytes. -/
def controller (c : Cfg) (cells : List Host.Cell) : Ctl :=
  { Ctl.powerOn with
    if8 := decide (c.busMode = .bus8)
    twoLine := c.twoLine
    display := true
    cursor := true
    blink := true
    ddram := cells }

/-- The machine idle after an INIT, the cursor at (x, y). -/
def idle (c : Cfg) (x y : Byte) (cells : List Host.Cell) : State :=
  { State.resetWith c { Env.powerOn with settled := true, ctl := controller c cells } with
    cx := x
    cy := y
    inited := true }

/-- The same against a controller of which nothing is assumed, never busy. -/
def free (c : Cfg) : State := { idle c 0 0 [] with env := { Env.powerOn with peer := .unconstrained, tape := [0x55, 0x2A, 0x00, 0xFF] } }

/-- The state with a settle delay that never returns, after `n` that do. -/
def leaving (s : State) (n : Nat) : State :=
  { s with env := { s.env with delays := { s.env.delays with settle := .left n } } }

/-- The answer is a next state with a property. -/
def answers (a : Answer) (p : State → Bool) : Bool :=
  match a with
  | .next t => p t
  | .fault _ => false
  | .refused _ => false

theorem answers_next {a : Answer} {p : State → Bool} (h : answers a p = true) : ∃ t, a = .next t ∧ p t = true := by
  cases a with
  | next t => exact ⟨t, rfl, h⟩
  | fault f => cases h
  | refused q => cases h

/-- A state with a packet presented. -/
def presenting (c : Cfg) (initialised : Bool) (packets : List Byte) : State :=
  { idle c 0 0 [] with inited := initialised, packets := packets }

def refusedAs (a : Answer) (r : Refusal) : Bool :=
  match a with
  | .next _ => false
  | .fault _ => false
  | .refused q => decide (q = r)

abbrev wide : Cfg := panel .bus8 .full .lcd

abbrev narrow : Cfg := panel .bus4 .full .vfd

/-! ## Reset and fetch -/

theorem test_reset_waits : answers (step State.reset) (fun t => decide (t = State.reset)) = true := by decide +kernel

theorem test_reset_refuses_putc : refusedAs (step (State.reset.withFetchWord 16 0x4105)) .notInitialised = true := by
  decide +kernel

theorem test_reset_runs_init : answers (step (State.reset.withFetchWord 8 0x01)) (fun t => t.inited && decide (t.cp = 1)) = true := by
  decide +kernel

/-! ## One step each -/

/-- V48-1: 15 strobes, 51 `Ctl`, cursor as before, INITED. -/
theorem test_init_bus8 :
    answers (exec .init { idle wide 5 1 [] with inited := false }) (fun t =>
      decide (ctlCount t.hist = 51) && decide (strobeCount t.hist = 15) && t.inited && decide (t.cx = 5 ∧ t.cy = 1) &&
        decide (t.env.ctl.ac = 0)) = true := by decide +kernel

/-- V48-2: 26 strobes, 73 `Ctl`; V48-4: from a controller left mid-byte, the undriven D3..D0 drawn. -/
theorem test_init_bus4 :
    answers (exec .init { State.resetWith narrow { Env.powerOn with
        tape := [0x5A, 0xC3, 0x0F, 0xF0, 0x3C, 0xFF]
        ctl := { Ctl.powerOn with if8 := false, phase := .lo, nib := 9 } } with inited := false }) (fun t =>
      decide (ctlCount t.hist = 73) && decide (strobeCount t.hist = 26) && t.refctl) = true := by decide +kernel

/-- V48-5. -/
theorem test_clear :
    answers (exec .clear (idle wide 5 1 [(0x05, 0x41)])) (fun t =>
      decide (t.cx = 5 ∧ t.cy = 1) && decide (t.env.ctl.ddram = []) && decide (t.env.ctl.ac = 0) &&
        decide (ctlCount t.hist = 12)) = true := by decide +kernel

/-- V45-1. -/
theorem test_locate :
    answers (exec (.locate 3 1) (idle wide 0 0 [])) (fun t =>
      decide (t.cx = 3 ∧ t.cy = 1) && decide (t.env.ctl.ac = 0x43) && t.hist.contains (.drive (.w8 0xC3))) = true := by
  decide +kernel

/-- V45-12. -/
theorem test_locate_outside :
    refusedAs (exec (.locate 16 0) (idle wide 0 0 [])) .outOfRange = true ∧
      refusedAs (exec (.locate 0 2) (idle wide 0 0 [])) .outOfRange = true := by decide +kernel

/-- V48-6: mode 10 sends 0x0E. -/
theorem test_cursor :
    answers (exec (.cursor true false) (idle wide 0 0 [])) (fun t =>
      t.hist.contains (.drive (.w8 0x0E)) && t.env.ctl.cursor && !t.env.ctl.blink && t.env.ctl.display) = true := by decide +kernel

/-- V45-5: the last cell, the wrap off the last row, no scroll; nine transactions. -/
theorem test_putc_last_cell :
    answers (exec (.putc 0x5A) (idle wide 15 1 [])) (fun t =>
      decide (t.cx = 0 ∧ t.cy = 2) && decide (Mem.read t.env.ctl.ddram 0x4F = 0x5A) && decide (t.env.ctl.ac = 0x4F) &&
        decide (ctlCount t.hist = 36) && decide (t.rsp = [0x5A])) = true := by decide +kernel

/-- V45-6 on the 2 by 2 panel: the deferred scroll. -/
theorem test_putc_deferred_scroll :
    answers (exec (.putc 0x21) (idle (smallPanel .bus8 .full) 0 2 [(0x00, 0x70), (0x01, 0x71), (0x40, 0x72), (0x41, 0x73)])) (fun t =>
      decide (t.cx = 1 ∧ t.cy = 1) && decide (t.env.ctl.ddram = [(0x00, 0x72), (0x01, 0x73), (0x40, 0x21)])) = true := by
  decide +kernel

/-- V45-2. -/
theorem test_puts :
    answers (exec (.puts [0x41, 0x42]) (idle wide 0 0 [])) (fun t =>
      decide (t.cx = 2 ∧ t.cy = 0) && decide (t.env.ctl.ddram = [(0x00, 0x41), (0x01, 0x42)]) && decide (t.env.ctl.ac = 0x02) &&
        decide (ctlCount t.hist = 48) && decide (t.rsp = [])) = true := by decide +kernel

/-- V45-13. -/
theorem test_puts_empty : answers (exec (.puts []) (idle wide 3 1 [])) (fun t => decide (t.hist = [] ∧ t.cx = 3)) = true := by
  decide +kernel

/-- V47-1: slot 1, and the address counter as before. -/
theorem test_defglyph :
    answers (exec (.defglyph 1 0x00 0x0A 0x1F 0x1F 0x0E 0x04 0x00 0x00)
      { idle wide 0 0 [] with env := { (idle wide 0 0 []).env with ctl := { controller wide [] with ac := 0x05 } } }) (fun t =>
      decide (t.env.ctl.glyphRows 1 = [0x00, 0x0A, 0x1F, 0x1F, 0x0E, 0x04, 0x00, 0x00]) && decide (t.env.ctl.ac = 0x05) &&
        decide (t.env.ctl.sel = .dd) && decide (ctlCount t.hist = 132)) = true := by decide +kernel

/-- V44-9 on the 16 by 2 panel: the byte of the cell, the cursor unchanged. -/
theorem test_readchar :
    answers (exec (.readchar 1 1) (idle wide 4 0 [(0x41, 0x58)])) (fun t =>
      decide (t.rsp = [0x58]) && decide (t.cx = 4 ∧ t.cy = 0)) = true := by decide +kernel

/-- V44-10. -/
theorem test_readchar_outside : refusedAs (exec (.readchar 16 0) (idle wide 0 0 [])) .outOfRange = true := by decide +kernel

/-- V44-5: in BUS4, 10 strobes, 30 `Ctl`, the counter one further. -/
theorem test_readram_bus4 :
    answers (exec (.readram 0x40) (idle narrow 0 0 [(0x40, 0x42)])) (fun t =>
      decide (t.rsp = [0x42]) && decide (t.env.ctl.ac = 0x41) && decide (strobeCount t.hist = 10) &&
        decide (ctlCount t.hist = 30)) = true := by decide +kernel

/-- V44-12. -/
theorem test_readram_absent :
    refusedAs (exec (.readram 0x40) (idle (panel .bus8 .reduced .lcd) 0 0 [])) .absentOperation = true := by decide +kernel

/-- V46-2: `p q / r s` becomes `r s` over two blanks; 34 transactions; AC = 0x42. -/
theorem test_scroll :
    answers (exec .scroll (idle (smallPanel .bus8 .full) 1 1 [(0x00, 0x70), (0x01, 0x71), (0x40, 0x72), (0x41, 0x73)])) (fun t =>
      decide (t.env.ctl.ddram = [(0x00, 0x72), (0x01, 0x73)]) && decide (t.env.ctl.ac = 0x42) &&
        decide (ctlCount t.hist = 34 * 4) && decide (t.cx = 1 ∧ t.cy = 1)) = true := by decide +kernel

/-- V46-4. -/
theorem test_scroll_one_row : answers (exec .scroll (idle rowPanel 0 0 [(0x00, 0x41)])) (fun t => decide (t.hist = [])) = true := by
  decide +kernel

/-- V48-7: INTENSITY 2 in BUS4 sends 0x2A. -/
theorem test_intensity :
    answers (exec (.intensity 2) (idle narrow 0 0 [])) (fun t =>
      decide (t.hist.take 9 = writeEvents .bus4 false 0x2A) && decide (t.env.ctl.bright = 2)) = true := by decide +kernel

theorem test_intensity_lcd : refusedAs (exec (.intensity 2) (idle wide 0 0 [])) .absentOperation = true := by decide +kernel

/-- R64, clear display: a blank DDRAM, address 0, increment. -/
theorem test_cmdClear :
    answers (exec .cmdClear (idle wide 0 0 [(0x05, 0x41)])) (fun t => decide (t.env.ctl.ddram = [] ∧ t.hist = [])) = true := by
  decide +kernel

/-- R64, entry mode set with I = 1, S = 0. -/
theorem test_cmdEntryInc :
    answers (exec .cmdEntryInc (idle wide 0 0 [])) (fun t => t.env.ctl.incr && !t.env.ctl.shift) = true := by decide +kernel

/-- R64, display control. -/
theorem test_cmdDisplay :
    answers (exec (.cmdDisplay false true) (idle wide 0 0 [])) (fun t =>
      t.env.ctl.display && !t.env.ctl.cursor && t.env.ctl.blink) = true := by decide +kernel

/-- R64, function set with L = 1 on a 4-bit interface. -/
theorem test_cmdFs8 : answers (exec .cmdFs8 (idle narrow 0 0 [])) (fun t => t.env.ctl.if8 && !t.env.ctl.twoLine) = true := by
  decide +kernel

/-- R64, function set with L = 0, N = 1, bb = 3 on a VFD. -/
theorem test_fsReal :
    answers (exec (.fsReal false true 3) (idle narrow 0 0 [])) (fun t =>
      !t.env.ctl.if8 && t.env.ctl.twoLine && decide (t.env.ctl.bright = 3)) = true := by decide +kernel

/-- R64 and R102 (b): slot 7 is CGRAM address 56 (V47-2). -/
theorem test_cmdSetCgram :
    answers (exec (.cmdSetCgram 7) (idle wide 0 0 [])) (fun t => decide (t.env.ctl.ac = 56 ∧ t.env.ctl.sel = .cg)) = true := by
  decide +kernel

theorem test_cmdSetDdram :
    answers (exec (.cmdSetDdram 0x43) (idle wide 0 0 [])) (fun t => decide (t.env.ctl.ac = 0x43 ∧ t.env.ctl.sel = .dd)) = true := by
  decide +kernel

/-- The write of V44-1. -/
theorem test_commandWrite :
    answers (exec (.commandWrite 0x80) (idle wide 0 0 [])) (fun t =>
      decide (t.hist = [.ctl .rs false, .ctl .rw false, .dir .output, .drive (.w8 0x80), .ctl .e true, .ctl .e false])) = true := by
  decide +kernel

/-- V41-9. -/
theorem test_dataWrite :
    answers (exec (.dataWrite 0x41) (idle wide 0 0 [])) (fun t =>
      decide (t.hist = [.ctl .rs true, .ctl .rw false, .dir .output, .drive (.w8 0x41), .ctl .e true, .ctl .e false]) &&
        decide (t.pins = ⟨true, false, false, .w8 0x41, .output⟩) && decide (Mem.read t.env.ctl.ddram 0 = 0x41)) = true := by
  decide +kernel

/-- V41-10: the status read while the controller is busy. -/
theorem test_statusRead :
    answers (exec .statusRead { idle wide 0 0 [] with env := { (idle wide 0 0 []).env with busyBits := [true] } }) (fun t =>
      decide (t.hist = [.dir .input, .ctl .rs false, .ctl .rw true, .ctl .e true, .sample (.w8 0x80), .ctl .e false])) = true := by
  decide +kernel

/-- V42-5 and the answer of V60-2 on a 4-bit bus, the controller unconstrained: D7 of the second strobe is bit 3 of `s`, no
busy flag (R153), and free of the first (R134). -/
theorem test_statusRead_bus4 :
    (statusRead { free narrow with env := { (free narrow).env with busyBits := [false, true], tape := [0x00, 0x80] } }).1 = 0x08 ∧
    (statusRead { free narrow with env := { (free narrow).env with busyAfter := true, tape := [0x00, 0x00] } }).1 = 0x80 ∧
      answers (exec .statusRead { free narrow with env := { (free narrow).env with busyAfter := true, tape := [0x00, 0x00] } }) (fun t =>
        decide (t.hist = [.dir .input, .ctl .rs false, .ctl .rw true, .ctl .e true, .sample (.w4 0x8), .ctl .e false,
          .ctl .e true, .sample (.w4 0x0), .ctl .e false])) = true := by decide +kernel

/-- V41-11: the lines give 0xF then 0xE. -/
theorem test_dataRead_bus4 :
    answers (exec .dataRead { idle narrow 0 0 [(0x00, 0xFE)] with
      env := { (idle narrow 0 0 [(0x00, 0xFE)]).env with ctl := { controller narrow [(0x00, 0xFE)] with addrSet := true } } }) (fun t =>
      decide (t.hist = [.dir .input, .ctl .rs true, .ctl .rw true, .ctl .e true, .sample (.w4 0xF), .ctl .e false,
        .ctl .e true, .sample (.w4 0xE), .ctl .e false])) = true := by decide +kernel

/-! ## Witnesses: for each statement with hypotheses, a state that meets them -/

/-- The premises that Clear, Cursor, Intensity, Init, Locate, Readram, Readchar, StatusReadReaction, the Putc and Puts
statements, ScrollSequence, ScrollMovesDisplay, Defglyph and RoundTrip share, at the two ends of the panel, in both bus modes,
on one row and on two. -/
theorem test_witness_premises :
    ([idle wide 0 0 [], idle wide 15 1 [], idle narrow 0 0 [], idle narrow 15 2 [], idle rowPanel 0 1 [],
      idle (smallPanel .bus8 .full) 1 1 [(0x00, 0x70)]].all fun s =>
        s.ready && s.responsive && s.refctl && s.delaysReturn && s.cursorOk && s.inv && s.env.ctl.memOk &&
          (s.cfg.table.all fun a => s.env.ctl.implemented a) && decide (s.cfg.features = .full)) = true := by decide +kernel

/-- The same premises, less `refctl`, against an unconstrained controller. -/
theorem test_witness_premises_free :
    (free wide).ready = true ∧ (free wide).responsive = true ∧ (free wide).env.peer = .unconstrained := by decide +kernel

/-- StepKeepsInvariant. -/
theorem test_witness_StepKeepsInvariant :
    (idle wide 15 1 []).inv = true ∧
      answers (step ((idle wide 15 1 []).withFetchWord 16 0x4105)) (fun t => t.inv) = true := by decide +kernel

/-- ResetInvariant: both premises; and the reset of an engine hung in a settle delay, with E high, meets the invariant. -/
theorem test_witness_ResetInvariant :
    Env.powerOn.ctl.memOk = true ∧ Env.powerOn.delays.settle ≠ .stuck ∧
      answers (cutAfter 2 (.dataWrite 0x41) (idle wide 0 0 [])) (fun t =>
        t.stuck && t.pins.e && t.inv && (applyReset t.env.ctl .all t).inv) = true := by decide +kernel

/-- What a reset finds and leaves, as a number of properties of the state after it. -/
def afterReset (n : Nat) (i : Instr) (s : State) (p : State → Bool) : Bool :=
  match resetDuring n i .all s with
  | some t => p t
  | none => false

/-- ResetBetweenStrobes: its premises, and the controller the reset leaves. -/
theorem test_witness_ResetBetweenStrobes :
    (idle narrow 0 0 []).busyOp = false ∧ narrow.busMode = .bus4 ∧ (idle narrow 0 0 []).env.peer = .reference ∧
      (idle narrow 0 0 []).env.inStep narrow = true ∧
        afterReset 3 (.dataWrite 0x41) (idle narrow 0 0 []) (fun t =>
          decide (t.env.ctl.phase = .lo) && decide (t.env.ctl.nib = 4) && !t.pins.e && !t.inited && t.env.ctl.incr) = true := by
  decide +kernel

/-- R281: a reset in the middle of SCROLL (after the copy of the first cell) leaves the display half scrolled, and a reset in
the middle of DEFGLYPH leaves the counter in CGRAM; the engine waits for an INIT either way. -/
theorem test_reset_cuts_scroll_and_defglyph :
    afterReset 44 .scroll (idle (smallPanel .bus8 .full) 0 0 [(0x00, 0x70), (0x40, 0x72), (0x41, 0x73)]) (fun t =>
      decide (t.env.ctl.ddram = [(0x00, 0x72), (0x40, 0x72), (0x41, 0x73)]) && !t.inited && !t.busyOp && decide (t.hist = [])) &&
      afterReset 40 (.defglyph 1 1 2 3 4 5 6 7 8) (idle wide 0 0 []) (fun t =>
        decide (t.env.ctl.sel = .cg) && decide (t.env.ctl.cgram = [(8, 1), (9, 2)]) && !t.inited) = true := by decide +kernel

/-- DecodeEncode and DecodeSound, one of each space. -/
theorem test_witness_DecodeEncode :
    (Instr.puts []).wellFormed = true ∧ (Instr.fsReal true true 0).wellFormed = true ∧ (Instr.dataWrite 0).wellFormed = true ∧
      decode .hostPacket [0x06, 0x00] = .ok (.puts [], 2) ∧ decode .controllerCommand [0x38] = .ok (.fsReal true true 0, 1) ∧
        decode .busTransaction [0x02, 0x00] = .ok (.dataWrite 0, 2) := by decide

/-- StepRunsDecoded: a packet, a direct word, neither; and CP past a packet whose operation completed, at one that hangs. -/
theorem test_witness_StepRunsDecoded :
    answers (step (presenting wide true [0x02])) (fun t => decide (t.cp = 1)) = true ∧
    answers (step { presenting wide true [0x02] with env := { (presenting wide true [0x02]).env with busyAfter := true } })
      (fun t => t.busyOp && decide (t.cp = 0)) = true ∧
    ((idle wide 0 0 []).withFetchWord 8 0x02).busyOp = false ∧ ((idle wide 0 0 []).withFetchWord 8 0x02).direct = none ∧
      decodePacket (((idle wide 0 0 []).withFetchWord 8 0x02).packets.drop 0) = .ok (.clear, 1) ∧
      ((idle wide 0 0 []).withFetchWord 8 0x0C).direct = some (.controllerCommand, wordBytes 8 0x0C) ∧
      decode .controllerCommand (wordBytes 8 0x0C) = .ok (.cmdDisplay false false, 1) ∧
      (idle wide 0 0 []).packets.drop (idle wide 0 0 []).cp = [] := by decide +kernel

/-- RefusalOrder, MalformedRefused, BeforeInitRefused: the first failing check names the refusal, at the edges of the opcodes. -/
theorem test_witness_RefusalOrder :
    refusedAs (step (presenting wide false [0x00])) .unassignedOpcode = true ∧
    refusedAs (step (presenting wide false [0x0C])) .unassignedOpcode = true ∧
    refusedAs (step (presenting wide false [0x0B, 0x04])) .absentOperation = true ∧
    refusedAs (step (presenting (panel .bus8 .reduced .vfd) false [0x07])) .absentOperation = true ∧
    refusedAs (step (presenting (panel .bus8 .reduced .vfd) false [0x0A])) .absentOperation = true ∧
    refusedAs (step (presenting narrow false [0x0B, 0x04])) .notInitialised = true ∧
    refusedAs (step (presenting narrow true [0x0B, 0x04])) .reservedBits = true ∧
    refusedAs (step (presenting narrow true [0x09, 0x80])) .reservedBits = true ∧
    refusedAs (step (presenting narrow true [0x03, 0x03])) .truncatedPacket = true ∧
    refusedAs (step (presenting narrow true [0x03, 0x10, 0x01])) .outOfRange = true ∧
    answers (step (presenting narrow true [0x03, 0x0F, 0x01])) (fun t => decide (t.cx = 15)) = true ∧
    answers (step (presenting wide false [0x01])) (fun t => t.inited) = true := by decide +kernel

/-- A state in which an operation hangs, in one wait or another (V60-2, R262). -/
def hung (c : Cfg) (h : Hang) : State :=
  { idle c 1 0 [] with busyOp := true, hang := some h, env := { (idle c 1 0 []).env with busyAfter := true } }

/-- RefusalOrder (first clause), BusyTakesNothing, HungForEver: each of its clauses, the third without and with the premise. -/
theorem test_witness_HungForEver :
    (hung wide .poll).busyOp = true ∧ (hung wide .poll).settlesReturn = true ∧ (hung wide .poll).direct = none ∧
      answers (step (hung wide .poll)) (fun t => t.busyOp && decide (t.hist = readEvents .bus8 false 0x80)) = true ∧
      answers (step (hung wide .delay)) (fun t => decide (t = hung wide .delay)) = true ∧
      answers (step (hung wide .settle)) (fun t => decide (t = hung wide .settle)) = true ∧
      answers (step (leaving (hung wide .poll) 2)) (fun t => t.busyOp && decide (t.hang = some .settle)) = true ∧
        refusedAs (exec .clear (hung wide .poll)) .busy = true := by decide +kernel

/-- The state with a controller that is busy for ever (R152 does not hold). -/
def deaf (s : State) : State := { s with env := { s.env with busyBits := [true], busyAfter := true } }

/-- HangsInPoll: its premises at both ends of the panel and in both bus modes; V60-2, LOCATE with the cursor written; a PUTC past
the last row, before and after CY is pinned; and INIT from a controller out of step. -/
theorem test_witness_HangsInPoll :
    ([deaf (idle wide 0 0 []), deaf (idle narrow 15 2 []), deaf (idle rowPanel 0 1 [])].all fun s =>
      s.cursorOk && s.neverReady && s.settlesReturn && s.delaysReturn && s.env.inStep s.cfg && accepted s (.locate 1 0) &&
        transfers s.cfg (.locate 1 0) && accepted s .init && accepted s (.putc 0x41)) = true ∧
    answers (exec (.locate 1 0) (deaf (idle wide 0 0 []))) (fun t =>
      t.busyOp && decide (t.hang = some .poll) && decide (t.cx = 1) && decide (t.rsp = [])) = true ∧
    answers (exec (.putc 0x41) (deaf (idle narrow 15 2 []))) (fun t => decide (t.hang = some .poll ∧ t.cx = 15 ∧ t.cy = 2)) = true ∧
    answers (exec (.putc 0x0A) (deaf (idle rowPanel 3 1 []))) (fun t => decide (t.hang = some .poll ∧ t.cx = 3 ∧ t.cy = 0)) = true ∧
    answers (exec .init (deaf { idle narrow 5 1 [] with env := { Env.powerOn with tape := [0, 0, 0, 0, 0, 0] } })) (fun t =>
      decide (t.hang = some .poll ∧ t.cx = 5) && t.env.settled) = true := by decide +kernel

/-- The state with a millisecond delay that never returns, after `n` that do. -/
def msLeaving (s : State) (n : Nat) : State :=
  { s with env := { s.env with delays := { ms := some n, settle := .all } } }

/-- HangsInDelay, first clause: the first and the last of INIT's six delays; with six that return INIT completes. -/
theorem test_witness_HangsInDelay_ms :
    ([0, 3, 5].all fun n => [idle wide 5 1 [], { idle narrow 5 1 [] with
      inited := false
      env := { (idle narrow 5 1 []).env with tape := [0, 0, 0, 0, 0, 0] } }].all fun s =>
      !s.busyOp && s.settlesReturn && answers (exec .init (msLeaving s n)) (fun t =>
        decide (t.hang = some .delay) && t.busyOp && decide (delayCount t.hist = n) && decide (t.cx = 5 ∧ t.cy = 1) &&
          decide (t.inited = s.inited))) = true ∧
    answers (exec .init (msLeaving (idle wide 5 1 []) 6)) (fun t => !t.busyOp && t.inited) = true := by decide +kernel

/-- HangsInDelay, second clause: the first and the last of the four settle delays of a transfer, for an operation and for a
transaction; with four that return the transaction completes. -/
theorem test_witness_HangsInDelay_settle :
    ([0, 3].all fun n => [idle wide 0 0 [], idle narrow 15 2 []].all fun s =>
      accepted (leaving s n) (.locate 1 0) && accepted (leaving s n) .dataRead && transfers s.cfg .dataRead && s.cursorOk &&
      answers (exec (.locate 1 0) (leaving s n)) (fun t =>
        decide (t.hang = some .settle) && t.busyOp && decide (ctlCount t.hist = n + 1) && decide (t.cx = 1 ∧ t.cy = 0)) &&
      answers (exec .dataRead (leaving s n)) (fun t =>
        decide (t.hang = some .settle) && t.busyOp && decide (ctlCount t.hist = n + 1))) = true ∧
    answers (exec (.dataWrite 0x41) (leaving (idle wide 0 0 []) 4)) (fun t => !t.busyOp) = true := by decide +kernel

/-- How a wait ends, as a number. -/
def waitEnd (s : State) : Nat :=
  match waitUntilReady s with
  | .done _ _ => 0
  | .hung _ => 1
  | .stop _ => 2

/-- PollBudgetIsNoBound: a wait that completes, and one that does not. -/
theorem test_witness_PollBudgetIsNoBound : waitEnd (idle wide 0 0 []) = 0 ∧ waitEnd (hung wide .poll) = 1 := by decide +kernel

/-- LinePrimitives: an engine with E low and one with E high; every settle delay returning, one left, and one that is stuck. -/
theorem test_witness_LinePrimitives :
    (idle wide 0 0 []).stuck = false ∧ (idle wide 0 0 []).pins.e = false ∧ (idle wide 0 0 []).settlesReturn = true ∧
      (setControlLine .e true (idle wide 0 0 [])).pins.e = true ∧
      (setControlLine .rs true (leaving (idle wide 0 0 []) 0)).stuck = true ∧
      setBusDirection .output (setControlLine .rs true (leaving (idle wide 0 0 []) 0)) =
        setControlLine .rs true (leaving (idle wide 0 0 []) 0) := by decide +kernel

/-- OutOfRangeRefused: a cell one past the end in each direction, and a request refused for it. -/
theorem test_witness_OutOfRangeRefused :
    resolve wide 15 1 = some 0x4F ∧ resolve wide 16 0 = none ∧ resolve wide 0 2 = none ∧ (idle wide 0 2 []).cursorOk = true ∧
      refusedAs (exec (.locate 16 0) (idle wide 0 2 [])) .outOfRange = true := by decide +kernel

/-- BusWriteTransaction and BusReadTransaction: both bus modes. -/
theorem test_witness_BusTransactions :
    (idle wide 0 0 []).settlesReturn = true ∧ (idle narrow 0 0 []).settlesReturn = true ∧
    (idle wide 0 0 []).busyOp = false ∧ wide.busMode = .bus8 ∧ (idle narrow 0 0 []).busyOp = false ∧ narrow.busMode = .bus4 := by
  decide +kernel

/-- CommandReaction: one byte of each kind, at both ends of its range, each to a controller in step. -/
theorem test_witness_CommandReaction :
    ([idle wide 0 0 [], idle narrow 0 0 []].all fun s =>
      !s.busyOp && s.settlesReturn && decide (s.env.peer = .reference) && s.env.inStep s.cfg &&
        ([0x80, 0xFF, 0x40, 0x7F, 0x20, 0x3F, 0x08, 0x0F, 0x04, 0x07, 0x02, 0x03, 0x01] : List Byte).all fun v =>
          decide (v ≠ 0) && answers (exec (.commandWrite v) s) (fun t =>
            t.env.ctl.busy && decide (t.env.ctl.addrSet = decide (0x40 ≤ v.toNat)))) = true := by decide +kernel

/-- DataReaction: CGRAM at its last address; DDRAM at an implemented and at an unimplemented address. -/
theorem test_witness_DataReaction :
    (let at_ := fun (sel : Ram) (a : Addr7) =>
      ({ idle wide 0 0 [] with env := { (idle wide 0 0 []).env with ctl := { controller wide [] with sel := sel, ac := a } } } : State)
    answers (exec (.dataWrite 0x41) (at_ .cg 63)) (fun t => decide (Mem.read t.env.ctl.cgram 63 = 0x41 ∧ t.env.ctl.ac = 0)) &&
      answers (exec (.dataWrite 0x41) (at_ .dd 0x27)) (fun t => decide (Mem.read t.env.ctl.ddram 0x27 = 0x41 ∧ t.env.ctl.ac = 0x40)) &&
        answers (exec (.dataWrite 0x41) (at_ .dd 0x28)) (fun t => decide (t.env.ctl.ddram = []))) = true := by decide +kernel

/-- CounterSteps: each clause at the edge of its range. -/
theorem test_witness_CounterSteps :
    ({ Ctl.powerOn with ac := 0x4F }.step = 0) ∧ ({ Ctl.powerOn with twoLine := true, ac := 0x27 }.step = 0x40) ∧
      ({ Ctl.powerOn with twoLine := true, ac := 0x67 }.step = 0) ∧ ({ Ctl.powerOn with sel := .cg, ac := 63 }.step = 0) ∧
        ({ Ctl.powerOn with incr := false, ac := 0 }.step = 0x4F) ∧
          ({ Ctl.powerOn with incr := false, twoLine := true, ac := 0x40 }.step = 0x27) ∧
            ({ Ctl.powerOn with incr := false, sel := .cg, ac := 0 }.step = 63) := by decide

/-- DataReadReaction: a read that directly follows an address set, of each RAM. -/
theorem test_witness_DataReadReaction :
    ([Ram.dd, Ram.cg].all fun sel =>
      let s : State := { idle wide 0 0 [(0x27, 0x41)] with
        env := { (idle wide 0 0 []).env with ctl := { controller wide [(0x27, 0x41)] with sel := sel, ac := 0x27, addrSet := true } } }
      !s.busyOp && s.settlesReturn && s.refctl && s.env.ctl.addrSet && s.env.ctl.implemented s.env.ctl.ac &&
        answers (exec .dataRead s) (fun t => decide (t.env.ctl.ac = if sel = .dd then 0x40 else 0x28))) = true := by decide +kernel

/-- CommandRowsAgree: every row, on both buses. -/
theorem test_witness_CommandRowsAgree :
    ([Instr.cmdClear, .cmdEntryInc, .cmdDisplay true true, .cmdFs8, .fsReal false true 3, .cmdSetCgram 7, .cmdSetDdram 0x7F].all fun i =>
      decide (i.space = .controllerCommand) && decide ((encode i).length = 1) &&
        ([idle wide 0 0 [], idle narrow 0 0 []].all fun s =>
          !s.busyOp && s.settlesReturn && decide (s.env.peer = .reference) && s.env.inStep s.cfg)) = true := by decide +kernel

/-- Intensity: an LCD and a VFD; Readram: without and with raw reads. -/
theorem test_witness_Intensity :
    (idle wide 0 0 []).cfg.displayType = .lcd ∧ (idle narrow 0 0 []).cfg.displayType = .vfd ∧
      (idle (panel .bus8 .reduced .lcd) 0 0 []).ready = true ∧ (idle wide 0 0 []).cfg.features = .full := by decide +kernel

/-- Init: before the first INIT, from any controller; each of its two cases. -/
theorem test_witness_Init :
    State.reset.busyOp = false ∧ State.reset.env.eventuallyReady = true ∧ State.reset.delaysReturn = true ∧
      State.reset.env.peer = .reference ∧ (free wide).busyOp = false ∧ (free wide).delaysReturn = true := by decide +kernel

/-- ResolveTable and ResolveTwentyByFour (V43-1, V43-2). -/
theorem test_witness_ResolveTable :
    Config.resetCfg.xmax = 19 ∧ Config.resetCfg.ymax = 3 ∧ Config.resetCfg.table = Config.table20x4 ∧
      resolve Config.resetCfg 0 2 = some 0x14 ∧ resolve Config.resetCfg 19 3 = some 0x67 := by decide +kernel

/-- PutcLineFeed and PutcLineFeedLastRow: the row before the last; the last row with and without scroll support. -/
theorem test_witness_PutcLineFeed :
    (idle wide 15 0 []).cy.toNat < (idle wide 15 0 []).cfg.ymax ∧
      answers (exec .scroll (idle (smallPanel .bus8 .full) 1 1 [])) (fun u => !u.busyOp &&
        answers (exec (.locate 1 1) u) fun t => !t.busyOp) = true ∧
      answers (exec (.locate 1 0) (idle (smallPanel .bus8 .reduced) 1 1 [])) (fun t => !t.busyOp) = true ∧
      (idle (smallPanel .bus8 .reduced) 1 1 []).ready = true := by decide +kernel

/-- PutcEntry: CY past the last row, with and without scroll support. -/
theorem test_witness_PutcEntry :
    (smallPanel .bus8 .full).ymax < (idle (smallPanel .bus8 .full) 0 2 []).cy.toNat ∧
      answers (exec .scroll (idle (smallPanel .bus8 .full) 0 2 [])) (fun u => !u.busyOp) = true ∧
      (smallPanel .bus8 .reduced).features = .reduced ∧ (idle (smallPanel .bus8 .reduced) 0 2 []).ready = true := by decide +kernel

/-- PutsIsPutcs: the first byte completes, or hangs. -/
theorem test_witness_PutsIsPutcs :
    textOk [0x41, 0x42] = true ∧ answers (exec (.putc 0x41) (idle wide 0 0 [])) (fun t => !t.busyOp) = true ∧
      answers (exec (.putc 0x41) (deaf (idle wide 0 0 []))) (fun t => t.busyOp) = true := by decide +kernel

/-- Defglyph and HostOperationsRestDd: the counter addresses DDRAM and increments; an operation completes also before a
controller that goes busy for ever after it. -/
theorem test_witness_HostOperationsRestDd :
    (idle wide 0 0 []).env.ctl.sel = .dd ∧ (idle wide 0 0 []).env.ctl.incr = true ∧ (idle wide 0 0 []).refctl = true ∧
      answers (exec .clear { idle wide 0 0 [] with env := { (idle wide 0 0 []).env with busyBits := [true, false], busyAfter := true } })
        (fun t => !t.busyOp) = true ∧
      (idle wide 0 0 []).env.peer = .reference ∧ answers (exec .clear (idle wide 0 0 [])) (fun t => !t.busyOp) = true := by decide +kernel

/-- RoundTrip (V44-11 on the 16 by 2 panel). -/
theorem test_witness_RoundTrip :
    answers (exec (.locate 15 1) (idle wide 0 0 [])) (fun t => answers (exec (.putc 0x7E) t) fun u =>
      answers (exec (.readchar 15 1) u) fun w => decide (w.rsp = [0x7E, 0x7E])) = true := by decide +kernel

/-- EngineIgnoresController, ResponseBytes, IdlePins, CursorWriters: an operation and a transaction that give a next state. -/
theorem test_witness_EngineIgnoresController :
    (free wide).env.peer = .unconstrained ∧ answers (exec .clear (free wide)) (fun t => !t.busyOp) = true ∧
      answers (exec .statusRead (free wide)) (fun t => !t.busyOp) = true := by decide +kernel

/-- ConfigurationFixed and HistoryOnlyGrows (ConfigurationIsArgument has no hypotheses). -/
theorem test_witness_ConfigurationFixed : answers (step State.reset) (fun t => decide (t.cfg = Config.resetCfg)) = true := by
  decide +kernel

/-- StrobesInPairs: a 4-bit bus, an operation that completes, and one that hangs in the poll loop. -/
theorem test_witness_StrobesInPairs :
    (idle narrow 0 0 []).cfg.busMode = .bus4 ∧
      answers (exec .clear (idle narrow 0 0 [])) (fun t => decide (strobeCount t.hist = 6) && !t.stuck) = true ∧
      answers (exec .clear (deaf (idle narrow 0 0 []))) (fun t => decide (strobeCount t.hist % 2 = 0) && !t.stuck) = true := by
  decide +kernel

/-- EventCounts: a controller never busy, in step, the cursor at rest. -/
theorem test_witness_EventCounts :
    (idle narrow 0 0 []).env.busyBits = [] ∧ (idle narrow 0 0 []).env.busyAfter = false ∧
      (idle narrow 0 0 []).env.inStep (idle narrow 0 0 []).cfg = true ∧ (idle narrow 0 0 []).cursorOk = true ∧
        answers (exec (.putc 0x0A) (idle narrow 0 0 [])) (fun t => !t.busyOp && decide (ctlCount t.hist = 18)) = true := by decide +kernel

end Sys2Proof.Tests
end

section
/-!
What an instruction and a step leave unchanged (10_state.md R22, R35): the configuration always, the cursor registers unless
the instruction is one of the three that write them. Said once of `exec`, and once of what a next state of `step` can be.
-/
namespace Sys2Proof.Machine

/-! ## An instruction -/

/-- `t` has the configuration of `s`, and its cursor registers too where `i` does not write them. -/
def Undisturbed (i : Instr) (s t : State) : Prop :=
  t.cfg = s.cfg ∧ (writesCursor i = false → t.cx = s.cx ∧ t.cy = s.cy)

theorem Worked.undisturbed {s t : State} (i : Instr) (h : Worked s t) : Undisturbed i s t := by
  obtain ⟨hcfg, hcx, hcy, -⟩ := h.fields
  exact ⟨hcfg, fun _ => ⟨hcx, hcy⟩⟩

/-- `Undisturbed` looks at neither the pins, the history, the environment nor INITED. -/
theorem undisturbed_kept (i : Instr) (s : State) : Kept i (Undisturbed i s) where
  closed := (lineClosed_of_apart fun _ _ _ _ h => h).closed
  cursor hw _ _ _ h := ⟨h.1, fun hn => absurd (hw.symm.trans hn) nofun⟩
  init _ := ⟨⟨_, boot_of_apart (fun _ _ _ _ h => h) fun _ h => h⟩,
    (lineClosed_of_apart fun _ _ _ _ h => h).closed.and settled_closed.closed⟩

/-- Completed or hung, an instruction leaves the configuration, and the cursor where it does not write it (R22, R35). -/
theorem exec_undisturbed {i : Instr} {s t : State} (h : exec i s = .next t) : Undisturbed i s t := by
  cases hi : i.space with
  | hostPacket =>
    obtain ⟨-, -, -, hend⟩ := exec_host (undisturbed_kept i s) (fun _ hu => hu.1) hi h fun _ => ⟨rfl, fun _ => ⟨rfl, rfl⟩⟩
    rcases hend with ⟨u, r, hu, -, rfl⟩ | ⟨u, k, hu, -, rfl⟩
    · exact hu
    · exact hu
  | busTransaction =>
    obtain ⟨-, u, hu, hend⟩ := exec_transaction hi h
    have hwork : Worked s u := by
      rcases hu with ⟨rs, b, rfl⟩ | ⟨rs, rfl⟩
      · exact (worked_closed s).write rs b s (.refl s)
      · exact (worked_closed s).read rs s (.refl s)
    rcases hend with ⟨-, rfl⟩ | ⟨-, rfl⟩
    · exact hwork.undisturbed i
    · exact hwork.undisturbed i
  | controllerCommand =>
    obtain ⟨k, hk⟩ := exec_command s hi
    cases hk.symm.trans h
    exact ⟨rfl, fun _ => ⟨rfl, rfl⟩⟩

/-- An instruction other than LOCATE, PUTC and PUTS is no writer of the cursor. -/
theorem writesCursor_false {i : Instr} (hl : ∀ x y, i ≠ .locate x y) (hc : ∀ ch, i ≠ .putc ch)
    (hs : ∀ text, i ≠ .puts text) : writesCursor i = false := by
  cases i with
  | locate x y => exact absurd rfl (hl x y)
  | putc ch => exact absurd rfl (hc ch)
  | puts text => exact absurd rfl (hs text)
  | init | clear | cursor | defglyph | readchar | readram | scroll | intensity | cmdClear | cmdEntryInc | cmdDisplay | cmdFs8
  | fsReal | cmdSetCgram | cmdSetDdram | commandWrite | dataWrite | statusRead | dataRead => rfl

/-! ## A step -/

/-- Where no request is taken, an operation hangs on or nothing happens (R257 item 1, R32). -/
theorem fetch_idle {s t : State} (h : fetch s = .idle t) : (s.busyOp = true ∧ t = hangOn s) ∨ (s.busyOp = false ∧ t = s) := by
  unfold fetch at h
  split at h
  · cases h; exact .inl ⟨‹_›, rfl⟩
  · refine .inr ⟨Bool.eq_false_iff.2 ‹_›, ?_⟩
    split at h
    · unfold fetchDirect at h; split at h <;> cases h
    · unfold fetchPacket at h
      split at h
      · cases h; rfl
      · split at h <;> cases h

/-- A request is taken by an idle engine, and taking it removes at most the direct word. -/
theorem fetch_run {s t : State} {i : Instr} {n : Nat} (h : fetch s = .run i n t) :
    s.busyOp = false ∧ (t = s ∨ t = { s with direct := none }) := by
  unfold fetch at h
  split at h
  · cases h
  · refine ⟨Bool.eq_false_iff.2 ‹_›, ?_⟩
    split at h
    · unfold fetchDirect at h
      split at h
      · cases h; exact .inr rfl
      · cases h
    · unfold fetchPacket at h
      split at h
      · cases h
      · split at h
        · cases h; exact .inl rfl
        · cases h

/-- Where the command pointer stands after an operation with a packet of `n` bytes (R32). -/
theorem advanceCp_next {n : Nat} {r : Answer} {t : State} (h : advanceCp n r = .next t) :
    ∃ u, r = .next u ∧ t = if u.busyOp then u else { u with cp := u.cp + n } := by
  cases r with
  | next u => cases h; exact ⟨u, rfl, rfl⟩
  | fault f => cases f
  | refused q => cases h

/-- What a next state of a step is: an operation hanging on, a wait for the host, or what an instruction makes of the state it
is taken from, but for the command pointer. -/
theorem step_next {s t : State} (h : step s = .next t) :
    (s.busyOp = true ∧ t = hangOn s) ∨ (s.busyOp = false ∧ t = s) ∨
      ∃ i n u v, s.busyOp = false ∧ fetch s = .run i n u ∧ (u = s ∨ u = { s with direct := none }) ∧ exec i u = .next v ∧
        t = if v.busyOp then v else { v with cp := v.cp + n } := by
  unfold step at h
  split at h
  · rename_i u hf
    cases h
    exact (fetch_idle hf).imp_right .inl
  · rename_i i n u hf
    obtain ⟨hb, hu⟩ := fetch_run hf
    obtain ⟨v, hv, ht⟩ := advanceCp_next h
    exact .inr (.inr ⟨i, n, u, v, hb, hf, hu, hv, ht⟩)
  · cases h

/-- An operation that hangs on makes at most one more status read, and its mark (R252, R262). -/
theorem hangOn_worked (s : State) : ∃ k, Worked { s with hang := k } (hangOn s) := by
  have hread : Worked s (statusRead s).2 := (worked_closed s).read false s (.refl s)
  unfold hangOn
  split
  · split
    · exact ⟨some .settle, by rw [Worked] at hread ⊢; rw [hread]⟩
    · exact ⟨s.hang, hread⟩
  · exact ⟨s.hang, .refl s⟩
  · exact ⟨s.hang, .refl s⟩
  · exact ⟨s.hang, .refl s⟩

theorem hangOn_cfg (s : State) : (hangOn s).cfg = s.cfg := by
  obtain ⟨k, hk⟩ := hangOn_worked s
  exact hk.fields.1

theorem step_cfg {s t : State} (h : step s = .next t) : t.cfg = s.cfg := by
  rcases step_next h with ⟨-, rfl⟩ | ⟨-, rfl⟩ | ⟨i, n, u, v, -, -, hu, hv, rfl⟩
  · exact hangOn_cfg s
  · rfl
  · have hcfg : u.cfg = s.cfg := by rcases hu with rfl | rfl <;> rfl
    have hexec : v.cfg = s.cfg := (exec_undisturbed hv).1.trans hcfg
    split <;> exact hexec

/-! ## The obligations -/

/-- Settles O51: no micro-operation of the other instructions writes the cursor registers. -/
theorem cursorWriters : Obligations.CursorWriters := by
  unfold Obligations.CursorWriters
  intro i s t h hl hc hs
  exact (exec_undisturbed h).2 (writesCursor_false hl hc hs)

/-- Settles O52: every micro-operation keeps the configuration, and so do the fetch, a hang and a reset. -/
theorem configurationFixed : Obligations.ConfigurationFixed := by
  unfold Obligations.ConfigurationFixed
  exact ⟨fun _ _ => step_cfg, fun _ _ _ h => (exec_undisturbed h).1, applyReset_cfg⟩

end Sys2Proof.Machine
end

section
/-!
The Address Translator (43_address_translator.md R160, R161, R164): on the panel Resolve is the table lookup, which has a value
there because the table has an entry for every cell (R8).
-/
namespace Sys2Proof.Machine

/-- On the panel the range test of R162 passes and the literal lookup of R160 is left. -/
theorem resolve_eq_getElem? {c : Cfg} {x y : Nat} (hx : x ≤ c.xmax) (hy : y ≤ c.ymax) :
    resolve c x y = c.table[x + (c.xmax + 1) * y]? :=
  if_pos ⟨hx, hy⟩

/-- Settles O33: the lookup has a value on the panel, and equal values come from equal cells. -/
theorem resolveTable : Obligations.ResolveTable := by
  unfold Obligations.ResolveTable
  refine fun c => ⟨fun x y hx hy => ?_, fun x y x' y' a => resolve_injective⟩
  obtain ⟨a, ha, -⟩ := resolve_some hx hy
  exact ⟨a, ha, (resolve_eq_getElem? hx hy).symm.trans ha⟩

/-- Settles O34: cell (0, 2) is entry 40 of the table, the first of its third row. -/
theorem resolveTwentyByFour : Obligations.ResolveTwentyByFour := by
  unfold Obligations.ResolveTwentyByFour
  intro c hx hy ht
  have hentry : Config.table20x4[0 + (19 + 1) * 2]? = some 0x14 := by decide
  rw [resolve_eq_getElem? (Nat.zero_le _) (by omega), hx, ht, hentry]

end Sys2Proof.Machine
end

section
/-!
The entry normalization of Putchar (45_terminal.md R190): Putchar sees its entry state only through the row overflow, so from
past the last row it is Putchar from where the row overflow ends, which is on the panel and has no overflow of its own.
-/
namespace Sys2Proof.Machine

/-! ## Accepted operations -/

/-- In a ready engine PUTC is Putchar, its value handed to the host (R187, R99). -/
theorem exec_putc_of_ready (ch : Byte) {s : State} (h : s.ready = true) :
    exec (.putc ch) s = runOp s fun t => withResult (putchar ch t) := by
  obtain ⟨hbusy, hinited⟩ := (ready_iff s).1 h
  exact accept_ok hbusy rfl (.inr hinited)

/-- PUTC gives the same answer from ready states between which Putchar, once they are busy, does not tell. -/
theorem exec_putc_congr {ch : Byte} {s t : State} (hs : s.ready = true) (ht : t.ready = true)
    (h : putchar ch { s with busyOp := true } = putchar ch { t with busyOp := true }) :
    exec (.putc ch) s = exec (.putc ch) t := by
  simp only [exec_putc_of_ready ch hs, exec_putc_of_ready ch ht, runOp, h]

/-- An operation without a result completes where its procedure does. -/
theorem noResult_eq_done {r : Ran Unit} {o : Option Byte} {t : State} (h : noResult r = .done o t) :
    r = .done () t ∧ o = none := by
  cases r with
  | done _ u => cases h; exact ⟨rfl, rfl⟩
  | hung u => cases h
  | stop q => cases h

/-- Transactions leave BUSY_OP alone (R30). -/
theorem Worked.busyOp_eq {s t : State} (h : Worked s t) : t.busyOp = s.busyOp := by
  obtain ⟨-, -, -, hbusy, -⟩ := h.fields
  exact hbusy

/-- A SCROLL that completes is a ScrollUp that does (R215); the end of the operation restores BUSY_OP alone (R30). -/
theorem exec_scroll_completed {s u : State} (h : exec .scroll s = .next u) (hu : u.busyOp = false) :
    ∃ t, scrollUp { s with busyOp := true } = .done () t ∧ Worked { s with busyOp := true } t ∧
      u = { t with busyOp := false } := by
  obtain ⟨-, -, -, hrun⟩ := accept_next h
  have hworked := scrollUp_worked { s with busyOp := true }
  obtain ⟨t, r, hbody, -, -, rfl⟩ :=
    runOp_idle (noResult_ends (hworked.mono fun _ ht => ht.busyOp_eq).weaken) hrun hu
  obtain ⟨hscroll, rfl⟩ := noResult_eq_done hbody
  rw [hscroll] at hworked
  exact ⟨t, hscroll, hworked.1, by simp⟩

/-! ## The row overflow at entry -/

/-- With scroll support the row overflow is ScrollUp, then CY pinned at YMAX. -/
theorem foldRow_scroll {s t : State} (hy : s.cfg.ymax < s.cy.toNat) (hf : s.cfg.hasScroll = true)
    (h : scrollUp s = .done () t) : foldRow s = .done () (t.setCursor t.cx (BitVec.ofNat 8 t.cfg.ymax)) := by
  unfold foldRow
  rw [if_pos (pastRow_true hy), if_pos hf, h]
  rfl

/-- Without scroll support the row overflow wraps CY to row 0. -/
theorem foldRow_wrap {s : State} (hy : s.cfg.ymax < s.cy.toNat) (hf : s.cfg.hasScroll = false) :
    foldRow s = .done () (s.setCursor s.cx 0) := by
  unfold foldRow
  rw [if_pos (pastRow_true hy), if_neg (by simp [hf])]

/-- Putchar is Putchar from where its row overflow ends, the row being on the panel there. -/
theorem putchar_of_foldRow (ch : Byte) {s t : State} (h : foldRow s = .done () t) (ht : t.cy.toNat ≤ t.cfg.ymax) :
    putchar ch s = putchar ch t := by
  unfold putchar
  rw [h, foldRow_none ht]

/-- YMAX as a cursor row is on the panel. -/
theorem ymax_byte_le (c : Cfg) : (BitVec.ofNat 8 c.ymax).toNat ≤ c.ymax := by
  rw [BitVec.toNat_ofNat]
  exact Nat.mod_le _ _

/-- Settles O42: the row overflow at Putchar's entry is ScrollUp and the pin, or the wrap. -/
theorem putcEntry : Obligations.PutcEntry := by
  unfold Obligations.PutcEntry
  intro s ch hready hy
  obtain ⟨-, hinited⟩ := (ready_iff s).1 hready
  constructor
  · intro hfull u hu hidle
    have hf : s.cfg.hasScroll = true := by simp [Cfg.hasScroll, hfull]
    obtain ⟨t, hscroll, hworked, rfl⟩ := exec_scroll_completed hu hidle
    obtain ⟨hcfg, -, -, hbusy, hin, -⟩ := hworked.fields
    have hfold := foldRow_scroll (s := { s with busyOp := true }) hy hf hscroll
    refine exec_putc_congr hready ((ready_iff _).2 ⟨rfl, hin.trans hinited⟩) ?_
    rw [putchar_of_foldRow ch hfold (ymax_byte_le t.cfg)]
    simp only [State.setCursor, hcfg, hbusy]
  · intro hreduced
    have hf : s.cfg.hasScroll = false := by simp [Cfg.hasScroll, hreduced]
    have hfold := foldRow_wrap (s := { s with busyOp := true }) hy hf
    exact exec_putc_congr hready hready (putchar_of_foldRow ch hfold (Nat.zero_le _))

end Sys2Proof.Machine
end

section
/-!
The invariant of the machine (10_state.md R21, 20_memory.md R53 and R54, 41_bus_transfer.md R144). Its parts are kept one by one:
the frame and the RAMs (`Core`) by whatever is built of transactions, the cursor's range by the three writers of the cursor,
and the mark of a hang by how an operation ends.
-/
namespace Sys2Proof.Machine

/-! ## The cursor's range -/

/-- In the cursor's resting range (R21), in the terms of the laws of the terminal layer. -/
theorem cursorOk_iff_rest (s : State) : s.cursorOk = true ↔ Rest (fun t => t.cfg = s.cfg) s.cfg s := by
  simp [State.cursorOk, Rest]

theorem cursorOk_of_rest {s t : State} (h : Rest (fun u => u.cfg = s.cfg) s.cfg t) : t.cursorOk = true := by
  obtain ⟨hcfg, hx, hy⟩ := h
  simp [State.cursorOk, hcfg, hx, hy]

/-- A host operation whose body ends in the cursor's resting range leaves the cursor there, completed or hung. -/
theorem HostEnd.cursorOk {q : Prop} {s t : State} (h : HostEnd q (Rest (fun u => u.cfg = s.cfg) s.cfg) t) :
    t.cursorOk = true := by
  rcases h with ⟨u, r, hu, -, rfl⟩ | ⟨u, k, hu, -, rfl⟩
  · exact cursorOk_of_rest (t := { u with busyOp := false, rsp := u.rsp ++ r }) hu
  · exact cursorOk_of_rest (t := { u with hang := some k }) hu

/-- Putchar less its value, as PUTS runs it, keeps the cursor at rest. -/
theorem putchar_dropped_rest {q : Prop} {c : Cfg} {C : State → Prop} (hC : Carried C c) (ch : Byte) {s : State}
    (h : Rest C c s) (hs : q → s.stuck = false) :
    ((putchar ch s).bind fun _ t => .done () t).Ends q False (Rest C c) :=
  (ends2_ends (putchar_ends hC ch h hs)).andThen fun _ _ ht hts => ⟨ht, hts⟩

/-- Every instruction keeps the cursor in its resting range (R21): LOCATE because it names a cell, PUTC and PUTS because
Putchar does, the others because they do not write it. -/
theorem exec_cursorOk {i : Instr} {s t : State} (hc : s.cursorOk = true) (h : exec i s = .next t) : t.cursorOk = true := by
  have cl := rest_closed (carried s).closed s.cfg
  have hrest : Rest (fun t => t.cfg = s.cfg) s.cfg { s with busyOp := true } := (cursorOk_iff_rest s).1 hc
  cases hw : writesCursor i with
  | false =>
    obtain ⟨hcfg, hcur⟩ := exec_undisturbed h
    obtain ⟨hx, hy⟩ := hcur hw
    simpa [State.cursorOk, hcfg, hx, hy] using hc
  | true =>
    cases i with
    | locate x y =>
      obtain ⟨-, -, -, hrun⟩ := accept_next (show accept s true true _ = .next t from h)
      refine HostEnd.cursorOk (s := s) (q := s.stuck = false)
        (runOp_ends (noResult_ends (atCell_ends (.inl trivial) fun a ha => ?_)) hrun)
      obtain ⟨hx, hy⟩ := resolve_range ha
      have hat : Rest (fun t => t.cfg = s.cfg) s.cfg ({ s with busyOp := true }.setCursor x y) :=
        ⟨rfl, hx, Nat.le_succ_of_le hy⟩
      exact (cl.sendCommand _ _ hat).weaken
    | putc ch =>
      obtain ⟨-, -, -, hrun⟩ := accept_next (show accept s true true _ = .next t from h)
      exact (runOp_ends (withResult_ends (ends2_ends (putchar_ends (carried s) ch hrest id)).weaken) hrun).cursorOk
    | puts text =>
      obtain ⟨-, -, -, hrun⟩ := accept_next (show accept s true true _ = .next t from h)
      split at hrun
      · exact (runOp_ends (noResult_ends (forEach_ends
          (fun ch _ u hu hs => putchar_dropped_rest (carried s) ch hu hs) _ hrest id).weaken) hrun).cursorOk
      · cases hrun
    | init | clear | cursor | defglyph | readchar | readram | scroll | intensity | cmdClear | cmdEntryInc | cmdDisplay
    | cmdFs8 | fsReal | cmdSetCgram | cmdSetDdram | commandWrite | dataWrite | statusRead | dataRead => cases hw

/-! ## The frame, the RAMs and the mark of a hang -/

/-- Two properties that INIT's bootstrap keeps, together. -/
theorem ClosedBoot.and {P Q P' Q' : State → Prop} (h : ClosedBoot P Q) (h' : ClosedBoot P' Q') :
    ClosedBoot (fun s => P s ∧ P' s) (fun s => Q s ∧ Q' s) where
  toClosed := h.toClosed.and h'.toClosed
  force s hs := ⟨h.force s hs.1, h'.force s hs.2⟩
  raw b s hs := ⟨h.raw b s hs.1, h'.raw b s hs.2⟩
  byte b s hs := ⟨h.byte b s hs.1, h'.byte b s hs.2⟩
  delayed ms v s hv hst hs := ⟨h.delayed ms v s hv hst hs.1, h'.delayed ms v s hv hst hs.2⟩
  leave s hs := ⟨h.leave s hs.1, h'.leave s hs.2⟩
  settled s hs := ⟨h.settled s hs.1, h'.settled s hs.2⟩
  inited s hs hset := ⟨h.inited s hs.1 hset, h'.inited s hs.2 hset⟩

/-- Inside a running operation: the frame and the RAMs in order, `BUSY_OP` true (R30), nothing hung. -/
def Running (c : Cfg) (s : State) : Prop := Core c s ∧ s.busyOp = true ∧ s.hang = none

/-- No micro-operation writes `BUSY_OP` or the mark of a hang that it does not end in. -/
theorem running_kept (i : Instr) (c : Cfg) : Kept i (Running c) where
  closed := (core_closed c).and (lineClosed_of_apart fun _ _ _ _ h => h).closed
  cursor _ _ _ _ h := h
  init _ := ⟨⟨_, (core_boot c).and (boot_of_apart (fun _ _ _ _ h => h) fun _ h => h)⟩,
    ((core_closed c).and (lineClosed_of_apart fun _ _ _ _ h => h).closed).and settled_closed.closed⟩

/-- A controller command keeps the RAMs in their form (R53, R54): only clear display writes one, and it empties it. -/
theorem exec_command_memOk {i : Instr} {s t : State} (hi : i.space = .controllerCommand) (h : exec i s = .next t)
    (hm : s.env.ctl.memOk = true) : t.env.ctl.memOk = true := by
  cases i with
  | cmdClear =>
    cases h
    simp only [Ctl.memOk, Bool.and_eq_true] at hm ⊢
    obtain ⟨⟨-, hwf⟩, hbelow⟩ := hm
    exact ⟨⟨⟨rfl, rfl⟩, hwf⟩, hbelow⟩
  | cmdEntryInc | cmdDisplay | cmdFs8 | fsReal | cmdSetCgram | cmdSetDdram => cases h; exact hm
  | init | clear | locate | cursor | putc | puts | defglyph | readchar | readram | scroll | intensity | commandWrite
  | dataWrite | statusRead | dataRead => cases hi

/-- An instruction taken by an engine at rest keeps the invariant. -/
theorem exec_inv {i : Instr} {s t : State} (hinv : s.inv = true) (hb : s.busyOp = false) (h : exec i s = .next t) :
    t.inv = true := by
  obtain ⟨hcore, hcur, hbusy, hstuck⟩ := (inv_iff s).1 hinv
  have hcfg : t.cfg = s.cfg := (exec_undisturbed h).1
  have hhang : s.hang = none := by simpa [hb] using hbusy.symm
  have hst : s.stuck = false := by simpa [hhang] using hstuck
  rw [inv_iff, hcfg]
  suffices hrest : Core s.cfg t ∧ t.busyOp = t.hang.isSome ∧ t.stuck = decide (t.hang = some .settle) from
    ⟨hrest.1, exec_cursorOk hcur h, hrest.2⟩
  cases hi : i.space with
  | hostPacket =>
    obtain ⟨-, -, -, hend⟩ := exec_host (running_kept i s.cfg) (fun u hu => hu.1.1) hi h fun _ => ⟨hcore, rfl, hhang⟩
    rcases hend with ⟨u, r, ⟨hu, -, hh⟩, hs, rfl⟩ | ⟨u, k, ⟨hu, hbu, -⟩, hs, rfl⟩
    · exact ⟨hu, by simp [hh], (hs hst).trans (by simp [hh])⟩
    · exact ⟨hu, hbu, (hs hst).trans (by simp)⟩
  | busTransaction =>
    obtain ⟨-, u, hu, hend⟩ := exec_transaction hi h
    have hwork : Core s.cfg u ∧ Worked s u := by
      rcases hu with ⟨rs, b, rfl⟩ | ⟨rs, rfl⟩
      · exact ((core_closed s.cfg).and (worked_closed s)).write rs b s ⟨hcore, .refl s⟩
      · exact ((core_closed s.cfg).and (worked_closed s)).read rs s ⟨hcore, .refl s⟩
    obtain ⟨hu, hw⟩ := hwork
    obtain ⟨-, -, -, hbu, -, -, hhu⟩ := hw.fields
    rcases hend with ⟨hs, rfl⟩ | ⟨hs, rfl⟩
    · exact ⟨hu, by simp [hbu, hb, hhu, hhang], by simp [hs, hhu, hhang]⟩
    · exact ⟨hu, rfl, hs⟩
  | controllerCommand =>
    have hmem := exec_command_memOk hi h hcore.2.2.1
    obtain ⟨k, hk⟩ := exec_command s hi
    cases hk.symm.trans h
    exact ⟨⟨rfl, hcore.2.1, hmem, hcore.2.2.2⟩, hbusy, hstuck⟩

/-! ## A step -/

/-- One more status read of a hung operation, or none, keeps the invariant (R252, R262). -/
theorem hangOn_inv {s : State} (hinv : s.inv = true) : (hangOn s).inv = true := by
  obtain ⟨hcore, hcur, hbusy, hstuck⟩ := (inv_iff s).1 hinv
  have hread : Core s.cfg (statusRead s).2 ∧ Worked s (statusRead s).2 :=
    ((core_closed s.cfg).and (worked_closed s)).read false s ⟨hcore, .refl s⟩
  obtain ⟨hu, hw⟩ := hread
  obtain ⟨hcfg, hx, hy, hbu, -, -, hhu⟩ := hw.fields
  have hcur' : (statusRead s).2.cursorOk = true := by simpa [State.cursorOk, hcfg, hx, hy] using hcur
  cases hh : s.hang with
  | none => simpa [hangOn, hh] using hinv
  | some k =>
    cases k with
    | delay => simpa [hangOn, hh] using hinv
    | settle => simpa [hangOn, hh] using hinv
    | poll =>
      rw [show hangOn s = if (statusRead s).2.stuck then { (statusRead s).2 with hang := some .settle }
        else (statusRead s).2 by simp [hangOn, hh], inv_iff]
      rw [hh] at hbusy hhu
      cases hs : (statusRead s).2.stuck with
      | true => exact ⟨hcfg ▸ hu, hcur', hbu.trans hbusy, hs⟩
      | false => exact ⟨hcfg ▸ hu, hcur', by simpa [hhu] using hbu.trans hbusy, by simp [hhu, hs]⟩

/-- Settles O4: hanging on keeps the invariant, and so does every instruction; the command pointer and the direct word are no
part of it. -/
theorem stepKeepsInvariant : Obligations.StepKeepsInvariant := by
  unfold Obligations.StepKeepsInvariant
  intro s t hinv h
  rcases step_next h with ⟨-, rfl⟩ | ⟨-, rfl⟩ | ⟨i, n, u, v, hb, -, hu, hv, rfl⟩
  · exact hangOn_inv hinv
  · exact hinv
  · have hinvu : u.inv = true ∧ u.busyOp = false := by rcases hu with rfl | rfl <;> exact ⟨hinv, hb⟩
    have hinvv := exec_inv hinvu.1 hinvu.2 hv
    split <;> exact hinvv

end Sys2Proof.Machine
end

section
/-!
Decoding (30_encoding.md R91 to R101; log 11, log 13, log 14): decoding an instruction's words gives it back, and what decodes is
well formed and took its own words. What a field of a byte holds is said first, by the byte's bits; each decoder then is a
case split along its rows.
-/
namespace Sys2Proof.Machine

/-! ## The bytes with fields -/

/-- The operand byte of CURSOR, field by field (R93). -/
theorem modeByte_fields (c b : Bool) : (0#6 ++ bit c ++ bit b : Byte).extractLsb' 2 6 = 0 ∧
    (0#6 ++ bit c ++ bit b : Byte).getLsbD 1 = c ∧ (0#6 ++ bit c ++ bit b : Byte).getLsbD 0 = b := by
  revert c b; decide

/-- The slot byte of DEFGLYPH (R93). -/
theorem slotByte_fields (k : BitVec 3) : (0#5 ++ k : Byte).extractLsb' 3 5 = 0 ∧ (0#5 ++ k : Byte).extractLsb' 0 3 = k := by
  revert k; decide

/-- The address byte of READRAM (R93). -/
theorem addrByte_fields (a : Addr7) : (0#1 ++ a : Byte).getLsbD 7 = false ∧ (0#1 ++ a : Byte).extractLsb' 0 7 = a := by
  revert a; decide +kernel

/-- The level byte of INTENSITY (R93). -/
theorem levelByte_fields (l : BitVec 2) : (0#6 ++ l : Byte).extractLsb' 2 6 = 0 ∧ (0#6 ++ l : Byte).extractLsb' 0 2 = l := by
  revert l; decide

/-- A byte whose reserved bits are clear is its fields. -/
theorem modeByte_of_fields {m : Byte} (h : m.extractLsb' 2 6 = 0) : 0#6 ++ bit (m.getLsbD 1) ++ bit (m.getLsbD 0) = m := by
  revert h; revert m; decide +kernel

theorem slotByte_of_fields {m : Byte} (h : m.extractLsb' 3 5 = 0) : 0#5 ++ m.extractLsb' 0 3 = m := by
  revert h; revert m; decide +kernel

theorem addrByte_of_fields {m : Byte} (h : m.getLsbD 7 = false) : 0#1 ++ m.extractLsb' 0 7 = m := by
  revert h; revert m; decide +kernel

theorem levelByte_of_fields {m : Byte} (h : m.extractLsb' 2 6 = 0) : 0#6 ++ m.extractLsb' 0 2 = m := by
  revert h; revert m; decide +kernel

/-! ## The text of a PUTS -/

/-- The text of a packet is the bytes before its terminator (R97). -/
theorem takeText_append {text : List Byte} (rest : List Byte) (h : textOk text = true) :
    takeText (text ++ 0 :: rest) = some text := by
  induction text with
  | nil => rfl
  | cons b text ih =>
    obtain ⟨hb, ht⟩ : b ≠ 0 ∧ textOk text = true := by simpa [textOk] using h
    simp only [List.cons_append, takeText, if_neg hb, ih ht, Option.map_some]

/-- What is read as a text holds no terminator, and the terminator follows it (R97). -/
theorem takeText_some {bytes text : List Byte} (h : takeText bytes = some text) :
    textOk text = true ∧ ∃ rest, bytes = text ++ 0 :: rest := by
  induction bytes generalizing text with
  | nil => cases h
  | cons b bytes ih =>
    rw [takeText] at h
    split at h
    · rename_i hb
      cases h
      exact ⟨rfl, bytes, by rw [hb]; rfl⟩
    · rename_i hb
      obtain ⟨tail, htail, rfl⟩ := Option.map_eq_some_iff.1 h
      obtain ⟨hok, rest, rfl⟩ := ih htail
      exact ⟨by rw [textOk, List.all_cons, Bool.and_eq_true]; exact ⟨decide_eq_true hb, hok⟩, rest, rfl⟩

/-! ## Host packets -/

/-- A packet of a well-formed host operation decodes to it, whatever follows (R91 to R93, R97). -/
theorem decodePacket_encode {i : Instr} (rest : List Byte) (hi : i.space = .hostPacket) (hw : i.wellFormed = true) :
    decodePacket (encode i ++ rest) = .ok (i, (encode i).length) := by
  cases i with
  | init | clear | scroll => rfl
  | locate | putc | readchar => rfl
  | cursor c b =>
    obtain ⟨hres, h1, h0⟩ := modeByte_fields c b
    show unlessReserved (decide (_ = 0)) (.cursor (BitVec.getLsbD _ 1) (BitVec.getLsbD _ 0)) 2 = _
    rw [hres, h1, h0]
    rfl
  | puts text =>
    show decodeOperands 0x06 (text ++ [0] ++ rest) = _
    have ht : takeText (text ++ [0] ++ rest) = some text := by
      rw [List.append_assoc]
      exact takeText_append rest hw
    show (match takeText (text ++ [0] ++ rest) with | some t => _ | none => _) = _
    rw [ht]
    simp [encode]
  | defglyph k =>
    obtain ⟨hres, hk⟩ := slotByte_fields k
    simp [encode, decodePacket, decodeOperands, hres, hk, unlessReserved]
  | readram a =>
    obtain ⟨hres, ha⟩ := addrByte_fields a
    show unlessReserved (!BitVec.getLsbD _ 7) (.readram (BitVec.extractLsb' 0 7 _)) 2 = _
    rw [hres, ha]
    rfl
  | intensity l =>
    obtain ⟨hres, hl⟩ := levelByte_fields l
    simp [encode, decodePacket, decodeOperands, hres, hl, unlessReserved]
  | cmdClear | cmdEntryInc | cmdDisplay | cmdFs8 | fsReal | cmdSetCgram | cmdSetDdram | commandWrite | dataWrite
  | statusRead | dataRead => cases hi

/-! ## Command bytes -/

theorem decodeCommandByte_display : ∀ c b, decodeCommandByte (0x03#6 ++ bit c ++ bit b) = .ok (.cmdDisplay c b) := by decide

theorem decodeCommandByte_fsReal :
    ∀ l n bb, isFs8 l n bb = false → decodeCommandByte (0x1#3 ++ bit l ++ bit n ++ 0#1 ++ bb) = .ok (.fsReal l n bb) := by
  decide

theorem decodeCommandByte_setCgram : ∀ k : BitVec 3, decodeCommandByte (0x1#2 ++ k ++ 0#3) = .ok (.cmdSetCgram k) := by decide

theorem decodeCommandByte_setDdram : ∀ a : Addr7, decodeCommandByte (0x1#1 ++ a) = .ok (.cmdSetDdram a) := by decide +kernel

/-- The byte of a controller command decodes to it (R101). -/
theorem decodeCommand_encode {i : Instr} (rest : List Byte) (hi : i.space = .controllerCommand) (hw : i.wellFormed = true) :
    decodeCommand (encode i ++ rest) = .ok (i, (encode i).length) := by
  have one : ∀ {b : Byte}, encode i = [b] → decodeCommandByte b = .ok i →
      decodeCommand (encode i ++ rest) = .ok (i, (encode i).length) := by
    intro b he hb
    rw [he]
    simp [decodeCommand, hb, Except.map]
  cases i with
  | cmdClear | cmdEntryInc | cmdFs8 => exact one rfl rfl
  | cmdDisplay c b => exact one rfl (decodeCommandByte_display c b)
  | fsReal l n bb => exact one rfl (decodeCommandByte_fsReal l n bb (by simpa [Instr.wellFormed] using hw))
  | cmdSetCgram k => exact one rfl (decodeCommandByte_setCgram k)
  | cmdSetDdram a => exact one rfl (decodeCommandByte_setDdram a)
  | init | clear | locate | cursor | putc | puts | defglyph | readchar | readram | scroll | intensity | commandWrite
  | dataWrite | statusRead | dataRead => cases hi

/-! ## Every space -/

/-- Settles O5: each space's decoder reads its own rows back. -/
theorem decodeEncode : Obligations.DecodeEncode := by
  unfold Obligations.DecodeEncode
  intro i rest hw
  cases hi : i.space with
  | hostPacket => exact decodePacket_encode rest hi hw
  | controllerCommand => exact decodeCommand_encode rest hi hw
  | busTransaction =>
    cases i with
    | commandWrite | dataWrite | statusRead | dataRead => rfl
    | init | clear | locate | cursor | putc | puts | defglyph | readchar | readram | scroll | intensity | cmdClear
    | cmdEntryInc | cmdDisplay | cmdFs8 | fsReal | cmdSetCgram | cmdSetDdram => cases hi

/-! ## What decodes -/

/-- The bytes begin with the words of a well-formed instruction of the space, `n` bytes long. -/
def Words (space : Space) (bytes : List Byte) (i : Instr) (n : Nat) : Prop :=
  i.space = space ∧ i.wellFormed = true ∧ n ≤ bytes.length ∧ bytes.take n = encode i

theorem unlessReserved_ok {clean : Bool} {i j : Instr} {n m : Nat} (h : unlessReserved clean i n = .ok (j, m)) :
    clean = true ∧ i = j ∧ n = m := by
  unfold unlessReserved at h
  split at h
  · cases h; exact ⟨‹_›, rfl, rfl⟩
  · cases h

/-- The opcodes that are assigned (R92). -/
theorem assigned_opcode {op : Byte} (h : ¬ (op = 0 ∨ 0x0C ≤ op.toNat)) :
    op = 0x01 ∨ op = 0x02 ∨ op = 0x03 ∨ op = 0x04 ∨ op = 0x05 ∨ op = 0x06 ∨ op = 0x07 ∨ op = 0x08 ∨ op = 0x09 ∨ op = 0x0A ∨
      op = 0x0B := by
  revert h; revert op; decide +kernel

/-- An unassigned opcode is rejected for that reason (R95). -/
theorem decodePacket_unassigned {op : Byte} (rest : List Byte) (h : op = 0 ∨ 0x0C ≤ op.toNat) :
    decodePacket (op :: rest) = .error .unassignedOpcode := by
  have hne : ∀ k : Byte, k ≠ 0 → k.toNat < 0x0C → (op = k) = False := by
    rintro k h0 hk
    refine eq_false ?_
    rintro rfl
    exact h.elim h0 (Nat.not_le.2 hk)
  show decodeOperands op rest = _
  unfold decodeOperands
  simp (disch := decide) only [hne, if_false]

/-- What decodes as a host packet took that operation's own words. -/
theorem decodePacket_words {bytes : List Byte} {i : Instr} {n : Nat} (h : decodePacket bytes = .ok (i, n)) :
    Words .hostPacket bytes i n := by
  rcases bytes with _ | ⟨op, rest⟩
  · cases h
  by_cases hop : op = 0 ∨ 0x0C ≤ op.toNat
  · rw [decodePacket_unassigned rest hop] at h
    cases h
  rcases assigned_opcode hop with rfl | rfl | rfl | rfl | rfl | rfl | rfl | rfl | rfl | rfl | rfl
  · cases h; exact ⟨rfl, rfl, by simp, rfl⟩
  · cases h; exact ⟨rfl, rfl, by simp, rfl⟩
  · rcases rest with _ | ⟨x, _ | ⟨y, rest⟩⟩ <;> cases h
    exact ⟨rfl, rfl, by simp, rfl⟩
  · rcases rest with _ | ⟨m, rest⟩
    · cases h
    obtain ⟨hc, rfl, rfl⟩ := unlessReserved_ok h
    exact ⟨rfl, rfl, by simp, by rw [encode, modeByte_of_fields (of_decide_eq_true hc)]; rfl⟩
  · rcases rest with _ | ⟨ch, rest⟩ <;> cases h
    exact ⟨rfl, rfl, by simp, rfl⟩
  · change (match takeText rest with | some t => _ | none => _) = _ at h
    cases ht : takeText rest with
    | none => rw [ht] at h; cases h
    | some text =>
      rw [ht] at h
      cases h
      obtain ⟨hok, more, rfl⟩ := takeText_some ht
      exact ⟨rfl, hok, by simp, by simp [encode, List.take_append]⟩
  · rcases rest with _ | ⟨k, _ | ⟨b0, _ | ⟨b1, _ | ⟨b2, _ | ⟨b3, _ | ⟨b4, _ | ⟨b5, _ | ⟨b6, _ | ⟨b7, rest⟩⟩⟩⟩⟩⟩⟩⟩⟩
    case cons.cons.cons.cons.cons.cons.cons.cons.cons =>
      obtain ⟨hc, rfl, rfl⟩ := unlessReserved_ok h
      exact ⟨rfl, rfl, by simp, by rw [encode, slotByte_of_fields (of_decide_eq_true hc)]; rfl⟩
    all_goals cases h
  · rcases rest with _ | ⟨x, _ | ⟨y, rest⟩⟩ <;> cases h
    exact ⟨rfl, rfl, by simp, rfl⟩
  · rcases rest with _ | ⟨a, rest⟩
    · cases h
    obtain ⟨hc, rfl, rfl⟩ := unlessReserved_ok h
    exact ⟨rfl, rfl, by simp, by rw [encode, addrByte_of_fields (by simpa using hc)]; rfl⟩
  · cases h; exact ⟨rfl, rfl, by simp, rfl⟩
  · rcases rest with _ | ⟨l, rest⟩
    · cases h
    obtain ⟨hc, rfl, rfl⟩ := unlessReserved_ok h
    exact ⟨rfl, rfl, by simp, by rw [encode, levelByte_of_fields (of_decide_eq_true hc)]; rfl⟩

/-- Each of the 256 command bytes that decodes is the byte of a well-formed controller command (R101, log 14). -/
theorem decodeCommandByte_words : ∀ b : Byte, (decodeCommandByte b).toOption.all
    (fun i => decide (i.space = .controllerCommand) && i.wellFormed && decide (encode i = [b])) = true := by
  decide +kernel

theorem decodeCommand_words {bytes : List Byte} {i : Instr} {n : Nat} (h : decodeCommand bytes = .ok (i, n)) :
    Words .controllerCommand bytes i n := by
  cases bytes with
  | nil => cases h
  | cons b rest =>
    have hb := decodeCommandByte_words b
    change (decodeCommandByte b).map _ = _ at h
    cases hd : decodeCommandByte b with
    | error r => rw [hd] at h; cases h
    | ok j =>
      rw [hd] at h hb
      cases h
      obtain ⟨⟨hs, hw⟩, he⟩ : (i.space = .controllerCommand ∧ i.wellFormed = true) ∧ encode i = [b] := by
        simpa [Except.toOption] using hb
      exact ⟨hs, hw, by simp, by simp [he]⟩

theorem decodeTransaction_words {bytes : List Byte} {i : Instr} {n : Nat} (h : decodeTransaction bytes = .ok (i, n)) :
    Words .busTransaction bytes i n := by
  cases bytes with
  | nil => cases h
  | cons b rest =>
    dsimp only [decodeTransaction] at h
    split_ifs at h with h0 h2 h1 h3
    case pos =>
      split at h
      · cases h; exact ⟨rfl, rfl, by simp, by simp [encode, h0]⟩
      · cases h
    case pos =>
      split at h
      · cases h; exact ⟨rfl, rfl, by simp, by simp [encode, h2]⟩
      · cases h
    case pos => cases h; exact ⟨rfl, rfl, by simp, by simp [encode, h1]⟩
    case pos => cases h; exact ⟨rfl, rfl, by simp, by simp [encode, h3]⟩

/-- Settles O6: each space's decoder takes the words of what it answers. -/
theorem decodeSound : Obligations.DecodeSound := by
  unfold Obligations.DecodeSound
  intro space bytes i n h
  cases space with
  | hostPacket => exact decodePacket_words h
  | controllerCommand => exact decodeCommand_words h
  | busTransaction => exact decodeTransaction_words h

/-- Settles O7: the words read through the table's numbering, each a closed evaluation of the decoders. -/
theorem decodedWords : Obligations.DecodedWords := by
  unfold Obligations.DecodedWords
  decide

end Sys2Proof.Machine
end

section
/-!
What every instruction leaves of the host's list and only adds to the history and the answers (10_state.md R32, R29; log 10,
log 24), and the same of a step.
-/
namespace Sys2Proof.Machine

/-- `t` has the host's list and CP of `s`, its history and answers begin with those of `s`, and INITED has not been lost. -/
structure Extends (s t : State) : Prop where
  packets : t.packets = s.packets
  cp : t.cp = s.cp
  hist : s.hist <+: t.hist
  rsp : s.rsp <+: t.rsp
  inited : s.inited = true → t.inited = true

theorem Operated.extends {s t : State} (h : Operated { s with busyOp := true } t) : Extends s t := by
  obtain ⟨heq, hhist, hin⟩ := h
  exact ⟨by rw [heq], by rw [heq], hhist, by rw [heq], hin⟩

theorem Worked.extends {s t : State} (h : Worked s t) (hhist : s.hist <+: t.hist) : Extends s t := by
  rw [Worked] at h
  exact ⟨by rw [h], by rw [h], hhist, by rw [h], by rw [h]; exact id⟩

/-- Completed or hung, an instruction leaves the host's list and CP, and only adds to the history and the answers. -/
theorem exec_extends {i : Instr} {s t : State} (h : exec i s = .next t) : Extends s t := by
  cases hi : i.space with
  | hostPacket =>
    obtain ⟨-, -, -, hend⟩ := exec_host (operated_kept i { s with busyOp := true }) (c := s.cfg) (fun u hu => by rw [hu.1])
      hi h fun _ => ⟨rfl, List.prefix_refl _, id⟩
    rcases hend with ⟨u, r, hu, -, rfl⟩ | ⟨u, k, hu, -, rfl⟩
    · have hu := hu.extends
      exact ⟨hu.packets, hu.cp, hu.hist, hu.rsp.trans (List.prefix_append _ _), hu.inited⟩
    · have hu := hu.extends
      exact ⟨hu.packets, hu.cp, hu.hist, hu.rsp, hu.inited⟩
  | busTransaction =>
    obtain ⟨-, u, hu, hend⟩ := exec_transaction hi h
    have hext : Extends s u := by
      rcases hu with ⟨rs, b, rfl⟩ | ⟨rs, rfl⟩
      · exact ((worked_closed s).write rs b s (.refl s)).extends ((hist_closed s).busWrite rs b s (List.prefix_refl _))
      · exact ((worked_closed s).read rs s (.refl s)).extends ((hist_closed s).busRead rs s (List.prefix_refl _))
    rcases hend with ⟨-, rfl⟩ | ⟨-, rfl⟩
    · exact hext
    · exact ⟨hext.packets, hext.cp, hext.hist, hext.rsp, hext.inited⟩
  | controllerCommand =>
    obtain ⟨k, hk⟩ := exec_command s hi
    cases hk.symm.trans h
    exact ⟨rfl, rfl, List.prefix_refl _, List.prefix_refl _, id⟩

/-- The status read of a hung operation only adds to the history. -/
theorem hangOn_hist (s : State) : s.hist <+: (hangOn s).hist := by
  have hread := (hist_closed s).busRead false s (List.prefix_refl _)
  unfold hangOn
  split
  · split
    · exact hread
    · exact hread
  all_goals exact List.prefix_refl _

/-- Settles O54: an operation hanging on, a wait and an instruction each only add; CP is moved, but the list is left. -/
theorem historyOnlyGrows : Obligations.HistoryOnlyGrows := by
  unfold Obligations.HistoryOnlyGrows
  intro s t h
  rcases step_next h with ⟨-, rfl⟩ | ⟨-, rfl⟩ | ⟨i, n, u, v, -, -, hu, hv, rfl⟩
  · obtain ⟨k, hk⟩ := hangOn_worked s
    have hext : Extends { s with hang := k } (hangOn s) := hk.extends (hangOn_hist s)
    exact ⟨hext.packets, hext.hist, hext.rsp, hext.inited⟩
  · exact ⟨rfl, List.prefix_refl _, List.prefix_refl _, id⟩
  · have hext : Extends s v := by
      have hexec := exec_extends hv
      rcases hu with rfl | rfl
      · exact hexec
      · exact ⟨hexec.packets, hexec.cp, hexec.hist, hexec.rsp, hexec.inited⟩
    split
    · exact ⟨hext.packets, hext.hist, hext.rsp, hext.inited⟩
    · exact ⟨hext.packets, hext.hist, hext.rsp, hext.inited⟩

end Sys2Proof.Machine
end

section
/-!
The step as the host sees it (10_state.md R32, 60_exceptions.md R257): what it runs, and in which order a command is refused.
-/
namespace Sys2Proof.Machine

/-! ## What a step runs -/

/-- A busy engine takes nothing (R257 item 1). -/
theorem step_busy {s : State} (h : s.busyOp = true) : step s = .next (hangOn s) := by
  simp [step, fetch, h]

/-- With no direct word the request is the packet at CP. -/
theorem fetch_packet {s : State} (hb : s.busyOp = false) (hd : s.direct = none) : fetch s = fetchPacket s := by
  simp [fetch, hb, hd]

theorem advanceCp_zero (r : Answer) : advanceCp 0 r = r := by
  cases r with
  | next t => simp only [advanceCp]; split <;> rfl
  | fault f => rfl
  | refused q => rfl

/-- The step of a packet that decodes. -/
theorem step_decoded {s : State} {i : Instr} {n : Nat} (hb : s.busyOp = false) (hd : s.direct = none)
    (h : decodePacket (s.packets.drop s.cp) = .ok (i, n)) : step s = advanceCp n (exec i s) := by
  rw [step, fetch_packet hb hd]
  unfold fetchPacket
  cases hp : s.packets.drop s.cp with
  | nil => rw [hp] at h; cases h
  | cons op rest =>
    rw [hp] at h
    simp only [h]

/-- A packet that does not decode is refused (R257 items 2 to 4). -/
theorem step_undecoded {s : State} {op : Byte} {rest : List Byte} {r : Reject} (hb : s.busyOp = false) (hd : s.direct = none)
    (hp : s.packets.drop s.cp = op :: rest) (h : decodePacket (op :: rest) = .error r) :
    step s = .refused (packetRefusal s op r) := by
  rw [step, fetch_packet hb hd]
  unfold fetchPacket
  simp only [hp, h]

/-- The step of an instruction that is refused. -/
theorem step_decoded_refused {s : State} {i : Instr} {n : Nat} {r : Refusal} (hb : s.busyOp = false) (hd : s.direct = none)
    (h : decodePacket (s.packets.drop s.cp) = .ok (i, n)) (hr : exec i s = .refused r) : step s = .refused r := by
  rw [step_decoded hb hd h, hr]
  rfl

/-- Settles O8: the packet at CP, the direct word, or a wait. -/
theorem stepRunsDecoded : Obligations.StepRunsDecoded := by
  unfold Obligations.StepRunsDecoded
  refine ⟨fun s i n hb hd h => ⟨fun t ht => ?_, fun r hr => step_decoded_refused hb hd h hr⟩,
    fun s space bytes i n hb hd h => ?_, fun s hb hd hp => ?_⟩
  · have hcp := (exec_extends ht).cp
    have hstep : step s = .next (if t.busyOp then t else { t with cp := t.cp + n }) := by
      rw [step_decoded hb hd h, ht]
      rfl
    exact ⟨hcp, fun hidle => by rw [hstep, hidle, hcp]; rfl, fun hbusy => by rw [hstep, hbusy]; rfl⟩
  · have hfetch : fetch s = .run i 0 { s with direct := none } := by simp [fetch, hb, hd, fetchDirect, h]
    rw [step, hfetch]
    exact advanceCp_zero _
  · simp [step, fetch_packet hb hd, fetchPacket, hp]

/-- A busy engine refuses every host operation and every transaction (U3). -/
theorem exec_busy {i : Instr} {s : State} (hi : i.space ≠ .controllerCommand) (hb : s.busyOp = true) :
    exec i s = .refused .busy := by
  cases hs : i.space with
  | hostPacket =>
    obtain ⟨go, hgo⟩ := exec_accept (s := s) hs
    rw [hgo]
    exact if_pos hb
  | busTransaction =>
    cases i with
    | commandWrite | dataWrite | statusRead | dataRead => exact if_pos hb
    | init | clear | locate | cursor | putc | puts | defglyph | readchar | readram | scroll | intensity | cmdClear
    | cmdEntryInc | cmdDisplay | cmdFs8 | fsReal | cmdSetCgram | cmdSetDdram => cases hs
  | controllerCommand => exact absurd hs hi

/-- Hanging on takes nothing of the host's and answers nothing. -/
theorem hangOn_keeps (s : State) : (hangOn s).busyOp = s.busyOp ∧ (hangOn s).direct = s.direct ∧
    (hangOn s).packets = s.packets ∧ (hangOn s).cp = s.cp ∧ (hangOn s).cx = s.cx ∧ (hangOn s).cy = s.cy ∧
      (hangOn s).rsp = s.rsp := by
  obtain ⟨k, hk⟩ := hangOn_worked s
  rw [Worked] at hk
  rw [hk]
  exact ⟨rfl, rfl, rfl, rfl, rfl, rfl, rfl⟩

/-- Settles O13: acceptance and transactions test BUSY_OP first, and a step of a busy engine hangs on. -/
theorem busyTakesNothing : Obligations.BusyTakesNothing := by
  unfold Obligations.BusyTakesNothing
  refine ⟨fun i s => exec_busy, fun s hb => ?_⟩
  obtain ⟨hbusy, hdirect, hpackets, hcp, -⟩ := hangOn_keeps s
  exact ⟨hangOn s, step_busy hb, hbusy.trans hb, hdirect, hpackets, hcp⟩

/-! ## The decoder's rejections -/

theorem unlessReserved_error {clean : Bool} {i : Instr} {n : Nat} {r : Reject} (h : unlessReserved clean i n = .error r) :
    r = .reservedBits := by
  unfold unlessReserved at h
  split at h <;> cases h
  rfl

/-- A packet with an assigned opcode is malformed in one of two ways (R95, R98). -/
theorem decodePacket_error {op : Byte} {rest : List Byte} {r : Reject} (hop : ¬ (op = 0 ∨ 0x0C ≤ op.toNat))
    (h : decodePacket (op :: rest) = .error r) : r = .reservedBits ∨ r = .truncatedPacket := by
  rcases assigned_opcode hop with rfl | rfl | rfl | rfl | rfl | rfl | rfl | rfl | rfl | rfl | rfl
  · cases h
  · cases h
  · rcases rest with _ | ⟨x, _ | ⟨y, rest⟩⟩ <;> cases h <;> exact .inr rfl
  · rcases rest with _ | ⟨m, rest⟩
    · cases h; exact .inr rfl
    · exact .inl (unlessReserved_error h)
  · rcases rest with _ | ⟨ch, rest⟩ <;> cases h
    exact .inr rfl
  · change (match takeText rest with | some t => _ | none => _) = _ at h
    cases ht : takeText rest with
    | none => rw [ht] at h; cases h; exact .inr rfl
    | some text => rw [ht] at h; cases h
  · rcases rest with _ | ⟨k, _ | ⟨b0, _ | ⟨b1, _ | ⟨b2, _ | ⟨b3, _ | ⟨b4, _ | ⟨b5, _ | ⟨b6, _ | ⟨b7, rest⟩⟩⟩⟩⟩⟩⟩⟩⟩
    case cons.cons.cons.cons.cons.cons.cons.cons.cons => exact .inl (unlessReserved_error h)
    all_goals cases h; exact .inr rfl
  · rcases rest with _ | ⟨x, _ | ⟨y, rest⟩⟩ <;> cases h <;> exact .inr rfl
  · rcases rest with _ | ⟨a, rest⟩
    · cases h; exact .inr rfl
    · exact .inl (unlessReserved_error h)
  · cases h
  · rcases rest with _ | ⟨l, rest⟩
    · cases h; exact .inr rfl
    · exact .inl (unlessReserved_error h)

/-- A set bit that its field reserves (R93). -/
def ReservedSet (op m : Byte) : Prop :=
  (op = 0x04 ∧ m.extractLsb' 2 6 ≠ 0) ∨ (op = 0x07 ∧ m.extractLsb' 3 5 ≠ 0) ∨ (op = 0x09 ∧ m.getLsbD 7 = true) ∨
    (op = 0x0B ∧ m.extractLsb' 2 6 ≠ 0)

/-- A packet with a reserved bit set does not decode (R95). -/
theorem decodePacket_reserved {op m : Byte} (more : List Byte) (h : ReservedSet op m) :
    ∃ r, decodePacket (op :: m :: more) = .error r := by
  rcases h with ⟨rfl, hm⟩ | ⟨rfl, hm⟩ | ⟨rfl, hm⟩ | ⟨rfl, hm⟩
  · exact ⟨.reservedBits, by show unlessReserved _ _ _ = _; rw [decide_eq_false hm]; rfl⟩
  · rcases more with _ | ⟨b0, _ | ⟨b1, _ | ⟨b2, _ | ⟨b3, _ | ⟨b4, _ | ⟨b5, _ | ⟨b6, _ | ⟨b7, rest⟩⟩⟩⟩⟩⟩⟩⟩
    case cons.cons.cons.cons.cons.cons.cons.cons =>
      exact ⟨.reservedBits, by show unlessReserved _ _ _ = _; rw [decide_eq_false hm]; rfl⟩
    all_goals exact ⟨_, rfl⟩
  · exact ⟨.reservedBits, by show unlessReserved _ _ _ = _; rw [hm]; rfl⟩
  · exact ⟨.reservedBits, by show unlessReserved _ _ _ = _; rw [decide_eq_false hm]; rfl⟩

/-- What a packet decodes to has the packet's opcode: it is present where that is (R92), and it is INIT exactly where the
opcode is INIT's. -/
theorem decodePacket_opcode {op : Byte} {rest : List Byte} {i : Instr} {n : Nat} (h : decodePacket (op :: rest) = .ok (i, n)) :
    (∀ c, presentIn c i = opcodePresent c op) ∧ (i = .init ↔ op = 0x01) := by
  obtain ⟨hi, -, -, henc⟩ := decodePacket_words h
  have hhead : ∀ {k : Byte} {l : List Byte}, encode i = k :: l → op = k := by
    intro k l hk
    rw [hk] at henc
    cases n with
    | zero => cases henc
    | succ n => exact (List.cons.inj henc).1
  cases i with
  | init | clear | locate | cursor | putc | puts | defglyph | readchar | readram | scroll | intensity =>
    rw [hhead rfl]
    exact ⟨fun _ => rfl, by simp⟩
  | cmdClear | cmdEntryInc | cmdDisplay | cmdFs8 | fsReal | cmdSetCgram | cmdSetDdram | commandWrite | dataWrite
  | statusRead | dataRead => cases hi

/-! ## Refused instructions -/

/-- An absent operation is refused for that reason (R95). -/
theorem exec_absent {i : Instr} {s : State} (hi : i.space = .hostPacket) (hb : s.busyOp = false)
    (hp : presentIn s.cfg i = false) : exec i s = .refused .absentOperation := by
  obtain ⟨go, hgo⟩ := exec_accept (s := s) hi
  simp [hgo, accept, hb, hp]

/-- Before INIT a present operation is refused for that reason (R286). -/
theorem exec_notInitialised {i : Instr} {s : State} (hi : i.space = .hostPacket) (hne : i ≠ .init) (hin : s.inited = false)
    (hb : s.busyOp = false) (hp : presentIn s.cfg i = true) : exec i s = .refused .notInitialised := by
  obtain ⟨go, hgo⟩ := exec_accept (s := s) hi
  simp [hgo, accept, hb, hp, hin, hne]

/-- A cell off the panel has no value (R162). -/
theorem resolve_eq_none_iff (c : Cfg) (x y : Nat) : resolve c x y = none ↔ c.xmax < x ∨ c.ymax < y := by
  by_cases h : x ≤ c.xmax ∧ y ≤ c.ymax
  · obtain ⟨a, ha, -⟩ := resolve_some h.1 h.2
    simp only [ha, reduceCtorEq, false_iff]
    omega
  · simp only [resolve, if_neg h, true_iff]
    omega

/-- An operation at a cell off the panel is refused (R162, R186). -/
theorem runOp_atCell_none {α : Type} {s : State} {x y : Nat} (go : State → Addr7 → Ran α) (out : Ran α → Ran (Option Byte))
    (hout : ∀ q, out (.stop q) = .stop q) (hr : s.cfg.xmax < x ∨ s.cfg.ymax < y) :
    runOp s (fun t => out (atCell x y t (go t))) = .refused .outOfRange := by
  have hnone := (resolve_eq_none_iff s.cfg x y).2 hr
  simp [runOp, atCell, hnone, hout]

/-- An accepted operation that names a cell off the panel is refused (R257 item 5). -/
theorem exec_outOfRange {i : Instr} {s : State} (hb : s.busyOp = false) (hp : presentIn s.cfg i = true)
    (hn : i = .init ∨ s.inited = true) (hr : inRange s.cfg i = false) : exec i s = .refused .outOfRange := by
  have hoff : ∀ x y : Byte, (decide (x.toNat ≤ s.cfg.xmax) && decide (y.toNat ≤ s.cfg.ymax)) = false →
      s.cfg.xmax < x.toNat ∨ s.cfg.ymax < y.toNat := by
    intro x y h
    simp only [Bool.and_eq_false_iff, decide_eq_false_iff_not] at h
    omega
  cases i with
  | locate x y =>
    exact (accept_ok hb rfl (.inr (hn.resolve_left nofun))).trans (runOp_atCell_none _ noResult (fun _ => rfl) (hoff x y hr))
  | readchar x y =>
    exact (accept_ok hb hp (.inr (hn.resolve_left nofun))).trans (runOp_atCell_none _ withResult (fun _ => rfl) (hoff x y hr))
  | init | clear | cursor | putc | puts | defglyph | readram | scroll | intensity | cmdClear | cmdEntryInc | cmdDisplay
  | cmdFs8 | fsReal | cmdSetCgram | cmdSetDdram | commandWrite | dataWrite | statusRead | dataRead => cases hr

/-! ## The obligations -/

/-- Settles O11: acceptance tests INITED after the handshake and the configuration. -/
theorem beforeInitRefused : Obligations.BeforeInitRefused := by
  unfold Obligations.BeforeInitRefused
  intro i s hi hne hin
  refine ⟨?_, exec_notInitialised hi hne hin⟩
  cases hb : s.busyOp with
  | true => exact ⟨_, exec_busy (by rw [hi]; nofun) hb⟩
  | false =>
    cases hp : presentIn s.cfg i with
    | false => exact ⟨_, exec_absent hi hb hp⟩
    | true => exact ⟨_, exec_notInitialised hi hne hin hb hp⟩

/-- An absent opcode is refused, whether its packet decodes or not (R257 item 2). -/
theorem step_absent {s : State} {op : Byte} {rest : List Byte} (hb : s.busyOp = false) (hd : s.direct = none)
    (hp : s.packets.drop s.cp = op :: rest) (hop : ¬ (op = 0 ∨ 0x0C ≤ op.toNat)) (ha : opcodePresent s.cfg op = false) :
    step s = .refused .absentOperation := by
  cases h : decodePacket (op :: rest) with
  | error r =>
    rw [step_undecoded hb hd hp h]
    have hne : r ≠ .unassignedOpcode := by rcases decodePacket_error hop h with rfl | rfl <;> nofun
    simp [packetRefusal, hne, ha]
  | ok p =>
    exact step_decoded_refused hb hd (by rw [hp]; exact h)
      (exec_absent (decodePacket_words h).1 hb ((decodePacket_opcode h).1 s.cfg ▸ ha))

/-- Settles O10: the decoder rejects unassigned opcodes and reserved bits, acceptance absent operations. -/
theorem malformedRefused : Obligations.MalformedRefused := by
  unfold Obligations.MalformedRefused
  intro s op rest hb hd hp
  refine ⟨fun hop => step_undecoded hb hd hp (decodePacket_unassigned rest hop), fun hf hop => ?_, fun hl hop => ?_,
    fun m more hrest hm => ?_⟩
  · refine step_absent hb hd hp ?_ ?_
    · rcases hop with rfl | rfl | rfl | rfl <;> decide
    · rcases hop with rfl | rfl | rfl | rfl <;>
        simp [opcodePresent, Cfg.hasGlyph, Cfg.hasReadChar, Cfg.hasRawRead, Cfg.hasScroll, hf]
  · subst hop
    exact step_absent hb hd hp (by decide) (by simp [opcodePresent, Cfg.hasIntensity, hl])
  · obtain ⟨r, hr⟩ := decodePacket_reserved more hm
    exact ⟨_, step_undecoded hb hd hp (by rw [hrest]; exact hr)⟩

/-- Settles O9: the checks in the order of R257; what passes them all runs. -/
theorem refusalOrder : Obligations.RefusalOrder := by
  unfold Obligations.RefusalOrder
  intro s hd
  refine ⟨fun hb => ?_, fun hb op rest hp => ?_⟩
  · obtain ⟨-, -, hpackets, hcp, -⟩ := hangOn_keeps s
    exact ⟨hangOn s, step_busy hb, hpackets, hcp⟩
  · split_ifs with hop hpresent hinit
    · exact step_undecoded hb hd hp (decodePacket_unassigned rest hop)
    · exact step_absent hb hd hp hop hpresent
    · obtain ⟨hin, hne⟩ := hinit
      have hpresent : opcodePresent s.cfg op = true := by simpa using hpresent
      cases h : decodePacket (op :: rest) with
      | error r =>
        rw [step_undecoded hb hd hp h]
        have hr : r ≠ .unassignedOpcode := by rcases decodePacket_error hop h with rfl | rfl <;> nofun
        rw [packetRefusal, if_neg hr, hpresent, hin, decide_eq_true hne]
        rfl
      | ok p =>
        obtain ⟨hpres, hiff⟩ := decodePacket_opcode h
        exact step_decoded_refused hb hd (by rw [hp]; exact h)
          (exec_notInitialised (decodePacket_words h).1 (fun hi => hne (hiff.1 hi)) hin hb ((hpres s.cfg).trans hpresent))
    · have hpresent : opcodePresent s.cfg op = true := by simpa using hpresent
      cases h : decodePacket (op :: rest) with
      | error r =>
        have hr := decodePacket_error hop h
        refine ⟨?_, hr⟩
        rw [step_undecoded hb hd hp h]
        have hne : r ≠ .unassignedOpcode := by rcases hr with rfl | rfl <;> nofun
        have hin : (decide (op ≠ 0x01) && !s.inited) = false := by
          by_cases h1 : op = 0x01
          · simp [h1]
          · simp only [not_and, not_not] at hinit
            cases hi : s.inited with
            | true => simp
            | false => exact absurd (hinit hi) h1
        rw [packetRefusal, if_neg hne, hpresent, hin]
        rfl
      | ok p =>
        obtain ⟨i, n⟩ := p
        obtain ⟨hpres, hiff⟩ := decodePacket_opcode h
        obtain ⟨hi, hw, -, -⟩ := decodePacket_words h
        have hp1 : presentIn s.cfg i = true := (hpres s.cfg).trans hpresent
        have hn : i = .init ∨ s.inited = true := by
          rw [hiff]
          cases hin : s.inited with
          | true => exact .inr rfl
          | false => exact .inl (by_contra fun h1 => hinit ⟨hin, h1⟩)
        rw [← hp] at h
        dsimp only
        split_ifs with hr
        · exact step_decoded_refused hb hd h (exec_outOfRange hb hp1 hn hr)
        · intro hc
          obtain ⟨t, ht⟩ := exec_total i s hi hw hb hp1 hn (by simpa using hr) hc
          exact ⟨_, by rw [step_decoded hb hd h, ht]; rfl⟩

/-- Only LOCATE and READCHAR name a cell. -/
theorem inRange_true {c : Cfg} {i : Instr} (hl : ∀ x y, i ≠ .locate x y) (hr : ∀ x y, i ≠ .readchar x y) :
    inRange c i = true := by
  cases i with
  | locate x y => exact absurd rfl (hl x y)
  | readchar x y => exact absurd rfl (hr x y)
  | init | clear | cursor | putc | puts | defglyph | readram | scroll | intensity | cmdClear | cmdEntryInc | cmdDisplay
  | cmdFs8 | fsReal | cmdSetCgram | cmdSetDdram | commandWrite | dataWrite | statusRead | dataRead => rfl

/-- A host operation refused as out of range has passed the checks before that one (R257). -/
theorem exec_outOfRange_accepted {i : Instr} {s : State} (hi : i.space = .hostPacket) (h : exec i s = .refused .outOfRange) :
    s.busyOp = false ∧ presentIn s.cfg i = true ∧ (i = .init ∨ s.inited = true) ∧ i.wellFormed = true := by
  have hb : s.busyOp = false := by
    by_contra hb
    rw [exec_busy (by rw [hi]; nofun) (by simpa using hb)] at h
    cases h
  have hp : presentIn s.cfg i = true := by
    by_contra hp
    rw [exec_absent hi hb (by simpa using hp)] at h
    cases h
  have hn : i = .init ∨ s.inited = true := by
    by_contra hn
    simp only [not_or, Bool.not_eq_true] at hn
    rw [exec_notInitialised hi hn.1 hn.2 hb hp] at h
    cases h
  refine ⟨hb, hp, hn, ?_⟩
  cases i with
  | puts text =>
    by_contra hw
    have hill : exec (.puts text) s = .refused .illFormed :=
      (accept_ok hb rfl (.inr (hn.resolve_left nofun))).trans (if_neg hw)
    cases hill.symm.trans h
  | init | clear | locate | cursor | putc | defglyph | readchar | readram | scroll | intensity => rfl
  | cmdClear | cmdEntryInc | cmdDisplay | cmdFs8 | fsReal | cmdSetCgram | cmdSetDdram | commandWrite | dataWrite
  | statusRead | dataRead => cases hi

/-- Settles O12: Resolve tests x and y; and what passes every check is not refused. -/
theorem outOfRangeRefused : Obligations.OutOfRangeRefused := by
  unfold Obligations.OutOfRangeRefused
  refine ⟨resolve_eq_none_iff, fun s x y hready hoff => ?_, fun s i hc h => ?_⟩
  · obtain ⟨hb, hin⟩ := (ready_iff s).1 hready
    have hr : (decide (x.toNat ≤ s.cfg.xmax) && decide (y.toNat ≤ s.cfg.ymax)) = false := by
      rw [Bool.and_eq_false_iff, decide_eq_false_iff_not, decide_eq_false_iff_not]
      omega
    exact ⟨exec_outOfRange hb rfl (.inr hin) hr,
      fun hf => exec_outOfRange (i := .readchar x y) hb (by simp [presentIn, Cfg.hasReadChar, hf]) (.inr hin) hr⟩
  · by_contra hne
    simp only [not_exists, not_or] at hne
    have hr : inRange s.cfg i = true := inRange_true (fun x y => (hne x y).1) fun x y => (hne x y).2
    cases hi : i.space with
    | hostPacket =>
      obtain ⟨hb, hp, hn, hw⟩ := exec_outOfRange_accepted hi h
      obtain ⟨t, ht⟩ := exec_total i s hi hw hb hp hn hr hc
      cases ht.symm.trans h
    | controllerCommand =>
      obtain ⟨k, hk⟩ := exec_command s hi
      cases hk.symm.trans h
    | busTransaction =>
      have htr : ∀ u, transaction s u ≠ .refused .outOfRange := by
        intro u hu
        unfold transaction at hu
        split_ifs at hu
        all_goals cases hu
      cases i with
      | commandWrite | dataWrite | statusRead | dataRead => exact htr _ h
      | init | clear | locate | cursor | putc | puts | defglyph | readchar | readram | scroll | intensity | cmdClear
      | cmdEntryInc | cmdDisplay | cmdFs8 | fsReal | cmdSetCgram | cmdSetDdram => cases hi

end Sys2Proof.Machine
end

section
/-!
Operations that hang (60_exceptions.md R252, R262; 42_busy_sync.md R151). A hung engine hangs on for ever; and an operation that
makes a transfer hangs in its first one, wherever that is in its body, when nothing lets the first one end.
-/
namespace Sys2Proof.Machine

/-! ## Hanging on -/

theorem run_succ {M : Host.Core} {s t : M.State} (n : Nat) (h : M.step s = .next t) : M.run (n + 1) s = M.run n t := by
  rw [Host.Core.run, h]

theorem run_busy {s : State} (n : Nat) (h : s.busyOp = true) :
    Sys2Proof.core.run (n + 1) s = Sys2Proof.core.run n (hangOn s) :=
  run_succ n (step_busy h)

/-- In a delay that never returns nothing happens (R262). -/
theorem hangOn_delay {s : State} (h : s.hang = some .delay ∨ s.hang = some .settle) : hangOn s = s := by
  rcases h with h | h <;> simp [hangOn, h]

/-- In the poll loop, while settle delays return, one more status read (R252). -/
theorem hangOn_poll {s : State} (h : s.hang = some .poll) (hs : s.env.delays.settle = .all) : hangOn s = (statusRead s).2 := by
  simp [hangOn, h, stuck_all (statusRead_settle hs)]

theorem hangOn_hang {s : State} (h : s.hang.isSome = true) : (hangOn s).hang.isSome = true := by
  have hread : (statusRead s).2.hang = s.hang := ((worked_closed s).read false s (.refl s)).fields.2.2.2.2.2.2
  unfold hangOn
  split
  · split
    · rfl
    · rw [hread]; exact h
  all_goals exact h

/-- A state reached by hanging on. -/
structure StillHung (s t : State) : Prop where
  busyOp : t.busyOp = true
  hang : t.hang.isSome = true
  cx : t.cx = s.cx
  cy : t.cy = s.cy
  packets : t.packets = s.packets
  cp : t.cp = s.cp
  rsp : t.rsp = s.rsp

theorem run_stillHung {s u : State} (n : Nat) (h : StillHung s u) : ∃ t, Sys2Proof.core.run n u = .next t ∧ StillHung s t := by
  induction n generalizing u with
  | zero => exact ⟨u, rfl, h⟩
  | succ n ih =>
    rw [run_busy n h.busyOp]
    obtain ⟨hbusy, -, hpackets, hcp, hcx, hcy, hrsp⟩ := hangOn_keeps u
    exact ih ⟨hbusy.trans h.busyOp, hangOn_hang h.hang, hcx.trans h.cx, hcy.trans h.cy, hpackets.trans h.packets,
      hcp.trans h.cp, hrsp.trans h.rsp⟩

theorem run_delay {s : State} (n : Nat) (hb : s.busyOp = true) (h : s.hang = some .delay ∨ s.hang = some .settle) :
    Sys2Proof.core.run n s = .next s := by
  induction n with
  | zero => rfl
  | succ n ih => rw [run_busy n hb, hangOn_delay h, ih]

/-- Hung in the poll loop, while settle delays return: one status read a step. -/
theorem run_poll {s : State} (n : Nat) (hb : s.busyOp = true) (h : s.hang = some .poll) (hs : s.env.delays.settle = .all) :
    ∃ (t : State) (answers : List Byte), Sys2Proof.core.run n s = .next t ∧ answers.length = n ∧ Worked s t ∧
      t.hist = s.hist ++ pollEvents s.cfg.busMode answers := by
  induction n generalizing s with
  | zero => exact ⟨s, [], rfl, rfl, .refl s, by simp [pollEvents]⟩
  | succ n ih =>
    have hread : Worked s (statusRead s).2 := (worked_closed s).read false s (.refl s)
    obtain ⟨hcfg, -, -, hbusy, -, -, hhang⟩ := hread.fields
    obtain ⟨t, answers, hrun, hlen, hwork, hhist⟩ := ih (hbusy.trans hb) (hhang.trans h) (statusRead_settle hs)
    refine ⟨t, (statusRead s).1 :: answers, by rw [run_busy n hb, hangOn_poll h hs, hrun], by simp [hlen], ?_, ?_⟩
    · rw [Worked] at hread hwork ⊢
      rw [hwork, hread]
    · rw [hhist, hcfg, statusRead_eq hs]
      simp [pollEvents]

/-- Settles O14: each step of a hung engine hangs on. -/
theorem hungForEver : Obligations.HungForEver := by
  unfold Obligations.HungForEver
  intro s n hb
  refine ⟨fun hh => ?_, run_delay n hb, fun hh hs => ?_⟩
  · obtain ⟨t, ht, h⟩ := run_stillHung n (s := s) ⟨hb, hh, rfl, rfl, rfl, rfl, rfl⟩
    exact ⟨t, ht, h.busyOp, h.hang, h.cx, h.cy, h.packets, h.cp, h.rsp⟩
  · obtain ⟨t, answers, hrun, hlen, hwork, hhist⟩ := run_poll n hb hh (by simpa [State.settlesReturn] using hs)
    rw [Worked] at hwork
    exact ⟨t, answers, hrun, by rw [hwork]; exact hb, by rw [hwork]; exact hh, by rw [hwork], by rw [hwork], by rw [hwork],
      by rw [hwork], hlen, hhist⟩

/-! ## The poll budget -/

/-- A poll loop that completes does so with any larger budget. -/
theorem pollLoop_done_mono {m n : Nat} {s t : State} (hmn : m ≤ n) (h : pollLoop m s = .done () t) :
    pollLoop n s = .done () t := by
  induction m generalizing n s with
  | zero => cases h
  | succ m ih =>
    obtain ⟨n, rfl⟩ : ∃ k, n = k + 1 := ⟨n - 1, by omega⟩
    rw [pollLoop] at h ⊢
    cases hread : unlessStuck (statusRead s).1 (statusRead s).2 with
    | done status u =>
      rw [hread] at h
      simp only [Ran.bind] at h ⊢
      split at h
      · rename_i hb
        rw [if_pos hb]
        exact ih (by omega) h
      · rename_i hb
        rw [if_neg hb]
        exact h
    | hung u => rw [hread] at h; cases h
    | stop q => rw [hread] at h; cases h

/-- A poll loop that a settle delay holds is held with any larger budget. -/
theorem pollLoop_stuck_mono {m n : Nat} {s t : State} (hmn : m ≤ n) (hm : m = 0 → s.stuck = false)
    (h : pollLoop m s = .hung t) (ht : t.stuck = true) : pollLoop n s = .hung t := by
  induction m generalizing n s with
  | zero =>
    cases h
    exact absurd (hm rfl) (by simpa [State.stuck] using ht)
  | succ m ih =>
    obtain ⟨n, rfl⟩ : ∃ k, n = k + 1 := ⟨n - 1, by omega⟩
    rw [pollLoop] at h ⊢
    unfold unlessStuck at h ⊢
    split at h
    · rename_i hs
      rw [if_pos hs]
      exact h
    · rename_i hs
      rw [if_neg hs]
      simp only [Ran.bind] at h ⊢
      split at h
      · rename_i hb
        rw [if_pos hb]
        exact ih (by omega) (fun _ => Bool.eq_false_iff.2 hs) h
      · cases h

/-- The reference controller drives status reads by nibbles: it is in its 4-bit mode, and they mean something (R63, R70). -/
structure Env.Nibbled (v : Env) : Prop where
  peer : v.peer = .reference
  settled : v.settled = true
  if8 : v.ctl.if8 = false

theorem busyFlag_joinNibbles (h l : Nibble) : busyFlag (joinNibbles h l) = h.getLsbD 3 := by
  revert h l; decide

theorem hiNibble_status_bit (k : Ctl) : (hiNibble k.status).getLsbD 3 = k.busy := by
  rw [← busyFlag_status, ← joinNibbles_split k.status, busyFlag_joinNibbles, hiNibble_joinNibbles]

theorem loNibble_status_bit (k : Ctl) : (loNibble k.status).getLsbD 3 = k.ac.getLsbD 3 := by
  unfold loNibble Ctl.status
  generalize k.ac = a
  cases k.busy <;> (revert a; decide)

/-- A nibble on the lines: what it is, and that draws alone are used up. -/
theorem Env.padLines_nibble (m : BusMode) (n : Nibble) (v : Env) : busyFlag (v.padLines m n).1 = n.getLsbD 3 ∧
    (v.padLines m n).2.busyBits = v.busyBits ∧ (v.padLines m n).2.peer = v.peer ∧ (v.padLines m n).2.ctl = v.ctl ∧
      (v.padLines m n).2.settled = v.settled := by
  obtain ⟨t, ht⟩ := v.draw_eq
  cases m with
  | bus4 => exact ⟨busyFlag_joinNibbles _ _, rfl, rfl, rfl, rfl⟩
  | bus8 =>
    rw [show v.padLines .bus8 n = (joinNibbles n (loNibble v.draw.1), v.draw.2) from rfl, ht]
    exact ⟨busyFlag_joinNibbles _ _, rfl, rfl, rfl, rfl⟩

/-- A status strobe at the high nibble: bit 7 is a draw of the busy flag. -/
theorem Env.Nibbled.strobe_hi {v : Env} (c : Cfg) (part : Phase) (h : v.Nibbled) (hp : v.ctl.phase = .hi) :
    busyFlag (v.readStrobe c false part).1 = v.busyBits.headD v.busyAfter ∧
      (v.readStrobe c false part).2.busyBits = v.busyBits.tail ∧ (v.readStrobe c false part).2.ctl.phase = .lo ∧
        (v.readStrobe c false part).2.Nibbled ∧ (v.readStrobe c false part).2.ctl.ac = v.ctl.ac := by
  have hans : v.answer c false part = v.refreshBusy.padLines c.busMode (hiNibble v.refreshBusy.ctl.status) := by
    simp [Env.answer, h.peer, h.settled, Env.driveStatus, h.if8, hp]
  obtain ⟨hflag, hbits, hpeer, hctl, hset⟩ := v.refreshBusy.padLines_nibble c.busMode (hiNibble v.refreshBusy.ctl.status)
  rw [hiNibble_status_bit] at hflag
  rw [← hans] at hflag hbits hpeer hctl hset
  rw [v.refreshBusy_eq] at hflag hbits hpeer hctl hset
  have hend : (v.answer c false part).2.endRead false =
      { (v.answer c false part).2 with ctl := { (v.answer c false part).2.ctl with phase := .lo } } := by
    simp [Env.endRead, hpeer, h.peer, hctl, h.if8, hp]
  have hs : (v.readStrobe c false part).2 = (v.answer c false part).2.endRead false := rfl
  rw [hs, hend]
  exact ⟨hflag, hbits, rfl, ⟨hpeer.trans h.peer, hset.trans h.settled, by rw [hctl]; exact h.if8⟩, by rw [hctl]⟩

/-- A status strobe at the low nibble: bit 7 is bit 3 of the address counter, and no busy flag is drawn. -/
theorem Env.Nibbled.strobe_lo {v : Env} (c : Cfg) (part : Phase) (h : v.Nibbled) (hp : v.ctl.phase = .lo) :
    busyFlag (v.readStrobe c false part).1 = v.ctl.ac.getLsbD 3 ∧
      (v.readStrobe c false part).2.busyBits = v.busyBits ∧ (v.readStrobe c false part).2.ctl.phase = .hi ∧
        (v.readStrobe c false part).2.Nibbled ∧ (v.readStrobe c false part).2.ctl.ac = v.ctl.ac := by
  have hans : v.answer c false part = v.padLines c.busMode (loNibble v.ctl.status) := by
    simp [Env.answer, h.peer, h.settled, Env.driveStatus, h.if8, hp]
  obtain ⟨hflag, hbits, hpeer, hctl, hset⟩ := v.padLines_nibble c.busMode (loNibble v.ctl.status)
  rw [loNibble_status_bit] at hflag
  rw [← hans] at hflag hbits hpeer hctl hset
  have hend : (v.answer c false part).2.endRead false =
      { (v.answer c false part).2 with ctl := { (v.answer c false part).2.ctl with phase := .hi } } := by
    simp [Env.endRead, hpeer, h.peer, hctl, hp, Env.aligned]
  have hs : (v.readStrobe c false part).2 = (v.answer c false part).2.endRead false := rfl
  rw [hs, hend]
  exact ⟨hflag, hbits, rfl, ⟨hpeer.trans h.peer, hset.trans h.settled, by rw [hctl]; exact h.if8⟩, by rw [hctl]⟩

/-- A whole status read that starts at the high nibble, or at the low one. -/
theorem Env.Nibbled.read {v : Env} (c : Cfg) (h : v.Nibbled) :
    (v.readOut c false).2.Nibbled ∧ (v.readOut c false).2.ctl.ac = v.ctl.ac ∧
      busyFlag (v.readOut c false).1 = (if v.ctl.phase = .hi then v.busyBits.headD v.busyAfter else v.ctl.ac.getLsbD 3) ∧
      (v.readOut c false).2.busyBits =
        (if c.busMode = .bus8 ∧ v.ctl.phase = .lo then v.busyBits else v.busyBits.tail) ∧
      ((v.readOut c false).2.ctl.phase = .hi ↔ (c.busMode = .bus8 ↔ v.ctl.phase = .lo)) := by
  cases hp : v.ctl.phase with
  | hi =>
    obtain ⟨f1, b1, p1, n1, a1⟩ := h.strobe_hi c .hi hp
    unfold Env.readOut
    cases hm : c.busMode with
    | bus8 => exact ⟨n1, a1, by simpa using f1, by simpa using b1, by simp [p1]⟩
    | bus4 =>
      obtain ⟨-, b2, p2, n2, a2⟩ := n1.strobe_lo c .lo p1
      exact ⟨n2, a2.trans a1, by simpa [busyFlag_join] using f1, by simpa [b1] using b2, by simp [p2]⟩
  | lo =>
    obtain ⟨f1, b1, p1, n1, a1⟩ := h.strobe_lo c .hi hp
    unfold Env.readOut
    cases hm : c.busMode with
    | bus8 => exact ⟨n1, a1, by simpa using f1, by simpa using b1, by simp [p1]⟩
    | bus4 =>
      obtain ⟨-, b2, p2, n2, a2⟩ := n1.strobe_hi c .lo p1
      exact ⟨n2, a2.trans a1, by simpa [busyFlag_join] using f1, by simpa [b1] using b2, by simp [p2]⟩

/-- A status strobe of the reference controller in its 8-bit mode. -/
theorem Env.readStrobe_if8 (c : Cfg) (part : Phase) {v : Env} (hp : v.peer = .reference) (hs : v.settled = true)
    (h8 : v.ctl.if8 = true) : busyFlag (v.readStrobe c false part).1 = v.busyBits.headD v.busyAfter ∧
      (v.readStrobe c false part).2.busyBits = v.busyBits.tail := by
  have hans : v.answer c false part = (v.refreshBusy.ctl.status, v.refreshBusy) := by
    simp [Env.answer, hp, hs, Env.driveStatus, h8]
  rw [v.refreshBusy_eq] at hans
  have hread : v.readStrobe c false part = ((v.answer c false part).1, (v.answer c false part).2.endRead false) := rfl
  rw [hread, hans]
  exact ⟨busyFlag_status _, by simp [Env.endRead, hp, h8, Env.aligned]⟩

/-- Otherwise bit 7 of a status read is a draw of the busy flag, at each one. -/
theorem Env.readOut_drawn (c : Cfg) {v : Env} (h : ¬ v.Nibbled) :
    busyFlag (v.readOut c false).1 = v.busyBits.headD v.busyAfter ∧
      ∃ n, (v.readOut c false).2.busyBits = v.busyBits.drop (n + 1) := by
  by_cases hfree : v.peer = .unconstrained ∨ v.settled = false
  · obtain ⟨f1, b1, -, p1, s1, -⟩ := Env.readStrobe_free c v hfree
    obtain ⟨-, b2, -⟩ := Env.readStrobe_free_second c (v.readStrobe c false .hi).2 (by rw [p1, s1]; exact hfree)
    unfold Env.readOut
    cases c.busMode with
    | bus8 => exact ⟨f1, 0, by simpa using b1⟩
    | bus4 => exact ⟨by simpa [busyFlag_join] using f1, 0, by simpa [b1] using b2⟩
  · have hp : v.peer = .reference := by cases hp : v.peer <;> simp_all
    have hs : v.settled = true := by simpa using fun hs => hfree (.inr hs)
    have h8 : v.ctl.if8 = true := by simpa using fun h8 => h ⟨hp, hs, h8⟩
    obtain ⟨f1, b1⟩ := Env.readStrobe_if8 c .hi hp hs h8
    obtain ⟨bits, tape, drawn, busy, phase, hchange⟩ := v.readStrobe_status_change c .hi
    obtain ⟨-, b2⟩ := Env.readStrobe_if8 c .lo (v := (v.readStrobe c false .hi).2) (by rw [hchange]; exact hp)
      (by rw [hchange]; exact hs) (by rw [hchange]; exact h8)
    unfold Env.readOut
    cases c.busMode with
    | bus8 => exact ⟨f1, 0, by simpa using b1⟩
    | bus4 => exact ⟨by simpa [busyFlag_join] using f1, 1, by rw [b2, b1, ← List.drop_one, ← List.drop_one, List.drop_drop]⟩

/-- A status read keeps what the answers of the next ones depend on, but for the draws and the phase. -/
theorem Env.readOut_poll_kept (c : Cfg) (v : Env) : (v.readOut c false).2.busyAfter = v.busyAfter ∧
    ((v.readOut c false).2.Nibbled ↔ v.Nibbled) := by
  obtain ⟨bits, tape, drawn, busy, phase, hchange⟩ := v.readOut_status_change c
  rw [hchange]
  exact ⟨rfl, ⟨fun h => ⟨h.peer, h.settled, h.if8⟩, fun h => ⟨h.peer, h.settled, h.if8⟩⟩⟩

/-- Two status reads use up a draw of the busy flag, if one is left listed (log 2). -/
theorem Env.two_reads_length (c : Cfg) {v : Env} (h : v.busyBits ≠ []) :
    ((v.readOut c false).2.readOut c false).2.busyBits.length < v.busyBits.length := by
  have hpos := List.length_pos_iff.2 h
  by_cases hn : v.Nibbled
  · obtain ⟨n1, -, -, b1, p1⟩ := hn.read c
    obtain ⟨-, -, -, b2, -⟩ := n1.read c
    rw [b2, b1]
    by_cases hlo : c.busMode = .bus8 ∧ v.ctl.phase = .lo
    · have h2 : ¬ (c.busMode = .bus8 ∧ (v.readOut c false).2.ctl.phase = .lo) := by
        rw [p1.2 ⟨fun _ => hlo.2, fun _ => hlo.1⟩]
        nofun
      rw [if_pos hlo, if_neg h2, List.length_tail]
      omega
    · rw [if_neg hlo]
      split <;> simp only [List.length_tail] <;> omega
  · obtain ⟨-, m, b1⟩ := Env.readOut_drawn c hn
    obtain ⟨-, k, b2⟩ := Env.readOut_drawn c (mt (v.readOut_poll_kept c).2.1 hn)
    rw [b2, b1]
    simp only [List.length_drop]
    omega

/-- With no draw left listed the answers of two status reads in a row repeat (log 2). -/
theorem Env.two_reads_repeat (c : Cfg) {v : Env} (h : v.busyBits = []) : (v.readOut c false).2.busyBits = [] ∧
    busyFlag (((v.readOut c false).2.readOut c false).2.readOut c false).1 = busyFlag (v.readOut c false).1 := by
  obtain ⟨after1, nib1⟩ := v.readOut_poll_kept c
  obtain ⟨after2, nib2⟩ := (v.readOut c false).2.readOut_poll_kept c
  by_cases hn : v.Nibbled
  · obtain ⟨n1, a1, f1, b1, p1⟩ := hn.read c
    obtain ⟨n2, a2, -, b2, p2⟩ := n1.read c
    obtain ⟨-, -, f3, -, -⟩ := n2.read c
    have hb1 : (v.readOut c false).2.busyBits = [] := by rw [b1, h]; simp
    refine ⟨hb1, ?_⟩
    rw [f3, f1, b2, hb1, after2, after1, a2, a1, h]
    have hphase : ((v.readOut c false).2.readOut c false).2.ctl.phase = .hi ↔ v.ctl.phase = .hi := by
      rw [p2]
      cases hm : c.busMode <;> cases hp : v.ctl.phase <;> cases hq : (v.readOut c false).2.ctl.phase <;> simp_all
    simp [hphase]
  · obtain ⟨f1, m, b1⟩ := Env.readOut_drawn c hn
    obtain ⟨-, k, b2⟩ := Env.readOut_drawn c (mt nib1.1 hn)
    obtain ⟨f3, -⟩ := Env.readOut_drawn c (mt (nib1.1 ∘ nib2.1) hn)
    have hb1 : (v.readOut c false).2.busyBits = [] := by rw [b1, h]; simp
    exact ⟨hb1, by rw [f3, f1, b2, hb1, after2, after1, h]; simp⟩

/-- Where no draw is left listed and two polls in a row read busy, so does every later one. -/
theorem pollLoop_never {s : State} (n : Nat) (hs : s.env.delays.settle = .all) (hbits : s.env.busyBits = [])
    (h1 : busyFlag (statusRead s).1 = true) (h2 : busyFlag (statusRead (statusRead s).2).1 = true) (t : State) :
    pollLoop n s ≠ .done () t := by
  induction n generalizing s with
  | zero => nofun
  | succ n ih =>
    rw [pollLoop_succ n hs, if_pos h1]
    have hs1 := statusRead_settle hs
    obtain ⟨hnone, hrepeat⟩ := Env.two_reads_repeat s.cfg hbits
    refine ih hs1 (by rw [statusRead_eq hs]; exact hnone) h2 ?_
    rw [← h1, statusRead_eq (statusRead_settle hs1), statusRead_eq hs1, statusRead_eq hs]
    exact hrepeat

/-- While settle delays return, a poll loop that completes does so within the poll budget. -/
theorem pollLoop_within (n : Nat) {s t : State} (hs : s.env.delays.settle = .all) (h : pollLoop n s = .done () t) :
    pollLoop (pollBudget s) s = .done () t := by
  induction n using Nat.strong_induction_on generalizing s with
  | _ n ih =>
    rcases n with _ | _ | n
    · cases h
    · exact pollLoop_done_mono (by unfold pollBudget; omega) h
    · have hs1 := statusRead_settle hs
      have hs2 := statusRead_settle hs1
      have hbudget : ∃ k, pollBudget s = k + 1 + 1 := ⟨2 * s.env.busyBits.length, rfl⟩
      obtain ⟨k, hk⟩ := hbudget
      rw [hk, pollLoop_succ _ hs, pollLoop_succ _ hs1]
      rw [pollLoop_succ _ hs, pollLoop_succ _ hs1] at h
      cases h1 : busyFlag (statusRead s).1 with
      | false => simpa [h1] using h
      | true =>
        cases h2 : busyFlag (statusRead (statusRead s).2).1 with
        | false => simpa [h1, h2] using h
        | true =>
          rw [h1, h2, if_pos rfl, if_pos rfl] at h
          rw [if_pos rfl, if_pos rfl]
          have hne : s.env.busyBits ≠ [] := by
            intro hnil
            refine pollLoop_never (n + 2) hs hnil h1 h2 t ?_
            rw [pollLoop_succ _ hs, pollLoop_succ _ hs1, h1, h2, if_pos rfl, if_pos rfl]
            exact h
          have hlen := Env.two_reads_length s.cfg hne
          refine pollLoop_done_mono ?_ (ih n (by omega) hs2 h)
          have henv : (statusRead (statusRead s).2).2.env = ((s.env.readOut s.cfg false).2.readOut s.cfg false).2 := by
            rw [statusRead_eq hs1, statusRead_eq hs]
          unfold pollBudget at hk ⊢
          rw [henv]
          omega

/-- Settles O17: a larger budget changes nothing where the loop completes; where it hangs, either a settle delay holds it with
every larger budget too, or all polls within the budget read busy and then so do all later ones. -/
theorem pollBudgetIsNoBound : Obligations.PollBudgetIsNoBound := by
  unfold Obligations.PollBudgetIsNoBound
  refine fun s => ⟨fun t h n hn => pollLoop_done_mono hn h, fun t h n u hu => ?_⟩
  have hloop : pollLoop (pollBudget s) s = .hung t := h
  rcases Nat.lt_or_ge n (pollBudget s) with hn | hn
  · cases (pollLoop_done_mono hn.le hu).symm.trans hloop
  · have hall := settled_alike.pollLoop n _ s (Settled.start s)
    rw [hu] at hall
    obtain ⟨-, u', hu', -⟩ := hall
    have hwithin := pollLoop_within n (s := s.withSettle .all) rfl hu'
    have hbudget := settled_alike.pollLoop (pollBudget s) _ s (Settled.start s)
    rw [hloop, show pollLoop (pollBudget s) (s.withSettle .all) = _ from hwithin] at hbudget
    rcases hbudget with ⟨-, hstuck⟩ | ⟨t', ht', -⟩
    · cases (pollLoop_stuck_mono hn (by simp [pollBudget]) hloop hstuck).symm.trans hu
    · cases ht'

end Sys2Proof.Machine
end

section
/-!
Where an operation hangs (60_exceptions.md R252, R262). One argument serves the poll loop of a controller that is busy for ever and
a settle delay that never returns: the first transfer of an operation does not end, and up to it the operation has written the
cursor at most. INIT, which begins with writes that are not waited for, is apart.
-/
namespace Sys2Proof.Machine

/-- `t` is `s` but for the cursor, which is at `cur`, the pins, the events `evs` added to the history, and the environment. -/
def Reached (s t : State) (cur : Byte × Byte) (evs : List Event) : Prop :=
  t = { s with cx := cur.1, cy := cur.2, pins := t.pins, hist := s.hist ++ evs, env := t.env }

/-- The micro-operation hangs in a wait of kind `k`, with the cursor at `cur`, after events of which `N` holds. -/
def Ran.HangsAt {α : Type} (k : Hang) (N : List Event → Prop) (cur : Byte × Byte) (s : State) (r : Ran α) : Prop :=
  ∃ t evs, r = .hung { t with hang := some k } ∧ Reached s t cur evs ∧ N evs

variable {k : Hang} {N : List Event → Prop} {cur : Byte × Byte}

theorem Ran.HangsAt.bind {α β : Type} {s : State} {r : Ran α} (h : r.HangsAt k N cur s) (f : α → State → Ran β) :
    (r.bind f).HangsAt k N cur s := by
  obtain ⟨t, evs, rfl, hreach, hevs⟩ := h
  exact ⟨t, evs, rfl, hreach, hevs⟩

/-- What was written to the cursor before is written over. -/
theorem Ran.HangsAt.of_setCursor {α : Type} {s : State} {r : Ran α} {x y : Byte} (h : r.HangsAt k N cur (s.setCursor x y)) :
    r.HangsAt k N cur s := h

/-- From states of `D` the first transfer of an operation does not end. -/
structure Barred (k : Hang) (N : List Event → Prop) (D : State → Prop) : Prop where
  send : ∀ b s, D s → keepsWidth s.cfg b = true → b ≠ 0 → (sendCommand b s).HangsAt k N (s.cx, s.cy) s
  poll : ∀ s, D s → (waitUntilReady (statusRead s).2).HangsAt k N (s.cx, s.cy) s
  cursor : ∀ x y s, D s → D (s.setCursor x y)
  busy : ∀ s, D s → D { s with busyOp := true }

/-! ## The two bars -/

theorem Completed.reached {s t : State} {x y : Byte} {p : Pins} {evs : List Event} (h : Completed s t x y p evs []) :
    Reached s t (x, y) evs := by
  rw [Reached, h.pins]
  simpa using h.1

/-- A controller that is busy for ever bars an engine in step with it. -/
theorem deaf_barred : Barred .poll (fun _ => True) Deaf where
  send b s h hw hb := by
    obtain ⟨t, evs, hrun, hdone⟩ := sendCommand_deaf b s h hw hb
    exact ⟨t, evs, hrun, hdone.reached, trivial⟩
  poll s h := by
    obtain ⟨t, answers, hrun, hpoll⟩ := waitUntilReady_deaf _ (statusRead_deaf h).1
    have hdone := ((statusRead_polled h.1).trans hpoll).completed
    exact ⟨t, _, hrun, hdone.reached, trivial⟩
  cursor _ _ _ h := h
  busy _ h := h

/-- One of the next four settle delays never returns, after `n` that do. -/
theorem settle_barred {n : Nat} (hn : n < 4) :
    Barred .settle (fun evs => ctlCount evs = n + 1) fun s => s.env.delays.settle = .left n where
  send b s h _ _ := by
    obtain ⟨hstuck, evs, hcount, heq⟩ := transaction_left h hn (.inl ⟨false, b, rfl⟩)
    exact ⟨_, evs, send_stuck hstuck, heq, hcount⟩
  poll s h := by
    obtain ⟨hstuck, evs, hcount, heq⟩ := transaction_left h hn (.inr ⟨false, rfl⟩)
    exact ⟨_, evs, waitUntilReady_stuck hstuck, heq, hcount⟩
  cursor _ _ _ h := h
  busy _ h := h

/-! ## The command bytes are not 0x00 -/

theorem setDdramByte_ne_zero (a : Addr7) : setDdramByte a ≠ 0 := by
  obtain ⟨-, -, h⟩ := setDdramByte_bits a
  exact h

theorem setCgramByte_ne_zero (code : BitVec 3) : setCgramByte code ≠ 0 := by
  obtain ⟨-, -, -, h⟩ := setCgramByte_bits code
  exact h

theorem displayByte_ne_zero (cursor blink : Bool) : displayByte cursor blink ≠ 0 := by
  obtain ⟨-, -, -, -, -, -, -, -, h⟩ := displayByte_bits cursor blink
  exact h

theorem functionSetByte_ne_zero (c : Cfg) (bb : BitVec 2) : functionSetByte c bb ≠ 0 := by
  obtain ⟨-, -, -, -, -, -, -, h⟩ := functionSetByte_bits c bb
  exact h

/-! ## The bodies of the operations -/

section
variable {D : State → Prop} (hB : Barred k N D)
include hB

theorem Barred.address (a : Addr7) (s : State) (h : D s) :
    (sendCommand (setDdramByte a) s).HangsAt k N (s.cx, s.cy) s :=
  hB.send _ s h (keepsWidth_setDdram _ a) (setDdramByte_ne_zero a)

theorem Barred.readDataRam (a : Addr7) (s : State) (h : D s) : (readDataRam a s).HangsAt k N (s.cx, s.cy) s :=
  (hB.address a s h).bind _

omit hB in
/-- A cell of the panel has an address to go on with. -/
theorem atCell_hangs {α : Type} {x y : Nat} {s s' : State} {go : Addr7 → Ran α} (hx : x ≤ s.cfg.xmax) (hy : y ≤ s.cfg.ymax)
    (h : ∀ a, (go a).HangsAt k N cur s') : (atCell x y s go).HangsAt k N cur s' := by
  obtain ⟨a, ha, -⟩ := resolve_some hx hy
  rw [atCell, ha]
  exact h a

theorem Barred.addressCursor (s : State) (h : D s) (hx : s.cx.toNat ≤ s.cfg.xmax) (hy : s.cy.toNat ≤ s.cfg.ymax) :
    (addressCursor s).HangsAt k N (s.cx, s.cy) s :=
  atCell_hangs hx hy fun a => hB.address a s h

omit hB in
/-- The first cell a scroll copies (R212). -/
theorem scrolledCells_eq_cons {c : Cfg} (h : 0 < c.ymax) : ∃ rest, scrolledCells c = (0, 1) :: rest := by
  obtain ⟨y, hy⟩ : ∃ y, c.ymax = y + 1 := ⟨c.ymax - 1, by omega⟩
  simp [scrolledCells, rowCells, hy, List.range_succ_eq_map]

theorem Barred.scrollUp (s : State) (h : D s) (hrows : oneRow s.cfg = false) : (scrollUp s).HangsAt k N (s.cx, s.cy) s := by
  have hy : 0 < s.cfg.ymax := by
    simp only [oneRow, decide_eq_false_iff_not] at hrows
    omega
  obtain ⟨rest, hrest⟩ := scrolledCells_eq_cons hy
  unfold Machine.scrollUp
  rw [hrows, if_neg (by simp), hrest]
  have hfirst : (copyUp (0, 1) s).HangsAt k N (s.cx, s.cy) s :=
    atCell_hangs (Nat.zero_le _) hy fun a => (hB.readDataRam a s h).bind _
  exact (hfirst.bind _).bind _

theorem Barred.defineGlyph (code : BitVec 3) (rows : List Byte) (s : State) (h : D s) :
    (defineGlyph code rows s).HangsAt k N (s.cx, s.cy) s :=
  (hB.poll s h).bind _

omit hB in
/-- The row overflow where it does not scroll: CY is at the row from which Putchar goes on (R190). -/
theorem foldRow_quiet {s : State} (h : (pastRow s && s.cfg.hasScroll && !oneRow s.cfg) = false) :
    foldRow s = .done () (s.setCursor s.cx (entryRow s)) := by
  unfold foldRow entryRow
  cases hp : pastRow s with
  | false => rfl
  | true =>
    cases hf : s.cfg.hasScroll with
    | false => rfl
    | true =>
      have hone : oneRow s.cfg = true := by simpa [hp, hf] using h
      have hy : s.cfg.ymax = 0 := by simpa [oneRow] using hone
      unfold Machine.scrollUp
      rw [hone]
      simp [Ran.bind, hy]

omit hB in
theorem entryRow_le (s : State) : (entryRow s).toNat ≤ s.cfg.ymax := by
  unfold entryRow
  split
  · simp
  · rename_i h
    simpa [pastRow] using h

/-- The row overflow where it scrolls. -/
theorem Barred.foldRow (s : State) (h : D s) (hscroll : (pastRow s && s.cfg.hasScroll && !oneRow s.cfg) = true) :
    (foldRow s).HangsAt k N (s.cx, s.cy) s := by
  simp only [Bool.and_eq_true, Bool.not_eq_true'] at hscroll
  obtain ⟨⟨hpast, hfeat⟩, hrows⟩ := hscroll
  unfold Machine.foldRow
  rw [if_pos hpast, if_pos hfeat]
  exact (hB.scrollUp s h hrows).bind _

/-- A line feed, from a row of the panel (R191). -/
theorem Barred.lineFeed (s : State) (h : D s) (hx : s.cx.toNat ≤ s.cfg.xmax) (hy : s.cy.toNat ≤ s.cfg.ymax) :
    (lineFeed s).HangsAt k N (if s.cfg.nlImpliesCr then 0 else s.cx,
      if s.cy.toNat < s.cfg.ymax || (s.cfg.hasScroll && !oneRow s.cfg) then s.cy + 1 else 0) s := by
  have hcy : (s.cy + 1).toNat = s.cy.toNat + 1 := toNat_add_one (by have := (geometry_bounds s.cfg).2; omega)
  have hx' : (if s.cfg.nlImpliesCr then (0 : Byte) else s.cx).toNat ≤ s.cfg.xmax := by
    split
    · simp
    · exact hx
  unfold Machine.lineFeed
  refine Ran.HangsAt.of_setCursor (x := if s.cfg.nlImpliesCr then 0 else s.cx) (y := s.cy + 1) ?_
  generalize hu : s.setCursor (if s.cfg.nlImpliesCr then 0 else s.cx) (s.cy + 1) = u
  have hDu : D u := hu ▸ hB.cursor _ _ s h
  have hpast : pastRow u = !decide (s.cy.toNat < s.cfg.ymax) := by
    subst hu
    simp only [pastRow, setCursor_cfg, setCursor_cy, hcy, ← decide_not]
    congr 1
    simp only [eq_iff_iff]
    omega
  have hcfg : u.cfg = s.cfg := hu ▸ rfl
  cases hscroll : (pastRow u && u.cfg.hasScroll && !oneRow u.cfg) with
  | true =>
    have hcur : (s.cfg.hasScroll && !oneRow s.cfg) = true := by
      rw [hcfg] at hscroll
      simp only [Bool.and_eq_true] at hscroll ⊢
      exact ⟨hscroll.1.2, hscroll.2⟩
    have := (hB.foldRow u hDu hscroll).bind fun _ t => Machine.addressCursor t
    rw [hcur, Bool.or_true, if_pos rfl]
    subst hu
    exact this
  | false =>
    have hcur : (if s.cy.toNat < s.cfg.ymax || (s.cfg.hasScroll && !oneRow s.cfg) then s.cy + 1 else 0) = entryRow u := by
      rw [hcfg, hpast] at hscroll
      unfold entryRow
      rw [hpast, ← hu]
      cases hlt : decide (s.cy.toNat < s.cfg.ymax) with
      | true => simp
      | false => simp_all
    rw [foldRow_quiet hscroll, hcur]
    have hcx : u.cx = if s.cfg.nlImpliesCr then 0 else s.cx := hu ▸ rfl
    rw [← hcx]
    refine hB.addressCursor (u.setCursor u.cx (entryRow u)) (hB.cursor _ _ u hDu) ?_ (entryRow_le u)
    rw [setCursor_cx, hcx, setCursor_cfg, hcfg]
    exact hx'

/-- Putchar hangs in its first wait, with the cursor as it has written it by then (R252, V60-2). -/
theorem Barred.putchar (ch : Byte) (s : State) (h : D s) (hx : s.cx.toNat ≤ s.cfg.xmax) :
    (putchar ch s).HangsAt k N (cursorAtPut ch s) s := by
  unfold Machine.putchar cursorAtPut
  cases hscroll : (pastRow s && s.cfg.hasScroll && !oneRow s.cfg) with
  | true => exact (hB.foldRow s h hscroll).bind _
  | false =>
    rw [foldRow_quiet hscroll]
    generalize hu : s.setCursor s.cx (entryRow s) = u
    have hDu : D u := hu ▸ hB.cursor _ _ s h
    have hux : u.cx.toNat ≤ u.cfg.xmax := by subst hu; exact hx
    have huy : u.cy.toNat ≤ u.cfg.ymax := by subst hu; exact entryRow_le s
    refine atCell_hangs hux huy fun a => Ran.HangsAt.bind ?_ _
    unfold putByte
    rw [if_neg (by simp)]
    split
    · have := hB.lineFeed u hDu hux huy
      subst hu
      exact this
    · split
      · have := hB.addressCursor (u.setCursor 0 u.cy) (hB.cursor _ _ u hDu) (Nat.zero_le _) huy
        subst hu
        exact this
      · have := ((hB.address a u hDu).bind fun _ t => sendData ch t).bind fun _ t => .done () (t.setCursor (t.cx + 1) t.cy)
        subst hu
        exact this

omit hB in
theorem runOp_hangs {s : State} {body : State → Ran (Option Byte)}
    (h : (body { s with busyOp := true }).HangsAt k N cur { s with busyOp := true }) :
    ∃ t evs, runOp s body = .next t ∧ N evs ∧
      t = { s with
        cx := cur.1
        cy := cur.2
        pins := t.pins
        hist := s.hist ++ evs
        env := t.env
        busyOp := true
        hang := some k } := by
  obtain ⟨t, evs, hrun, hreach, hevs⟩ := h
  rw [Reached] at hreach
  exact ⟨_, evs, by rw [runOp, hrun], hevs, by rw [hreach]⟩

omit hB in
/-- What `accepted` says of a host operation. -/
theorem accepted_host {s : State} {i : Instr} (hi : i.space = .hostPacket) (h : accepted s i = true) :
    s.busyOp = false ∧ presentIn s.cfg i = true ∧ (i ≠ .init → s.inited = true) ∧ i.wellFormed = true ∧
      inRange s.cfg i = true := by
  simp only [accepted, hi, Bool.and_eq_true, Bool.or_eq_true, decide_eq_true_eq, Bool.not_eq_true', reduceCtorEq,
    false_or] at h
  obtain ⟨⟨⟨⟨hb, hp⟩, hn⟩, hw⟩, hr⟩ := h
  exact ⟨hb, hp, hn.resolve_left, hw, hr⟩

/-- An accepted host operation other than INIT that makes a transfer hangs in its first wait. -/
theorem Barred.exec {i : Instr} {s : State} (hi : i.space = .hostPacket) (hne : i ≠ .init) (ha : accepted s i = true)
    (ht : transfers s.cfg i = true) (hc : s.cursorOk = true) (h : D s) :
    ∃ t evs, Machine.exec i s = .next t ∧ N evs ∧
      t = { s with
        cx := (cursorAtWait s i).1
        cy := (cursorAtWait s i).2
        pins := t.pins
        hist := s.hist ++ evs
        env := t.env
        busyOp := true
        hang := some k } := by
  obtain ⟨hb, hp, hin, hw, hr⟩ := accepted_host hi ha
  have hin := hin hne
  have hbusy := hB.busy s h
  simp only [State.cursorOk, Bool.and_eq_true, decide_eq_true_eq] at hc
  have op : ∀ {present : Bool} {body}, present = true →
      (body { s with busyOp := true }).HangsAt k N (cursorAtWait s i) { s with busyOp := true } →
      ∃ t evs, accept s present true (runOp s body) = .next t ∧ N evs ∧
        t = { s with
          cx := (cursorAtWait s i).1
          cy := (cursorAtWait s i).2
          pins := t.pins
          hist := s.hist ++ evs
          env := t.env
          busyOp := true
          hang := some k } := by
    intro present body hpres hbody
    rw [accept_ok hb hpres (.inr hin)]
    exact runOp_hangs hbody
  cases i with
  | init => exact absurd rfl hne
  | clear => exact op hp ((hB.send codeClear _ hbusy (keepsWidth_clear _) (by decide)).bind _)
  | locate x y =>
    simp only [inRange, Bool.and_eq_true, decide_eq_true_eq] at hr
    exact op hp ((atCell_hangs hr.1 hr.2 fun a => (hB.address a _ (hB.cursor x y _ hbusy)).of_setCursor).bind _)
  | cursor c b => exact op hp ((hB.send _ _ hbusy (keepsWidth_display _ c b) (displayByte_ne_zero c b)).bind _)
  | putc ch => exact op hp ((hB.putchar ch _ hbusy hc.1).bind _)
  | puts text =>
    cases text with
    | nil => cases ht
    | cons ch rest =>
      have htext : textOk (ch :: rest) = true := hw
      show ∃ t evs, accept s true true (if textOk (ch :: rest) then _ else _) = .next t ∧ _
      rw [htext, if_pos rfl]
      exact op rfl ((((hB.putchar ch _ hbusy hc.1).bind _).bind _).bind _)
  | defglyph code b0 b1 b2 b3 b4 b5 b6 b7 => exact op hp ((hB.defineGlyph code _ _ hbusy).bind _)
  | readchar x y =>
    simp only [inRange, Bool.and_eq_true, decide_eq_true_eq] at hr
    exact op hp ((atCell_hangs hr.1 hr.2 fun a => hB.readDataRam a _ hbusy).bind _)
  | readram a => exact op hp ((hB.readDataRam a _ hbusy).bind _)
  | scroll => exact op hp ((hB.scrollUp _ hbusy (by simpa [transfers] using ht)).bind _)
  | intensity l =>
    exact op hp ((hB.send _ _ hbusy (keepsWidth_functionSet _ l) (functionSetByte_ne_zero _ l)).bind _)
  | cmdClear | cmdEntryInc | cmdDisplay | cmdFs8 | fsReal | cmdSetCgram | cmdSetDdram | commandWrite | dataWrite
  | statusRead | dataRead => cases hi

end

/-! ## INIT, which begins with writes that are not waited for -/

/-- What hangs after a first part of the operation. -/
theorem Ran.HangsAt.after {α : Type} {M : List Event → Prop} {s u : State} {at' : Byte × Byte} {before : List Event} {r : Ran α}
    (h : r.HangsAt k N cur u) (hu : Reached s u at' before) (hM : ∀ evs, N evs → M (before ++ evs)) : r.HangsAt k M cur s := by
  obtain ⟨t, evs, hrun, hreach, hevs⟩ := h
  rw [Reached] at hu hreach
  refine ⟨t, before ++ evs, hrun, ?_, hM evs hevs⟩
  rw [Reached, hreach, hu]
  simp only [List.append_assoc]

theorem bootEnv_inStep (c : Cfg) (v : Env) : (bootEnv c v).inStep c = true := by
  cases hp : v.peer with
  | unconstrained =>
    rw [bootEnv_unconstrained c v hp]
    simp [Env.inStep, hp]
  | reference => exact (bootEnv_reference c v hp).2.1

theorem bootEnv_kept (c : Cfg) (v : Env) : v.WriteKept (bootEnv c v) := by
  have strobe : ∀ u : Env, u.WriteKept (strobeFs8 c u) := fun u => u.takeStrobe_kept c false _
  unfold bootEnv
  exact ((((strobe v).trans (strobe _)).trans (strobe _)).trans (Env.takeStrobe_kept c false _ _)).trans
    ((Env.written_kept c false _ _).trans (Env.written_kept c false _ _))

/-- INIT's state between steps 2 and 3, all delays returning. -/
def booted (s : State) : State :=
  markSettled (St s (s.hist ++ bootEvents s.cfg) (bootEnv s.cfg s.env) (lastDriven s.cfg.busMode (fsRealByte s.cfg)))

theorem booted_reached (s : State) : Reached s (booted s) (s.cx, s.cy) (bootEvents s.cfg) := rfl

theorem booted_env (s : State) : (booted s).env = { bootEnv s.cfg s.env with settled := true } := rfl

theorem booted_inStep (s : State) : (booted s).env.inStep (booted s).cfg = true := bootEnv_inStep s.cfg s.env

theorem booted_delays (s : State) : (booted s).env.delays = s.env.delays := by
  obtain ⟨-, -, -, h, -⟩ := bootEnv_kept s.cfg s.env
  exact h

/-- INIT is step 3 after the bootstrap. -/
theorem initSequence_booted {s : State} (hd : s.env.delays = .all) :
    initSequence s = (initStep3 (booted s)).bind fun _ w => .done () { w with inited := true } := by
  rw [initSequence, ← Ran.bind_assoc, boot_done s hd]
  rfl

/-- INIT comes to its first wait in step with any controller, and hangs there if that is busy for ever. -/
theorem initSequence_deaf (s : State) (hd : s.env.delays = .all) (hn : s.neverReady = true) :
    (initSequence s).HangsAt .poll (fun _ => True) (s.cx, s.cy) s := by
  obtain ⟨-, hbits, hafter, -⟩ := bootEnv_kept s.cfg s.env
  have hdeaf : Deaf (booted s) := by
    refine ⟨congrArg Delays.settle ((booted_delays s).trans hd), booted_inStep s, ?_⟩
    simpa [State.neverReady, booted_env, hbits, hafter] using hn
  have hsend := deaf_barred.send codeDisplayOn _ hdeaf rfl (by decide)
  rw [initSequence_booted hd]
  exact ((hsend.after (booted_reached s) fun _ h => h).bind _).bind _

/-- INIT, one of whose six millisecond delays never returns. -/
theorem initSequence_delay (s : State) {n : Nat} (hs : s.env.delays.settle = .all) (hm : s.env.delays.ms = some n) (hn : n < 6) :
    (initSequence s).HangsAt .delay (fun evs => delayCount evs = n) (s.cx, s.cy) s := by
  obtain ⟨evs, e, d, hrun, hcount⟩ := (boot_runs s hs).hangs n hm hn
  unfold initSequence
  rw [← Ran.bind_assoc]
  have hboot : ((initStep1 s).bind fun _ t => initStep2 t).HangsAt .delay (fun evs => delayCount evs = n) (s.cx, s.cy) s :=
    ⟨St s (s.hist ++ evs) e d, evs, hrun, rfl, hcount⟩
  exact hboot.bind _

/-- INIT, one of whose first four settle delays never returns: they belong to the bootstrap's first write. -/
theorem initSequence_left (s : State) {n : Nat} (h : s.env.delays.settle = .left n) (hn : n < 4) :
    (initSequence s).HangsAt .settle (fun evs => ctlCount evs = n + 1) (s.cx, s.cy) s := by
  have first : ∀ {P : State → Prop}, LineClosed P → P s → P (rawWrite codeFs8 (forceWriteMode s)) := fun hP hs =>
    hP.rawWrite _ _ (hP.line _ _ _ (hP.dir _ _ (hP.line _ _ _ (hP.line _ _ _ (hP.dir _ _ hs)))))
  have hstuck : (rawWrite codeFs8 (forceWriteMode s)).stuck = true :=
    strobe_left (drive_fewer _ _ (dir_fewer _ _ (line_fewer _ _ _ (dir_fewer _ _ (line_fewer _ _ _ (line_fewer _ _ _
      (dir_fewer _ _ (.inr ⟨n, h, by omega⟩))))))))
  have hcounted := first (counted_closed (ctlCount s.hist + n)) (.inl ⟨n, h, rfl⟩)
  obtain ⟨evs, hevs⟩ := first (hist_closed s) (List.prefix_refl _)
  have hworked := first (P := Worked s)
    (lineClosed_of_apart fun t _ _ _ ht => by rw [Worked] at ht ⊢; rw [ht]) (Worked.refl s)
  have hrun : initSequence s = .hung { rawWrite codeFs8 (forceWriteMode s) with hang := some .settle } := by
    unfold initSequence initStep1 thenDelay
    rw [delayMs_stuck 15 hstuck]
    rfl
  refine ⟨_, evs, hrun, ?_, ?_⟩
  · rw [Reached, hevs]
    exact hworked
  · rcases hcounted with ⟨j, hj, -⟩ | ⟨-, hc⟩
    · simp [State.stuck, hj] at hstuck
    · rw [← hevs] at hc
      simp only [ctlCount, List.countP_append] at hc ⊢
      omega

/-- INIT hangs where its sequence does. -/
theorem exec_init_hangs {s : State} (hb : s.busyOp = false)
    (h : (initSequence { s with busyOp := true }).HangsAt k N cur { s with busyOp := true }) :
    ∃ t evs, Machine.exec .init s = .next t ∧ N evs ∧
      t = { s with
        cx := cur.1
        cy := cur.2
        pins := t.pins
        hist := s.hist ++ evs
        env := t.env
        busyOp := true
        hang := some k } := by
  show ∃ t evs, accept s true false (runOp s _) = .next t ∧ _
  rw [accept_ok hb rfl (.inl rfl)]
  exact runOp_hangs (h.bind _)

/-- A bus transaction, one of whose first four settle delays never returns. -/
theorem exec_transaction_left {i : Instr} {s : State} {n : Nat} (hi : i.space = .busTransaction) (hb : s.busyOp = false)
    (h : s.env.delays.settle = .left n) (hn : n < 4) :
    ∃ t evs, Machine.exec i s = .next t ∧ ctlCount evs = n + 1 ∧
      t = { s with
        pins := t.pins
        hist := s.hist ++ evs
        env := t.env
        busyOp := true
        hang := some .settle } := by
  have stuck : ∀ u, ((∃ rs b, u = busWrite rs b s) ∨ ∃ rs, u = (busRead rs s).2) →
      ∃ t evs, transaction s u = .next t ∧ ctlCount evs = n + 1 ∧
        t = { s with
          pins := t.pins
          hist := s.hist ++ evs
          env := t.env
          busyOp := true
          hang := some .settle } := by
    intro u hu
    obtain ⟨hstuck, evs, hcount, heq⟩ := transaction_left h hn hu
    refine ⟨{ u with busyOp := true, hang := some .settle }, evs, ?_, hcount, ?_⟩
    · rw [transaction, if_neg (by simp [hb]), if_pos hstuck]
    · rw [heq]
  cases i with
  | commandWrite v => exact stuck _ (.inl ⟨_, _, rfl⟩)
  | dataWrite v => exact stuck _ (.inl ⟨_, _, rfl⟩)
  | statusRead => exact stuck _ (.inr ⟨_, rfl⟩)
  | dataRead => exact stuck _ (.inr ⟨_, rfl⟩)
  | init | clear | locate | cursor | putc | puts | defglyph | readchar | readram | scroll | intensity | cmdClear
  | cmdEntryInc | cmdDisplay | cmdFs8 | fsReal | cmdSetCgram | cmdSetDdram => cases hi

/-! ## The obligations -/

/-- Settles O15: the first transfer of an operation is followed by a poll loop, which a busy controller never ends. -/
theorem hangsInPoll : Obligations.HangsInPoll := by
  intro i s hi ha ht hc hn hs hd
  have hsettle := hs
  simp only [State.settlesReturn, decide_eq_true_eq] at hsettle
  by_cases hne : i = .init
  · subst hne
    simp only [if_true, State.delaysReturn, decide_eq_true_eq] at hd
    obtain ⟨t, evs, hrun, -, heq⟩ := exec_init_hangs (accepted_host hi ha).1 (initSequence_deaf { s with busyOp := true } hd hn)
    exact ⟨t, evs, hrun, heq⟩
  · rw [if_neg hne] at hd
    obtain ⟨t, evs, hrun, -, heq⟩ := deaf_barred.exec hi hne ha ht hc ⟨hsettle, hd, hn⟩
    exact ⟨t, evs, hrun, heq⟩

/-- Settles O16: the first transfer of an operation requests four settle delays at least; INIT's millisecond delays come in its
bootstrap. -/
theorem hangsInDelay : Obligations.HangsInDelay := by
  refine ⟨fun s n hb hs hm hn => ?_, fun i s n ha ht hc hs hn => ?_⟩
  · simp only [State.settlesReturn, decide_eq_true_eq] at hs
    exact exec_init_hangs hb (initSequence_delay { s with busyOp := true } hs hm hn)
  · cases hi : i.space with
    | hostPacket =>
      by_cases hne : i = .init
      · subst hne
        exact exec_init_hangs (accepted_host hi ha).1 (initSequence_left { s with busyOp := true } hs hn)
      · exact (settle_barred hn).exec hi hne ha ht hc hs
    | controllerCommand => cases i <;> cases hi <;> cases ht
    | busTransaction =>
      have hb : s.busyOp = false := by
        simp only [accepted, Bool.and_eq_true, Bool.not_eq_true'] at ha
        obtain ⟨⟨⟨⟨hb, -⟩, -⟩, -⟩, -⟩ := ha
        exact hb
      have hcur : cursorAtWait s i = (s.cx, s.cy) := by cases i <;> cases hi <;> rfl
      rw [hcur]
      exact exec_transaction_left hi hb hs hn

end Sys2Proof.Machine
end

section
/-!
Reset (70_reset_and_hazards.md R280, R281) and the two line primitives (41_bus_transfer.md R131, R132).
-/
namespace Sys2Proof.Machine

/-! ## The line primitives -/

/-- A control line while no settle delay is stuck: its latch and event, then the request of one settle delay. -/
theorem setControlLine_free {s : State} (n : Line) (l : Level) (h : s.stuck = false) :
    setControlLine n l s = { commandLine n l s with env := (commandLine n l s).env.settle } := by
  rw [setControlLine, if_neg (by simp [h])]

theorem setBusDirection_free {s : State} (d : Dir) (h : s.stuck = false) :
    setBusDirection d s = { s with pins := { s.pins with dir := d }, hist := s.hist ++ [.dir d] } := by
  rw [setBusDirection, if_neg (by simp [h])]
  rfl

theorem setControlLine_stuck {s : State} (n : Line) (l : Level) (h : s.stuck = true) : setControlLine n l s = s :=
  if_pos h

theorem setBusDirection_stuck {s : State} (d : Dir) (h : s.stuck = true) : setBusDirection d s = s := if_pos h

/-- E sets its latch and appends its event; the controller, which is part of the environment, acts on a falling edge only. -/
theorem commandLine_e (l : Level) (s : State) : ∃ v, commandLine .e l s =
      { s with pins := { s.pins with e := l }, hist := s.hist ++ [.ctl .e l], env := v } ∧
    (s.pins.e = false ∨ l = true → v = s.env) := by
  cases he : s.pins.e && !l with
  | true =>
    simp only [Bool.and_eq_true, Bool.not_eq_true'] at he
    refine ⟨s.strobed.env, ?_, fun h => ?_⟩
    · rw [commandLine, if_pos (by simp [he])]
      unfold State.strobed State.emit
      split <;> rfl
    · simp [he] at h
  | false => exact ⟨s.env, by rw [commandLine, if_neg (by simp [he])]; rfl, fun _ => rfl⟩

/-- Settles O18, line by line. -/
theorem linePrimitives : Obligations.LinePrimitives := by
  intro s n l d
  refine ⟨fun h => ⟨setControlLine_free .rs l h, setControlLine_free .rw l h, ?_, fun he => ?_, setBusDirection_free d h⟩,
    fun h => ?_, fun h => ⟨setControlLine_stuck n l h, setBusDirection_stuck d h⟩⟩
  · obtain ⟨v, hv, -⟩ := commandLine_e l s
    rw [setControlLine_free .e l h, hv]
  · obtain ⟨v, hv, hkeep⟩ := commandLine_e l s
    rw [setControlLine_free .e l h, hv, hkeep he]
  · simp only [State.settlesReturn, decide_eq_true_eq] at h
    rw [Env.settle, h]
    show ({ s.env with delays := { s.env.delays with settle := .all } } : Env) = s.env
    rw [← h]

/-! ## Reset -/

/-- Settles O1: `applyReset` is the reset table, field by field. -/
theorem resetState : Obligations.ResetState :=
  ⟨fun _ _ _ => ⟨_, rfl, rfl, rfl, rfl, rfl, rfl, rfl, rfl, rfl, rfl, rfl, rfl, rfl, rfl, rfl⟩, fun _ _ => rfl⟩

/-- The invariant at reset, whatever of the host's packets is left. -/
theorem resetWith_inv (cfg : Cfg) (env : Env) (packets : List Byte) (cp : Nat) (direct : Option (Space × List Byte))
    (hmem : env.ctl.memOk = true) (hset : env.delays.settle ≠ .stuck) :
    ({ State.resetWith cfg env with packets := packets, cp := cp, direct := direct } : State).inv = true := by
  have hstuck : decide (env.delays.settle = .stuck) = false := decide_eq_false hset
  refine (inv_iff _).2 ⟨⟨rfl, ?_, hmem, nofun⟩, rfl, rfl, hstuck⟩
  exact (framed_iff _).2 ⟨Bench.reset, ⟨rfl, rfl, rfl, rfl, rfl⟩, .inr rfl⟩

/-- Settles O3. -/
theorem resetInvariant : Obligations.ResetInvariant := by
  refine ⟨by decide +kernel, fun cfg env hm hs => ?_, fun s k d hm hs => ?_⟩
  · exact resetWith_inv cfg env [] 0 none hm hs
  · exact resetWith_inv s.cfg _ s.packets s.cp s.direct hm hs

/-- A 4-bit write of which three settle delays return: RS and RW are commanded, E is high and low again, and the controller has
taken the high nibble. -/
theorem busWrite_left_three (rs : Level) (b : Byte) {s : State} (hm : s.cfg.busMode = .bus4) (hp : s.env.peer = .reference)
    (hin : s.env.inStep s.cfg = true) (h : s.env.delays.settle = .left 3) :
    (busWrite rs b s).env = { s.env with
      ctl := { s.env.ctl with phase := .lo, nib := hiNibble b }
      delays := { s.env.delays with settle := .stuck } } := by
  obtain ⟨h8, hph⟩ := Env.inStep_reference hp hin
  rw [hm] at h8
  simp [busWrite, writeByte, strobe, setControlLine, setBusDirection, drive, commandLine, State.stuck, State.emit,
    State.strobed, State.driven, Env.settle, Settles.take, Env.takeStrobe, Env.seenNibble, hm, h, hp, h8, hph]

/-- Settles O2: the cut comes in the settle delay after E has fallen, and what the reset finds of the engine it does not keep. -/
theorem resetBetweenStrobes : Obligations.ResetBetweenStrobes := by
  intro s b d hb hm hp hin
  refine ⟨_, rfl, ?_⟩
  generalize hu : ({ s with env := { s.env with delays := { s.env.delays with settle := .left 3 } } } : State) = u
  have hleft : u.env.delays.settle = .left 3 := by subst hu; rfl
  have henv := busWrite_left_three true b (s := u) (by subst hu; exact hm) (by subst hu; exact hp) (by subst hu; exact hin) hleft
  obtain ⟨hstuck, evs, -, hworked⟩ := transaction_left hleft (by omega) (.inl ⟨true, b, rfl⟩)
  have hcut : cutAfter 3 (.dataWrite b) s =
      .next { busWrite true b u with busyOp := true, hang := some .settle } := by
    rw [cutAfter, hu]
    show transaction u (busWrite true b u) = _
    rw [transaction, if_neg (by subst hu; simp [hb]), if_pos hstuck]
  rw [resetDuring, hcut, hworked, henv]
  subst hu
  rfl

end Sys2Proof.Machine
end

section
/-!
The bus transactions and the reference controller's reaction to them (41_bus_transfer.md R141, R142; 20_memory.md R62 to R69).
-/
namespace Sys2Proof.Machine

theorem settlesReturn_iff (s : State) : s.settlesReturn = true ↔ s.env.delays.settle = .all := by
  simp [State.settlesReturn]

/-! ## The transactions -/

/-- Settles O19. -/
theorem busWriteTransaction : Obligations.BusWriteTransaction := by
  intro s v rs hb hs
  rw [settlesReturn_iff] at hs
  refine ⟨_, exec_write rs v hb hs, ?_, fun hm => ?_, fun hm => ?_⟩ <;> rw [busWrite_eq rs v hs]
  · simp [hm, lastDriven, writeEvents, writeByteEvents, strobeEvents]
  · simp [hm, lastDriven, writeEvents, writeByteEvents, strobeEvents, hiNibble, loNibble]

/-- Settles O20. -/
theorem busReadTransaction : Obligations.BusReadTransaction := by
  intro s rs hb hs
  rw [settlesReturn_iff] at hs
  refine ⟨_, exec_read rs hb hs, ?_, fun hm => ?_, fun hm => ?_⟩ <;> rw [busRead_eq rs hs]
  · exact ⟨(s.env.readOut s.cfg rs).1, by simp [hm, readEvents, readByteEvents]⟩
  · exact ⟨hiNibble (s.env.readOut s.cfg rs).1, loNibble (s.env.readOut s.cfg rs).1, by
      simp [hm, readEvents, readByteEvents]⟩

/-- A byte written to a reference controller in step: the next state, and the controller's reaction. -/
theorem exec_write_reference {s : State} (rs : Level) (b : Byte) (hb : s.busyOp = false) (hs : s.env.delays.settle = .all)
    (hp : s.env.peer = .reference) (hin : s.env.inStep s.cfg = true) (hv : rs = true ∨ b ≠ 0) :
    ∃ t, exec (if rs then .dataWrite b else .commandWrite b) s = .next t ∧ t.env.peer = .reference ∧
      t.env.ctl = { s.env.reacted s.cfg rs b with nib := t.env.ctl.nib } := by
  obtain ⟨⟨hpeer, -⟩, hctl⟩ := Env.written_done hin rs b hv
  refine ⟨_, exec_write rs b hb hs, ?_, ?_⟩ <;> rw [busWrite_eq rs b hs]
  · exact hpeer.trans hp
  · exact hctl hp

/-! ## Commands -/

theorem Env.draw_ctl (v : Env) : v.draw.2.ctl = v.ctl := by
  obtain ⟨_, h⟩ := v.draw_eq
  rw [h]

/-- A byte none of whose bits is set is 0x00. -/
theorem byte_eq_zero (v : Byte) (h7 : v.getLsbD 7 = false) (h6 : v.getLsbD 6 = false) (h5 : v.getLsbD 5 = false)
    (h4 : v.getLsbD 4 = false) (h3 : v.getLsbD 3 = false) (h2 : v.getLsbD 2 = false) (h1 : v.getLsbD 1 = false)
    (h0 : v.getLsbD 0 = false) : v = 0 := by
  revert v
  decide

/-- Settles O21, along the table's rows. -/
theorem commandReaction : Obligations.CommandReaction := by
  intro s v hb hs hp hin hv
  rw [settlesReturn_iff] at hs
  obtain ⟨-, hph⟩ := Env.inStep_reference hp hin
  obtain ⟨t, hrun, hpeer, hctl⟩ := exec_write_reference false v hb hs hp hin (.inr hv)
  refine ⟨t, { s.env.ctl with nib := t.env.ctl.nib, busy := true, addrSet := v.getLsbD 7 || v.getLsbD 6 }, hrun, hpeer, rfl,
    ?_, fun h1 a => ?_⟩
  · generalize t.env.ctl = k at hctl ⊢
    simp only [Env.reacted, Bool.false_eq_true, if_false, Env.command] at hctl
    cases h7 : v.getLsbD 7
    case true => simp only [h7, if_true] at hctl ⊢; rw [hctl]; rfl
    simp only [h7, Bool.false_eq_true, if_false] at hctl ⊢
    cases h6 : v.getLsbD 6
    case true => simp only [h6, if_true] at hctl ⊢; rw [hctl]; rfl
    simp only [h6, Bool.false_eq_true, if_false] at hctl ⊢
    cases h5 : v.getLsbD 5
    case true => simp only [h5, if_true] at hctl ⊢; rw [hctl]; simp [Ctl.functionSet, Ctl.accessed, hph]
    simp only [h5, Bool.false_eq_true, if_false] at hctl ⊢
    cases h4 : v.getLsbD 4
    case true => simp only [h4, if_true] at hctl ⊢; rw [hctl, Env.draw_ctl]; rfl
    simp only [h4, Bool.false_eq_true, if_false] at hctl ⊢
    cases h3 : v.getLsbD 3
    case true => simp only [h3, if_true] at hctl ⊢; rw [hctl]; rfl
    simp only [h3, Bool.false_eq_true, if_false] at hctl ⊢
    cases h2 : v.getLsbD 2
    case true => simp only [h2, if_true] at hctl ⊢; rw [hctl]; rfl
    simp only [h2, Bool.false_eq_true, if_false] at hctl ⊢
    cases h1 : v.getLsbD 1
    case true => simp only [h1, if_true] at hctl ⊢; rw [hctl]; rfl
    simp only [h1, Bool.false_eq_true, if_false] at hctl ⊢
    cases h0 : v.getLsbD 0
    case true => simp only [h0, if_true] at hctl ⊢; rw [hctl]; rfl
    exact absurd (byte_eq_zero v h7 h6 h5 h4 h3 h2 h1 h0) hv
  · subst h1
    rw [hctl]
    rfl

/-! ## Data -/

/-- Settles O22, by the RAM last selected. -/
theorem dataReaction : Obligations.DataReaction := by
  intro s b hb hs hp hin hmem
  rw [settlesReturn_iff] at hs
  obtain ⟨t, hrun, hpeer, hctl⟩ := exec_write_reference true b hb hs hp hin (.inl rfl)
  simp only [Ctl.memOk, Bool.and_eq_true] at hmem
  obtain ⟨⟨⟨hdd, -⟩, hcg⟩, -⟩ := hmem
  refine ⟨t, { s.env.ctl with nib := t.env.ctl.nib, busy := true, addrSet := false, ac := s.env.ctl.step }, hrun, hpeer, rfl, ?_⟩
  generalize t.env.ctl = k at hctl ⊢
  simp only [Env.reacted, if_true, Ctl.dataWrite] at hctl
  cases hsel : s.env.ctl.sel with
  | cg =>
    simp only [hsel] at hctl
    rw [hctl]
    refine ⟨by simp [Ctl.accessed, hsel], fun _ => ⟨rfl, Mem.write_read_same _ _ b hcg, fun a ha => Mem.write_read_other _ _ _ b hcg ha⟩, nofun⟩
  | dd =>
    simp only [hsel] at hctl
    cases himp : s.env.ctl.implemented s.env.ctl.ac with
    | true =>
      simp only [himp, if_true] at hctl ⊢
      rw [hctl]
      exact ⟨by simp [Ctl.accessed, hsel], nofun, fun _ => ⟨rfl, fun a ha => Mem.write_read_other _ _ _ b hdd ha, Mem.write_read_same _ _ b hdd⟩⟩
    | false =>
      simp only [himp, Bool.false_eq_true, if_false] at hctl ⊢
      rw [hctl]
      exact ⟨by simp [Ctl.accessed, hsel], nofun, fun _ => ⟨rfl, fun _ _ => rfl, rfl⟩⟩

/-- Settles O25: what `readOut_data` says, with the RAM last selected. -/
theorem dataReadReaction : Obligations.DataReadReaction := by
  intro s hb hs hr haddr
  rw [settlesReturn_iff] at hs
  obtain ⟨hp, hset, hin⟩ := (refctl_iff s).1 hr
  obtain ⟨⟨hpeer, hsettled, -⟩, hin', href⟩ := Env.readOut_data hin
  obtain ⟨hctl, hbyte⟩ := href hp
  obtain ⟨-, hph⟩ := Env.inStep_reference hp hin
  refine ⟨_, (s.env.readOut s.cfg true).1, exec_read true hb hs, ?_⟩
  rw [busRead_eq true hs]
  refine ⟨(refctl_iff _).2 ⟨hpeer.trans hp, hsettled.trans hset, hin'⟩, rfl, ?_, fun hsel => ?_, fun hsel himp => ?_⟩
  · exact hctl.trans (by rw [Ctl.dataTaken, Ctl.accessed, ← hph])
  · exact hbyte _ (by rw [Ctl.dataByte, if_pos haddr, hsel]; rfl)
  · exact hbyte _ (by rw [Ctl.dataByte, if_pos haddr, hsel]; exact if_pos himp)

/-! ## The status byte -/

theorem hiNibble_status (bf : Bool) (a : Addr7) : hiNibble (BitVec.ofBool bf ++ a) = BitVec.ofBool bf ++ a.extractLsb' 4 3 := by
  revert bf a
  decide

theorem loNibble_status (bf : Bool) (a : Addr7) : loNibble (BitVec.ofBool bf ++ a) = a.extractLsb' 0 4 := by
  revert bf a
  decide

/-- Settles O24. -/
theorem statusReadReaction : Obligations.StatusReadReaction := by
  intro s hb hs hr
  rw [settlesReturn_iff] at hs
  obtain ⟨hbyte, hctl, hr'⟩ := statusRead_reference hs hr
  refine ⟨_, s.env.busyBits.headD s.env.busyAfter, exec_read false hb hs, hr', ?_, ?_⟩
  · show (statusRead s).2.env.ctl = _
    rw [hctl, hbyte, busyFlag_append]
  · show (statusRead s).2.hist = _
    have hread := congrArg Prod.fst (statusRead_eq hs)
    rw [statusRead_eq hs, ← hread, hbyte]
    cases hm : s.cfg.busMode with
    | bus8 => simp [readEvents, readByteEvents]
    | bus4 => simp [readEvents, readByteEvents, hiNibble_status, loNibble_status]

/-! ## The address counter -/

theorem step_up {k : Ctl} (h : k.incr = true) : k.step = k.stepUp := if_pos h

theorem step_down {k : Ctl} (h : k.incr = false) : k.step = k.stepDown := if_neg (by simp [h])

/-- Settles O23: the counter has 128 values. -/
theorem counterSteps : Obligations.CounterSteps := by
  intro k
  refine ⟨fun hi hsel hn hle => ?_, fun hi hsel hn himp => ?_, fun hi hsel hle => ?_, fun hi hsel himp => ?_, fun hi hsel hle => ?_⟩
  · rw [step_up hi]
    simp only [Ctl.stepUp, hsel, hn, Bool.false_eq_true, if_false]
    generalize k.ac = a at hle ⊢
    revert a
    decide
  · rw [step_up hi]
    simp only [Ctl.implemented, hn, if_true] at himp
    simp only [Ctl.stepUp, hsel, hn, if_true]
    generalize k.ac = a at himp ⊢
    revert a
    decide
  · rw [step_up hi]
    simp only [Ctl.stepUp, hsel]
    generalize k.ac = a at hle ⊢
    revert a
    decide
  · rw [step_up rfl, step_down hi]
    simp only [Ctl.stepUp, Ctl.stepDown, Ctl.implemented, hsel] at himp ⊢
    generalize k.ac = a at himp ⊢
    generalize k.twoLine = n at himp ⊢
    revert a n
    decide
  · rw [step_up rfl, step_down hi]
    simp only [Ctl.stepUp, Ctl.stepDown, hsel]
    generalize k.ac = a at hle ⊢
    revert a
    decide

/-! ## The controller-command rows -/

/-- Settles O26, row by row. -/
theorem controllerCommandRows : Obligations.ControllerCommandRows := by
  intro s c b l n bb code a
  have hcode : (code ++ 0#3).setWidth 7 = BitVec.ofNat 7 (8 * code.toNat) := by
    revert code
    decide
  refine ⟨rfl, rfl, rfl, rfl, rfl, ?_, rfl⟩
  rw [← hcode]
  rfl

theorem fsRealWord_bits (l n : Bool) (bb : BitVec 2) :
    let b : Byte := 0x1#3 ++ bit l ++ bit n ++ 0#1 ++ bb
    b.getLsbD 7 = false ∧ b.getLsbD 6 = false ∧ b.getLsbD 5 = true ∧ b.getLsbD 4 = l ∧ b.getLsbD 3 = n ∧
      b.getLsbD 2 = false ∧ b.extractLsb' 0 2 = bb ∧ b ≠ 0 := by
  revert l n bb
  decide

/-- A row has on the controller the effect of its byte as a command (log 12). -/
theorem exec_row {i : Instr} {b : Byte} (s : State) (hi : i.space = .controllerCommand) (hb : encode i = [b]) :
    b ≠ 0 ∧ exec i s = .next { s with env := { s.env with ctl := (s.env.command s.cfg b).ctl } } := by
  cases i with
  | cmdClear => cases hb; exact ⟨by decide, rfl⟩
  | cmdEntryInc => cases hb; exact ⟨by decide, rfl⟩
  | cmdDisplay x y =>
    cases hb
    have hbyte : 0x03#6 ++ bit x ++ bit y = displayByte x y := by
      revert x y
      decide
    rw [hbyte, command_display]
    exact ⟨displayByte_ne_zero x y, rfl⟩
  | cmdFs8 => cases hb; exact ⟨by decide, rfl⟩
  | fsReal l n bb =>
    cases hb
    obtain ⟨h7, h6, h5, h4, h3, h2, hx, hne⟩ := fsRealWord_bits l n bb
    refine ⟨hne, ?_⟩
    simp only [Env.command, h7, h6, h5, h4, h3, h2, hx, Bool.false_eq_true, if_true, if_false]
    rfl
  | cmdSetCgram code =>
    cases hb
    have hbyte : 0x1#2 ++ code ++ 0#3 = setCgramByte code := by
      revert code
      decide
    rw [hbyte, command_setCgram]
    exact ⟨setCgramByte_ne_zero code, rfl⟩
  | cmdSetDdram a =>
    cases hb
    have hbyte : 0x1#1 ++ a = setDdramByte a := by
      revert a
      decide
    rw [hbyte, command_setDdram]
    exact ⟨setDdramByte_ne_zero a, rfl⟩
  | init | clear | locate | cursor | putc | puts | defglyph | readchar | readram | scroll | intensity | commandWrite
  | dataWrite | statusRead | dataRead => cases hi

/-- Settles O27: both have the effect of the byte as a command. -/
theorem commandRowsAgree : Obligations.CommandRowsAgree := by
  intro s i b hi henc hb hs hp hin
  rw [settlesReturn_iff] at hs
  obtain ⟨hne, hrow⟩ := exec_row s hi henc
  obtain ⟨u, hrun, -, hctl⟩ := exec_write_reference false b hb hs hp hin (.inr hne)
  exact ⟨_, u, hrow, hrun, hctl⟩

end Sys2Proof.Machine
end

section
/-!
The display-control operations (48_init_and_display_control.md): each is one command sent and waited for.
-/
namespace Sys2Proof.Machine

/-- The pins at the end name the value driven last. -/
theorem Completed.idle {s t : State} {x y : Byte} {d : Lines} {e : List Event} {r : List Byte}
    (h : Completed s t x y (idlePins d) e r) : Completed s t x y (idlePins t.pins.dout) e r := by
  rw [h.pins]
  exact h

theorem Completed.data {s t : State} {x y : Byte} {d : Lines} {e : List Event} {r : List Byte}
    (h : Completed s t x y (readPins d) e r) : Completed s t x y (readPins t.pins.dout) e r := by
  rw [h.pins]
  exact h

/-- An operation that a ready engine takes, whose body completes. -/
theorem accept_done {s u : State} {present : Bool} {body : State → Ran (Option Byte)} {r : Option Byte} {x y : Byte} {p : Pins}
    {evs : List Event} (hs : s.ready = true) (hp : present = true) (hbody : body { s with busyOp := true } = .done r u)
    (hu : Completed { s with busyOp := true } u x y p evs []) :
    accept s present true (runOp s body) = .next { u with busyOp := false, rsp := u.rsp ++ r.toList } ∧
      Completed s { u with busyOp := false, rsp := u.rsp ++ r.toList } x y p evs r.toList := by
  obtain ⟨hb, hi⟩ := (ready_iff s).1 hs
  rw [accept_ok hb hp (.inr hi)]
  exact ⟨runOp_done hbody, completed_finish r hb hu⟩

theorem noResult_done {r : Ran Unit} {t : State} (h : r = .done () t) : noResult r = .done none t := by
  rw [h]
  rfl

/-- An operation that sends one command, which may depend on the configuration. -/
theorem command_done {s : State} {present : Bool} (byte : Cfg → Byte) (hs : s.ready = true) (hr : s.responsive = true)
    (hp : present = true) (hk : keepsWidth s.cfg (byte s.cfg) = true) (hb : byte s.cfg ≠ 0) :
    ∃ t evs, accept s present true (runOp s fun t => noResult (sendCommand (byte t.cfg) t)) = .next t ∧
      SentEvents s.cfg.busMode false (byte s.cfg) evs ∧ Completed s t s.cx s.cy (idlePins t.pins.dout) evs [] ∧
        (s.refctl = true → t.refctl = true ∧ (s.env.command s.cfg (byte s.cfg)).ctl.after t.env.ctl) := by
  obtain ⟨u, evs, hrun, hevs, hdone, -, href⟩ := sendCommand_done (byte s.cfg) { s with busyOp := true } hr hk hb
  obtain ⟨hexec, hfin⟩ :=
    accept_done hs hp (body := fun t => noResult (sendCommand (byte t.cfg) t)) (noResult_done hrun) hdone
  exact ⟨_, evs, hexec, hevs, hfin.idle, href⟩

/-- Settles O28. -/
theorem clear : Obligations.Clear := by
  intro s hs hr
  obtain ⟨t, evs, hrun, hevs, hdone, href⟩ := command_done (fun _ => codeClear) hs hr rfl (keepsWidth_clear s.cfg) (by decide)
  refine ⟨t, evs, hrun, hevs, hdone, fun hc => ?_⟩
  obtain ⟨hrc, hctl⟩ := href hc
  rw [command_clear] at hctl
  have hctl : t.env.ctl = { s.env.ctl.clearDisplay with nib := t.env.ctl.nib, busy := false } := hctl
  exact ⟨hrc, hctl, by rw [hctl]; rfl, fun a => by rw [hctl]; rfl⟩

theorem displayByte_eq (cursor blink : Bool) :
    displayByte cursor blink = 0x03#6 ++ BitVec.ofBool cursor ++ BitVec.ofBool blink := by
  revert cursor blink
  decide

/-- Settles O29. -/
theorem cursor : Obligations.Cursor := by
  intro s cursor blink hs hr
  rw [← displayByte_eq]
  obtain ⟨t, evs, hrun, hevs, hdone, href⟩ :=
    command_done (fun _ => displayByte cursor blink) hs hr rfl (keepsWidth_display s.cfg cursor blink) (displayByte_ne_zero cursor blink)
  refine ⟨t, evs, hrun, hevs, hdone, fun hc => ?_⟩
  obtain ⟨hrc, hctl⟩ := href hc
  rw [command_display] at hctl
  exact ⟨hrc, hctl⟩

theorem functionSetByte_eq (c : Cfg) (bb : BitVec 2) : functionSetByte c bb =
    0x1#3 ++ BitVec.ofBool (decide (c.busMode = .bus8)) ++ BitVec.ofBool c.twoLine ++ 0#1 ++ bb := by
  unfold functionSetByte
  generalize decide (c.busMode = .bus8) = l
  generalize c.twoLine = n
  revert l n bb
  decide

/-- Settles O30: an engine in step has the width that is sent, so the controller keeps it. -/
theorem intensity : Obligations.Intensity := by
  intro s level hs
  obtain ⟨hb, -⟩ := (ready_iff s).1 hs
  refine ⟨fun hd => ?_, fun hd hr => ?_⟩
  · exact exec_absent rfl hb (by simp [presentIn, Cfg.hasIntensity, hd])
  · rw [← functionSetByte_eq]
    obtain ⟨t, evs, hrun, hevs, hdone, href⟩ := command_done (functionSetByte · level) hs hr (present := s.cfg.hasIntensity) (by simp [Cfg.hasIntensity, hd])
      (keepsWidth_functionSet s.cfg level) (functionSetByte_ne_zero s.cfg level)
    refine ⟨t, evs, hrun, hevs, hdone, fun hc => ?_⟩
    obtain ⟨hrc, hctl⟩ := href hc
    refine ⟨hrc, ?_⟩
    obtain ⟨hp, -, hin⟩ := (refctl_iff s).1 hc
    obtain ⟨h8, hph⟩ := Env.inStep_reference hp hin
    rw [command_functionSet] at hctl
    have hset : s.env.ctl.functionSet s.cfg.displayType (decide (s.cfg.busMode = .bus8)) s.cfg.twoLine false level =
        { s.env.ctl with twoLine := s.cfg.twoLine, font := false, bright := level, busy := true, addrSet := false } := by
      simp [Ctl.functionSet, Ctl.accessed, hd, h8, ← hph]
    rw [hset] at hctl
    exact hctl

/-! ## INIT -/

/-- What step 3 of INIT makes of a reference controller (R236). -/
def Ctl.initialised (k : Ctl) : Ctl :=
  { k with
    ddram := []
    ac := 0
    sel := .dd
    incr := true
    shift := false
    display := true
    cursor := true
    blink := true
    addrSet := false }

/-- Step 3 of INIT (R233): three commands behind the busy wait. -/
theorem initStep3_done {s : State} (h : s.responsive = true) :
    ∃ t e1 e2 e3, initStep3 s = .done () t ∧ SentEvents s.cfg.busMode false codeDisplayOn e1 ∧
      SentEvents s.cfg.busMode false codeClear e2 ∧ SentEvents s.cfg.busMode false codeEntryInc e3 ∧
      Completed s t s.cx s.cy (idlePins t.pins.dout) (e1 ++ e2 ++ e3) [] ∧ t.responsive = true ∧
      (s.refctl = true → t.refctl = true ∧ s.env.ctl.initialised.after t.env.ctl) := by
  obtain ⟨t, e1, hrun1, hev1, hdone1, hr1, href1⟩ := sendCommand_done codeDisplayOn s h rfl (by decide)
  obtain ⟨u, e2, hrun2, hev2, hdone2, hr2, href2⟩ := sendCommand_done codeClear t hr1 rfl (by decide)
  obtain ⟨w, e3, hrun3, hev3, hdone3, hr3, href3⟩ := sendCommand_done codeEntryInc u hr2 rfl (by decide)
  have hdone := (hdone1.trans hdone2).trans hdone3
  rw [hdone1.cfg] at hev2
  rw [hdone2.cfg, hdone1.cfg] at hev3
  refine ⟨w, e1, e2, e3, by simp [initStep3, hrun1, hrun2, hrun3, Ran.bind], hev1, hev2, hev3, ?_, hr3, fun hc => ?_⟩
  · rw [hdone2.cx, hdone2.cy, hdone1.cx, hdone1.cy] at hdone
    exact hdone.idle
  · obtain ⟨hc1, hctl1⟩ := href1 hc
    obtain ⟨hc2, hctl2⟩ := href2 hc1
    obtain ⟨hc3, hctl3⟩ := href3 hc2
    have hctl1 : t.env.ctl = { s.env.ctl.displayControl true true true with nib := t.env.ctl.nib, busy := false } := hctl1
    have hctl2 : u.env.ctl = { t.env.ctl.clearDisplay with nib := u.env.ctl.nib, busy := false } := hctl2
    have hctl3 : w.env.ctl = { u.env.ctl.entryMode true false with nib := w.env.ctl.nib, busy := false } := hctl3
    refine ⟨hc3, ?_⟩
    rw [Ctl.after]
    generalize w.env.ctl = k3 at hctl3 ⊢
    rw [hctl3, hctl2, hctl1]
    rfl

theorem bootEnv_peer (c : Cfg) (v : Env) : (bootEnv c v).peer = v.peer := by
  cases hp : v.peer with
  | unconstrained => rw [bootEnv_unconstrained c v hp, hp]
  | reference =>
    obtain ⟨⟨hpeer, -⟩, -⟩ := bootEnv_reference c v hp
    exact hpeer.trans hp

/-- INIT, which is accepted before INITED too. -/
theorem exec_init_done {s t : State} (hb : s.busyOp = false) (h : initSequence { s with busyOp := true } = .done () t) :
    exec .init s = .next { t with busyOp := false } := by
  show accept s true false (runOp s fun t => noResult (initSequence t)) = _
  rw [accept_ok hb rfl (.inl rfl), runOp_done (noResult_done h)]
  simp

/-- INIT from every state of the controller: the bootstrap, then step 3. -/
theorem initSequence_done {s : State} (hd : s.env.delays = .all) (hb : s.env.busyAfter = false) :
    ∃ (t : State) (evs : List Event), initSequence s = .done () { t with inited := true } ∧ InitEvents s.cfg evs ∧
      t = { s with pins := idlePins t.pins.dout, hist := s.hist ++ evs, env := t.env } ∧ EnvKept (booted s).env t.env ∧
      t.responsive = true ∧
      (s.env.peer = .reference → t.refctl = true ∧ (bootEnv s.cfg s.env).ctl.initialised.after t.env.ctl) := by
  obtain ⟨-, -, hafter, -⟩ := bootEnv_kept s.cfg s.env
  have hr : (booted s).responsive = true :=
    (responsive_parts _).2 ⟨⟨hafter.trans hb, booted_inStep s⟩, congrArg Delays.settle ((booted_delays s).trans hd)⟩
  obtain ⟨t, e1, e2, e3, hrun, hev1, hev2, hev3, ⟨ht, hkept⟩, hr, href⟩ := initStep3_done hr
  have ht : t = { s with
      pins := idlePins t.pins.dout
      hist := s.hist ++ (bootEvents s.cfg ++ (e1 ++ e2 ++ e3))
      env := t.env } := ht.trans (by simp [booted, markSettled, St])
  refine ⟨t, bootEvents s.cfg ++ (e1 ++ e2 ++ e3), by rw [initSequence_booted hd, hrun]; rfl, ⟨e1, e2, e3, hev1, hev2, hev3, by simp⟩,
    ht, hkept, hr, fun hp => ?_⟩
  have hpeer : (booted s).env.peer = .reference := (bootEnv_peer s.cfg s.env).trans hp
  exact href ((refctl_iff _).2 ⟨hpeer, rfl, booted_inStep s⟩)

/-- Settles O31: the bootstrap brings every controller into step, and step 3 sets what it leaves open. -/
theorem init : Obligations.Init := by
  intro s hb he hd
  simp only [State.delaysReturn, decide_eq_true_eq] at hd
  simp only [Env.eventuallyReady, Bool.not_eq_true'] at he
  obtain ⟨t, evs, hseq, hevs, ht, ⟨hpeer, hset, -, hdel, hkeep⟩, hr, href⟩ :=
    initSequence_done (s := { s with busyOp := true }) hd he
  have hdel := hdel.trans (booted_delays _)
  refine ⟨_, evs, exec_init_done hb hseq, hevs, ?_, hset, hpeer.trans (bootEnv_peer s.cfg s.env), hr, ?_, fun hp => ?_,
    fun hp => ?_⟩
  · rw [ht]
    simp [hb, idlePins]
  · simpa [State.delaysReturn] using hdel.trans hd
  · obtain ⟨-, -, -, -, hfree⟩ := bootEnv_kept s.cfg s.env
    have hctl : (bootEnv s.cfg s.env).ctl = s.env.ctl := congrArg Env.ctl (hfree hp)
    exact (hkeep ((bootEnv_peer s.cfg s.env).trans hp)).trans hctl
  · obtain ⟨⟨-, -, -, -, hcg⟩, -, htwo, hfont, hbright⟩ := bootEnv_reference s.cfg s.env hp
    obtain ⟨hrc, hctl⟩ := href hp
    obtain ⟨hp', -, hin⟩ := (refctl_iff t).1 hrc
    obtain ⟨h8, hph⟩ := Env.inStep_reference hp' hin
    have hcfg : t.cfg = s.cfg := by rw [ht]
    rw [hcfg] at h8
    have hctl : t.env.ctl = { (bootEnv s.cfg s.env).ctl.initialised with nib := t.env.ctl.nib, busy := false } := hctl
    refine ⟨hrc, h8, hph, ?_⟩
    show t.env.ctl.twoLine = _ ∧ t.env.ctl.font = _ ∧ (_ → t.env.ctl.bright = _) ∧
      t.env.ctl.display = _ ∧ t.env.ctl.cursor = _ ∧ t.env.ctl.blink = _ ∧ (∀ a, Mem.read t.env.ctl.ddram a = _) ∧
      t.env.ctl.ac = _ ∧ t.env.ctl.sel = _ ∧ t.env.ctl.incr = _ ∧ t.env.ctl.shift = _ ∧ t.env.ctl.busy = _ ∧ t.env.ctl.cgram = _
    rw [hctl]
    exact ⟨htwo, hfont, hbright, rfl, rfl, rfl, fun _ => rfl, rfl, rfl, rfl, rfl, rfl, hcg⟩

end Sys2Proof.Machine
end

section
/-!
Cells of the panel: the common panels, LOCATE, READCHAR and READRAM (43_address_translator.md, 45_terminal.md R185,
44_dispatcher.md R180, R181).
-/
namespace Sys2Proof.Machine

/-! ## The common panels -/

/-- The cells of a panel do not depend on what else is configured. -/
theorem resolve_panel (p : Config.Panel) (m : BusMode) (f : Features) (d : DisplayType) (nl : Bool) (bb : BitVec 2) (x y : Nat) :
    resolve (p.cfg m f d nl bb) x y = resolve (p.cfg .bus4 .full .lcd false 0) x y := rfl

theorem tableFits_panel (p : Config.Panel) (m : BusMode) (f : Features) (d : DisplayType) (nl : Bool) (bb : BitVec 2) :
    tableFits (p.cfg m f d nl bb) = tableFits (p.cfg .bus4 .full .lcd false 0) := rfl

/-- Settles O32, by looking every cell up. -/
theorem commonPanels : Obligations.CommonPanels := by
  intro m f d nl bb
  simp only [resolve_panel _ m f d nl bb, tableFits_panel _ m f d nl bb]
  refine ⟨?_, ?_, ?_, ?_, ?_, ?_⟩ <;> decide +kernel

/-! ## One cell -/

/-- Settles O35. -/
theorem locate : Obligations.Locate := by
  intro s x y hs hr hx hy
  obtain ⟨a, ha, -⟩ := resolve_some hx hy
  obtain ⟨u, evs, hrun, hevs, hdone, -, href⟩ := address_done a (({ s with busyOp := true } : State).setCursor x y) hr
  have hbody : noResult (atCell x.toNat y.toNat { s with busyOp := true } fun a =>
      sendCommand (setDdramByte a) (({ s with busyOp := true } : State).setCursor x y)) = .done none u := by
    rw [atCell, show resolve ({ s with busyOp := true } : State).cfg x.toNat y.toNat = some a from ha]
    exact noResult_done hrun
  obtain ⟨hexec, hfin⟩ := accept_done hs rfl
    (body := fun t => noResult (atCell x.toNat y.toNat t fun a => sendCommand (setDdramByte a) (t.setCursor x y))) hbody hdone
  exact ⟨_, evs, a, hexec, ha, hevs, hfin.idle, href⟩

theorem withResult_done {r : Ran Byte} {b : Byte} {t : State} (h : r = .done b t) : withResult r = .done (some b) t := by
  rw [h]
  rfl

/-- The controller after a read of DDRAM: the counter is one step past the address. -/
theorem dataTaken_setDdram (k : Ctl) (a : Addr7) : (k.setDdram a).dataTaken = { k with
    ac := ({ k with ac := a, sel := .dd } : Ctl).step
    sel := .dd
    busy := true
    addrSet := false } := by
  have hstep : (k.setDdram a).step = ({ k with ac := a, sel := .dd } : Ctl).step := step_congr rfl rfl rfl rfl
  rw [Ctl.dataTaken, hstep]
  rfl

/-- An operation that reads one DDRAM byte, at an address the state gives it. -/
theorem read_done {s : State} {present : Bool} {body : State → Ran Byte} {a : Addr7} (hs : s.ready = true)
    (hr : s.responsive = true) (hp : present = true)
    (hbody : body { s with busyOp := true } = readDataRam a { s with busyOp := true }) :
    ∃ t evs b, accept s present true (runOp s fun t => withResult (body t)) = .next t ∧ LoadEvents s.cfg.busMode a b evs ∧
      Completed s t s.cx s.cy (readPins t.pins.dout) evs [b] ∧
      (s.refctl = true → t.refctl = true ∧
        (s.env.ctl.implemented a = true → b = Mem.read s.env.ctl.ddram a.toNat) ∧
        t.env.ctl = { s.env.ctl with
          ac := ({ s.env.ctl with ac := a, sel := .dd } : Ctl).step
          sel := .dd
          busy := true
          addrSet := false
          nib := t.env.ctl.nib }) := by
  obtain ⟨b, u, evs, hrun, hevs, hdone, -, href⟩ := readDataRam_done a { s with busyOp := true } hr
  obtain ⟨hexec, hfin⟩ := accept_done hs hp (body := fun t => withResult (body t)) (withResult_done (hbody.trans hrun)) hdone
  refine ⟨_, evs, b, hexec, hevs, hfin.data, fun hc => ?_⟩
  obtain ⟨hrc, hctl, hbyte⟩ := href hc
  rw [dataTaken_setDdram] at hctl
  exact ⟨hrc, hbyte, hctl⟩

/-- Settles O36. -/
theorem readram : Obligations.Readram := by
  intro s addr hs
  obtain ⟨hb, -⟩ := (ready_iff s).1 hs
  refine ⟨fun hf => exec_absent rfl hb (by simp [presentIn, Cfg.hasRawRead, hf]), fun hf hr => ?_⟩
  exact read_done (present := s.cfg.hasRawRead) (body := readDataRam addr) hs hr (by simp [Cfg.hasRawRead, hf]) rfl

/-- Settles O37. -/
theorem readchar : Obligations.Readchar := by
  intro s x y hs hr hf hx hy
  obtain ⟨a, ha, -⟩ := resolve_some hx hy
  have hcell : atCell x.toNat y.toNat { s with busyOp := true } (fun a => readDataRam a { s with busyOp := true }) =
      readDataRam a { s with busyOp := true } := by
    rw [atCell, show resolve ({ s with busyOp := true } : State).cfg x.toNat y.toNat = some a from ha]
  obtain ⟨t, evs, b, hexec, hevs, hdone, href⟩ := read_done (present := s.cfg.hasReadChar)
    (body := fun t => atCell x.toNat y.toNat t fun a => readDataRam a t) hs hr (by simp [Cfg.hasReadChar, hf]) hcell
  exact ⟨t, evs, a, b, hexec, ha, hevs, hdone, href⟩

end Sys2Proof.Machine
end

section
/-!
PUTC and PUTS (45_terminal.md R187 to R198), from what Putchar does arm by arm.
-/
namespace Sys2Proof.Machine

/-! ## How an operation ends -/

theorem runOp_hung {s t : State} {body : State → Ran (Option Byte)} (h : body { s with busyOp := true } = .hung t) :
    runOp s body = .next t := by
  rw [runOp, h]

theorem runOp_stop {s : State} {q : Refusal} {body : State → Ran (Option Byte)}
    (h : body { s with busyOp := true } = .stop q) : runOp s body = .refused q := by
  rw [runOp, h]

theorem runOp_congr {s s' : State} {f g : State → Ran (Option Byte)}
    (h : f { s with busyOp := true } = g { s' with busyOp := true }) : runOp s f = runOp s' g := by
  simp only [runOp, h]

/-- A PUTC whose Putchar completes. -/
theorem putc_done {s u : State} {ch : Byte} {x y : Byte} {p : Pins} {evs : List Event} (hs : s.ready = true)
    (hbody : putchar ch { s with busyOp := true } = .done ch u) (hu : Completed { s with busyOp := true } u x y p evs []) :
    exec (.putc ch) s = .next { u with busyOp := false, rsp := u.rsp ++ [ch] } ∧
      Completed s { u with busyOp := false, rsp := u.rsp ++ [ch] } x y p evs [ch] :=
  accept_done hs rfl (body := fun t => withResult (putchar ch t)) (withResult_done hbody) hu

/-- What was written to the cursor before is written over. -/
theorem Completed.of_setCursor {s t : State} {x y x' y' : Byte} {p : Pins} {e : List Event} {r : List Byte}
    (h : Completed (s.setCursor x' y') t x y p e r) : Completed s t x y p e r := h

/-! ## The two control characters -/

/-- A control character that moves the cursor to a cell of the panel and addresses it, and does no more. -/
theorem putchar_moves {s : State} {ch x y : Byte} (hr : s.responsive = true) (hcx : s.cx.toNat ≤ s.cfg.xmax)
    (hcy : s.cy.toNat ≤ s.cfg.ymax) (hx : x.toNat ≤ s.cfg.xmax) (hy : y.toNat ≤ s.cfg.ymax)
    (harm : ∀ a, putByte a ch s = addressCursor (s.setCursor x y)) :
    ∃ t evs a, putchar ch s = .done ch t ∧ resolve s.cfg x.toNat y.toNat = some a ∧
      SentEvents s.cfg.busMode false (setDdramByte a) evs ∧ Completed s t x y (idlePins t.pins.dout) evs [] ∧
      (s.refctl = true → t.refctl = true ∧ (s.env.ctl.setDdram a).after t.env.ctl) := by
  obtain ⟨a0, ha0, -⟩ := resolve_some hcx hcy
  obtain ⟨t, evs, a, hrun, ha, hevs, hdone, -, href⟩ := addressCursor_done (s.setCursor x y) hr hx hy
  have hwrap : wrap a0 t = .done () t := wrap_none a0 (by rw [hdone.cx, hdone.cfg]; exact hx)
  refine ⟨t, evs, a, ?_, ha, hevs, hdone.of_setCursor, href⟩
  rw [putchar_onPanel ch hcy ha0, harm, hrun, Ran.bind, hwrap]
  rfl

theorem putc_moves {s : State} {ch x y : Byte} (hs : s.ready = true) (hr : s.responsive = true)
    (hcx : s.cx.toNat ≤ s.cfg.xmax) (hcy : s.cy.toNat ≤ s.cfg.ymax) (hx : x.toNat ≤ s.cfg.xmax) (hy : y.toNat ≤ s.cfg.ymax)
    (harm : ∀ a, putByte a ch { s with busyOp := true } = addressCursor (({ s with busyOp := true } : State).setCursor x y)) :
    ∃ t evs a, exec (.putc ch) s = .next t ∧ resolve s.cfg x.toNat y.toNat = some a ∧
      SentEvents s.cfg.busMode false (setDdramByte a) evs ∧ Completed s t x y (idlePins t.pins.dout) evs [ch] ∧
      (s.refctl = true → t.refctl = true ∧ Ctl.after { s.env.ctl with ac := a, sel := .dd, addrSet := true } t.env.ctl) := by
  obtain ⟨u, evs, a, hrun, ha, hevs, hdone, href⟩ := putchar_moves (s := { s with busyOp := true }) hr hcx hcy hx hy harm
  obtain ⟨hexec, hfin⟩ := putc_done hs hrun hdone
  exact ⟨_, evs, a, hexec, ha, hevs, hfin.idle, href⟩

/-- Settles O39: from a row above the last the row overflow has nothing to do. -/
theorem putcLineFeed : Obligations.PutcLineFeed := by
  intro s hs hr hx hy
  have hcy : (s.cy + 1).toNat = s.cy.toNat + 1 := toNat_add_one (by have := (geometry_bounds s.cfg).2; omega)
  have hcx : (if s.cfg.nlImpliesCr then (0 : Byte) else s.cx).toNat = if s.cfg.nlImpliesCr then 0 else s.cx.toNat := by
    split <;> rfl
  have hle : (if s.cfg.nlImpliesCr then (0 : Byte) else s.cx).toNat ≤ s.cfg.xmax := by
    split
    · exact Nat.zero_le _
    · exact hx
  have harm : ∀ a, putByte a 0x0A { s with busyOp := true } = addressCursor
      (({ s with busyOp := true } : State).setCursor (if s.cfg.nlImpliesCr then 0 else s.cx) (s.cy + 1)) := by
    intro a
    rw [putByte_lf, lineFeed, foldRow_none (by show (s.cy + 1).toNat ≤ s.cfg.ymax; omega)]
    rfl
  obtain ⟨t, evs, a, hexec, ha, hrest⟩ := putc_moves hs hr hx (by omega) hle (by omega) harm
  rw [hcx, hcy] at ha
  exact ⟨t, evs, a, hexec, ha, hrest⟩

/-- Settles O41. -/
theorem putcCarriageReturn : Obligations.PutcCarriageReturn := by
  intro s hs hr hx hy
  exact putc_moves hs hr hx hy (Nat.zero_le _) hy fun a => putByte_cr a _

/-! ## An ordinary byte -/

/-- What is read of DDRAM after a store. -/
theorem read_stored {k k' : Ctl} {a : Addr7} {b : Byte} (hm : k.memOk = true) (h : k'.ddram = Mem.write k.ddram a.toNat b) :
    Mem.read k'.ddram a.toNat = b ∧ ∀ n, n ≠ a.toNat → Mem.read k'.ddram n = Mem.read k.ddram n := by
  simp only [Ctl.memOk, Bool.and_eq_true] at hm
  obtain ⟨⟨⟨hwf, -⟩, -⟩, -⟩ := hm
  rw [h]
  exact ⟨Mem.write_read_same _ _ b hwf, fun n hn => Mem.write_read_other _ _ n b hwf hn⟩

/-- Putchar of an ordinary byte before the last column: a store, and the cursor one column on. -/
theorem putchar_stores {s : State} {ch : Byte} {a : Addr7} (hr : s.responsive = true) (hlf : ch ≠ 0x0A) (hcr : ch ≠ 0x0D)
    (ha : resolve s.cfg s.cx.toNat s.cy.toNat = some a) (hx : s.cx.toNat < s.cfg.xmax) (hy : s.cy.toNat ≤ s.cfg.ymax) :
    ∃ t stored, putchar ch s = .done ch t ∧ StoreEvents s.cfg.busMode a ch stored ∧
      Completed s t (s.cx + 1) s.cy (idlePins t.pins.dout) stored [] ∧
      (s.refctl = true → t.refctl = true ∧ ((s.env.ctl.setDdram a).dataWrite ch).after t.env.ctl) := by
  have hcx : (s.cx + 1).toNat = s.cx.toNat + 1 := toNat_add_one (by have := (geometry_bounds s.cfg).1; omega)
  obtain ⟨u, stored, hrun, hevs, hdone, -, href⟩ := storeAt_done a ch s hr
  have hwrap : wrap a (u.setCursor (s.cx + 1) s.cy) = .done () (u.setCursor (s.cx + 1) s.cy) :=
    wrap_none a (by rw [setCursor_cx, setCursor_cfg, hdone.cfg]; omega)
  refine ⟨u.setCursor (s.cx + 1) s.cy, stored, ?_, hevs, ?_, href⟩
  · rw [putchar_onPanel ch hy ha, putByte_ordinary a _ hlf hcr, ordinary, hrun]
    show (wrap a (u.setCursor (u.cx + 1) u.cy)).bind _ = _
    rw [hdone.cx, hdone.cy, hwrap]
    rfl
  · obtain ⟨hu, hkept⟩ := hdone.idle
    exact ⟨by rw [hu]; rfl, hkept⟩

/-- At the last column: the store, then the wrap, which sends the address of the cell again. -/
theorem putchar_wraps {s : State} {ch : Byte} {a : Addr7} (hr : s.responsive = true) (hlf : ch ≠ 0x0A) (hcr : ch ≠ 0x0D)
    (ha : resolve s.cfg s.cx.toNat s.cy.toNat = some a) (hx : s.cx.toNat = s.cfg.xmax) (hy : s.cy.toNat ≤ s.cfg.ymax) :
    ∃ t stored again, putchar ch s = .done ch t ∧ StoreEvents s.cfg.busMode a ch stored ∧
      SentEvents s.cfg.busMode false (setDdramByte a) again ∧
      Completed s t 0 (s.cy + 1) (idlePins t.pins.dout) (stored ++ again) [] ∧
      (s.refctl = true → t.refctl = true ∧
        ∃ k, ((s.env.ctl.setDdram a).dataWrite ch).after k ∧ (k.setDdram a).after t.env.ctl) := by
  have hcx : (s.cx + 1).toNat = s.cx.toNat + 1 := toNat_add_one (by have := (geometry_bounds s.cfg).1; omega)
  obtain ⟨u, stored, hrun, hevs, hdone, hur, href⟩ := storeAt_done a ch s hr
  obtain ⟨t, again, hrun2, hevs2, hdone2, -, href2⟩ := address_done a (u.setCursor 0 (s.cy + 1)) hur
  have hwrap : wrap a (u.setCursor (s.cx + 1) s.cy) = .done () t := by
    rw [wrap, if_pos]
    · exact hrun2
    · rw [pastColumn, setCursor_cx, setCursor_cfg, hdone.cfg, decide_eq_true_eq]
      omega
  rw [setCursor_cfg, hdone.cfg] at hevs2
  refine ⟨t, stored, again, ?_, hevs, hevs2, (hdone.trans hdone2.of_setCursor).idle, fun hc => ?_⟩
  · rw [putchar_onPanel ch hy ha, putByte_ordinary a _ hlf hcr, ordinary, hrun]
    show (wrap a (u.setCursor (u.cx + 1) u.cy)).bind _ = _
    rw [hdone.cx, hdone.cy, hwrap]
    rfl
  · obtain ⟨hc1, hctl1⟩ := href hc
    obtain ⟨hc2, hctl2⟩ := href2 hc1
    exact ⟨hc2, u.env.ctl, hctl1, hctl2⟩

/-- Settles O38: a store, and at the last column the wrap. -/
theorem putcOrdinary : Obligations.PutcOrdinary := by
  intro s ch hs hr hlf hcr hx hy
  obtain ⟨a, ha, -⟩ := resolve_some hx hy
  by_cases hlast : s.cx.toNat < s.cfg.xmax
  · obtain ⟨u, stored, hrun, hevs, hdone, href⟩ := putchar_stores (s := { s with busyOp := true }) hr hlf hcr ha hlast hy
    obtain ⟨hexec, hfin⟩ := putc_done hs hrun hdone
    refine ⟨_, a, stored, hexec, ha, hevs, fun _ => hfin.idle, fun h => absurd h (by omega), fun hc hm himp => ?_⟩
    obtain ⟨hrc, hctl⟩ := href hc
    have hst := stored_ctl himp hctl
    obtain ⟨hsame, hother⟩ := read_stored (k' := u.env.ctl) (b := ch) hm (by rw [hst])
    exact ⟨hrc, hsame, hother, fun _ => by rw [hst], fun h => absurd h (by omega), by rw [hst]⟩
  · have hlast : s.cx.toNat = s.cfg.xmax := by omega
    obtain ⟨u, stored, again, hrun, hevs, hevs2, hdone, href⟩ :=
      putchar_wraps (s := { s with busyOp := true }) hr hlf hcr ha hlast hy
    obtain ⟨hexec, hfin⟩ := putc_done hs hrun hdone
    refine ⟨_, a, stored, hexec, ha, hevs, fun h => absurd h (by omega), fun _ => ⟨again, hevs2, hfin.idle⟩, fun hc hm himp => ?_⟩
    obtain ⟨hrc, k, hctl, hctl2⟩ := href hc
    have hst := stored_ctl himp hctl
    rw [Ctl.after, hst] at hctl2
    obtain ⟨hsame, hother⟩ := read_stored (k' := u.env.ctl) (b := ch) hm (by rw [hctl2]; rfl)
    exact ⟨hrc, hsame, hother, fun h => absurd h (by omega), fun _ => by rw [hctl2]; rfl, by rw [hctl2]; rfl⟩

/-! ## A line feed on the last row -/

/-- A LOCATE that completes is the address command of its cell, with the cursor there. -/
theorem exec_locate_completed {s t : State} {x y : Byte} (h : exec (.locate x y) s = .next t) (ht : t.busyOp = false) :
    ∃ w, addressCursor (({ s with busyOp := true } : State).setCursor x y) = .done () w ∧ w.cx = x ∧ w.cfg = s.cfg ∧
      t = { w with busyOp := false } := by
  obtain ⟨-, -, -, hrun⟩ := accept_next h
  generalize hs0 : (({ s with busyOp := true } : State).setCursor x y) = s0
  have hends : (addressCursor s0).Ends True True (Worked s0) := by
    unfold addressCursor addressCell atCell
    split
    · exact ((worked_closed s0).sendCommand _ s0 (.refl _)).weaken
    · trivial
  have hbusy : s0.busyOp = true := by subst hs0; rfl
  have hbody : ∀ t : State, noResult (atCell x.toNat y.toNat t fun a => sendCommand (setDdramByte a) (t.setCursor x y)) =
      noResult (addressCursor (t.setCursor x y)) := fun _ => rfl
  have hrun : runOp s (fun t => noResult (addressCursor (t.setCursor x y))) = .next t := hrun
  obtain ⟨w, r, hw, -, -, rfl⟩ := runOp_idle (q := True)
    (noResult_ends (by rw [hs0]; exact hends.mono fun u hu => hu.busyOp_eq.trans hbusy)) hrun ht
  rw [hs0] at hw
  obtain ⟨hdone, rfl⟩ := noResult_eq_done hw
  rw [hdone] at hends
  obtain ⟨hworked, -⟩ := hends
  obtain ⟨hcfg, hcx, -⟩ := hworked.fields
  subst hs0
  exact ⟨w, hdone, hcx, hcfg, by simp⟩

/-- A line feed on the last row, from where its row overflow ends. -/
theorem exec_lineFeed_completed {s v w : State} (hs : s.ready = true) (hx : s.cx.toNat ≤ s.cfg.xmax)
    (hy : s.cy.toNat ≤ s.cfg.ymax)
    (hfold : foldRow (({ s with busyOp := true } : State).setCursor (if s.cfg.nlImpliesCr then 0 else s.cx) (s.cy + 1)) = .done () v)
    (haddr : addressCursor v = .done () w) (hw : w.cx.toNat ≤ w.cfg.xmax) :
    exec (.putc 0x0A) s = .next { w with busyOp := false, rsp := w.rsp ++ [0x0A] } := by
  obtain ⟨a, ha, -⟩ := resolve_some hx hy
  have hrun : putchar 0x0A { s with busyOp := true } = .done 0x0A w := by
    refine (putchar_onPanel (s := { s with busyOp := true }) (a := a) 0x0A hy ha).trans ?_
    have harm : putByte a 0x0A { s with busyOp := true } = .done () w := by
      rw [putByte_lf, lineFeed, show foldRow _ = _ from hfold]
      exact haddr
    rw [harm, Ran.bind, wrap_none a hw]
    rfl
  rw [exec_putc_of_ready _ hs]
  exact runOp_done (body := fun t => withResult (putchar 0x0A t)) (withResult_done hrun)

/-- Settles O40: the row overflow is ScrollUp and the pin, or the wrap; the address command that follows is LOCATE's. -/
theorem putcLineFeedLastRow : Obligations.PutcLineFeedLastRow := by
  intro s hs hx hy
  have hcy : (s.cy + 1).toNat = s.cy.toNat + 1 := toNat_add_one (by have := (geometry_bounds s.cfg).2; omega)
  have hpast : s.cfg.ymax < (s.cy + 1).toNat := by omega
  have hle : (if s.cfg.nlImpliesCr then (0 : Byte) else s.cx).toNat ≤ s.cfg.xmax := by
    split
    · exact Nat.zero_le _
    · exact hx
  have hpin : BitVec.ofNat 8 s.cfg.ymax = s.cy := by
    rw [← hy]
    exact BitVec.eq_of_toNat_eq (by simp)
  constructor
  · intro hf u t hscroll hu hloc ht
    have hfeat : s.cfg.hasScroll = true := by simp [Cfg.hasScroll, hf]
    obtain ⟨t1, hup, hworked, rfl⟩ := exec_scroll_completed hscroll hu
    obtain ⟨hcfg, hcx, hcy', hbusy, -⟩ := hworked.fields
    obtain ⟨w, haddr, hwx, hwc, rfl⟩ := exec_locate_completed hloc ht
    have hback : ({ t1 with busyOp := true } : State) = t1 := by
      have : true = t1.busyOp := hbusy.symm
      rw [this]
    have hup' := scrollUp_cursor { s with busyOp := true } (if s.cfg.nlImpliesCr then 0 else s.cx) (s.cy + 1)
    rw [hup] at hup'
    have hfold := foldRow_scroll (s := ({ s with busyOp := true } : State).setCursor _ (s.cy + 1)) hpast hfeat hup'
    refine exec_lineFeed_completed (w := w) hs hx (by omega) hfold ?_ (by rw [hwx, hwc]; exact hcfg ▸ hle)
    rw [show BitVec.ofNat 8 (t1.setCursor _ (s.cy + 1)).cfg.ymax = s.cy from (congrArg (BitVec.ofNat 8 ·.ymax) hcfg).trans hpin]
    rw [show ({ ({ t1 with busyOp := false } : State) with busyOp := true } : State) = t1 from hback] at haddr
    exact haddr
  · intro hf t hloc ht
    have hfeat : s.cfg.hasScroll = false := by simp [Cfg.hasScroll, hf]
    obtain ⟨w, haddr, hwx, hwc, rfl⟩ := exec_locate_completed hloc ht
    exact exec_lineFeed_completed (w := w) hs hx (by omega)
      (foldRow_wrap (s := ({ s with busyOp := true } : State).setCursor _ (s.cy + 1)) hpast hfeat) haddr (by rw [hwx, hwc]; exact hle)

/-! ## Every byte -/

/-- Settles O43. -/
theorem putcCompletes : Obligations.PutcCompletes := by
  intro s ch hs hr hc
  obtain ⟨-, hcx, hcy⟩ := (cursorOk_iff_rest s).1 hc
  obtain ⟨u, hrun, ⟨⟨evs, hdone⟩, hur, href⟩, hpins, hux, huy⟩ := putchar_done (s := { s with busyOp := true }) ch hr hcx hcy
  obtain ⟨hexec, hfin⟩ := putc_done hs hrun hdone
  refine ⟨_, evs, hexec, ?_, cursorOk_of_rest ⟨hfin.cfg, hux, huy⟩, hur, href⟩
  rw [← hpins]
  exact hfin

/-! ## PUTS -/

/-- One byte of a text: Putchar, its value dropped (R198). -/
def putsByte (ch : Byte) (s : State) : Ran Unit := (putchar ch s).bind fun _ t => .done () t

/-- PUTS in a ready engine. -/
theorem exec_puts_of_ready {text : List Byte} {s : State} (hs : s.ready = true) (ht : textOk text = true) :
    exec (.puts text) s = runOp s fun t => noResult (forEach text putsByte t) := by
  obtain ⟨hb, hi⟩ := (ready_iff s).1 hs
  show accept s true true (if textOk text then _ else _) = _
  rw [accept_ok hb rfl (.inr hi), if_pos ht]
  rfl

/-- A text put from a resting cursor: every byte completes, and leaves the cursor at rest for the next. -/
theorem forEach_putsByte_done (text : List Byte) {s : State} (hr : s.responsive = true) (hx : s.cx.toNat ≤ s.cfg.xmax)
    (hy : s.cy.toNat ≤ s.cfg.ymax + 1) :
    ∃ t, forEach text putsByte s = .done () t ∧ Did s t ∧ t.cx.toNat ≤ s.cfg.xmax ∧ t.cy.toNat ≤ s.cfg.ymax + 1 := by
  induction text generalizing s with
  | nil => exact ⟨s, rfl, .refl hr, hx, hy⟩
  | cons ch rest ih =>
    obtain ⟨t, hrun, hdid, -, htx, hty⟩ := putchar_done ch hr hx hy
    obtain ⟨u, hrest, hdid2, hux, huy⟩ := ih hdid.ready (by rw [hdid.cfg]; exact htx) (by rw [hdid.cfg]; exact hty)
    rw [hdid.cfg] at hux huy
    exact ⟨u, by rw [forEach, putsByte, hrun]; exact hrest, hdid.trans hdid2, hux, huy⟩

/-- Settles O45, by induction on the text. -/
theorem putsCompletes : Obligations.PutsCompletes := by
  intro s text hs hr hc ht
  obtain ⟨-, hcx, hcy⟩ := (cursorOk_iff_rest s).1 hc
  obtain ⟨u, hrun, ⟨⟨evs, hdone⟩, hur, href⟩, hux, huy⟩ :=
    forEach_putsByte_done text (s := { s with busyOp := true }) hr hcx hcy
  obtain ⟨hb, -⟩ := (ready_iff s).1 hs
  have hexec := runOp_done (s := s) (body := fun t => noResult (forEach text putsByte t)) (noResult_done hrun)
  rw [← exec_puts_of_ready hs ht] at hexec
  have hfin := completed_finish none hb hdone
  exact ⟨_, evs, hexec, hfin, cursorOk_of_rest ⟨hfin.cfg, hux, huy⟩, hur, href⟩

/-- Settles O44: what Putchar leaves of a completed byte is what PUTS of the rest begins with. -/
theorem putsIsPutcs : Obligations.PutsIsPutcs := by
  refine ⟨fun s hs => ?_, fun s t ch rest hs ht hput => ?_⟩
  · obtain ⟨hb, -⟩ := (ready_iff s).1 hs
    rw [exec_puts_of_ready hs rfl]
    simp [runOp, noResult, forEach, Ran.bind, ← hb]
  · obtain ⟨hb, hi⟩ := (ready_iff s).1 hs
    have hrest : textOk rest = true := by
      simp only [textOk, List.all_cons, Bool.and_eq_true] at ht ⊢
      exact ht.2
    have htyped := putchar_typed ch { s with busyOp := true }
    have hputs : exec (.puts (ch :: rest)) s = runOp s fun t => noResult ((putsByte ch t).bind fun _ u => forEach rest putsByte u) :=
      exec_puts_of_ready hs ht
    rw [exec_putc_of_ready ch hs] at hput
    cases hrun : putchar ch { s with busyOp := true } with
    | done b u =>
      rw [hrun] at htyped
      obtain ⟨hu, -⟩ := htyped
      rw [runOp_done (body := fun t => withResult (putchar ch t)) (withResult_done hrun)] at hput
      cases hput
      refine ⟨fun _ => ?_, nofun⟩
      have hready : ({ u with busyOp := false, rsp := s.rsp } : State).ready = true :=
        (ready_iff _).2 ⟨rfl, by rw [hu]; exact hi⟩
      have hback : ({ u with busyOp := true, rsp := s.rsp } : State) = u := by rw [hu]
      rw [hputs, exec_puts_of_ready hready hrest]
      refine runOp_congr ?_
      rw [putsByte, hrun]
      show noResult (forEach rest putsByte u) = noResult (forEach rest putsByte { u with busyOp := true, rsp := s.rsp })
      rw [hback]
    | hung u =>
      rw [hrun] at htyped
      obtain ⟨w, k, hw, -, rfl⟩ := htyped
      rw [runOp_hung (body := fun t => withResult (putchar ch t)) (by rw [hrun]; rfl)] at hput
      cases hput
      have hbusy : w.busyOp = true := by rw [hw]
      refine ⟨fun h => absurd (hbusy.symm.trans h) (by simp), fun _ => ?_⟩
      rw [hputs]
      exact runOp_hung (by rw [putsByte, hrun]; rfl)
    | stop q =>
      rw [runOp_stop (body := fun t => withResult (putchar ch t)) (by rw [hrun]; rfl)] at hput
      cases hput

end Sys2Proof.Machine
end

section
/-!
The bodies of the host operations: what one that has completed did, said once, for what holds of every completed operation.
-/
namespace Sys2Proof.Machine

/-- What a host operation runs once it is accepted; of another instruction nothing. -/
def opBody : Instr → State → Ran (Option Byte)
  | .init, s => noResult (initSequence s)
  | .clear, s => noResult (sendCommand codeClear s)
  | .locate x y, s => noResult (atCell x.toNat y.toNat s fun a => sendCommand (setDdramByte a) (s.setCursor x y))
  | .cursor c b, s => noResult (sendCommand (displayByte c b) s)
  | .putc ch, s => withResult (putchar ch s)
  | .puts text, s => noResult (forEach text putsByte s)
  | .defglyph code b0 b1 b2 b3 b4 b5 b6 b7, s => noResult (defineGlyph code [b0, b1, b2, b3, b4, b5, b6, b7] s)
  | .readchar x y, s => withResult (atCell x.toNat y.toNat s fun a => readDataRam a s)
  | .readram a, s => withResult (readDataRam a s)
  | .scroll, s => noResult (scrollUp s)
  | .intensity l, s => noResult (sendCommand (functionSetByte s.cfg l) s)
  | .cmdClear, s | .cmdEntryInc, s | .cmdDisplay _ _, s | .cmdFs8, s | .fsReal _ _ _, s | .cmdSetCgram _, s
  | .cmdSetDdram _, s | .commandWrite _, s | .dataWrite _, s | .statusRead, s | .dataRead, s => .done none s

/-- A host operation that gives a next state ran its body. -/
theorem exec_opBody {i : Instr} {s t : State} (hi : i.space = .hostPacket) (h : exec i s = .next t) :
    s.busyOp = false ∧ presentIn s.cfg i = true ∧ runOp s (opBody i) = .next t := by
  cases i with
  | init | clear | locate | cursor | putc | defglyph | readchar | readram | scroll | intensity =>
    obtain ⟨hb, hp, -, hrun⟩ := accept_next h
    exact ⟨hb, hp, hrun⟩
  | puts text =>
    have h : accept s true true (if textOk text then runOp s (opBody (.puts text)) else .refused .illFormed) = .next t := h
    obtain ⟨hb, -, -, hrun⟩ := accept_next h
    split at hrun
    · exact ⟨hb, rfl, hrun⟩
    · cases hrun
  | cmdClear | cmdEntryInc | cmdDisplay | cmdFs8 | fsReal | cmdSetCgram | cmdSetDdram | commandWrite | dataWrite
  | statusRead | dataRead => cases hi

/-- A body keeps what its micro-operations keep. -/
theorem opBody_ends {q : Prop} {i : Instr} {P : State → Prop} (hP : Kept i P) {c : Cfg} (hc : ∀ s, P s → s.cfg = c)
    (hi : i.space = .hostPacket) {s : State} (h : P s) (hs : q → s.stuck = false) : (opBody i s).Ends q True P := by
  have cl := hP.closed
  cases i with
  | init =>
    obtain ⟨⟨Q, hQ⟩, hset⟩ := hP.init rfl
    exact noResult_ends (initSequence_ends hQ hset s h).weaken
  | clear => exact noResult_ends (cl.sendCommand _ s h).weaken
  | locate x y =>
    exact noResult_ends (atCell_ends (.inl trivial) fun a _ => (cl.sendCommand _ _ (hP.cursor rfl s x y h)).weaken)
  | cursor => exact noResult_ends (cl.sendCommand _ s h).weaken
  | putc ch => exact withResult_ends (putchar_closed cl (hP.cursor rfl) hc ch s h hs)
  | puts text =>
    refine noResult_ends (forEach_ends (fun ch _ u hu hus => ?_) _ h hs)
    exact (putchar_closed cl (hP.cursor rfl) hc ch u hu hus).andThen fun _ w hw hws => ⟨hw, hws⟩
  | defglyph => exact noResult_ends (cl.defineGlyph _ _ s h).weaken
  | readchar x y => exact withResult_ends (atCell_ends (.inl trivial) fun a _ => (cl.readDataRam a s h).weaken)
  | readram a => exact withResult_ends (cl.readDataRam a s h).weaken
  | scroll => exact noResult_ends (scrollUp_ends cl hc s h hs).weaken
  | intensity => exact noResult_ends (cl.sendCommand _ s h).weaken
  | cmdClear | cmdEntryInc | cmdDisplay | cmdFs8 | fsReal | cmdSetCgram | cmdSetDdram | commandWrite | dataWrite
  | statusRead | dataRead => cases hi

/-- No micro-operation writes BUSY_OP (R30). -/
theorem busy_kept (i : Instr) (c : Cfg) : Kept i fun s => s.cfg = c ∧ s.busyOp = true where
  closed := (lineClosed_of_apart fun _ _ _ _ h => h).closed
  cursor _ _ _ _ h := h
  init _ := ⟨⟨_, boot_of_apart (fun _ _ _ _ h => h) fun _ h => h⟩,
    (lineClosed_of_apart fun _ _ _ _ h => h).closed.and settled_closed.closed⟩

/-- A host operation that is idle again has run its body to the end; no settle delay is stuck then. -/
theorem exec_completed {i : Instr} {s t : State} (hi : i.space = .hostPacket) (h : exec i s = .next t)
    (ht : t.busyOp = false) :
    presentIn s.cfg i = true ∧ ∃ r u, opBody i { s with busyOp := true } = .done r u ∧ (s.stuck = false → u.stuck = false) ∧
      t = { u with busyOp := false, rsp := u.rsp ++ r.toList } := by
  obtain ⟨-, hp, hrun⟩ := exec_opBody hi h
  have hends := opBody_ends (q := s.stuck = false) (busy_kept i s.cfg) (fun _ h => h.1) hi (s := { s with busyOp := true })
    ⟨rfl, rfl⟩ id
  obtain ⟨u, r, hbody, -, hstuck, rfl⟩ := runOp_idle (hends.mono fun _ hu => hu.2) hrun ht
  exact ⟨hp, r, u, hbody, hstuck, rfl⟩

/-! ## From a state that is stuck in a settle delay -/

/-- Does not complete. -/
def Ran.Never {α : Type} (r : Ran α) : Prop := r.Leaves fun _ => False

theorem Ran.Never.bind {α β : Type} {r : Ran α} (h : r.Never) (f : α → State → Ran β) : (r.bind f).Never :=
  Ran.Leaves.bind h fun _ _ ht => ht.elim

theorem never_hung {α : Type} (s : State) : (Ran.hung s : Ran α).Never := by
  intro _ _ h
  cases h

theorem atCell_never {α : Type} {x y : Nat} {s : State} {go : Addr7 → Ran α} (h : ∀ a, (go a).Never) : (atCell x y s go).Never :=
  atCell_leaves h

theorem send_never {s : State} (rs : Level) (b : Byte) (h : s.stuck = true) :
    (waitUntilReady (statusRead (busWrite rs b s)).2).Never := by
  rw [send_stuck (stuck_closed.busWrite rs b s h)]
  exact never_hung _

theorem sendCommand_never {s : State} (b : Byte) (h : s.stuck = true) : (sendCommand b s).Never := send_never false b h

theorem readDataRam_never {s : State} (a : Addr7) (h : s.stuck = true) : (readDataRam a s).Never :=
  (sendCommand_never _ h).bind _

theorem defineGlyph_never {s : State} (code : BitVec 3) (rows : List Byte) (h : s.stuck = true) : (defineGlyph code rows s).Never := by
  refine Ran.Never.bind ?_ _
  rw [show (readAddressCounter s).2 = s from (still_closed h).busRead false s rfl, waitUntilReady_stuck h]
  exact never_hung _

theorem initSequence_never {s : State} (h : s.stuck = true) : (initSequence s).Never := by
  have hfirst : (rawWrite codeFs8 (forceWriteMode s)).stuck = true :=
    stuck_closed.rawWrite _ _ (stuck_closed.line _ _ _ (stuck_closed.dir _ _ (stuck_closed.line _ _ _
      (stuck_closed.line _ _ _ (stuck_closed.dir _ _ h)))))
  unfold initSequence initStep1 thenDelay
  rw [delayMs_stuck 15 hfirst]
  exact never_hung _

theorem scrollUp_never {s : State} (h : s.stuck = true) (hrows : oneRow s.cfg = false) : (scrollUp s).Never := by
  have hy : 0 < s.cfg.ymax := by
    simp only [oneRow, decide_eq_false_iff_not] at hrows
    omega
  obtain ⟨rest, hrest⟩ := scrolledCells_eq_cons hy
  unfold scrollUp
  rw [hrows, if_neg (by simp), hrest]
  have hfirst : (copyUp (0, 1) s).Never := atCell_never fun a => (readDataRam_never a h).bind _
  exact (hfirst.bind _).bind _

theorem foldRow_stuck {s : State} (h : s.stuck = true) : (foldRow s).Leaves fun t => t.stuck = true := by
  intro a t ht
  have hends := foldRow_closed (q := False) (stuck_closed.closed.and (cfg_closed s).closed) (fun _ _ _ hu => hu)
    (fun _ hu => hu.2) s ⟨h, rfl⟩ nofun
  rw [ht] at hends
  obtain ⟨⟨hstuck, -⟩, -⟩ := hends
  exact hstuck

theorem putchar_never {s : State} (ch : Byte) (h : s.stuck = true) : (putchar ch s).Never := by
  have addr : ∀ u : State, u.stuck = true → (addressCursor u).Never := fun u hu => atCell_never fun a => sendCommand_never _ hu
  refine Ran.Leaves.bind (foldRow_stuck h) fun _ t ht => atCell_never fun a => Ran.Never.bind ?_ _
  unfold putByte
  split
  · exact Ran.Leaves.bind (foldRow_stuck ht) fun _ u hu => addr u hu
  · split
    · exact addr _ ht
    · exact ((sendCommand_never _ ht).bind _).bind _

theorem noResult_never {r : Ran Unit} (h : r.Never) : (noResult r).Never := h.bind _

theorem withResult_never {r : Ran Byte} (h : r.Never) : (withResult r).Never := h.bind _

/-- No operation that makes a transfer completes from a stuck state. -/
theorem opBody_never {i : Instr} {s : State} (hi : i.space = .hostPacket) (ht : transfers s.cfg i = true) (h : s.stuck = true) :
    (opBody i s).Never := by
  cases i with
  | init => exact noResult_never (initSequence_never h)
  | clear | cursor | intensity => exact noResult_never (sendCommand_never _ h)
  | locate x y => exact noResult_never (atCell_never fun a => sendCommand_never _ (show (s.setCursor x y).stuck = true from h))
  | putc ch => exact withResult_never (putchar_never ch h)
  | puts text =>
    cases text with
    | nil => cases ht
    | cons ch rest =>
      have hput : (putsByte ch s).Never := (putchar_never ch h).bind _
      exact noResult_never (hput.bind fun _ t => forEach rest putsByte t)
  | defglyph code => exact noResult_never (defineGlyph_never code _ h)
  | readchar => exact withResult_never (atCell_never fun a => readDataRam_never a h)
  | readram a => exact withResult_never (readDataRam_never a h)
  | scroll => exact noResult_never (scrollUp_never h (by simpa [transfers] using ht))
  | cmdClear | cmdEntryInc | cmdDisplay | cmdFs8 | fsReal | cmdSetCgram | cmdSetDdram | commandWrite | dataWrite
  | statusRead | dataRead => cases hi

/-- The two operations that make no transfer (R198, R211). -/
theorem opBody_quiet {i : Instr} {s : State} (hi : i.space = .hostPacket) (ht : transfers s.cfg i = false) :
    opBody i s = .done none s := by
  cases i with
  | puts text =>
    cases text with
    | nil => rfl
    | cons => cases ht
  | scroll =>
    have hone : oneRow s.cfg = true := by simpa [transfers] using ht
    show noResult (scrollUp s) = _
    rw [scrollUp, if_pos hone]
    rfl
  | init | clear | locate | cursor | putc | defglyph | readchar | readram | intensity => cases ht
  | cmdClear | cmdEntryInc | cmdDisplay | cmdFs8 | fsReal | cmdSetCgram | cmdSetDdram | commandWrite | dataWrite
  | statusRead | dataRead => cases hi

/-- An operation that makes a transfer and has completed took no settle delay that does not return: it completes so as well
while all of them return. -/
theorem exec_completed_settle {i : Instr} {s t : State} (hi : i.space = .hostPacket) (h : exec i s = .next t)
    (ht : t.busyOp = false) (htr : transfers s.cfg i = true) : exec i (s.withSettle .all) = .next (t.withSettle .all) := by
  obtain ⟨-, r, u, hbody, hstuck, rfl⟩ := exec_completed hi h ht
  refine exec_unstuck (by simp [hi]) h (hstuck ?_)
  cases hs : s.stuck with
  | false => rfl
  | true => exact (opBody_never hi htr (s := { s with busyOp := true }) hs _ _ hbody).elim

/-- An operation that makes no transfer does nothing. -/
theorem exec_quiet {i : Instr} {s t : State} (hi : i.space = .hostPacket) (h : exec i s = .next t)
    (htr : transfers s.cfg i = false) : t = s := by
  obtain ⟨hb, -, hrun⟩ := exec_opBody hi h
  rw [runOp_done (opBody_quiet (s := { s with busyOp := true }) hi htr)] at hrun
  cases hrun
  simp [← hb]

/-! ## The counter after a completed operation -/

theorem noResult_leaves {D : State → Prop} {r : Ran Unit} (h : r.Leaves D) : (noResult r).Leaves D :=
  h.bind fun _ _ ht => leaves_done ht

theorem withResult_leaves {D : State → Prop} {r : Ran Byte} (h : r.Leaves D) : (withResult r).Leaves D :=
  h.bind fun _ _ ht => leaves_done ht

/-- Every operation but INIT leaves a counter that addresses DDRAM and increments so. -/
theorem opBody_leaves {i : Instr} {s : State} (hi : i.space = .hostPacket) (hne : i ≠ .init) (h : Addressing .dd s) :
    (opBody i s).Leaves (Addressing .dd) := by
  cases i with
  | init => exact absurd rfl hne
  | clear => exact noResult_leaves (command_leaves _ s h (keepsWidth_clear _) (by decide) (by rw [command_clear]; exact ⟨rfl, rfl⟩))
  | locate x y =>
    exact noResult_leaves (atCell_leaves fun a => address_leaves a (s.setCursor x y) (setCursor_addressing x y h))
  | cursor c b =>
    exact noResult_leaves (command_leaves _ s h (keepsWidth_display _ c b) (displayByte_ne_zero c b)
      (by rw [command_display]; exact ⟨h.sel, h.incr⟩))
  | putc ch => exact withResult_leaves (putchar_leaves ch s h)
  | puts text =>
    exact noResult_leaves (forEach_leaves text (fun ch u hu => (putchar_leaves ch u hu).bind fun _ _ ht => leaves_done ht) s h)
  | defglyph code => exact noResult_leaves (defineGlyph_leaves code _ s h)
  | readchar x y => exact withResult_leaves (atCell_leaves fun a => readDataRam_leaves a s h)
  | readram a => exact withResult_leaves (readDataRam_leaves a s h)
  | scroll => exact noResult_leaves (scrollUp_leaves s h)
  | intensity l =>
    exact noResult_leaves (command_leaves _ s h (keepsWidth_functionSet _ l) (functionSetByte_ne_zero _ l)
      (by rw [command_functionSet]; exact ⟨h.sel, h.incr⟩))
  | cmdClear | cmdEntryInc | cmdDisplay | cmdFs8 | fsReal | cmdSetCgram | cmdSetDdram | commandWrite | dataWrite
  | statusRead | dataRead => cases hi

/-- Settles O49: an operation that makes no transfer does nothing; another one is asked while all settle delays return. -/
theorem hostOperationsRestDd : Obligations.HostOperationsRestDd := by
  intro i s t hi h ht hp hstart
  cases htr : transfers s.cfg i with
  | false =>
    obtain rfl := exec_quiet hi h htr
    rcases hstart with rfl | hstart
    · cases htr
    · exact hstart
  | true =>
    obtain ⟨-, r, u, hbody, -, hu⟩ := exec_completed hi (exec_completed_settle hi h ht htr) ht
    have hleaves : Addressing .dd u := by
      generalize hv : ({ s.withSettle .all with busyOp := true } : State) = v at hbody
      have hs : v.env.delays.settle = .all := by subst hv; rfl
      by_cases hne : i = .init
      · subst hne
        exact noResult_leaves (initSequence_leaves v hs (by subst hv; exact hp)) r u hbody
      · have hdd : v.refctl = true ∧ v.env.ctl.sel = .dd ∧ v.env.ctl.incr = true := by
          subst hv
          exact hstart.resolve_left hne
        obtain ⟨hr, hsel, hincr⟩ := hdd
        exact opBody_leaves hi hne ⟨hs, hr, hsel, hincr⟩ r u hbody
    have key : (t.withSettle .all).refctl = true ∧ (t.withSettle .all).env.ctl.sel = .dd ∧
        (t.withSettle .all).env.ctl.incr = true := by
      rw [hu]
      exact ⟨hleaves.refctl, hleaves.sel, hleaves.incr⟩
    exact key

end Sys2Proof.Machine
end

section
/-!
SCROLL and DEFGLYPH (46_scroll.md R210 to R215, 47_glyph_loader.md R220 to R225).
-/
namespace Sys2Proof.Machine

/-! ## SCROLL -/

/-- Settles O46. -/
theorem scrollSequence : Obligations.ScrollSequence := by
  intro s hs hr hf
  obtain ⟨hb, hi⟩ := (ready_iff s).1 hs
  have hp : s.cfg.hasScroll = true := by simp [Cfg.hasScroll, hf]
  by_cases hy : s.cfg.ymax = 0
  · have hrun : exec .scroll s = .next s := by
      show accept s s.cfg.hasScroll true (runOp s (opBody .scroll)) = _
      rw [accept_ok hb hp (.inr hi), runOp_done (opBody_quiet (s := { s with busyOp := true }) rfl (by simp [transfers, oneRow, hy]))]
      simp [← hb]
    exact ⟨s, [], hrun, by rw [ScrollEvents, if_pos hy], ⟨by simp, EnvKept.refl _⟩, fun _ => rfl, fun h => absurd hy (by omega),
      fun h => h⟩
  · have hy : 0 < s.cfg.ymax := by omega
    obtain ⟨u, evs, hrun, hevs, hdone, -, href, -⟩ := scrollUp_done { s with busyOp := true } hr hy
    obtain ⟨hexec, hfin⟩ := accept_done hs hp (body := fun t => noResult (scrollUp t)) (noResult_done hrun) hdone
    have hpins := hdone.pins
    refine ⟨_, evs, hexec, hevs, ?_, fun h => absurd h (by omega), fun _ => hpins, href⟩
    rw [← hpins] at hfin
    exact hfin

/-- Settles O47: what `scrollUp_done` says of the panel. -/
theorem scrollMovesDisplay : Obligations.ScrollMovesDisplay := by
  intro s hs hr hc hf hy hm himp
  obtain ⟨u, evs, hrun, hevs, hdone, -, -, hpanel⟩ := scrollUp_done { s with busyOp := true } hr hy
  obtain ⟨hexec, hfin⟩ := accept_done hs (show s.cfg.hasScroll = true by simp [Cfg.hasScroll, hf])
    (body := fun t => noResult (scrollUp t)) (noResult_done hrun) hdone
  obtain ⟨last, hlast, hup, hblank, hkept, hctl⟩ := hpanel hc hm himp
  exact ⟨_, evs, last, hexec, hevs, hfin, hlast, hup, hblank, hkept, hctl⟩

/-! ## DEFGLYPH -/

/-- A status read of an engine whose controller is eventually ready leaves it so. -/
theorem statusRead_responsive {s : State} (h : s.responsive = true) : (statusRead s).2.responsive = true := by
  obtain ⟨⟨hb, hin⟩, hs⟩ := (responsive_parts s).1 h
  obtain ⟨w, ⟨_, _, _, _, _, rfl⟩, -, heq⟩ := statusRead_polled hs
  exact (responsive_parts _).2 ⟨⟨by rw [heq]; exact hb, statusRead_inStep hs hin⟩, statusRead_settle hs⟩

/-- The controller after the first rows of a glyph, `k0` being the controller before it. -/
structure GlyphRows (k0 : Ctl) (code : BitVec 3) (rows : List Byte) (k : Ctl) : Prop where
  rest : k = { k0 with cgram := k.cgram, ac := k.ac, sel := .cg, busy := false, addrSet := k.addrSet, nib := k.nib }
  counter : k.ac.toNat = (8 * code.toNat + rows.length) % 64
  wf : Mem.wf k.cgram = true
  stored : ∀ (n : Nat) (h : n < rows.length), Mem.read k.cgram (8 * code.toNat + n) = rows[n]
  kept : ∀ n, n < 8 * code.toNat ∨ 8 * code.toNat + rows.length ≤ n → Mem.read k.cgram n = Mem.read k0.cgram n

theorem glyph_counter (code : BitVec 3) : ((code ++ 0#3).setWidth 7).toNat = (8 * code.toNat + 0) % 64 := by
  revert code
  decide

theorem glyphRows_nil {k0 k : Ctl} {code : BitVec 3} (hm : k0.memOk = true) (h : (k0.setCgram (code ++ 0#3)).after k) :
    GlyphRows k0 code [] k := by
  have h : k = { k0.setCgram (code ++ 0#3) with nib := k.nib, busy := false } := h
  simp only [Ctl.memOk, Bool.and_eq_true] at hm
  obtain ⟨⟨⟨-, -⟩, hwf⟩, -⟩ := hm
  refine ⟨?_, ?_, ?_, nofun, fun n _ => ?_⟩ <;> rw [h]
  · rfl
  · exact glyph_counter code
  · exact hwf
  · rfl

/-- One more row. -/
theorem GlyphRows.push {k0 k k' : Ctl} {code : BitVec 3} {rows : List Byte} {b : Byte} (h : GlyphRows k0 code rows k)
    (hlen : rows.length < 8) (hi : k0.incr = true) (hw : (k.dataWrite b).after k') : GlyphRows k0 code (rows ++ [b]) k' := by
  obtain ⟨hrest, hac, hwf, hstored, hkept⟩ := h
  have hcode : code.toNat < 8 := code.isLt
  have hsel : k.sel = .cg := by rw [hrest]
  have hincr : k.incr = true := by rw [hrest]; exact hi
  have hac : k.ac.toNat = 8 * code.toNat + rows.length := by omega
  have haddr : k.cgAddr = 8 * code.toNat + rows.length := by
    rw [Ctl.cgAddr, BitVec.extractLsb'_toNat, Nat.shiftRight_zero]
    omega
  have hstep : k.step.toNat = (k.ac.toNat + 1) % 64 := by
    obtain ⟨-, -, hcg, -⟩ := counterSteps k
    exact hcg hincr hsel (by omega)
  have hw : k' = { k.accessed with
      cgram := Mem.write k.cgram k.cgAddr b
      ac := k.step
      nib := k'.nib
      busy := false } := by
    have hw : k' = { k.dataWrite b with nib := k'.nib, busy := false } := hw
    rw [Ctl.dataWrite, hsel] at hw
    exact hw
  rw [haddr] at hw
  have hcg : k'.cgram = Mem.write k.cgram (8 * code.toNat + rows.length) b := by rw [hw]
  refine ⟨?_, ?_, ?_, fun n hn => ?_, fun n hn => ?_⟩
  · rw [hw, hrest]
    rfl
  · rw [show k'.ac = k.step by rw [hw], hstep, List.length_append, List.length_singleton]
    omega
  · rw [hcg]
    exact Mem.write_wf _ _ _ hwf
  · rw [List.length_append, List.length_singleton] at hn
    rw [hcg, Mem.read_write _ _ _ _ hwf]
    by_cases hlast : n = rows.length
    · subst hlast
      simp
    · rw [if_neg (by omega), List.getElem_append_left (by omega)]
      exact hstored n (by omega)
  · rw [List.length_append, List.length_singleton] at hn
    rw [hcg, Mem.write_read_other _ _ _ _ hwf (by omega)]
    exact hkept n (by omega)

/-- What is kept while the rows of a glyph are sent. -/
def GlyphSent (c : Cfg) (ref : Prop) (k0 : Ctl) (code : BitVec 3) (rows : List Byte) (s : State) : Prop :=
  s.cfg = c ∧ s.responsive = true ∧ (ref → rows.length ≤ 8 → s.refctl = true ∧ GlyphRows k0 code rows s.env.ctl)

theorem glyph_round {c : Cfg} {ref : Prop} {k0 : Ctl} {code : BitVec 3} {rows : List Byte} {s : State} (b : Byte)
    (h : GlyphSent c ref k0 code rows s) (hi : ref → k0.incr = true) :
    ∃ t evs, sendData b s = .done () t ∧ SentEvents c.busMode true b evs ∧
      Completed s t s.cx s.cy (idlePins t.pins.dout) evs [] ∧ GlyphSent c ref k0 code (rows ++ [b]) t := by
  obtain ⟨rfl, hr, href⟩ := h
  obtain ⟨t, evs, hrun, hevs, hdone, hr', href'⟩ := sendData_done b s hr
  refine ⟨t, evs, hrun, hevs, hdone.idle, hdone.cfg, hr', fun hc hlen => ?_⟩
  rw [List.length_append, List.length_singleton] at hlen
  obtain ⟨hrc, hrows⟩ := href hc (by omega)
  obtain ⟨hrc', hctl⟩ := href' hrc
  exact ⟨hrc', hrows.push (by omega) (hi hc) hctl⟩

/-- DefineGlyph completes; its events; and under REFCTL what CGRAM holds afterwards. -/
theorem defineGlyph_done {s : State} (code : BitVec 3) (rows : List Byte) (hr : s.responsive = true) :
    ∃ t evs, defineGlyph code rows s = .done () t ∧ GlyphEvents s.cfg.busMode code rows evs ∧
      Completed s t s.cx s.cy (idlePins t.pins.dout) evs [] ∧
      (s.refctl = true → s.env.ctl.memOk = true → s.env.ctl.incr = true → rows.length ≤ 8 → t.refctl = true ∧
        ∃ k, GlyphRows s.env.ctl code rows k ∧ (k.setDdram s.env.ctl.ac).after t.env.ctl) := by
  obtain ⟨⟨-, -⟩, hs⟩ := (responsive_parts s).1 hr
  have hread := (statusRead_polled hs).completed
  obtain ⟨t1, w1, hrun1, hw1, hdone1, hr1, href1⟩ := wait_done (statusRead s).2 (statusRead_responsive hr)
  obtain ⟨t2, e1, hrun2, he1, hdone2, hr2, href2⟩ :=
    sendCommand_done (setCgramByte code) t1 hr1 (keepsWidth_setCgram _ code) (setCgramByte_ne_zero code)
  have hcfg1 : t1.cfg = s.cfg := hdone1.cfg.trans hread.cfg
  have hcfg2 : t2.cfg = s.cfg := hdone2.cfg.trans hcfg1
  have hfirst : s.refctl = true → s.env.ctl.memOk = true → t2.refctl = true ∧ GlyphRows s.env.ctl code [] t2.env.ctl := by
    intro hc hm
    obtain ⟨-, hctl0, hc0⟩ := statusRead_reference hs hc
    obtain ⟨hc1, hctl1⟩ := href1 hc0
    obtain ⟨hc2, hctl2⟩ := href2 hc1
    rw [command_setCgram] at hctl2
    have hctl1 : s.env.ctl.after t1.env.ctl := by
      rw [hctl0] at hctl1
      exact hctl1
    exact ⟨hc2, glyphRows_nil hm (Ctl.after_setCgram hctl1 hctl2)⟩
  obtain ⟨t3, e2, hrun3, he2, hdone3, ⟨hcfg3, hr3, href3⟩, -, -⟩ := forEach_done (body := sendData)
    (GlyphSent s.cfg (s.refctl = true ∧ s.env.ctl.memOk = true ∧ s.env.ctl.incr = true) s.env.ctl code) rows []
    (fun p b q _ u hu => glyph_round b hu fun h => h.2.2) t2 ⟨hcfg2, hr2, fun h _ => hfirst h.1 h.2.1⟩
  obtain ⟨t4, w2, hrun4, hw2, hdone4, hr4, href4⟩ := wait_done t3 hr3
  obtain ⟨t5, e3, hrun5, he3, hdone5, -, href5⟩ := address_done (statusAddr (statusRead s).1) t4 hr4
  have hcfg4 : t4.cfg = s.cfg := hdone4.cfg.trans hcfg3
  have hdone := ((((hread.trans hdone1).trans hdone2).trans hdone3).trans hdone4).trans hdone5
  rw [hread.cfg] at hw1
  rw [hcfg1] at he1
  rw [hcfg3] at hw2
  rw [hcfg4] at he3
  refine ⟨t5, _, ?_, ⟨(statusRead s).1, w1, e1, e2, w2, e3, hw1, he1, he2, hw2, he3, rfl⟩, ?_, fun hc hm hi hlen => ?_⟩
  · unfold defineGlyph
    rw [show (readAddressCounter s).2 = (statusRead s).2 from rfl, hrun1, Ran.bind, hrun2, Ran.bind, hrun3, Ran.bind, hrun4]
    exact hrun5
  · have hx : t4.cx = s.cx := by rw [hdone4.cx, hdone3.cx, hdone2.cx, hdone1.cx, hread.cx]
    have hy : t4.cy = s.cy := by rw [hdone4.cy, hdone3.cy, hdone2.cy, hdone1.cy, hread.cy]
    rw [hx, hy] at hdone
    simpa [pollEvents] using hdone.idle
  · obtain ⟨hc3, hrows⟩ := href3 ⟨hc, hm, hi⟩ hlen
    obtain ⟨hc4, hctl4⟩ := href4 hc3
    obtain ⟨hc5, hctl5⟩ := href5 hc4
    obtain ⟨hbyte, -⟩ := statusRead_reference hs hc
    have haddr : statusAddr (statusRead s).1 = s.env.ctl.ac := by
      rw [hbyte]
      exact statusAddr_status { s.env.ctl with busy := _ }
    rw [haddr] at hctl5
    exact ⟨hc5, _, hrows, Ctl.after_setDdram hctl4 hctl5⟩

/-- Settles O48: the address sent at the end is the one the status read gave at the beginning. -/
theorem defglyph : Obligations.Defglyph := by
  intro s code b0 b1 b2 b3 b4 b5 b6 b7 hs hr hf
  obtain ⟨u, evs, hrun, hevs, hdone, href⟩ :=
    defineGlyph_done (s := { s with busyOp := true }) code [b0, b1, b2, b3, b4, b5, b6, b7] hr
  obtain ⟨hexec, hfin⟩ := accept_done hs (show s.cfg.hasGlyph = true by simp [Cfg.hasGlyph, hf])
    (body := fun t => noResult (defineGlyph code [b0, b1, b2, b3, b4, b5, b6, b7] t)) (noResult_done hrun) hdone
  refine ⟨_, evs, hexec, hevs, hfin, fun hc hm hsel hincr => ?_⟩
  obtain ⟨hrc, k, ⟨hrest, -, -, hstored, hkept⟩, hctl⟩ := href hc hm hincr (by simp)
  have hctl : u.env.ctl = { k.setDdram s.env.ctl.ac with nib := u.env.ctl.nib, busy := false } := hctl
  have hcg : u.env.ctl.cgram = k.cgram := by rw [hctl]; rfl
  refine ⟨hrc, ?_, fun n hn => ?_, ?_⟩
  · show (List.range 8).map (fun n => Mem.read u.env.ctl.cgram (8 * code.toNat + n)) = _
    rw [hcg]
    exact List.ext_getElem (by simp) fun n _ h2 => by simpa using hstored n h2
  · show Mem.read u.env.ctl.cgram n = _
    rw [hcg]
    exact hkept n (by simp; omega)
  · show u.env.ctl = { s.env.ctl with cgram := u.env.ctl.cgram, busy := false, addrSet := true, nib := u.env.ctl.nib }
    rw [hctl, hrest]
    simp [Ctl.setDdram, Ctl.addressed, hsel]

end Sys2Proof.Machine
end

section
/-!
Claims about the machine as a whole: the configuration stands apart, an unconstrained controller is not looked at, and a
character that was put is read back.
-/
namespace Sys2Proof.Machine

/-! ## The configuration -/

/-- Nothing is lost of an answer that keeps the configuration when that is taken off and put beside it again. -/
theorem withCfg_dropCfg {c : Cfg} {r : Answer} (h : ∀ t, r = .next t → t.cfg = c) : r = withCfg c (dropCfg r) := by
  cases r with
  | next t =>
    obtain rfl := h t rfl
    rfl
  | fault f => rfl
  | refused q => rfl

/-- Settles O53: no step and no instruction writes the configuration. -/
theorem configurationIsArgument : Obligations.ConfigurationIsArgument := by
  obtain ⟨hstep, hexec, -⟩ := configurationFixed
  exact ⟨fun s => withCfg_dropCfg (hstep s), fun i s => withCfg_dropCfg (hexec i s)⟩

/-! ## An unconstrained controller -/

/-- Settles O55: the instruction runs alike with the other value, which is still there at its end. -/
theorem engineIgnoresController : Obligations.EngineIgnoresController := by
  intro i s k hi hp
  have halike := (controller_alikeAll k).exec hi { s with env := { s.env with ctl := k } } s ⟨hp, rfl⟩ (not_lost_false s)
  generalize exec i s = r at halike
  cases r with
  | next t =>
    obtain ⟨t', hrun, -, rfl⟩ := halike.resolve_left (not_lost_false t)
    exact hrun
  | fault f => exact halike
  | refused q => exact halike

/-! ## The round trip -/

theorem Completed.rsp {s t : State} {x y : Byte} {p : Pins} {e : List Event} {r : List Byte} (h : Completed s t x y p e r) :
    t.rsp = s.rsp ++ r := by rw [h.1]

theorem Completed.ready {s t : State} {x y : Byte} {p : Pins} {e : List Event} {r : List Byte} (h : Completed s t x y p e r)
    (hs : s.ready = true) : t.ready = true := by
  rw [h.1]
  exact hs

/-- What an operation completes with a reference controller in step, the next can begin with. -/
theorem Completed.responsive {s t : State} {x y : Byte} {p : Pins} {e : List Event} {r : List Byte}
    (h : Completed s t x y p e r) (hs : s.responsive = true) (ht : t.refctl = true) : t.responsive = true := by
  obtain ⟨-, -, -, hafter, hdelays, -⟩ := h
  obtain ⟨-, -, hin⟩ := (refctl_iff t).1 ht
  obtain ⟨⟨hb, -⟩, hall⟩ := (responsive_parts s).1 hs
  exact (responsive_parts t).2 ⟨⟨hafter.trans hb, hin⟩, by rw [hdelays]; exact hall⟩

/-- Settles O50: LOCATE, PUTC and READCHAR each say where they leave the cursor and the controller. -/
theorem roundTrip : Obligations.RoundTrip := by
  intro s x y ch hs hr hc hf hm himp hx hy hlf hcr
  obtain ⟨t, e1, a, hrun1, ha, -, hdone1, href1⟩ := locate s x y hs hr hx hy
  obtain ⟨hc1, hctl1⟩ := href1 hc
  have hctl1 : t.env.ctl = { s.env.ctl with ac := a, sel := .dd, addrSet := true, nib := t.env.ctl.nib, busy := false } := hctl1
  have himp1 : t.env.ctl.implemented a = true :=
    (implemented_congr (by rw [hctl1]) a).trans (himp a (resolve_mem ha))
  have hm1 : t.env.ctl.memOk = true := by rw [hctl1]; exact hm
  have ha1 : resolve t.cfg t.cx.toNat t.cy.toNat = some a := by rw [hdone1.cfg, hdone1.cx, hdone1.cy]; exact ha
  obtain ⟨u, a', e2, hrun2, ha', -, hbefore, hlast, href2⟩ := putcOrdinary t ch (hdone1.ready hs) (hdone1.responsive hr hc1) hlf hcr
    (by rw [hdone1.cx, hdone1.cfg]; exact hx) (by rw [hdone1.cy, hdone1.cfg]; exact hy)
  obtain rfl : a' = a := Option.some.inj (ha'.symm.trans ha1)
  obtain ⟨hc2, hread, -, -, -, hctl2⟩ := href2 hc1 hm1 himp1
  have hdone2 : ∃ x' y' p e, Completed t u x' y' p e [ch] := by
    rcases Nat.lt_or_ge t.cx.toNat t.cfg.xmax with h | h
    · exact ⟨_, _, _, _, hbefore h⟩
    · have hx1 : t.cx.toNat ≤ t.cfg.xmax := by rw [hdone1.cx, hdone1.cfg]; exact hx
      obtain ⟨again, -, h⟩ := hlast (by omega)
      exact ⟨_, _, _, _, h⟩
  obtain ⟨x', y', p, e, hdone2⟩ := hdone2
  have hcfg : u.cfg = s.cfg := hdone2.cfg.trans hdone1.cfg
  obtain ⟨w, e3, a'', b, hrun3, ha'', -, hdone3, href3⟩ := readchar u x y (hdone2.ready (hdone1.ready hs))
    (hdone2.responsive (hdone1.responsive hr hc1) hc2) (by rw [hcfg]; exact hf) (by rw [hcfg]; exact hx) (by rw [hcfg]; exact hy)
  obtain rfl : a'' = a' := by
    rw [hcfg, ha] at ha''
    exact (Option.some.inj ha'').symm
  obtain ⟨-, hbyte, -⟩ := href3 hc2
  have hb : b = ch := (hbyte ((implemented_congr (by rw [hctl2]) a'').trans himp1)).trans hread
  refine ⟨t, u, w, hrun1, hrun2, hrun3, ?_⟩
  rw [hdone3.rsp, hdone2.rsp, hdone1.rsp, hb]
  simp

end Sys2Proof.Machine
end

section
/-!
Strobes come in pairs on a 4-bit bus (41_bus_transfer.md R144 (f)).
-/
namespace Sys2Proof.Machine

theorem strobeCount_append (a b : List Event) : strobeCount (a ++ b) = strobeCount a + strobeCount b := List.countP_append

/-- After an even number of strobes since `s`, while settle delays return. -/
def Paired (s t : State) : Prop :=
  t.cfg = s.cfg ∧ t.env.delays.settle = .all ∧ ∃ evs, t.hist = s.hist ++ evs ∧ strobeCount evs % 2 = 0

theorem Paired.refl {s : State} (h : s.env.delays.settle = .all) : Paired s s := ⟨rfl, h, [], by simp, rfl⟩

/-- Two more strobes. -/
theorem Paired.append {s t u : State} {evs : List Event} (h : Paired s t) (hc : u.cfg = t.cfg)
    (hs : u.env.delays.settle = .all) (hu : u.hist = t.hist ++ evs) (he : strobeCount evs = 2) : Paired s u := by
  obtain ⟨htc, -, before, hth, heven⟩ := h
  refine ⟨hc.trans htc, hs, before ++ evs, by rw [hu, hth, List.append_assoc], ?_⟩
  rw [strobeCount_append, he]
  omega

/-- Each transaction makes two (R137, R139). -/
theorem paired_closed {s : State} (hm : s.cfg.busMode = .bus4) : Closed (Paired s) where
  write rs v t h := by
    obtain ⟨hc, hs, -⟩ := id h
    rw [busWrite_eq rs v hs]
    exact h.append rfl (by simpa using hs) rfl (by rw [hc, hm]; rfl)
  read rs t h := by
    obtain ⟨hc, hs, -⟩ := id h
    rw [busRead_eq rs hs]
    exact h.append rfl (by simpa using hs) rfl (by rw [hc, hm]; rfl)

/-- Settles O58: what is not held in a settle delay runs as if all of them returned, and there every transaction is whole. -/
theorem strobesInPairs : Obligations.StrobesInPairs := by
  intro i s t hm hne h hstuck
  cases hi : i.space with
  | controllerCommand =>
    obtain ⟨k, hk⟩ := exec_command s hi
    rw [hk] at h
    cases h
    exact ⟨[], by simp, rfl⟩
  | hostPacket =>
    have hrun := exec_unstuck (by simp [hi]) h hstuck
    have hkept : Kept i (Paired (s.withSettle .all)) :=
      ⟨paired_closed hm, fun _ _ _ _ hu => hu, fun h => absurd h hne⟩
    obtain ⟨-, -, -, hend⟩ := exec_host hkept (fun _ hu => hu.1) hi hrun fun _ => Paired.refl rfl
    rcases hend with ⟨u, r, ⟨-, -, hu⟩, -, heq⟩ | ⟨u, k, ⟨-, -, hu⟩, -, heq⟩ <;>
      rwa [← show t.hist = u.hist from congrArg (·.hist) heq] at hu
  | busTransaction =>
    obtain ⟨-, u, hu, heq⟩ := exec_transaction hi (exec_unstuck (by simp [hi]) h hstuck)
    have hpaired : Paired (s.withSettle .all) u := by
      rcases hu with ⟨rs, b, rfl⟩ | ⟨rs, rfl⟩
      · exact (paired_closed hm).write rs b _ (.refl rfl)
      · exact (paired_closed hm).read rs _ (.refl rfl)
    obtain ⟨-, -, hev⟩ := hpaired
    rcases heq with ⟨-, heq⟩ | ⟨-, heq⟩ <;> rwa [← show t.hist = u.hist from congrArg (·.hist) heq] at hev

end Sys2Proof.Machine
end

section
/-!
What a completed operation leaves on the pins (70_reset_and_hazards.md R282) and in the answers (30_encoding.md R99).
-/
namespace Sys2Proof.Machine

/-! ## While all settle delays return -/

theorem Ran.Ends.leaves {α : Type} {q stop : Prop} {P : State → Prop} {r : Ran α} (h : r.Ends q stop P) : r.Leaves P := by
  intro a t ht
  rw [ht] at h
  obtain ⟨hP, -⟩ := h
  exact hP

/-- In the configuration `c`, all settle delays returning. -/
def Flowing (c : Cfg) (s : State) : Prop := s.cfg = c ∧ s.env.delays.settle = .all

theorem flowing_closed (c : Cfg) : Closed (Flowing c) where
  write rs b s h := by
    obtain ⟨hc, hs⟩ := h
    rw [busWrite_eq rs b hs]
    exact ⟨hc, by simpa using hs⟩
  read rs s h := by
    obtain ⟨hc, hs⟩ := h
    rw [busRead_eq rs hs]
    exact ⟨hc, by simpa using hs⟩

theorem foldRow_flowing {c : Cfg} {s : State} (h : Flowing c s) : (foldRow s).Leaves (Flowing c) :=
  (foldRow_closed (q := False) (flowing_closed c) (fun _ _ _ hu => hu) (fun _ hu => hu.1) s h nofun).leaves

/-- At rest after a status read (R170). -/
def Rested (s : State) : Prop := s.env.delays.settle = .all ∧ s.pins = idlePins s.pins.dout

theorem wait_rested {s : State} (h : s.env.delays.settle = .all) : (waitUntilReady s).Leaves Rested := by
  intro _ t ht
  rcases waitUntilReady_cases s h with ⟨u, answers, hrun, -, hu⟩ | ⟨u, answers, hrun, -⟩
  · rw [hrun] at ht
    cases ht
    have hpins := hu.completed.pins
    exact ⟨hu.settle h, by rw [hpins]; rfl⟩
  · rw [hrun] at ht
    cases ht

theorem send_rested {s : State} (rs : Level) (b : Byte) (h : s.env.delays.settle = .all) :
    (waitUntilReady (statusRead (busWrite rs b s)).2).Leaves Rested :=
  wait_rested (statusRead_settle (busWrite_settle rs b h))

theorem sendCommand_rested {s : State} (b : Byte) (h : s.env.delays.settle = .all) : (sendCommand b s).Leaves Rested :=
  send_rested false b h

theorem sendData_rested {s : State} (b : Byte) (h : s.env.delays.settle = .all) : (sendData b s).Leaves Rested :=
  send_rested true b h

theorem storeAt_rested {s : State} (a : Addr7) (b : Byte) (h : s.env.delays.settle = .all) : (storeAt a b s).Leaves Rested :=
  (sendCommand_rested _ h).bind fun _ _ ht => sendData_rested b ht.1

theorem addressCursor_rested {s : State} (h : s.env.delays.settle = .all) : (addressCursor s).Leaves Rested :=
  atCell_leaves fun _ => sendCommand_rested _ h

/-- A data read that has completed: the pins, and the byte's samples at the end of the history (R176). -/
theorem readDataRam_read {s t : State} {a : Addr7} {b : Byte} (hs : s.env.delays.settle = .all)
    (h : readDataRam a s = .done b t) :
    t.pins = readPins t.pins.dout ∧ ∃ before, t.hist = before ++ readEvents s.cfg.busMode true b := by
  have hcmd := (flowing_closed s.cfg).sendCommand (q := False) (setDdramByte a) s ⟨rfl, hs⟩
  unfold readDataRam at h
  cases h1 : sendCommand (setDdramByte a) s with
  | done _ u =>
    rw [h1] at h hcmd
    obtain ⟨⟨hc, hu⟩, -⟩ := hcmd
    have hwait := (flowing_closed s.cfg).waitUntilReady (q := False) u ⟨hc, hu⟩
    simp only [Ran.bind] at h
    cases h2 : waitUntilReady u with
    | done _ w =>
      rw [h2] at h hwait
      obtain ⟨⟨hc, hw⟩, -⟩ := hwait
      simp only [busRead_eq true hw] at h
      rw [unlessStuck_all _ (by simpa using hw)] at h
      cases h
      exact ⟨rfl, w.hist, by rw [hc]⟩
    | hung w => rw [h2] at h; cases h
    | stop q => rw [h2] at h; cases h
  | hung u => rw [h1] at h; cases h
  | stop q => rw [h1] at h; cases h

theorem putchar_rested {s : State} (ch : Byte) (h : s.env.delays.settle = .all) : (putchar ch s).Leaves Rested := by
  refine (foldRow_flowing (c := s.cfg) ⟨rfl, h⟩).bind fun _ t ht => atCell_leaves fun a => ?_
  refine Ran.Leaves.bind (D := Rested) ?_ fun _ u hu => Ran.Leaves.bind (D := Rested) ?_ fun _ w hw => leaves_done hw
  · unfold putByte
    split
    · refine (foldRow_flowing (c := s.cfg) ?_).bind fun _ u hu => addressCursor_rested hu.2
      exact ht
    · split
      · exact addressCursor_rested (s := t.setCursor 0 t.cy) ht.2
      · exact (storeAt_rested a ch ht.2).bind fun _ u hu => leaves_done hu
  · unfold wrap
    split
    · exact sendCommand_rested _ (s := u.setCursor 0 (u.cy + 1)) hu.1
    · exact leaves_done hu

/-- A loop of at least one round leaves what a round leaves. -/
theorem forEach_leaves_cons {α : Type} {D E : State → Prop} {body : α → State → Ran Unit} {items : List α}
    (hne : items ≠ []) (h : ∀ i s, D s → (body i s).Leaves E) (hDE : ∀ s, E s → D s) {s : State} (hs : D s) :
    (forEach items body s).Leaves E := by
  cases items with
  | nil => exact absurd rfl hne
  | cons i rest =>
    exact (h i s hs).bind fun _ t ht => forEach_leaves rest (fun j u hu => h j u (hDE u hu)) t ht

theorem scrollUp_rested {s : State} (h : s.env.delays.settle = .all) (hrows : oneRow s.cfg = false) :
    (scrollUp s).Leaves Rested := by
  unfold scrollUp
  rw [hrows, if_neg (by simp)]
  have hcopy : ∀ cell u, Flowing s.cfg u → (copyUp cell u).Leaves (Flowing s.cfg) := fun cell u hu =>
    atCell_leaves fun a => (((flowing_closed s.cfg).readDataRam (q := False) a u hu).leaves).bind fun b t ht =>
      atCell_leaves fun up => ((flowing_closed s.cfg).storeAt (q := False) up b t ht).leaves
  refine (forEach_leaves _ hcopy s ⟨rfl, h⟩).bind fun _ t ht => ?_
  have hcells : rowCells t.cfg t.cfg.ymax ≠ [] := by simp [rowCells]
  exact forEach_leaves_cons (D := fun u => u.env.delays.settle = .all) hcells
    (fun cell u hu => atCell_leaves fun a => storeAt_rested a _ hu) (fun u hu => hu.1) ht.2

theorem defineGlyph_rested {s : State} (code : BitVec 3) (rows : List Byte) (h : s.env.delays.settle = .all) :
    (defineGlyph code rows s).Leaves Rested := by
  refine (wait_rested (statusRead_settle h)).bind fun _ t ht => ?_
  refine (sendCommand_rested _ ht.1).bind fun _ u hu => ?_
  refine (forEach_leaves rows (fun b v hv => sendData_rested b hv.1) u hu).bind fun _ w hw => ?_
  exact (wait_rested hw.1).bind fun _ x hx => sendCommand_rested _ hx.1

/-- INIT while settle delays return: a millisecond delay never does, or step 3 comes after the bootstrap. -/
theorem initSequence_runs {s : State} (h : s.env.delays.settle = .all) : (initSequence s).Never ∨
    initSequence s = (initStep3 (markSettled (St s (s.hist ++ bootEvents s.cfg) ((bootEnv s.cfg s.env).waited 6)
      (lastDriven s.cfg.busMode (fsRealByte s.cfg))))).bind fun _ w => .done () { w with inited := true } := by
  have hboot := boot_runs s h
  unfold initSequence
  rw [← Ran.bind_assoc]
  by_cases hk : ∀ n, s.env.delays.ms = some n → 6 ≤ n
  · rw [hboot.returns hk]
    exact .inr rfl
  · simp only [not_forall, Nat.not_le] at hk
    obtain ⟨n, hn, hlt⟩ := hk
    obtain ⟨evs, e, d, hrun, -⟩ := hboot.hangs n hn hlt
    rw [hrun]
    exact .inl (never_hung _)

theorem initSequence_rested {s : State} (h : s.env.delays.settle = .all) : (initSequence s).Leaves Rested := by
  rcases initSequence_runs h with hn | heq
  · exact fun a t ht => (hn a t ht).elim
  · rw [heq]
    have hs : (bootEnv s.cfg s.env).delays.settle = .all := by
      obtain ⟨-, -, -, hd, -⟩ := bootEnv_kept s.cfg s.env
      rw [hd, h]
    refine Ran.Leaves.bind (D := Rested) ?_ fun _ t ht => leaves_done ht
    exact (sendCommand_rested _ (by exact hs)).bind fun _ t ht =>
      (sendCommand_rested _ ht.1).bind fun _ u hu => sendCommand_rested _ hu.1

/-! ## The pins -/

/-- Does the operation end in a data read (R180, R181)? -/
def readsLast : Instr → Bool
  | .readchar _ _ | .readram _ => true
  | _ => false

/-- An operation that makes transfers and does not end in a data read ends in a status read. -/
theorem opBody_rested {i : Instr} {s : State} (hi : i.space = .hostPacket) (hr : readsLast i = false)
    (htr : transfers s.cfg i = true) (h : s.env.delays.settle = .all) : (opBody i s).Leaves Rested := by
  cases i with
  | init => exact noResult_leaves (initSequence_rested h)
  | clear | cursor | intensity => exact noResult_leaves (sendCommand_rested _ h)
  | locate x y => exact noResult_leaves (atCell_leaves fun a => sendCommand_rested _ (s := s.setCursor x y) h)
  | putc ch => exact withResult_leaves (putchar_rested ch h)
  | puts text =>
    have hne : text ≠ [] := by
      rintro rfl
      cases htr
    exact noResult_leaves (forEach_leaves_cons (D := fun u => u.env.delays.settle = .all) hne
      (fun ch u hu => (putchar_rested ch hu).bind fun _ t ht => leaves_done ht) (fun u hu => hu.1) h)
  | defglyph code => exact noResult_leaves (defineGlyph_rested code _ h)
  | scroll => exact noResult_leaves (scrollUp_rested h (by simpa [transfers] using htr))
  | readchar | readram => cases hr
  | cmdClear | cmdEntryInc | cmdDisplay | cmdFs8 | fsReal | cmdSetCgram | cmdSetDdram | commandWrite | dataWrite
  | statusRead | dataRead => cases hi

theorem withResult_eq_done {r : Ran Byte} {o : Option Byte} {t : State} (h : withResult r = .done o t) :
    ∃ b, r = .done b t ∧ o = some b := by
  cases r with
  | done b u => cases h; exact ⟨b, rfl, rfl⟩
  | hung u => cases h
  | stop q => cases h

/-- An operation that ends in a data read: its answer is the byte read. -/
theorem opBody_read {i : Instr} {s t : State} {r : Option Byte} (hr : readsLast i = true) (h : s.env.delays.settle = .all)
    (hrun : opBody i s = .done r t) :
    ∃ b, r = some b ∧ t.pins = readPins t.pins.dout ∧ ∃ before, t.hist = before ++ readEvents s.cfg.busMode true b := by
  have read : ∀ a, withResult (readDataRam a s) = .done r t →
      ∃ b, r = some b ∧ t.pins = readPins t.pins.dout ∧ ∃ before, t.hist = before ++ readEvents s.cfg.busMode true b := by
    intro a hrun
    obtain ⟨b, hrun, hb⟩ := withResult_eq_done hrun
    exact ⟨b, hb, readDataRam_read h hrun⟩
  cases i with
  | readchar x y =>
    have hrun : withResult (atCell x.toNat y.toNat s fun a => readDataRam a s) = .done r t := hrun
    unfold atCell at hrun
    split at hrun
    · exact read _ hrun
    · cases hrun
  | readram a => exact read a hrun
  | init | clear | locate | cursor | putc | puts | defglyph | scroll | intensity | cmdClear | cmdEntryInc | cmdDisplay
  | cmdFs8 | fsReal | cmdSetCgram | cmdSetDdram | commandWrite | dataWrite | statusRead | dataRead => cases hr

/-- What a completed operation that makes a transfer ran, all settle delays returning, and what it left of that. -/
theorem exec_completed_body {i : Instr} {s t : State} (hi : i.space = .hostPacket) (h : exec i s = .next t)
    (ht : t.busyOp = false) (htr : transfers s.cfg i = true) :
    ∃ r u, opBody i { s.withSettle .all with busyOp := true } = .done r u ∧ t.pins = u.pins ∧ t.hist = u.hist := by
  obtain ⟨-, r, u, hbody, -, hu⟩ := exec_completed hi (exec_completed_settle hi h ht htr) ht
  exact ⟨r, u, hbody, congrArg (·.pins) hu, congrArg (·.hist) hu⟩

theorem readsLast_transfers {c : Cfg} {i : Instr} (h : readsLast i = true) : transfers c i = true := by
  cases i with
  | readchar | readram => rfl
  | init | clear | locate | cursor | putc | puts | defglyph | scroll | intensity | cmdClear | cmdEntryInc | cmdDisplay
  | cmdFs8 | fsReal | cmdSetCgram | cmdSetDdram | commandWrite | dataWrite | statusRead | dataRead => cases h

/-- The pins of a completed operation (R282). -/
theorem exec_completed_pins {i : Instr} {s t : State} (hi : i.space = .hostPacket) (h : exec i s = .next t)
    (ht : t.busyOp = false) :
    t.pins = if readsLast i then readPins t.pins.dout else if transfers s.cfg i then idlePins t.pins.dout else s.pins := by
  cases hr : readsLast i with
  | true =>
    obtain ⟨r, u, hbody, hpins, -⟩ := exec_completed_body hi h ht (readsLast_transfers hr)
    obtain ⟨b, -, hu, -⟩ := opBody_read hr rfl hbody
    rw [hpins]
    exact hu
  | false =>
    cases htr : transfers s.cfg i with
    | true =>
      obtain ⟨r, u, hbody, hpins, -⟩ := exec_completed_body hi h ht htr
      obtain ⟨-, hu⟩ := opBody_rested hi hr (s := { s.withSettle .all with busyOp := true }) htr rfl r u hbody
      rw [hpins]
      exact hu
    | false =>
      obtain rfl := exec_quiet hi h htr
      rfl

theorem idlePins_parts {p : Pins} (h : p = idlePins p.dout) : p.rs = false ∧ p.rw = true ∧ p.e = false ∧ p.dir = .input := by
  rw [h]
  exact ⟨rfl, rfl, rfl, rfl⟩

theorem readPins_parts {p : Pins} (h : p = readPins p.dout) : p.rs = true ∧ p.rw = true ∧ p.e = false ∧ p.dir = .input := by
  rw [h]
  exact ⟨rfl, rfl, rfl, rfl⟩

/-- Settles O57: by whether the operation ends in a data read, and whether it makes a transfer at all. -/
theorem idlePinsHold : Obligations.IdlePins := by
  intro i s t hi h ht
  have hpins := exec_completed_pins hi h ht
  refine ⟨?_, fun hrest => ?_⟩
  · cases i with
    | init | clear | locate | cursor | putc | defglyph | intensity => exact idlePins_parts hpins
    | readchar | readram => exact readPins_parts hpins
    | puts text =>
      cases text with
      | nil => exact hpins
      | cons => exact idlePins_parts hpins
    | scroll =>
      by_cases hy : s.cfg.ymax = 0
      · simp only [hy, if_true]
        simpa [readsLast, transfers, oneRow, hy] using hpins
      · simp only [hy, if_false]
        exact idlePins_parts (by simpa [readsLast, transfers, oneRow, hy] using hpins)
    | cmdClear | cmdEntryInc | cmdDisplay | cmdFs8 | fsReal | cmdSetCgram | cmdSetDdram | commandWrite | dataWrite
    | statusRead | dataRead => cases hi
  · split at hpins
    · obtain ⟨-, -, he, hd⟩ := readPins_parts hpins
      exact ⟨he, hd⟩
    · split at hpins
      · obtain ⟨-, -, he, hd⟩ := idlePins_parts hpins
        exact ⟨he, hd⟩
      · rw [hpins]
        exact hrest

/-! ## The answers -/

/-- No micro-operation answers (R99): what is answered, the end of the operation answers. -/
theorem rsp_kept (i : Instr) (c : Cfg) (l : List Byte) : Kept i fun s => s.cfg = c ∧ s.rsp = l where
  closed := (lineClosed_of_apart fun _ _ _ _ h => h).closed
  cursor _ _ _ _ h := h
  init _ := ⟨⟨_, boot_of_apart (fun _ _ _ _ h => h) fun _ h => h⟩,
    (lineClosed_of_apart fun _ _ _ _ h => h).closed.and settled_closed.closed⟩

/-- What a completed host operation answers. -/
theorem exec_completed_rsp {i : Instr} {s t : State} (hi : i.space = .hostPacket) (h : exec i s = .next t)
    (ht : t.busyOp = false) :
    ∃ r u, opBody i { s with busyOp := true } = .done r u ∧ t.rsp = s.rsp ++ r.toList := by
  obtain ⟨-, r, u, hbody, -, rfl⟩ := exec_completed hi h ht
  have hends := opBody_ends (q := False) (rsp_kept i s.cfg s.rsp) (fun _ hu => hu.1) hi (s := { s with busyOp := true })
    ⟨rfl, rfl⟩ nofun
  rw [hbody] at hends
  obtain ⟨⟨-, hrsp⟩, -⟩ := hends
  exact ⟨r, u, hbody, by rw [← hrsp]⟩

theorem noResult_rsp {r : Ran Unit} {o : Option Byte} {u t : State} {l : List Byte} (h : noResult r = .done o u)
    (ht : t.rsp = l ++ o.toList) : t.rsp = l := by
  obtain ⟨-, rfl⟩ := noResult_eq_done h
  simpa using ht

/-- Settles O56: only the three operations with a result answer, PUTC what Putchar returns, the others what their data read does. -/
theorem responseBytes : Obligations.ResponseBytes := by
  intro i s t h ht
  cases hi : i.space with
  | controllerCommand =>
    obtain ⟨k, hk⟩ := exec_command s hi
    rw [hk] at h
    cases h
    cases i with
    | cmdClear | cmdEntryInc | cmdDisplay | cmdFs8 | fsReal | cmdSetCgram | cmdSetDdram => rfl
    | init | clear | locate | cursor | putc | puts | defglyph | readchar | readram | scroll | intensity | commandWrite
    | dataWrite | statusRead | dataRead => cases hi
  | busTransaction =>
    obtain ⟨-, u, hu, heq⟩ := exec_transaction hi h
    have hworked : Worked s u := by
      rcases hu with ⟨rs, b, rfl⟩ | ⟨rs, rfl⟩
      · exact (worked_closed s).write rs b s (.refl s)
      · exact (worked_closed s).read rs s (.refl s)
    obtain ⟨-, -, -, -, -, hrsp, -⟩ := hworked.fields
    have hsame : t.rsp = s.rsp := by rcases heq with ⟨-, rfl⟩ | ⟨-, rfl⟩ <;> exact hrsp
    cases i with
    | commandWrite | dataWrite | statusRead | dataRead => exact hsame
    | init | clear | locate | cursor | putc | puts | defglyph | readchar | readram | scroll | intensity | cmdClear
    | cmdEntryInc | cmdDisplay | cmdFs8 | fsReal | cmdSetCgram | cmdSetDdram => cases hi
  | hostPacket =>
    obtain ⟨r, u, hbody, hrsp⟩ := exec_completed_rsp hi h ht
    have read : readsLast i = true → ∃ b before, t.rsp = s.rsp ++ [b] ∧ t.hist = before ++ readEvents s.cfg.busMode true b := by
      intro hr
      have htr := readsLast_transfers (c := s.cfg) hr
      obtain ⟨r1, u1, hbody1, -, hhist⟩ := exec_completed_body hi h ht htr
      obtain ⟨r2, u2, hbody2, hrsp⟩ := exec_completed_rsp hi (exec_completed_settle hi h ht htr) ht
      rw [hbody1] at hbody2
      cases hbody2
      obtain ⟨b, rfl, -, before, hbefore⟩ := opBody_read hr rfl hbody1
      exact ⟨b, before, hrsp, hhist.trans hbefore⟩
    cases i with
    | putc ch =>
      obtain ⟨b, hput, rfl⟩ := withResult_eq_done hbody
      rw [putchar_value ch b _ _ hput] at hrsp
      exact hrsp
    | readchar | readram => exact read rfl
    | init | clear | locate | cursor | puts | defglyph | scroll | intensity => exact noResult_rsp hbody hrsp
    | cmdClear | cmdEntryInc | cmdDisplay | cmdFs8 | fsReal | cmdSetCgram | cmdSetDdram | commandWrite | dataWrite
    | statusRead | dataRead => cases hi

end Sys2Proof.Machine
end

section
/-!
The counts of control-line events against a controller that is never busy (70_reset_and_hazards.md R301): every wait is one status
read, so an operation makes a fixed number of transactions.
-/
namespace Sys2Proof.Machine

theorem ctlCount_append (a b : List Event) : ctlCount (a ++ b) = ctlCount a + ctlCount b := List.countP_append

/-- The control-line events of one transaction (R143). -/
def perTransaction (c : Cfg) : Nat := if c.busMode = .bus8 then 4 else 6

theorem ctlCount_write (c : Cfg) (rs : Level) (v : Byte) : ctlCount (writeEvents c.busMode rs v) = perTransaction c := by
  unfold perTransaction
  cases c.busMode <;> rfl

theorem ctlCount_read (c : Cfg) (rs : Level) (v : Byte) : ctlCount (readEvents c.busMode rs v) = perTransaction c := by
  unfold perTransaction
  cases c.busMode <;> rfl

/-- In step with a controller that is never busy, all settle delays returning. -/
structure Calm (s : State) : Prop where
  settle : s.env.delays.settle = .all
  bits : s.env.busyBits = []
  after : s.env.busyAfter = false
  inStep : s.env.inStep s.cfg = true

/-- `t` is a calm state `k` transactions after `s`, with the cursor where it was. -/
structure Spent (k : Nat) (s t : State) : Prop where
  calm : Calm t
  cfg : t.cfg = s.cfg
  cx : t.cx = s.cx
  cy : t.cy = s.cy
  count : ctlCount t.hist = ctlCount s.hist + k * perTransaction s.cfg

theorem Spent.refl {s : State} (h : Calm s) : Spent 0 s s := ⟨h, rfl, rfl, rfl, by simp⟩

theorem Spent.trans {j k : Nat} {s t u : State} (h : Spent j s t) (g : Spent k t u) : Spent (j + k) s u := by
  refine ⟨g.calm, g.cfg.trans h.cfg, g.cx.trans h.cx, g.cy.trans h.cy, ?_⟩
  rw [g.count, h.count, h.cfg, Nat.add_mul]
  omega

/-! ## The transactions -/

theorem write_spent {s : State} (rs : Level) (b : Byte) (h : Calm s) (hb : rs = true ∨ keepsWidth s.cfg b = true) :
    Spent 1 s (busWrite rs b s) := by
  obtain ⟨-, hbits, hafter, hdel, -⟩ := s.env.written_kept s.cfg rs b
  rw [busWrite_eq rs b h.settle]
  refine ⟨⟨?_, hbits.trans h.bits, hafter.trans h.after, Env.written_inStep h.inStep rs b hb⟩, rfl, rfl, rfl, ?_⟩
  · rw [← h.settle]
    exact congrArg Delays.settle hdel
  · rw [ctlCount_append, ctlCount_write, Nat.one_mul]

theorem draw_bits (v : Env) : v.draw.2.busyBits = v.busyBits := by
  obtain ⟨_, h⟩ := v.draw_eq
  rw [h]

theorem padLines_bits (m : BusMode) (n : Nibble) (v : Env) : (v.padLines m n).2.busyBits = v.busyBits := by
  cases m with
  | bus4 => rfl
  | bus8 => exact draw_bits v

/-- A strobe of a data read draws no busy flag (R66, R70). -/
theorem readStrobe_data_bits (c : Cfg) (part : Phase) (v : Env) : (v.readStrobe c true part).2.busyBits = v.busyBits := by
  have hend : ∀ w : Env, (w.endRead true).busyBits = w.busyBits := by
    intro w
    unfold Env.endRead
    split
    · rfl
    · split <;> rfl
  have hdata : ∀ w : Env, w.dataOrDraw.2.busyBits = w.busyBits := by
    intro w
    unfold Env.dataOrDraw
    split
    · rfl
    · exact draw_bits w
  rw [Env.readStrobe, hend]
  unfold Env.answer
  split
  · exact draw_bits v
  · rw [if_pos rfl]
    unfold Env.driveData
    split
    · exact hdata v
    · split <;> rw [padLines_bits, hdata]

theorem readOut_data_bits (c : Cfg) (v : Env) : (v.readOut c true).2.busyBits = v.busyBits := by
  unfold Env.readOut
  split <;> simp only [readStrobe_data_bits]

/-- A read leaves a controller that is never busy so. -/
theorem readOut_calm (rs : Level) {s : State} (h : Calm s) :
    (s.env.readOut s.cfg rs).2.busyBits = [] ∧ (s.env.readOut s.cfg rs).2.busyAfter = false ∧
      (s.env.readOut s.cfg rs).2.inStep s.cfg = true := by
  cases rs with
  | true =>
    obtain ⟨⟨-, -, hafter, -⟩, hin, -⟩ := Env.readOut_data h.inStep
    exact ⟨(readOut_data_bits _ _).trans h.bits, hafter.trans h.after, hin⟩
  | false =>
    obtain ⟨-, hin, n, hbits⟩ := Env.readOut_status_inStep h.inStep
    obtain ⟨_, _, _, _, _, hchange⟩ := Env.readOut_status_change s.cfg s.env
    exact ⟨by rw [hbits, h.bits]; rfl, by rw [hchange]; exact h.after, hin⟩

theorem read_spent {s : State} (rs : Level) (h : Calm s) : Spent 1 s (busRead rs s).2 := by
  obtain ⟨hbits, hafter, hin⟩ := readOut_calm rs h
  rw [busRead_eq rs h.settle]
  refine ⟨⟨by simpa using h.settle, hbits, hafter, hin⟩, rfl, rfl, rfl, ?_⟩
  rw [ctlCount_append, ctlCount_read, Nat.one_mul]

/-- Its first status read reads ready. -/
theorem statusRead_ready {s : State} (h : Calm s) : busyFlag (statusRead s).1 = false := by
  obtain ⟨hflag, -⟩ := Env.readOut_status_inStep h.inStep
  rw [statusRead_eq h.settle]
  exact hflag.trans (by rw [h.bits, h.after]; rfl)

/-! ## The micro-operations -/

/-- Where it completes it does so `k` transactions later. -/
def Ran.Costs {α : Type} (k : Nat) (s : State) (r : Ran α) : Prop := r.Leaves (Spent k s)

theorem Ran.Costs.bind {α β : Type} {j k : Nat} {s : State} {r : Ran α} {f : α → State → Ran β} (h : r.Costs j s)
    (g : ∀ a t, Spent j s t → (f a t).Costs k t) : (r.bind f).Costs (j + k) s :=
  Ran.Leaves.bind h fun a t ht b u hu => ht.trans (g a t ht b u hu)

theorem Ran.Costs.after {α : Type} {j k : Nat} {s t : State} {r : Ran α} (h : r.Costs k t) (ht : Spent j s t) :
    r.Costs (j + k) s := fun a u hu => ht.trans (h a u hu)

theorem wait_costs {s : State} (h : Calm s) : (waitUntilReady s).Costs 1 s := by
  have hrun : waitUntilReady s = .done () (statusRead s).2 := by
    show pollLoop (2 * s.env.busyBits.length + 2) s = _
    rw [pollLoop_succ _ h.settle, statusRead_ready h]
    rfl
  rw [hrun]
  exact leaves_done (read_spent false h)

theorem send_costs {s : State} (rs : Level) (b : Byte) (h : Calm s) (hb : rs = true ∨ keepsWidth s.cfg b = true) :
    (waitUntilReady (statusRead (busWrite rs b s)).2).Costs 3 s := by
  have hsent := (write_spent rs b h hb).trans (read_spent false (write_spent rs b h hb).calm)
  exact (wait_costs hsent.calm).after hsent

theorem sendCommand_costs {s : State} (b : Byte) (h : Calm s) (hb : keepsWidth s.cfg b = true) : (sendCommand b s).Costs 3 s :=
  send_costs false b h (.inr hb)

theorem sendData_costs {s : State} (b : Byte) (h : Calm s) : (sendData b s).Costs 3 s := send_costs true b h (.inl rfl)

theorem address_costs {s : State} (a : Addr7) (h : Calm s) : (sendCommand (setDdramByte a) s).Costs 3 s :=
  sendCommand_costs _ h (keepsWidth_setDdram _ a)

theorem storeAt_costs {s : State} (a : Addr7) (b : Byte) (h : Calm s) : (storeAt a b s).Costs 6 s :=
  (address_costs a h).bind fun _ _ ht => sendData_costs b ht.calm

theorem readDataRam_costs {s : State} (a : Addr7) (h : Calm s) : (readDataRam a s).Costs 5 s := by
  refine (address_costs a h).bind (k := 2) fun _ t ht => (wait_costs ht.calm).bind (k := 1) fun _ u hu => ?_
  rw [unlessStuck_all _ (read_spent true hu.calm).calm.settle]
  exact leaves_done (read_spent true hu.calm)

theorem atCell_costs {α : Type} {k x y : Nat} {s s' : State} {go : Addr7 → Ran α} (h : ∀ a, (go a).Costs k s') :
    (atCell x y s go).Costs k s' := atCell_leaves h

/-- A loop costs its rounds. -/
theorem forEach_costs {α : Type} {k : Nat} {body : α → State → Ran Unit} (items : List α)
    (h : ∀ i s, Calm s → (body i s).Costs k s) {s : State} (hs : Calm s) : (forEach items body s).Costs (items.length * k) s := by
  induction items generalizing s with
  | nil =>
    rw [List.length_nil, Nat.zero_mul]
    exact leaves_done (.refl hs)
  | cons i rest ih =>
    rw [List.length_cons, Nat.add_mul, Nat.one_mul, Nat.add_comm]
    exact (h i s hs).bind fun _ t ht => ih ht.calm

theorem rowCells_length (c : Cfg) (r : Nat) : (rowCells c r).length = c.xmax + 1 := by simp [rowCells]

theorem scrolledCells_length (c : Cfg) : (scrolledCells c).length = c.ymax * (c.xmax + 1) := by
  simp [scrolledCells, rowCells_length, List.length_flatMap]

theorem scrollUp_costs {s : State} (h : Calm s) (hrows : oneRow s.cfg = false) :
    (scrollUp s).Costs (11 * s.cfg.ymax * (s.cfg.xmax + 1) + 6 * (s.cfg.xmax + 1)) s := by
  have hcopy : ∀ cell u, Calm u → (copyUp cell u).Costs 11 u := fun cell u hu =>
    atCell_costs fun a => (readDataRam_costs a hu).bind fun b t ht => atCell_costs fun up => storeAt_costs up b ht.calm
  have hblank : ∀ cell u, Calm u → (blankCell cell u).Costs 6 u := fun cell u hu => atCell_costs fun a => storeAt_costs a _ hu
  unfold scrollUp
  rw [hrows, if_neg (by simp)]
  have hcells : 11 * s.cfg.ymax * (s.cfg.xmax + 1) = (scrolledCells s.cfg).length * 11 := by
    rw [scrolledCells_length, Nat.mul_assoc, Nat.mul_comm]
  rw [hcells]
  refine (forEach_costs (scrolledCells s.cfg) hcopy h).bind fun _ t ht => ?_
  have hrow : 6 * (s.cfg.xmax + 1) = (rowCells t.cfg t.cfg.ymax).length * 6 := by
    rw [rowCells_length, ht.cfg, Nat.mul_comm]
  rw [hrow]
  exact forEach_costs _ hblank ht.calm

theorem defineGlyph_costs {s : State} (code : BitVec 3) (rows : List Byte) (h : Calm s) :
    (defineGlyph code rows s).Costs (rows.length * 3 + 9) s := by
  have hread := read_spent false h
  have hsum : rows.length * 3 + 9 = 1 + (1 + (3 + (rows.length * 3 + (1 + 3)))) := by omega
  rw [hsum]
  refine Ran.Costs.after ?_ hread
  exact (wait_costs hread.calm).bind fun _ t ht =>
    (sendCommand_costs _ ht.calm (keepsWidth_setCgram _ code)).bind fun _ u hu =>
      (forEach_costs rows (fun b v hv => sendData_costs b hv) hu.calm).bind fun _ w hw =>
        (wait_costs hw.calm).bind fun _ x hx => address_costs _ hx.calm

/-! ## Putchar -/

/-- Where it completes it has made `k` transactions since `s`, the cursor aside. -/
def Ran.Makes {α : Type} (k : Nat) (s : State) (r : Ran α) : Prop :=
  r.Leaves fun t => ctlCount t.hist = ctlCount s.hist + k * perTransaction s.cfg

theorem Ran.Costs.makes {α : Type} {k : Nat} {s : State} {r : Ran α} (h : r.Costs k s) : r.Makes k s :=
  fun a t ht => (h a t ht).count

theorem calm_setCursor {s : State} (x y : Byte) (h : Calm s) : Calm (s.setCursor x y) := ⟨h.settle, h.bits, h.after, h.inStep⟩

/-- Putchar whose arm is one address command, from a cursor on the panel and to one there. -/
theorem putchar_moves_makes {s : State} {ch x y : Byte} (h : Calm s) (hcy : s.cy.toNat ≤ s.cfg.ymax) (hx : x.toNat ≤ s.cfg.xmax)
    (harm : ∀ a, putByte a ch s = addressCursor (s.setCursor x y)) : (putchar ch s).Makes 3 s := by
  unfold putchar
  rw [foldRow_none hcy]
  refine atCell_leaves fun a => ?_
  rw [harm]
  have haddr : (addressCursor (s.setCursor x y)).Costs 3 (s.setCursor x y) :=
    atCell_costs fun a => address_costs a (calm_setCursor x y h)
  refine Ran.Leaves.bind haddr fun _ t ht => ?_
  rw [wrap_none a (by rw [ht.cx, ht.cfg]; exact hx)]
  exact leaves_done ht.count

/-- Putchar of an ordinary byte: a store, and at the last column the address again. -/
theorem putchar_ordinary_makes {s : State} {ch : Byte} (h : Calm s) (hcx : s.cx.toNat ≤ s.cfg.xmax)
    (hcy : s.cy.toNat ≤ s.cfg.ymax) (hlf : ch ≠ 0x0A) (hcr : ch ≠ 0x0D) :
    (putchar ch s).Makes (if s.cx.toNat < s.cfg.xmax then 6 else 9) s := by
  have hone : (s.cx + 1).toNat = s.cx.toNat + 1 := toNat_add_one (by have := (geometry_bounds s.cfg).1; omega)
  unfold putchar
  rw [foldRow_none hcy]
  refine atCell_leaves fun a => ?_
  rw [putByte_ordinary a s hlf hcr]
  have hstore : (ordinary a ch s).Leaves fun u => ∃ t, Spent 6 s t ∧ u = t.setCursor (s.cx + 1) s.cy :=
    Ran.Leaves.bind (storeAt_costs a ch h) fun _ t ht => leaves_done ⟨t, ht, by rw [ht.cx, ht.cy]⟩
  refine Ran.Leaves.bind hstore fun _ u hu => ?_
  obtain ⟨t, ht, rfl⟩ := hu
  split
  · rw [wrap_none a (by rw [setCursor_cx, setCursor_cfg, ht.cfg]; omega)]
    exact leaves_done ht.count
  · have hwrap : wrap a (t.setCursor (s.cx + 1) s.cy) = sendCommand (setDdramByte a) (t.setCursor 0 (s.cy + 1)) := by
      rw [wrap, if_pos]
      · rfl
      · rw [pastColumn, setCursor_cx, setCursor_cfg, ht.cfg, decide_eq_true_eq]
        omega
    rw [hwrap]
    refine Ran.Leaves.bind (address_costs a (calm_setCursor 0 (s.cy + 1) ht.calm)) fun _ w hw => leaves_done ?_
    rw [hw.count, setCursor_cfg, setCursor_hist, ht.count, ht.cfg]
    omega

/-! ## INIT -/

theorem ctlCount_boot (c : Cfg) : ctlCount (bootEvents c) = if c.busMode = .bus8 then 15 else 19 := by
  unfold bootEvents
  cases c.busMode <;> rfl

theorem initStep3_costs {s : State} (h : Calm s) : (initStep3 s).Costs 9 s :=
  (sendCommand_costs _ h rfl).bind (k := 6) fun _ _ ht =>
    (sendCommand_costs _ ht.calm rfl).bind fun _ _ hu => sendCommand_costs _ hu.calm rfl

/-- INIT needs of its state that all settle delays return and the controller is never busy. -/
theorem initSequence_makes {s : State} (hs : s.env.delays.settle = .all) (hbits : s.env.busyBits = [])
    (hafter : s.env.busyAfter = false) :
    (initSequence s).Leaves fun t => ctlCount t.hist = ctlCount s.hist + if s.cfg.busMode = .bus8 then 51 else 73 := by
  rcases initSequence_runs hs with hn | heq
  · exact fun a t ht => (hn a t ht).elim
  · obtain ⟨-, hkbits, hkafter, hkdel, -⟩ := bootEnv_kept s.cfg s.env
    rw [heq]
    refine Ran.Leaves.bind (initStep3_costs ⟨?_, hkbits.trans hbits, hkafter.trans hafter, ?_⟩) fun _ t ht => leaves_done ?_
    · exact (congrArg Delays.settle hkdel).trans hs
    · exact bootEnv_inStep s.cfg s.env
    · refine ht.count.trans ?_
      show ctlCount (s.hist ++ bootEvents s.cfg) + 9 * perTransaction s.cfg = _
      rw [ctlCount_append, ctlCount_boot, perTransaction]
      split <;> omega

/-! ## The table -/

/-- A completed host operation makes the transactions its body makes once all settle delays return. -/
theorem exec_completed_makes {i : Instr} {s t : State} {k : Nat} (hi : i.space = .hostPacket) (h : exec i s = .next t)
    (ht : t.busyOp = false) (htr : transfers s.cfg i = true)
    (hbody : (opBody i { s.withSettle .all with busyOp := true }).Makes k { s.withSettle .all with busyOp := true }) :
    ctlCount t.hist = ctlCount s.hist + k * perTransaction s.cfg := by
  obtain ⟨r, u, hrun, -, hhist⟩ := exec_completed_body hi h ht htr
  rw [hhist]
  exact hbody r u hrun

/-- A completed bus transaction is one, whatever it found. -/
theorem exec_transaction_count {i : Instr} {s t : State} (hi : i.space = .busTransaction) (h : exec i s = .next t)
    (ht : t.busyOp = false) : ctlCount t.hist = ctlCount s.hist + perTransaction s.cfg := by
  have hstuck : t.stuck = false := by
    obtain ⟨-, u, -, ⟨hu, rfl⟩ | ⟨-, rfl⟩⟩ := exec_transaction hi h
    · exact hu
    · cases ht
  obtain ⟨-, u, hu, hend⟩ := exec_transaction hi (exec_unstuck (by simp [hi]) h hstuck)
  have hcount : ctlCount u.hist = ctlCount s.hist + perTransaction s.cfg := by
    rcases hu with ⟨rs, b, rfl⟩ | ⟨rs, rfl⟩
    · rw [busWrite_eq rs b rfl]
      exact (ctlCount_append _ _).trans (congrArg _ (ctlCount_write _ _ _))
    · rw [busRead_eq rs rfl]
      exact (ctlCount_append _ _).trans (congrArg _ (ctlCount_read _ _ _))
  have hhist : t.hist = u.hist := by
    rcases hend with ⟨-, heq⟩ | ⟨-, heq⟩ <;> exact congrArg (·.hist) heq
  rw [hhist, hcount]

/-- A line feed above the last row is one address command. -/
theorem putchar_lineFeed_makes {s : State} (h : Calm s) (hcx : s.cx.toNat ≤ s.cfg.xmax) (hcy : s.cy.toNat < s.cfg.ymax) :
    (putchar 0x0A s).Makes 3 s := by
  have hdown : (s.cy + 1).toNat = s.cy.toNat + 1 := toNat_add_one (by have := (geometry_bounds s.cfg).2; omega)
  have hcolumn : (if s.cfg.nlImpliesCr then (0 : Byte) else s.cx).toNat ≤ s.cfg.xmax := by
    split
    · exact Nat.zero_le _
    · exact hcx
  refine putchar_moves_makes h hcy.le hcolumn (y := s.cy + 1) fun a => ?_
  rw [putByte_lf, lineFeed, foldRow_none (by rw [setCursor_cy, setCursor_cfg]; omega)]
  rfl

/-- Settles O59: INIT by its own count; what is put on a row of the panel by its arm; the others by their transactions. -/
theorem eventCounts : Obligations.EventCounts := by
  intro i s t hbits hafter hin hc h ht perT n
  have hcalm : Calm { s.withSettle .all with busyOp := true } := ⟨rfl, hbits, hafter, hin⟩
  obtain ⟨-, hcx, -⟩ := (cursorOk_iff_rest s).1 hc
  have row : i.space = .controllerCommand → t.hist = s.hist := by
    intro hi
    obtain ⟨k, hk⟩ := exec_command s hi
    rw [hk] at h
    cases h
    rfl
  cases i with
  | cmdClear | cmdEntryInc | cmdDisplay | cmdFs8 | fsReal | cmdSetCgram | cmdSetDdram => exact row rfl
  | commandWrite | dataWrite | statusRead | dataRead => exact exec_transaction_count rfl h ht
  | clear => exact exec_completed_makes rfl h ht rfl (noResult_leaves (sendCommand_costs _ hcalm (keepsWidth_clear _)).makes)
  | cursor c b =>
    exact exec_completed_makes rfl h ht rfl (noResult_leaves (sendCommand_costs _ hcalm (keepsWidth_display _ c b)).makes)
  | intensity l =>
    exact exec_completed_makes rfl h ht rfl (noResult_leaves (sendCommand_costs _ hcalm (keepsWidth_functionSet _ l)).makes)
  | locate x y =>
    exact exec_completed_makes rfl h ht rfl
      (noResult_leaves (atCell_leaves fun a => (address_costs a (calm_setCursor x y hcalm)).makes))
  | readchar x y =>
    exact exec_completed_makes rfl h ht rfl (withResult_leaves (atCell_leaves fun a => (readDataRam_costs a hcalm).makes))
  | readram a => exact exec_completed_makes rfl h ht rfl (withResult_leaves (readDataRam_costs a hcalm).makes)
  | defglyph code => exact exec_completed_makes rfl h ht rfl (noResult_leaves (defineGlyph_costs code _ hcalm).makes)
  | scroll =>
    intro hrows
    have hone : oneRow s.cfg = false := by simpa [oneRow] using hrows.ne'
    have htr : transfers s.cfg .scroll = true := by rw [transfers, hone]; rfl
    exact exec_completed_makes rfl h ht htr (noResult_leaves (scrollUp_costs hcalm hone).makes)
  | init =>
    obtain ⟨r, u, hrun, -, hhist⟩ := exec_completed_body rfl h ht rfl
    rw [hhist]
    exact noResult_leaves (initSequence_makes hcalm.settle hbits hafter) r u hrun
  | puts text =>
    rintro rfl
    rw [exec_quiet rfl h rfl]
  | putc ch =>
    intro hcy
    have putc : ∀ {k}, (putchar ch { s.withSettle .all with busyOp := true }).Makes k { s.withSettle .all with busyOp := true } →
        ctlCount t.hist = ctlCount s.hist + k * perT :=
      fun hput => exec_completed_makes rfl h ht rfl (withResult_leaves hput)
    split
    next hlf =>
      subst hlf
      exact fun hrow => putc (putchar_lineFeed_makes hcalm hcx hrow)
    next hlf =>
      split
      next hcr =>
        subst hcr
        exact putc (putchar_moves_makes hcalm hcy (Nat.zero_le _) fun a => putByte_cr a _)
      next hcr => exact putc (putchar_ordinary_makes hcalm hcx hcy hlf hcr)

end Sys2Proof.Machine
end
